-- ==== Sys2Proof/Word.lean ====
section
/-! DEFINITION. The word types of the Zarpel 7160 and their plainest arithmetic. -/

namespace Sys2Proof

/-- One byte of Show Memory (00_scope: the host may write single bytes). -/
abbrev Byte := BitVec 8

/-- A 32-bit word (00_scope: "A word is 32 bits, little-endian"). -/
abbrev Word := BitVec 32

/-- The 32-bit word that holds a number, taken modulo 2^32 (00_scope, Counts and marks). -/
def toWord (n : Nat) : Word := BitVec.ofNat 32 n

/-- The two's complement word of a signed number. -/
def intWord (z : Int) : Word := BitVec.ofInt 32 z

/-- Exact quotient rounded up, as the manual's "ceil". -/
def ceilDiv (a b : Nat) : Nat := (a + b - 1) / b

/-- A number lowered to the top of its range. -/
def capAt (top n : Nat) : Nat := if top < n then top else n

/-- A signed number clamped into a range, both ends included. -/
def clampInt (lo hi z : Int) : Int := if z < lo then lo else if hi < z then hi else z

end Sys2Proof
end

