-- ==== Sys2Proof/Syntax.lean ====
section
/-! DEFINITION. The commands of the 7160: one constructor of `Instr` for each row of
spec/opcode_table.json, with the data each command carries. The table gives its rows no bits;
the operands are read from the rules the rows name. -/

namespace Sys2Proof

/-! ## Pictures -/

/-- A pixel: three components, each 0..255 (R13). -/
structure Pixel where
  c0 : Byte
  c1 : Byte
  c2 : Byte
  deriving DecidableEq, Repr

/-- Black: all components 0 (R13). -/
def Pixel.black : Pixel := ⟨0, 0, 0⟩

/-- A picture as data. `raster` lists the pixels row by row from the top left; `blend a b phi` is the
weighted mean of two pictures of R124; `solid` is one colour everywhere. -/
inductive Picture where
  | solid (p : Pixel)
  | raster (width : Nat) (pixels : List Pixel)
  | blend (a b : Picture) (phi : Nat)
  deriving DecidableEq, Repr

/-! ## Names of the parts of the machine -/

/-- The two drawing surfaces (00_scope, Canvases). -/
inductive Canvas where
  | main
  | ribbon
  deriving DecidableEq, Repr

/-- The two clocks (R128). -/
inductive ClockId where
  | game
  | aux
  deriving DecidableEq, Repr

/-- The two flashing items of the score record (R146). -/
inductive Side where
  | home
  | guest
  deriving DecidableEq, Repr

/-- The five desks (R169, R173). -/
inductive Desk where
  | plan
  | replay
  | rotation
  | clock
  | message
  deriving DecidableEq, Repr

/-- The frame rate a camera stream declares (R88). -/
inductive StreamRate where
  | fps50
  | fps5994
  | fps60
  | other
  deriving DecidableEq, Repr

/-- A camera frame at its arrival: the format the stream declares for it, and its picture (R88). -/
structure CameraFrame where
  width : Nat
  height : Nat
  progressive : Bool
  rate : StreamRate
  picture : Picture
  deriving DecidableEq, Repr

/-- What a segment's health report says (R38). -/
inductive HealthSays where
  | ok
  | fault
  deriving DecidableEq, Repr

/-- Which pin applies a hard reset (R1). -/
inductive ResetPin where
  | hreset
  | perst
  deriving DecidableEq, Repr

/-- How an input's loss of signal comes about (R88): its silence timer expires, or its receiver
reports loss of lock `dt` reference periods after the latest timed event. -/
inductive SignalLoss where
  | timer
  | receiver (dt : Nat)
  deriving DecidableEq, Repr

/-- A host write to Show Memory: an aligned 32-bit word, named by its word index, or a single byte,
named by its address (00_scope, Show Memory words and host access). Show Memory is 2^26 bytes. -/
inductive HostWrite where
  | word (index : BitVec 24) (value : Word)
  | byte (address : BitVec 26) (value : Byte)
  deriving DecidableEq, Repr

/-! ## Card parameters, as the cards carry them

Every field is a number as read from the card's bytes; the owner's rule checks it. -/

/-- A zone record of a POST_PLAN card (R14). -/
structure ZoneRec where
  id : Nat
  canvas : Nat
  rank : Nat
  kind : Nat
  x : Nat
  y : Nat
  w : Nat
  h : Nat
  source : Nat
  cover : Nat
  vis : Nat
  yields : Nat
  transition : Nat
  fade : Nat
  deriving DecidableEq, Repr

/-- POST_PLAN: the zone count and the records within it (R14). -/
structure PlanCue where
  count : Nat
  recs : List ZoneRec
  deriving DecidableEq, Repr

/-- SHOW_ZONE and HIDE_ZONE: zone id, override code, fade length (R174's layout note, R24). -/
structure ZoneCue where
  zone : Nat
  override : Nat
  len : Nat
  deriving DecidableEq, Repr

/-- SET_SECTION (R42). -/
structure SectionCue where
  canvas : Nat
  sect : Nat
  action : Nat
  segment : Nat
  deriving DecidableEq, Repr

/-- SET_INPUT (R90). -/
structure InputCue where
  input : Nat
  action : Nat
  bay : Nat
  deriving DecidableEq, Repr

/-- MARK_CLIP (R106). -/
structure MarkCue where
  input : Nat
  range : Nat
  inPoint : Nat
  outPoint : Nat
  keep : Nat
  deriving DecidableEq, Repr

/-- KEEP_CLIP (R111). -/
structure KeepCue where
  clip : Nat
  action : Nat
  post : Word
  frames : Nat
  deriving DecidableEq, Repr

/-- DROP_CLIP (R112). -/
structure DropClipCue where
  clip : Nat
  post : Word
  deriving DecidableEq, Repr

/-- CUE_HEAD (R117). -/
structure CueHeadCue where
  head : Nat
  clip : Nat
  blend : Nat
  start : Nat
  post : Word
  frame : Nat
  deriving DecidableEq, Repr

/-- PLAY (R118). -/
structure PlayCue where
  head : Nat
  loop : Nat
  rate : Int
  deriving DecidableEq, Repr

/-- SET_RATE (R118). -/
structure RateCue where
  head : Nat
  rate : Int
  deriving DecidableEq, Repr

/-- SET_GROUP: the ids within the count (R68). -/
structure GroupCue where
  group : Nat
  mode : Nat
  count : Nat
  ids : List Nat
  deriving DecidableEq, Repr

/-- SET_ENTRY (R62). -/
structure EntryCue where
  entry : Nat
  image : Nat
  dwell : Nat
  quota : Nat
  category : Nat
  enabled : Nat
  keepMeter : Nat
  deriving DecidableEq, Repr

/-- LOAD_IMAGE (R82). -/
structure LoadCue where
  image : Nat
  width : Nat
  height : Nat
  first : Nat
  pages : Nat
  deriving DecidableEq, Repr

/-- CLOCK_SETUP (R138). -/
structure ClockSetupCue where
  clock : Nat
  source : Nat
  direction : Nat
  horn : Nat
  tenths : Nat
  hornLength : Nat
  comp : Nat
  deriving DecidableEq, Repr

/-- CLOCK_SET (R139). -/
structure ClockSetCue where
  clock : Nat
  value : Nat
  deriving DecidableEq, Repr

/-- SCORE (R145). -/
structure ScoreCue where
  home : Nat
  guest : Nat
  period : Nat
  possession : Nat
  c0 : Nat
  c1 : Nat
  c2 : Nat
  c3 : Nat
  deriving DecidableEq, Repr

/-- MESSAGE: the codes within the text length (R152). -/
structure MessageCue where
  cls : Nat
  mode : Nat
  speed : Nat
  hold : Nat
  repeats : Nat
  mask : Nat
  expiry : Word
  linked : Nat
  length : Nat
  text : List Byte
  deriving DecidableEq, Repr

/-! ## What a frame mark meets -/

/-- The pieces of a mark's work whose order among themselves the manual leaves open (R24, R76, R84,
R110, R152, R189): the keep timers of clips, the work of the five desks' owners, and the ending of
airings whose dwell is complete. -/
inductive MarkTask where
  | clips
  | plan
  | replay
  | rotation
  | clock
  | messages
  | dwell
  deriving DecidableEq, Repr

/-- What the surroundings settle at one frame mark: the order in which the open pieces of work are
taken (a piece not named follows in the standing order), which head's reads come first (R125), and
the stored frames, by input and number, in which a read at this mark finds an error it cannot
correct (R101). It names frames and not reads: a frame that both heads read at one mark fails at the first of its reads
or at neither, though R101 checks each read by itself (DESIGN CHOICE, log entry 44). -/
structure MarkInput where
  order : List MarkTask
  headBFirst : Bool
  uncorrectable : List (Nat × Nat)
  deriving DecidableEq, Repr

/-! ## The commands -/

/-- One constructor per row of spec/opcode_table.json. `dt` is the number of reference periods
passed since the latest timed event; a card command names the desk slot and post number of its
card. -/
inductive Instr where
  /-- POWER_ON (R188): the three straps, and what Show Memory happens to hold, which the manual calls
  undefined. -/
  | powerOn (frate1 frate0 gensel : Bool) (contents : List Host.Cell)
  /-- HARD_RESET (R1). -/
  | hardReset (pin : ResetPin) (frate1 frate0 gensel : Bool)
  /-- SOFT_RESET (R187): a RUN_CONTROL write with bit 1 set; bit 0 is not used. -/
  | softReset (bit0 : Bool)
  /-- RUN (R186): a RUN_CONTROL write with bit 1 clear. -/
  | run (bit0 : Bool)
  /-- CAUSE_WRITE (R191). -/
  | causeWrite (value : Word)
  /-- CAUSE_MASK_WRITE (R192). -/
  | causeMaskWrite (value : Word)
  /-- REGISTER_WRITE_OTHER (R185): any other access to the register window: its byte offset, its width
  in bytes and the value. -/
  | registerWriteOther (offset width : Nat) (value : Word)
  /-- HOST_WRITE (R184). -/
  | hostWrite (w : HostWrite)
  /-- REFERENCE_LOST (R3). -/
  | referenceLost (dt : Nat)
  /-- SYNTHESISER_LOCK (R2): the first frame begins at once, so the first mark's surroundings come
  with it. -/
  | synthesiserLock (dt : Nat) (mark : MarkInput)
  /-- FRAME_MARK (R4). -/
  | frameMark (mark : MarkInput)
  /-- MS_TICK (R10): whether the silence count is taken before the clocks at this tick. -/
  | msTick (silenceFirst : Bool)
  /-- HOUSE_SYNC_PULSE (R5): whether the reference is present at the pulse. -/
  | houseSyncPulse (reference : Bool) (dt : Nat)
  /-- SYNC_LOSS_EXPIRY (R5). -/
  | syncLossExpiry
  /-- HEALTH_REPORT (R38): the link it arrives on, the position it names, what it says, and whether
  its check holds. -/
  | healthReport (link position : Nat) (report : HealthSays) (checkOk : Bool)
  /-- SEGMENT_HEALTH_CHANGE (R39): the segment, MAIN 0..15 then RIBBON 16..83. -/
  | segmentHealthChange (segment : Nat)
  /-- FRAME_ARRIVAL (R88). -/
  | frameArrival (dt input : Nat) (frame : CameraFrame)
  /-- CAPTURE_RESUME (R97). -/
  | captureResume (dt input : Nat) (picture : Picture)
  /-- NUMBERS_EXHAUSTED (R92). -/
  | numbersExhausted (dt input : Nat) (picture : Picture)
  /-- LOSS_OF_SIGNAL (R89). -/
  | lossOfSignal (input : Nat) (cause : SignalLoss)
  /-- OPEN_CLIP_CLOSE (R109): the arrival that numbers the clip's last frame. -/
  | openClipClose (dt clip : Nat) (picture : Picture)
  /-- CLIP_EXPIRY (R110). -/
  | clipExpiry (clip : Nat)
  /-- CLOCK_WORD (R132). -/
  | clockWord (dt : Nat) (clock : ClockId) (running : Bool) (value : BitVec 24)
  /-- HORN_WORD (R134). -/
  | hornWord (dt : Nat) (length : BitVec 16)
  /-- PERIOD_WORD (R134): a valid word carries a period 1..9, here 0..8 with 1 to be added. -/
  | periodWord (dt : Nat) (period : Fin 9)
  /-- WORD_DISCARD (R130, R129): the byte at whose reception the word is discarded. -/
  | wordDiscard (dt : Nat) (value : Byte) (framingOk : Bool)
  /-- INTER_BYTE_GAP (R129). -/
  | interByteGap
  /-- CONSOLE_SILENCE_EXPIRY (R131). -/
  | consoleSilenceExpiry
  /-- CLOCK_EXPIRY (R135). -/
  | clockExpiry (clock : ClockId)
  /-- CLOCK_LIMIT_REACHED (R135). -/
  | clockLimitReached (clock : ClockId)
  /-- HORN_RELEASE (R144). -/
  | hornRelease
  /-- FLASH_END (R146). -/
  | flashEnd (side : Side)
  /-- FADE_END (R23): the zone's id. -/
  | fadeEnd (zone : Nat)
  /-- ADOPTION (R19). -/
  | adoption
  /-- DWELL_COMPLETE (R75): the id of the airing's zone. -/
  | dwellComplete (zone : Nat)
  /-- HOLD_LIMIT (R75): the id of the airing's zone. -/
  | holdLimit (zone : Nat)
  /-- LOAD_COMPLETE (R83). -/
  | loadComplete
  /-- PASS_COMPLETE (R160): a lane of the pass. -/
  | passComplete (lane : Nat)
  /-- MESSAGE_EXPIRY (R161): the desk slot of the card. -/
  | messageExpiry (slot : Nat)
  /-- URGENT_TAKEOVER (R162). -/
  | urgentTakeover
  /-- LANE_ASSIGNMENT (R157): the lane. -/
  | laneAssignment (lane : Nat)
  /-- POST_PLAN (R15). -/
  | postPlan (slot : Nat) (post : Word) (cue : PlanCue)
  /-- SHOW_ZONE (R24). -/
  | showZone (slot : Nat) (post : Word) (cue : ZoneCue)
  /-- HIDE_ZONE (R25). -/
  | hideZone (slot : Nat) (post : Word) (cue : ZoneCue)
  /-- SET_SECTION (R42). -/
  | setSection (slot : Nat) (post : Word) (cue : SectionCue)
  /-- SET_INPUT (R90). -/
  | setInput (slot : Nat) (post : Word) (cue : InputCue)
  /-- MARK_CLIP (R106). -/
  | markClip (slot : Nat) (post : Word) (cue : MarkCue)
  /-- KEEP_CLIP (R111). -/
  | keepClip (slot : Nat) (post : Word) (cue : KeepCue)
  /-- DROP_CLIP (R112). -/
  | dropClip (slot : Nat) (post : Word) (cue : DropClipCue)
  /-- CUE_HEAD (R117). -/
  | cueHead (slot : Nat) (post : Word) (cue : CueHeadCue)
  /-- PLAY (R118). -/
  | play (slot : Nat) (post : Word) (cue : PlayCue)
  /-- SET_RATE (R118). -/
  | setRate (slot : Nat) (post : Word) (cue : RateCue)
  /-- PAUSE (R119): the head code. -/
  | pause (slot : Nat) (post : Word) (head : Nat)
  /-- STOP_HEAD (R119): the head code. -/
  | stopHead (slot : Nat) (post : Word) (head : Nat)
  /-- SET_GROUP (R68). -/
  | setGroup (slot : Nat) (post : Word) (cue : GroupCue)
  /-- SET_ENTRY (R63). -/
  | setEntry (slot : Nat) (post : Word) (cue : EntryCue)
  /-- DROP_ENTRY (R65): the entry. -/
  | dropEntry (slot : Nat) (post : Word) (entry : Nat)
  /-- LOAD_IMAGE (R82). -/
  | loadImage (slot : Nat) (post : Word) (cue : LoadCue)
  /-- CLOCK_SETUP (R138). -/
  | clockSetup (slot : Nat) (post : Word) (cue : ClockSetupCue)
  /-- CLOCK_SET (R139). -/
  | clockSet (slot : Nat) (post : Word) (cue : ClockSetCue)
  /-- CLOCK_RUN (R140): the clock code. -/
  | clockRun (slot : Nat) (post : Word) (clock : Nat)
  /-- CLOCK_STOP (R140): the clock code. -/
  | clockStop (slot : Nat) (post : Word) (clock : Nat)
  /-- SCORE (R145). -/
  | score (slot : Nat) (post : Word) (cue : ScoreCue)
  /-- MESSAGE (R152). -/
  | message (slot : Nat) (post : Word) (cue : MessageCue)
  /-- CONSOLE_BYTE (R129). -/
  | consoleByte (dt : Nat) (value : Byte) (framingOk : Bool)
  deriving DecidableEq, Repr

end Sys2Proof
end

