-- ==== Sys2Proof/Config.lean ====
section
/-! DEFINITION. The fixed numbers of the 7160 and the values its manual leaves open. -/

namespace Sys2Proof.Config

/-! ## Free values: no body, so nothing can be proved of which value they have -/

/-- The frame slot (0..5,119) in which a ring allocation keeps the frame at a position of a bay: the
manual fixes neither the allocation nor its order (R90), and the host meets it only in the error
location (R102). The first number names the ring allocation. FREE VALUE, log entry 3. -/
opaque frameSlot : Nat → Nat → Nat → Fin 5120

/-- The k-th result value that the manual does not state (R24, the refusals of a STILL zone).
FREE VALUE, log entry 4. -/
opaque unstatedResult : Nat → Word

/-- What the bits of a register that its row of 10.10 does not list read as, by offset.
FREE VALUE, log entry 5. -/
opaque unlistedBits : Nat → Word

/-- Whether a read mark equally far from both ends of its range is taken as the older end: the manual says only
the nearer end (R79, R189). By the write count and the mark. FREE VALUE, log entry 7. -/
opaque tieIsOlder : Word → Word → Bool

/-! ## Fixed numbers -/

/-- Reference periods of one ms tick (R10). -/
def msPeriods : Nat := 27000

/-- Reference periods of the longest gap within a console word, 4 ms (R129). -/
def gapPeriods : Nat := 108000

/-- Pages of Show Memory (10.1). -/
def pages : Nat := 16384

/-- Bytes of a page (10.1). -/
def pageBytes : Nat := 4096

/-- Blocks of the image bank (R81). -/
def bankBlocks : Nat := 32768

/-- Frame slots of the frame store (R90). -/
def frameSlots : Nat := 5120

/-- Cards the message queue holds (R153). -/
def queueCards : Nat := 48

/-- Cards taken from one desk at one mark (R178). -/
def takeLimit : Nat := 8

/-- Bad or good frames in a row that turn a segment, less one (R39). -/
def runLimit : Nat := 29

/-- Silence that loses the console line, in ms (R131). -/
def silenceLimit : Nat := 500

/-- The top of an UP clock's range (R128). -/
def upTop : Nat := 11999999

/-- The top of a DOWN clock's range (R128). -/
def downTop : Nat := 5999999

/-- The top of a 32-bit saturating count. -/
def countTop : Nat := 4294967295

/-- The last frame number of an input (R92). -/
def lastNumber : Nat := 4294967295

/-- The top of a meter (R58). -/
def meterTop : Int := 2147483647

/-- The longest keep of a clip (R105). -/
def keepTop : Nat := 2160000

end Sys2Proof.Config
end

