-- ==== Sys2Proof/Machine/State.lean ====
section
/-! DEFINITION. The state of the 7160, block by block, and the state after reset. Every piece is
plain data; INVENTORY.md lists each with the rule that names it. -/

namespace Sys2Proof.Machine

/-! ## Outcomes -/

/-- The manual gives no step of the part that stops it: an event that is not due has not come
about, and a command the part does not act on changes nothing. So there is no fault. -/
inductive Fault where
  deriving DecidableEq, Repr

/-- Why a command has no meaning here. -/
inductive Refusal where
  /-- Raised only by an arm of `exec` whose command has not been given its meaning; no arm is
  so left. Safe: the run stops. -/
  | notModelled (mnemonic : String)
  deriving DecidableEq, Repr

/-! ## Timebase (chapter 1) -/

/-- The strapped frame rate (R1). -/
inductive Rate where
  | fps50
  | fps5994
  | fps60
  deriving DecidableEq, Repr

/-- Genlock states (1.4), with the subject codes of R9 in this order. -/
inductive Genlock where
  | freeRun
  | locking
  | locked
  | holdover
  deriving DecidableEq, Repr

/-- Timebase state (chapter 1). `syncTimer` is none while sync is absent; `sincePulse` is none while
the next pulse has no predecessor (R5). -/
structure Timebase where
  rate : Rate
  genlockEnable : Bool
  /-- The reference clock is present (R2). -/
  reference : Bool
  /-- The synthesiser is LOCKED (R2). -/
  synthLocked : Bool
  genlock : Genlock
  /-- The correction e (R7). -/
  correction : Int
  syncTimer : Option Nat
  sincePulse : Option Nat
  lockCount : Nat
  /-- Length of the frame in progress (R4). -/
  frameLength : Nat
  /-- Reference periods since the latest frame mark (R7). -/
  sinceMark : Nat
  /-- Reference periods since the latest ms tick, or since synthesiser lock (R10). -/
  sinceMs : Nat
  /-- The reference was lost and the first mark after relock has not come (R3, R9). -/
  relocking : Bool
  deriving DecidableEq, Repr

/-! ## Sections and panel links (chapter 3) -/

/-- Health of a segment with its run count (R39). -/
structure SegHealth where
  live : Bool
  runCount : Nat
  deriving DecidableEq, Repr

/-- What a report buffer holds for the frame in progress (R38). -/
inductive Report where
  | ok
  | fault
  | absent
  deriving DecidableEq, Repr

/-- Section states, with the result codes of R42 in this order. -/
inductive SectionState where
  | live
  | dead
  | out
  deriving DecidableEq, Repr

/-- Section table, segment map, segment health, report buffers, the states of the sections for the
frame in progress, and what each segment was sent at the latest mark (chapter 3). Segments are
numbered MAIN 0..15 and then RIBBON 16..83; sections by their table index 0..79 (R35). -/
structure Sections where
  forced : List Bool
  map : List Nat
  health : List SegHealth
  buffer : List Report
  states : List SectionState
  /-- The section whose pixels each segment was sent at the latest mark; none is black (R36). -/
  feeds : List (Option Nat)
  deriving DecidableEq, Repr

/-! ## Show Memory Port, Desk Reader, notices and the interrupt (chapters 10 and 11) -/

/-- Run states (R11). -/
inductive RunState where
  | config
  | running
  deriving DecidableEq, Repr

/-- Layout results, with the codes of the part page (R172) in this order. -/
inductive LayoutResult where
  | notValidated
  | ok
  | badRange
  | areaSmall
  | badCanvas
  | badThreshold
  deriving DecidableEq, Repr

/-- A range of pages: first page and count. -/
structure PageRange where
  first : Nat
  count : Nat
  deriving DecidableEq, Repr

/-- Canvas sizes in force (R13). -/
structure Sizes where
  mainW : Nat
  mainH : Nat
  ribbonW : Nat
  ribbonH : Nat
  deriving DecidableEq, Repr

/-- The thresholds F and U (R46). -/
structure Thresholds where
  floor : Nat
  full : Nat
  deriving DecidableEq, Repr

/-- Desk Reader state of one desk (chapter 10). `rescan`: slots remain POSTED from an earlier limit (R176, R179). -/
structure DeskState where
  seen : Word
  last : Word
  done : Word
  held : List Nat
  rescan : Bool
  deriving DecidableEq, Repr

/-- The five desks' states. -/
structure Desks where
  plan : DeskState
  replay : DeskState
  rotation : DeskState
  clock : DeskState
  message : DeskState
  deriving DecidableEq, Repr

/-- The messages of the interrupt on the PCIe link (R192). -/
inductive IrqMessage where
  | assert
  | release
  deriving DecidableEq, Repr

/-- The latched members of CAUSE (R191). -/
structure Latches where
  deskDone : Bool
  pageFault : Bool
  layoutBad : Bool
  horn : Bool
  deriving DecidableEq, Repr

/-- Show Memory, the run state, the registers, the page locks, the desks' counts, the log and notice
counts and the interrupt (chapters 10 and 11; run state and show tick of chapter 1). -/
structure Port where
  /-- Show Memory: the bytes that differ from the byte an unlisted address reads as, by rising
  address. -/
  mem : List Host.Cell
  runState : RunState
  runRequest : Bool
  showTick : Word
  /-- The eleven areas in force, by index (R169). -/
  areas : Option (List PageRange)
  sizes : Option Sizes
  thresholds : Option Thresholds
  result : LayoutResult
  resultArea : Nat
  /-- Page ranges whose part lock is set (R183). -/
  partLocks : List PageRange
  /-- One range for each load in flight: a page's load lock count is the number of them that
  hold it (R183). -/
  loadLocks : List PageRange
  faultPage : Nat
  latches : Latches
  noticeWaiting : Bool
  logWaiting : Bool
  mask : BitVec 6
  /-- The interrupt is asserted (R192). -/
  irq : Bool
  /-- The interrupt messages sent, oldest first (R192). -/
  messages : List IrqMessage
  desks : Desks
  logWrite : Word
  logFull : Bool
  noticeWrite : Word
  overrun : Bool
  /-- The write counts are in force: set at entry, cleared by every reset (R191). -/
  countsInForce : Bool
  /-- The model's own: how many unstated result values have been drawn. -/
  unstated : Nat
  deriving DecidableEq, Repr

/-! ## Board Compositor and Exposure Meter Unit (chapters 2 and 4) -/

/-- A rectangle of pixels: column and row of its top left pixel, width and height. -/
structure Rect where
  x : Nat
  y : Nat
  w : Nat
  h : Nat
  deriving DecidableEq, Repr

/-- Zone kinds, with their codes in this order (R14). -/
inductive ZoneKind where
  | live
  | replay
  | placement
  | clock
  | score
  | message
  | still
  deriving DecidableEq, Repr

/-- A validated zone record (R14). `fade` is none for CUT. -/
structure Zone where
  id : Nat
  canvas : Canvas
  rect : Rect
  rank : Nat
  kind : ZoneKind
  source : Nat
  sheer : Bool
  startShown : Bool
  yields : Bool
  fade : Option Nat
  deriving DecidableEq, Repr

/-- A zone's visibility; a fade has its step and its length (R23). -/
inductive Visibility where
  | hidden
  | fadingIn (step len : Nat)
  | shown
  | fadingOut (step len : Nat)
  deriving DecidableEq, Repr

/-- Zone runtime (R23, R28). `fresh` marks a fade whose step for the frame being begun is already
settled: it was started or reversed at this mark. -/
structure ZoneRun where
  zone : Zone
  vis : Visibility
  yielded : Bool
  fresh : Bool
  deriving DecidableEq, Repr

/-- The active plan with the card that carried it (chapter 2). -/
structure ActivePlan where
  zones : List ZoneRun
  slot : Nat
  post : Word
  deriving DecidableEq, Repr

/-- The staged plan (R17). -/
structure StagedPlan where
  zones : List Zone
  slot : Nat
  post : Word
  deriving DecidableEq, Repr

/-- One glyph as placed in a zone: its first column from the zone's left edge, its advance, how many of its
columns belong to the text drawn (R159), and its bitmap bytes, none where it is drawn blank (R151). -/
structure PlacedGlyph where
  x : Int
  advance : Nat
  drawn : Nat
  bits : List Byte
  deriving DecidableEq, Repr

/-- The content of one zone for one frame (R30, R31, R32). -/
inductive Content where
  | black
  /-- A 1920 × 1080 frame fitted to the zone's width and height (R30). -/
  | fitted (p : Picture) (w h : Nat)
  /-- An image of the given size, unscaled (R31). -/
  | image (p : Picture) (w h : Nat)
  /-- Glyphs of the given height in the given ink (R151). -/
  | glyphs (ink : Pixel) (height : Nat) (gs : List PlacedGlyph)
  deriving DecidableEq, Repr

/-- One zone as drawn in a frame (R29). -/
structure Layer where
  rect : Rect
  alpha : Nat
  sheer : Bool
  content : Content
  deriving DecidableEq, Repr

/-- One composed frame: the canvas size and the layers drawn over black, lowest first (R29). -/
structure Frame where
  width : Nat
  height : Nat
  layers : List Layer
  deriving DecidableEq, Repr

/-- Board Compositor state (chapter 2) and the frames composed at the latest mark (R13). -/
structure Compositor where
  active : Option ActivePlan
  staged : Option StagedPlan
  urgentYield : Bool
  mainFrame : Frame
  ribbonFrame : Frame
  deriving DecidableEq, Repr

/-- What the Exposure Meter Unit holds for a measured zone (chapter 4). -/
structure Measure where
  zone : Nat
  area : Nat
  visible : Nat
  permille : Nat
  base : Nat
  deriving DecidableEq, Repr

/-! ## Placement Rotator (chapter 5) -/

/-- A SET entry (R61). -/
structure Entry where
  image : Nat
  dwell : Nat
  quota : Nat
  category : Nat
  enabled : Bool
  meter : Int
  onAir : Nat
  airings : Nat
  deriving DecidableEq, Repr

/-- A group that is set (R67). `seen` is the dwell mode SEEN. -/
structure Group where
  ids : List Nat
  seen : Bool
  cursor : Option Nat
  deriving DecidableEq, Repr

/-- An open airing (R73). -/
structure Airing where
  zone : Nat
  entry : Nat
  group : Nat
  seen : Bool
  dwell : Nat
  start : Word
  shown : Nat
  credited : Nat
  credits : Nat
  number : Nat
  deriving DecidableEq, Repr

/-- An image slot (R81). -/
inductive BankSlot where
  | empty
  | loading (blocks : Nat)
  | ready (width height blocks : Nat) (picture : Picture)
  deriving DecidableEq, Repr

/-- A load in flight (R83): its card's desk slot, its image slot and size, its pages, the image as the
staging pages held it at take, and the frames of copying still to come once it is the head. -/
structure Load where
  deskSlot : Nat
  image : Nat
  width : Nat
  height : Nat
  pages : PageRange
  blocks : Nat
  picture : Picture
  framesLeft : Nat
  deriving DecidableEq, Repr

/-- Placement Rotator state (chapter 5); the log counts stand in the Port. -/
structure Rotator where
  entries : List (Option Entry)
  edits : List Word
  groups : List (Option Group)
  airings : List Airing
  bank : List BankSlot
  queue : List Load
  deriving DecidableEq, Repr

/-! ## Capture Unit (chapter 6) -/

/-- Input states, with the result codes of R90 in this order. -/
inductive InputState where
  | off
  | seeking
  | mismatch
  | capturing
  | starved
  deriving DecidableEq, Repr

/-- Bay states (R93). -/
inductive BayState where
  | empty
  | filling
  | filled
  deriving DecidableEq, Repr

/-- A bay record (R93, R98) with the frames it holds; `damaged` lists the positions under a damage
mark. -/
structure Bay where
  state : BayState
  first : Nat
  pending : Nat
  kept : Nat
  damaged : List Nat
  frames : List Picture
  deriving DecidableEq, Repr

/-- One camera input (chapter 6). `next` is 4,294,967,296 when the numbers are exhausted; `live` is
the newest conforming frame (R30); `ring` names the ring allocation. -/
structure Input where
  state : InputState
  baySize : Nat
  bays : List Bay
  ages : List Nat
  next : Nat
  starved : Bool
  silence : Option Nat
  live : Option Picture
  ring : Nat
  deriving DecidableEq, Repr

/-- Capture Unit state: the four inputs and the number of ring allocations made. -/
structure Capture where
  inputs : List Input
  rings : Nat
  deriving DecidableEq, Repr

/-! ## Replay Unit (chapter 7) -/

/-- States of a clip that is not FREE (R105). -/
inductive ClipState where
  | kept
  | held
  | lapsing
  deriving DecidableEq, Repr

/-- A clip that is not FREE (R105). `outPoint` is none for OPEN; `edge` is the live edge; `clamped`
is the outcome written at its take; `ran` says that it was KEPT for the frame just ended (R110). -/
structure Clip where
  state : ClipState
  input : Nat
  inPoint : Nat
  outPoint : Option Nat
  edge : Option Nat
  keep : Nat
  claims : List Nat
  slot : Nat
  post : Word
  clamped : Bool
  cause : Nat
  ran : Bool
  deriving DecidableEq, Repr

/-- Head states (R115). -/
inductive HeadState where
  | idle
  | cued
  | playing
  | paused
  | ended
  | atLive
  deriving DecidableEq, Repr

/-- A replay head (R115) with its output for the frame in progress. -/
structure Head where
  state : HeadState
  clip : Option Nat
  position : Nat
  rate : Int
  loop : Bool
  blend : Bool
  heldPicture : Option Picture
  reported : Option Nat
  output : Option Picture
  deriving DecidableEq, Repr

/-- Replay Unit state: 32 clips, none where FREE, and the two heads. -/
structure Replay where
  clips : List (Option Clip)
  headA : Head
  headB : Head
  deriving DecidableEq, Repr

/-! ## Clock Unit (chapter 8) -/

/-- Clock states, with the codes of R137 in this order. -/
inductive ClockState where
  | noTime
  | stopped
  | running
  | expired
  | holdover
  deriving DecidableEq, Repr

/-- One clock (R128). -/
structure Clock where
  localSource : Bool
  up : Bool
  tenths : Nat
  hornOn : Bool
  hornLength : Nat
  comp : Nat
  state : ClockState
  value : Nat
  deriving DecidableEq, Repr

/-- The score record (8.9). -/
structure Score where
  home : Nat
  guest : Nat
  period : Nat
  possession : Nat
  c0 : Nat
  c1 : Nat
  c2 : Nat
  c3 : Nat
  homeFlash : Nat
  guestFlash : Nat
  deriving DecidableEq, Repr

/-- Clock Unit state (chapter 8). `word` is none while HUNTING and the bytes of the word in progress
while IN_WORD; `gap` is the time since its latest byte. -/
structure ClockUnit where
  game : Clock
  aux : Clock
  word : Option (List Byte)
  gap : Nat
  heard : Bool
  silence : Nat
  discards : Nat
  horn : Nat
  score : Score
  edit : Word
  deriving DecidableEq, Repr

/-! ## Message Lanes (chapter 9) -/

/-- Message classes, highest first (R153). -/
inductive MsgClass where
  | urgent
  | sponsored
  | fan
  deriving DecidableEq, Repr

/-- A held card (chapter 9). Its desk slot names it: a held slot is not taken again (R180). -/
structure MsgCard where
  slot : Nat
  post : Word
  cls : MsgClass
  holdMode : Bool
  speed : Nat
  holdFrames : Nat
  repeats : Nat
  remaining : Nat
  completed : Nat
  expiry : Word
  mask : Nat
  linked : Nat
  linkIntact : Bool
  text : List Byte
  width : Nat
  clamped : Bool
  onAir : Bool
  started : Bool
  deriving DecidableEq, Repr

/-- The part of a pass on one lane (R158). -/
structure LanePart where
  lane : Nat
  hold : Bool
  width : Nat
  length : Nat
  deriving DecidableEq, Repr

/-- A pass on air (R158), of the card in desk slot `slot`. -/
structure Pass where
  slot : Nat
  number : Nat
  parts : List LanePart
  index : Nat
  start : Word
  onAir : Nat
  credited : Nat
  credits : Nat
  deriving DecidableEq, Repr

/-- Message Lanes state. `shown` gives each lane its zone's width, none while it is not shown;
`urgent` is the show tick at which the urgent state turned ON. -/
structure Lanes where
  queue : List MsgCard
  passes : List Pass
  shown : List (Option Nat)
  urgent : Option Word
  deriving DecidableEq, Repr

/-! ## The part -/

/-- The blocks that work with one another at the frame mark. -/
structure Blocks where
  port : Port
  comp : Compositor
  measures : List Measure
  rot : Rotator
  cap : Capture
  rep : Replay
  lanes : Lanes
  deriving DecidableEq, Repr

/-- The whole part. -/
structure Part where
  tb : Timebase
  sec : Sections
  clk : ClockUnit
  blk : Blocks
  deriving DecidableEq, Repr

/-- The part and the commands that wait for it, first in, first out. -/
structure State where
  part : Part
  pending : List Instr
  deriving DecidableEq, Repr

/-! ## Values at reset -/

/-- The byte an address of Show Memory that nothing has written reads as. DESIGN CHOICE, log entry 1:
the manual calls Show Memory after power-on undefined. -/
def unlistedByte : Byte := 0

/-- Frame rate from the strap pins (R1). -/
def rateOfStraps (frate1 frate0 : Bool) : Rate :=
  if frate1 then .fps60 else if frate0 then .fps5994 else .fps50

/-- Timebase state after power-on and hard reset (R2, 1.7). No pulse that came before counts as a predecessor: DESIGN
CHOICE, log entry 41. -/
def Timebase.init (rate : Rate) (genlockEnable reference : Bool) : Timebase :=
  { rate, genlockEnable, reference, synthLocked := false, genlock := .freeRun, correction := 0,
    syncTimer := none, sincePulse := none, lockCount := 0, frameLength := 0, sinceMark := 0,
    sinceMs := 0, relocking := false }

/-- Section state after every reset (R45). -/
def Sections.init : Sections :=
  { forced := List.replicate 80 false, map := List.range 64,
    health := List.replicate 84 ⟨true, 0⟩, buffer := List.replicate 84 .absent,
    states := List.replicate 80 .live, feeds := List.replicate 84 none }

/-- Desk Reader state of one desk after every reset (R187). -/
def DeskState.init : DeskState := ⟨0, 0, 0, [], false⟩

/-- No CAUSE latch set (R191). -/
def Latches.clear : Latches := ⟨false, false, false, false⟩

/-- Port and Desk Reader after power-on (R188) over the given Show Memory. -/
def Port.init (mem : List Host.Cell) : Port :=
  { mem, runState := .config, runRequest := false, showTick := 0, areas := none, sizes := none,
    thresholds := none, result := .notValidated, resultArea := 255, partLocks := [],
    loadLocks := [], faultPage := 0, latches := .clear, noticeWaiting := false,
    logWaiting := false, mask := 0, irq := false, messages := [],
    desks := ⟨.init, .init, .init, .init, .init⟩, logWrite := 0, logFull := false,
    noticeWrite := 0, overrun := false, countsInForce := false, unstated := 0 }

/-- The largest canvas sizes, used while no layout has been validated (R35). -/
def Sizes.largest : Sizes := ⟨3840, 2160, 32768, 128⟩

/-- A black frame (R13). -/
def Frame.black (w h : Nat) : Frame := ⟨w, h, []⟩

/-- Compositor state with no plan and black canvases of the given sizes (R33, R34). -/
def Compositor.init (z : Sizes) : Compositor :=
  { active := none, staged := none, urgentYield := false,
    mainFrame := .black z.mainW z.mainH, ribbonFrame := .black z.ribbonW z.ribbonH }

/-- Rotator state after power-on and hard reset (R87). -/
def Rotator.init : Rotator :=
  { entries := List.replicate 128 none, edits := List.replicate 128 0,
    groups := List.replicate 8 none, airings := [], bank := List.replicate 512 .empty,
    queue := [] }

/-- An input that is OFF, with the given next number and no ring (R91, R104). Its bay size, ring name and newest frame are of
no effect: DESIGN CHOICE 0 and none, log entries 35 and 47. -/
def Input.offAt (next : Nat) : Input :=
  { state := .off, baySize := 0, bays := [], ages := [], next, starved := false, silence := none,
    live := none, ring := 0 }

/-- Capture state after every reset (R104). -/
def Capture.init (rings : Nat) : Capture := { inputs := List.replicate 4 (.offAt 0), rings }

/-- An IDLE head (R115). Its position is of no effect; DESIGN CHOICE 0, log entry 6. -/
def Head.idle : Head :=
  { state := .idle, clip := none, position := 0, rate := 256, loop := false, blend := false,
    heldPicture := none, reported := none, output := none }

/-- Replay state after every reset (R127). -/
def Replay.init : Replay := { clips := List.replicate 32 none, headA := .idle, headB := .idle }

/-- A clock after power-on and hard reset (R150). -/
def Clock.init (hornOn : Bool) : Clock :=
  { localSource := false, up := false, tenths := 60000, hornOn, hornLength := 1500, comp := 0,
    state := .noTime, value := 0 }

/-- The score record after power-on and hard reset (R150). -/
def Score.init : Score := ⟨0, 0, 1, 0, 0, 0, 0, 0, 0, 0⟩

/-- Clock Unit state after power-on and hard reset (R150). -/
def ClockUnit.init : ClockUnit :=
  { game := .init true, aux := .init false, word := none, gap := 0, heard := false, silence := 0,
    discards := 0, horn := 0, score := .init, edit := 0 }

/-- Lanes state after every reset (R168). -/
def Lanes.init : Lanes :=
  { queue := [], passes := [], shown := List.replicate 4 none, urgent := none }

/-- The blocks after power-on over the given Show Memory. -/
def Blocks.init (mem : List Host.Cell) : Blocks :=
  { port := .init mem, comp := .init .largest, measures := [], rot := .init, cap := .init 0,
    rep := .init, lanes := .init }

/-- The machine right after reset: power-on with the straps at 50 frames/s and genlock off and
nothing listed in Show Memory (R188). DESIGN CHOICE, log entries 1 and 2: the straps and the
contents. -/
def State.reset : State :=
  { part := { tb := .init (rateOfStraps false false) false false, sec := .init, clk := .init,
              blk := .init [] },
    pending := [] }

end Sys2Proof.Machine
end

