-- ==== Sys2Proof/Machine/Table.lean ====
section
/-! DEFINITION. Numbered tables held as lists, with a default beyond the end, so that reading back
what was set needs no side condition. -/

namespace Sys2Proof.Machine

/-- Item `i` of a table, or the default. -/
def tget {α : Type} (d : α) : List α → Nat → α
  | [], _ => d
  | a :: _, 0 => a
  | _ :: l, i + 1 => tget d l i

/-- The table with item `i` set, padded with the default where it is shorter. -/
def tset {α : Type} (d : α) : List α → Nat → α → List α
  | [], 0, x => [x]
  | [], i + 1, x => d :: tset d [] i x
  | _ :: l, 0, x => x :: l
  | a :: l, i + 1, x => a :: tset d l i x

/-- The table with every item passed through a function of its number. -/
def tmapFrom {α β : Type} (f : Nat → α → β) : Nat → List α → List β
  | _, [] => []
  | i, a :: l => f i a :: tmapFrom f (i + 1) l

/-- The numbers of the items that satisfy a test, rising. -/
def tfindFrom {α : Type} (p : α → Bool) : Nat → List α → List Nat
  | _, [] => []
  | i, a :: l => if p a then i :: tfindFrom p (i + 1) l else tfindFrom p (i + 1) l

/-- Put an item into a list kept in rising order of a key, after its equals. -/
def insertBy {α : Type} (key : α → Nat) (x : α) : List α → List α
  | [] => [x]
  | a :: l => if key x < key a then x :: a :: l else a :: insertBy key x l

/-- A list in rising order of a key, equals in their order. -/
def sortBy {α : Type} (key : α → Nat) (l : List α) : List α :=
  l.foldl (fun acc x => insertBy key x acc) []

/-- Replace the items that satisfy a test. -/
def mapIf {α : Type} (p : α → Bool) (f : α → α) (l : List α) : List α :=
  l.map fun a => if p a then f a else a

end Sys2Proof.Machine
end

