-- ==== Sys2Proof/Machine/Memory.lean ====
section
/-! DEFINITION. Show Memory: bytes by address in one canonical form, and the little-endian halves and
words the part and the host read and write (00_scope, Show Memory words and host access). -/

namespace Sys2Proof.Machine

/-- The canonical form: addresses strictly rising, and no byte listed that an unlisted address reads
as. -/
def Memory.wf : List Host.Cell → Bool
  | [] => true
  | [(_, b)] => b != unlistedByte
  | (a, b) :: (a', b') :: r =>
    b != unlistedByte && decide (a < a') && Memory.wf ((a', b') :: r)

/-- One byte. -/
def memRead : List Host.Cell → Nat → Byte
  | [], _ => unlistedByte
  | (k, b) :: r, a => if a < k then unlistedByte else if a = k then b else memRead r a

/-- One byte written; a byte equal to what an unlisted address reads as is not listed. -/
def memWrite : List Host.Cell → Nat → Byte → List Host.Cell
  | [], a, v => if v = unlistedByte then [] else [(a, v)]
  | (k, b) :: r, a, v =>
    if a < k then (if v = unlistedByte then (k, b) :: r else (a, v) :: (k, b) :: r)
    else if a = k then (if v = unlistedByte then r else (a, v) :: r)
    else (k, b) :: memWrite r a v

/-- Byte `i` of a word, 0 the least significant. -/
def wordByte (w : Word) (i : Nat) : Byte := BitVec.ofNat 8 (w.toNat / 256 ^ i)

/-- A little-endian half as a number. -/
def memHalf (m : List Host.Cell) (a : Nat) : Nat :=
  (memRead m a).toNat + 256 * (memRead m (a + 1)).toNat

/-- A little-endian word. -/
def memWord (m : List Host.Cell) (a : Nat) : Word :=
  toWord ((memRead m a).toNat + 256 * (memRead m (a + 1)).toNat +
    65536 * (memRead m (a + 2)).toNat + 16777216 * (memRead m (a + 3)).toNat)

/-- A little-endian word written. -/
def memWriteWord (m : List Host.Cell) (a : Nat) (w : Word) : List Host.Cell :=
  memWrite (memWrite (memWrite (memWrite m a (wordByte w 0)) (a + 1) (wordByte w 1))
    (a + 2) (wordByte w 2)) (a + 3) (wordByte w 3)

/-- The low half of a number written little-endian. -/
def memWriteHalf (m : List Host.Cell) (a n : Nat) : List Host.Cell :=
  memWrite (memWrite m a (wordByte (toWord n) 0)) (a + 1) (wordByte (toWord n) 1)

/-- Bytes written one after another. -/
def memWriteBytes : List Host.Cell → Nat → List Byte → List Host.Cell
  | m, _, [] => m
  | m, a, b :: bs => memWriteBytes (memWrite m a b) (a + 1) bs

/-- `n` bytes read one after another. -/
def memBytes (m : List Host.Cell) (a : Nat) : Nat → List Byte
  | 0 => []
  | n + 1 => memRead m a :: memBytes m (a + 1) n

/-- Cells put into the canonical form, later cells over earlier ones; a cell outside Show Memory is
no cell of it. -/
def memOfCells (cs : List Host.Cell) : List Host.Cell :=
  cs.foldl (fun m c =>
    if c.1 < Config.pages * Config.pageBytes then memWrite m c.1 c.2 else m) []

end Sys2Proof.Machine
end

