-- ==== Sys2Proof/Machine/Flags.lean ====
section
/-! DEFINITION. CAUSE, CAUSE_MASK and the interrupt: how the members are set and cleared and what
each change sends on the link (chapter 11, R191, R192). -/

namespace Sys2Proof.Machine

/-- 1 for set, 0 for clear. -/
def flagNat (b : Bool) : Nat := if b then 1 else 0

/-- The members of CAUSE as the register's bits 0 to 5 (10.10). -/
def Port.cause (p : Port) : BitVec 6 :=
  BitVec.ofNat 6 (flagNat p.noticeWaiting + 2 * flagNat p.logWaiting +
    4 * flagNat p.latches.deskDone + 8 * flagNat p.latches.pageFault +
    16 * flagNat p.latches.layoutBad + 32 * flagNat p.latches.horn)

/-- CAUSE and CAUSE_MASK have a common member (R192). -/
def Port.common (p : Port) : Bool := p.cause &&& p.mask != 0

/-- The interrupt follows the common set, with a message at each change (R192). -/
def Port.settle (p : Port) : Port :=
  if p.common = p.irq then p
  else { p with irq := p.common
                messages := p.messages ++ [if p.common then .assert else .release] }

/-- The latches changed, and the interrupt settled. -/
def Port.setLatches (p : Port) (l : Latches) : Port := ({ p with latches := l }).settle

/-- A slot moved to DONE or REFUSED latches DESK_DONE (R175, R191). -/
def Port.latchDeskDone (p : Port) : Port := p.setLatches { p.latches with deskDone := true }

/-- A dropped write latches PAGE_FAULT (R184, R191). -/
def Port.latchPageFault (p : Port) : Port := p.setLatches { p.latches with pageFault := true }

/-- A failed validation latches LAYOUT_BAD (R172, R191). -/
def Port.latchLayoutBad (p : Port) : Port := p.setLatches { p.latches with layoutBad := true }

/-- A start of the horn line latches HORN (R144, R191). -/
def Port.latchHorn (p : Port) : Port := p.setLatches { p.latches with horn := true }

/-- The host's clear of latches by a CAUSE write; clearing PAGE_FAULT sets the fault page to 0
(R184, R191). A 1 on a condition's bit does nothing. -/
def Port.clearLatches (p : Port) (v : Word) : Port :=
  let l := p.latches
  let p' := p.setLatches
    { deskDone := l.deskDone && !v.getLsbD 2, pageFault := l.pageFault && !v.getLsbD 3,
      layoutBad := l.layoutBad && !v.getLsbD 4, horn := l.horn && !v.getLsbD 5 }
  if v.getLsbD 3 then { p' with faultPage := 0 } else p'

/-- CAUSE_MASK written (R192). -/
def Port.setMask (p : Port) (v : Word) : Port := ({ p with mask := v.setWidth 6 }).settle

/-- A host read mark clamped into the range from write − cap to write, a mark outside it taken as the
nearer end (R79, R189). Which end where both are equally near is a free value, log entry 7. -/
def effectiveRead (cap : Nat) (write mark : Word) : Word :=
  let behind := (write - mark).toNat
  if behind ≤ cap then mark
  else if behind - cap < 4294967296 - behind then write - toWord cap
  else if 4294967296 - behind < behind - cap then write
  else if Config.tieIsOlder write mark then write - toWord cap else write

/-- Records of the area not yet consumed (R79, R189). -/
def usedRecords (cap : Nat) (write mark : Word) : Nat :=
  (write - effectiveRead cap write mark).toNat

/-- The host's log read mark as it stands in the host page (10.2). -/
def Port.logMark (p : Port) : Word := memWord p.mem 20

/-- The host's notice read mark as it stands in the host page (10.2). -/
def Port.noticeMark (p : Port) : Word := memWord p.mem 24

/-- Log records not consumed (R79). -/
def Port.logUsed (p : Port) : Nat := usedRecords 4096 p.logWrite p.logMark

/-- Notices not consumed (R189). -/
def Port.noticeUsed (p : Port) : Nat := usedRecords 256 p.noticeWrite p.noticeMark

/-- The conditions evaluated anew: NOTICE_WAITING and LOG_WAITING are set while the write count
differs from the effective read mark, and clear while no write count is in force (R191). -/
def Port.evalConditions (p : Port) : Port :=
  ({ p with noticeWaiting := p.countsInForce && p.noticeUsed != 0
            logWaiting := p.countsInForce && p.logUsed != 0 }).settle

end Sys2Proof.Machine
end

