-- ==== Sys2Proof/Machine/Ops.lean ====
section
/-! DEFINITION. The named operations every block works with: desk slots, the part page, notices, the
proof-of-play log, host accesses and page locks (chapters 5, 10 and 11). -/

namespace Sys2Proof.Machine

/-! ## Codes -/

/-- Outcomes of a card, with the codes of 10.5. -/
inductive CardOutcome where
  | ok | clamped | expired | evicted | stopped | stale | duplicate | badKind | badField | noRoom
  | inUse | notLocal | queueFull | badEntry | orphaned | superseded
  deriving DecidableEq, Repr

/-- The code of an outcome (10.5). -/
def CardOutcome.code : CardOutcome → Nat
  | .ok => 0 | .clamped => 1 | .expired => 2 | .evicted => 3 | .stopped => 4 | .stale => 16
  | .duplicate => 17 | .badKind => 18 | .badField => 19 | .noRoom => 20 | .inUse => 21
  | .notLocal => 22 | .queueFull => 23 | .badEntry => 24 | .orphaned => 25 | .superseded => 26

/-- OK or CLAMPED. -/
def okOr (clamped : Bool) : CardOutcome := if clamped then .clamped else .ok

/-- Notice kinds (11.2). -/
inductive NoticeKind where
  | planAdopted | sectionDead | sectionLive | quotaMet | logFull | captureStarved | captureResumed
  | inputEnded | clipClosed | clipLapsed | headEnded | headAtLive | frameMissing | frameDamaged
  | clockExpired | clockRevived | clockLimit | consoleLost | consoleBack | urgentOn | urgentOff
  | genlockLost | genlockLocked
  deriving DecidableEq, Repr

/-- The code of a notice kind (11.2). -/
def NoticeKind.code : NoticeKind → Nat
  | .planAdopted => 1 | .sectionDead => 2 | .sectionLive => 3 | .quotaMet => 4 | .logFull => 5
  | .captureStarved => 6 | .captureResumed => 7 | .inputEnded => 8 | .clipClosed => 9
  | .clipLapsed => 10 | .headEnded => 11 | .headAtLive => 12 | .frameMissing => 13
  | .frameDamaged => 14 | .clockExpired => 15 | .clockRevived => 16 | .clockLimit => 17
  | .consoleLost => 18 | .consoleBack => 19 | .urgentOn => 20 | .urgentOff => 21
  | .genlockLost => 22 | .genlockLocked => 23

/-- Code of a layout result (10.2). -/
def LayoutResult.code : LayoutResult → Nat
  | .notValidated => 0 | .ok => 1 | .badRange => 2 | .areaSmall => 3 | .badCanvas => 4
  | .badThreshold => 5

/-- Index of a desk, and of its area (10.1). -/
def deskIndex : Desk → Nat
  | .plan => 0 | .replay => 1 | .rotation => 2 | .clock => 3 | .message => 4

/-- Slots of a desk (10.1). -/
def deskSlots : Desk → Nat
  | .plan => 8 | .replay => 40 | .rotation => 32 | .clock => 16 | .message => 64

/-- The five desks in their order. -/
def allDesks : List Desk := [.plan, .replay, .rotation, .clock, .message]

/-- Whether the part is RUNNING. -/
def Port.running (p : Port) : Bool := p.runState == .running

/-! ## Memory through the areas in force -/

/-- A word of Show Memory written by the part. -/
def Port.poke (p : Port) (a : Nat) (w : Word) : Port := { p with mem := memWriteWord p.mem a w }

/-- First byte of the part page (10.2). -/
def partPage : Nat := 4096

/-- A field of the part page written as a whole word (R171). -/
def Port.pokePart (p : Port) (offset : Nat) (w : Word) : Port := p.poke (partPage + offset) w

/-- An area in force (R169). -/
def Port.area (p : Port) (i : Nat) : PageRange := tget ⟨0, 0⟩ (p.areas.getD []) i

/-- First byte of an area in force. -/
def Port.areaBase (p : Port) (i : Nat) : Nat := Config.pageBytes * (p.area i).first

/-- First byte of a desk slot: byte 512 × i of the desk's first page (R169). -/
def Port.slotAddr (p : Port) (d : Desk) (i : Nat) : Nat := p.areaBase (deskIndex d) + 512 * i

/-! ## Desks -/

/-- The state of one desk. -/
def Desks.get (ds : Desks) : Desk → DeskState
  | .plan => ds.plan | .replay => ds.replay | .rotation => ds.rotation | .clock => ds.clock
  | .message => ds.message

/-- The state of one desk replaced. -/
def Desks.set (ds : Desks) (d : Desk) (x : DeskState) : Desks :=
  match d with
  | .plan => { ds with plan := x }
  | .replay => { ds with replay := x }
  | .rotation => { ds with rotation := x }
  | .clock => { ds with clock := x }
  | .message => { ds with message := x }

/-- One desk's state replaced in the Port. -/
def Port.setDesk (p : Port) (d : Desk) (x : DeskState) : Port := { p with desks := p.desks.set d x }

/-- A done count raised by 1, written to the part page, DESK_DONE latched (R175). -/
def Port.raiseDone (p : Port) (d : Desk) : Port :=
  let x := p.desks.get d
  ((p.setDesk d { x with done := x.done + 1 }).pokePart (36 + 4 * (deskIndex d)) (x.done + 1)).latchDeskDone

/-- A slot leaves the held set (R178). -/
def Port.unhold (p : Port) (d : Desk) (i : Nat) : Port :=
  let x := p.desks.get d
  p.setDesk d { x with held := x.held.filter (· != i) }

/-- State words of a slot (10.5). -/
def slotPosted : Word := 1
def slotTaken : Word := 2
def slotActive : Word := 3
def slotDone : Word := 4
def slotRefused : Word := 5

/-- The outcome and result of a slot still TAKEN or ACTIVE (R175). -/
def Port.provisional (p : Port) (d : Desk) (i : Nat) (o : CardOutcome) (r : Word) : Port :=
  (p.poke (p.slotAddr d i + 12) (toWord o.code)).poke (p.slotAddr d i + 24) r

/-- TAKEN to ACTIVE (R174). -/
def Port.activate (p : Port) (d : Desk) (i : Nat) : Port := p.poke (p.slotAddr d i) slotActive

/-- A move to DONE or REFUSED: outcome, finish tick and result value, then the state word; the slot
leaves the held set and the done count is raised (R175, R178). -/
def Port.moveOut (p : Port) (d : Desk) (i : Nat) (state : Word) (o : CardOutcome) (tick r : Word) :
    Port :=
  let a := p.slotAddr d i
  (((((p.poke (a + 12) (toWord o.code)).poke (a + 20) tick).poke (a + 24) r).poke a state).unhold
    d i).raiseDone d

/-- A slot finished DONE at the show tick in force. -/
def Port.complete (p : Port) (d : Desk) (i : Nat) (o : CardOutcome) (r : Word) : Port :=
  p.moveOut d i slotDone o p.showTick r

/-- A slot REFUSED at the show tick in force. -/
def Port.refuse (p : Port) (d : Desk) (i : Nat) (o : CardOutcome) (r : Word) : Port :=
  p.moveOut d i slotRefused o p.showTick r

/-- A result value the manual does not state: the next free value (log entry 4). -/
def Port.drawUnstated (p : Port) : Word × Port :=
  (Config.unstatedResult p.unstated, { p with unstated := p.unstated + 1 })

/-! ## Notices -/

/-- The overrun flag clears when the area is empty (R190). -/
def Port.testOverrun (p : Port) : Port :=
  if p.overrun && p.noticeUsed == 0 then ({ p with overrun := false }).pokePart 68 0 else p

/-- The notice record written at its place, and the write count raised (R189). -/
def Port.writeNotice (p : Port) (k : NoticeKind) (subject : Nat) (value : Word) : Port :=
  let a := p.areaBase 8 + 16 * (p.noticeWrite.toNat % 256)
  let m := memWriteHalf (memWriteHalf p.mem a k.code) (a + 2) subject
  let p := ((({ p with mem := m }).poke (a + 4) value).poke (a + 8) p.showTick)
  (({ p with noticeWrite := p.noticeWrite + 1 }).pokePart 64 (p.noticeWrite + 1)).evalConditions

/-- A notice handed to the area: taken while RUNNING; written where there is room, else the overrun
flag is set (R189, R190). -/
def Port.notice (p : Port) (k : NoticeKind) (subject : Nat) (value : Word) : Port :=
  if p.running then
    let p := p.testOverrun
    if p.noticeUsed < 256 then p.writeNotice k subject value
    else if p.overrun then p
    else ({ p with overrun := true }).pokePart 68 1
  else p

/-! ## The proof-of-play log -/

/-- An airing record (5.8). -/
structure LogRecord where
  kind : Nat
  endCode : Nat
  place : Nat
  group : Nat
  entry : Nat
  slot : Nat
  start : Word
  stop : Word
  shown : Nat
  credited : Nat
  credits : Nat
  number : Word
  deriving DecidableEq, Repr

/-- The log-full flag clears when there is room (R80). -/
def Port.testLogFull (p : Port) : Port :=
  if p.logFull && decide (p.logUsed < 4096) then ({ p with logFull := false }).pokePart 60 0 else p

/-- The record written at its place, and the write count raised (R79). -/
def Port.writeLog (p : Port) (r : LogRecord) : Port :=
  let a := p.areaBase 7 + 32 * (p.logWrite.toNat % 4096)
  let m := memWriteBytes p.mem a
    [BitVec.ofNat 8 r.kind, BitVec.ofNat 8 r.endCode, BitVec.ofNat 8 r.place, BitVec.ofNat 8 r.group]
  let m := memWriteHalf (memWriteHalf m (a + 4) r.entry) (a + 6) r.slot
  let p := ((((((({ p with mem := m }).poke (a + 8) r.start).poke (a + 12) r.stop).poke (a + 16)
    (toWord r.shown)).poke (a + 20) (toWord r.credited)).poke (a + 24) (toWord r.credits)).poke
    (a + 28) r.number)
  (({ p with logWrite := p.logWrite + 1 }).pokePart 56 (p.logWrite + 1)).evalConditions

/-- A record handed to the log: written where there is room; else lost, with the log-full flag and
one LOG_FULL notice (R79, R80). -/
def Port.log (p : Port) (r : LogRecord) : Port :=
  let p := p.testLogFull
  if p.logUsed < 4096 then p.writeLog r
  else if p.logFull then p
  else (({ p with logFull := true }).pokePart 60 1).notice .logFull 0 p.logWrite

/-! ## Page locks and host accesses -/

/-- A page lies in a range. -/
def PageRange.has (r : PageRange) (page : Nat) : Bool :=
  decide (r.first ≤ page) && decide (page < r.first + r.count)

/-- The load lock count of a page (R183). -/
def Port.loadLockCount (p : Port) (page : Nat) : Nat := (p.loadLocks.filter (·.has page)).length

/-- A page is locked while its part lock is set or its load lock count is above 0 (R183). -/
def Port.locked (p : Port) (page : Nat) : Bool :=
  p.partLocks.any (·.has page) || decide (0 < p.loadLockCount page)

/-- Part page byte of the frame-store error slot word (R102). -/
def errorSlotAddr : Nat := partPage + 80

/-- First byte a host write touches. -/
def hostWriteAddr : HostWrite → Nat
  | .word i _ => 4 * i.toNat
  | .byte a _ => a.toNat

/-- The one write performed on a locked page: a 32-bit write of 0 to the error slot word (R184). -/
def isErrorClear : HostWrite → Bool
  | .word i v => 4 * i.toNat == errorSlotAddr && v == 0
  | .byte _ _ => false

/-- Show Memory after a host write that is performed. -/
def memHostWrite (m : List Host.Cell) : HostWrite → List Host.Cell
  | .word i v => memWriteWord m (4 * i.toNat) v
  | .byte a v => memWrite m a.toNat v

/-- The write lands in the word of a read mark (R191). -/
def touchesReadMark (w : HostWrite) : Bool :=
  hostWriteAddr w / 4 == 5 || hostWriteAddr w / 4 == 6

/-- A host write performed; a write to a read mark word evaluates the conditions (R191). -/
def Port.performWrite (p : Port) (w : HostWrite) : Port :=
  let p := { p with mem := memHostWrite p.mem w }
  if touchesReadMark w then p.evalConditions else p

/-- A write to a locked page: the page is captured and PAGE_FAULT latched if the latch is clear
(R184). -/
def Port.faultWrite (p : Port) (page : Nat) : Port :=
  if p.latches.pageFault then p else ({ p with faultPage := page }).latchPageFault

/-- A host write to Show Memory (R184). -/
def Port.hostWrite (p : Port) (w : HostWrite) : Port :=
  let page := hostWriteAddr w / Config.pageBytes
  if p.locked page && !isErrorClear w then p.faultWrite page else p.performWrite w

/-! ## Register reads -/

/-- Strap field of IDENT (10.10). -/
def Rate.code : Rate → Nat
  | .fps50 => 0 | .fps5994 => 1 | .fps60 => 2

/-- Bits of a register that its row does not list, as free values (log entry 5). -/
def unlisted (offset : Nat) (keep : Word) (v : Word) : Word :=
  (v &&& keep) ||| (Config.unlistedBits offset &&& ~~~keep)

/-- What the register window reads at an offset: reads change nothing, and an access to an offset not
listed or of another width reads 0 (R185, R186, 10.10). -/
def readRegister (rate : Rate) (genlockEnable : Bool) (p : Port) (offset width : Nat) : Word :=
  if width != 4 then 0
  else match offset with
    | 0 => unlisted 0 0xFF7FFFFF
        (toWord (7160 + 65536 * 3 + 1048576 * rate.code + 4194304 * flagNat genlockEnable +
          16777216 * 76))
    | 4 => unlisted 4 0x00FF0F13
        (toWord (flagNat p.runRequest + 16 * flagNat p.running + 256 * p.result.code +
          65536 * p.resultArea))
    | 8 => unlisted 8 0x3F (p.cause.setWidth 32)
    | 12 => unlisted 12 0x3F (p.mask.setWidth 32)
    | 16 => toWord (p.faultPage % 16384)
    | _ => 0

end Sys2Proof.Machine
end

