-- ==== Sys2Proof/Machine/Clock.lean ====
section
/-! DEFINITION. The Clock Unit (chapter 8): the clocks, the console line, local counting, the horn,
the score, the desk cues and the clock record. A clock operation takes the unit and the Port, where
its notices, its slots and the HORN latch go. -/

namespace Sys2Proof.Machine

/-- The Clock Unit with the Port it reports to. -/
abbrev ClockPort := ClockUnit × Port

/-- One of the two clocks. -/
def ClockUnit.clock (u : ClockUnit) : ClockId → Clock
  | .game => u.game
  | .aux => u.aux

/-- One of the two clocks replaced. -/
def ClockUnit.setClock (u : ClockUnit) (i : ClockId) (c : Clock) : ClockUnit :=
  match i with
  | .game => { u with game := c }
  | .aux => { u with aux := c }

/-- Clock ids (R137). -/
def clockCode : ClockId → Nat
  | .game => 0
  | .aux => 1

/-- The clock a code names. -/
def clockOfCode (n : Nat) : ClockId := if n = 0 then .game else .aux

/-- State codes (R137). -/
def ClockState.code : ClockState → Nat
  | .noTime => 0 | .stopped => 1 | .running => 2 | .expired => 3 | .holdover => 4

/-- The top of a direction's range (R128). -/
def rangeTop (up : Bool) : Nat := if up then Config.upTop else Config.downTop

/-- A clock that counts on the ms tick (R128). -/
def Clock.counting (c : Clock) : Bool := c.state == .running || c.state == .holdover

/-! ## The horn (R144) -/

/-- A horn request of length n: the count becomes the larger; a request that finds the line released
starts it and latches HORN. A request of length 0 requests nothing (R134). -/
def requestHorn (n : Nat) (x : ClockPort) : ClockPort :=
  ({ x.1 with horn := max x.1.horn n },
   if x.1.horn = 0 ∧ 0 < n then x.2.latchHorn else x.2)

/-- The horn count at an ms tick. -/
def hornTick (u : ClockUnit) : ClockUnit := { u with horn := u.horn - 1 }

/-! ## Local counting (R135) -/

/-- A DOWN clock that reaches 0 becomes EXPIRED and requests the horn if its horn is on; the value of
the notice is 0 by the local count and 1 by a console word (R132, R135). -/
def expireClock (i : ClockId) (value : Word) (x : ClockPort) : ClockPort :=
  let c := x.1.clock i
  let y : ClockPort := (x.1.setClock i { c with state := .expired, value := 0 },
    x.2.notice .clockExpired (clockCode i) value)
  if c.hornOn then requestHorn c.hornLength y else y

/-- An UP clock that reaches its limit becomes STOPPED there (R132, R135). -/
def limitClock (i : ClockId) (value : Word) (x : ClockPort) : ClockPort :=
  (x.1.setClock i { x.1.clock i with state := .stopped, value := Config.upTop },
   x.2.notice .clockLimit (clockCode i) value)

/-- One clock's count at an ms tick (R135). -/
def countClock (i : ClockId) (x : ClockPort) : ClockPort :=
  let c := x.1.clock i
  if c.counting then
    if c.up then
      if Config.upTop ≤ c.value + 1 then limitClock i 0 x
      else (x.1.setClock i { c with value := c.value + 1 }, x.2)
    else if c.value ≤ 1 then expireClock i 0 x
    else (x.1.setClock i { c with value := c.value - 1 }, x.2)
  else x

/-! ## The console line (R129 to R131) -/

/-- A clock that a silence puts into HOLDOVER: CONSOLE-sourced and RUNNING (R131). -/
def Clock.followed (c : Clock) : Bool := !c.localSource && c.state == .running

/-- A clock put into HOLDOVER where a silence does so; it keeps its value (R131). -/
def Clock.toHoldover (c : Clock) : Clock :=
  if c.followed then { c with state := .holdover } else c

/-- Subject of CONSOLE_LOST: 0 none, 1 GAME, 2 AUX, 3 both. -/
def bothCode (game aux : Bool) : Nat := flagNat game + 2 * flagNat aux

/-- The line becomes LOST (R131). -/
def loseLine (x : ClockPort) : ClockPort :=
  ({ x.1 with heard := false, game := x.1.game.toHoldover, aux := x.1.aux.toHoldover },
   x.2.notice .consoleLost (bothCode x.1.game.followed x.1.aux.followed) (toWord x.1.discards))

/-- The silence count at an ms tick (R131). -/
def silenceTick (x : ClockPort) : ClockPort :=
  let u := { x.1 with silence := capAt Config.countTop (x.1.silence + 1) }
  if u.heard && decide (Config.silenceLimit ≤ u.silence) then loseLine (u, x.2) else (u, x.2)

/-- The Clock Unit at an ms tick: the horn count, the silence count and the clocks. The horn is taken
first, as the worked sequence of 8.10 counts it; whether silence or the clocks come first the manual
leaves open. -/
def clockTick (silenceFirst : Bool) (x : ClockPort) : ClockPort :=
  let x : ClockPort := (hornTick x.1, x.2)
  if silenceFirst then countClock .aux (countClock .game (silenceTick x))
  else silenceTick (countClock .aux (countClock .game x))

/-- A word in progress discarded, and the discard count raised; no word, nothing (R129). -/
def discardWord (u : ClockUnit) : ClockUnit :=
  match u.word with
  | none => u
  | some _ =>
    { u with word := none, gap := 0, discards := capAt Config.countTop (u.discards + 1) }

/-- What the arrival of a valid word does before it is acted on: the silence count is set to 0 and
the line is HEARD, with CONSOLE_BACK from LOST; the receiver is HUNTING (R129, R130, R131). -/
def hearWord (kind : Nat) (x : ClockPort) : ClockPort :=
  ({ x.1 with silence := 0, heard := true, word := none, gap := 0 },
   if x.1.heard then x.2 else x.2.notice .consoleBack kind (toWord x.1.silence))

/-- What follows a valid word's action: the discard count is set to 0 (R130). -/
def clearDiscards (x : ClockPort) : ClockPort := ({ x.1 with discards := 0 }, x.2)

/-- The value taken from a CLOCK word, v' of R132. -/
def takenValue (c : Clock) (run : Bool) (v : Nat) : Nat :=
  capAt (rangeTop c.up) (if run then (if c.up then v + c.comp else v - c.comp) else v)

/-- A CLOCK word adopted by a CONSOLE clock (R132). -/
def adoptWord (i : ClockId) (run : Bool) (v : Nat) (x : ClockPort) : ClockPort :=
  let c := x.1.clock i
  let v' := takenValue c run v
  let put (s : ClockState) : ClockUnit := x.1.setClock i { c with state := s, value := v' }
  if c.up then
    if run then (if v' = Config.upTop then limitClock i 1 x else (put .running, x.2))
    else (put .stopped, x.2)
  else if c.state = .expired then
    if v' = 0 then (if run then x else (put .stopped, x.2))
    else (put (if run then .running else .stopped),
          x.2.notice .clockRevived (clockCode i) (toWord v'))
  else if run then (if v' = 0 then expireClock i 1 x else (put .running, x.2))
  else (put .stopped, x.2)

/-- A valid CLOCK word: a LOCAL clock does not adopt it (R132, R133). -/
def clockWordOp (i : ClockId) (run : Bool) (v : Nat) (x : ClockPort) : ClockPort :=
  let y := hearWord 1 x
  clearDiscards (if (y.1.clock i).localSource then y else adoptWord i run v y)

/-- A valid HORN word (R134). -/
def hornWordOp (n : Nat) (x : ClockPort) : ClockPort := clearDiscards (requestHorn n (hearWord 2 x))

/-- A valid PERIOD word (R134). -/
def periodWordOp (n : Nat) (x : ClockPort) : ClockPort :=
  let y := hearWord 3 x
  clearDiscards ({ y.1 with score := { y.1.score with period := n } }, y.2)

/-- Byte `i` of a word as a number. -/
def wordAt (bs : List Byte) (i : Nat) : Nat := (tget 0 bs i).toNat

/-- The sum of bytes 1 to the end is 0 modulo 256 (R130). -/
def checkHolds (bs : List Byte) : Bool := (bs.drop 1).foldl (fun n b => n + b.toNat) 0 % 256 == 0

/-- A complete word judged: valid words act, others are discarded and counted (R130). -/
def judgeWord (bs : List Byte) (x : ClockPort) : ClockPort :=
  let kind := wordAt bs 1
  let len := wordAt bs 2
  let bad : ClockPort := (discardWord x.1, x.2)
  if !checkHolds bs then bad
  else if kind = 1 ∧ len = 5 ∧ wordAt bs 3 ≤ 1 ∧ wordAt bs 4 ≤ 1 then
    clockWordOp (clockOfCode (wordAt bs 3)) (wordAt bs 4 == 1)
      (wordAt bs 5 + 256 * wordAt bs 6 + 65536 * wordAt bs 7) x
  else if kind = 2 ∧ len = 2 then hornWordOp (wordAt bs 3 + 256 * wordAt bs 4) x
  else if kind = 3 ∧ len = 1 ∧ 1 ≤ wordAt bs 3 ∧ wordAt bs 3 ≤ 9 then periodWordOp (wordAt bs 3) x
  else bad

/-- A byte received on the console line (R129). One with a framing error is dropped while HUNTING too, whatever its
value: DEDUCED, log entry 42. -/
def receiveByte (b : Byte) (framingOk : Bool) (x : ClockPort) : ClockPort :=
  match x.1.word with
  | none => if framingOk && b == 126 then ({ x.1 with word := some [b], gap := 0 }, x.2) else x
  | some bs =>
    if !framingOk then (discardWord x.1, x.2)
    else
      let bs := bs ++ [b]
      if bs.length = 3 ∧ 8 < b.toNat then (discardWord x.1, x.2)
      else if 4 ≤ bs.length ∧ bs.length = 4 + wordAt bs 2 then
        judgeWord bs ({ x.1 with word := some bs, gap := 0 }, x.2)
      else ({ x.1 with word := some bs, gap := 0 }, x.2)

/-- The receiver's inter-byte timing over `dt` reference periods: a gap of more than 4 ms discards
the word in progress (R129). The gap is measured from the reception of one byte to the reception of the next: DESIGN
CHOICE, log entry 39. -/
def elapseGap (dt : Nat) (u : ClockUnit) : ClockUnit :=
  match u.word with
  | none => u
  | some _ =>
    if Config.gapPeriods < u.gap + dt then discardWord u else { u with gap := u.gap + dt }

/-- Loss of the reference: the horn is released and a word in progress is discarded (R129, R144). -/
def clockReferenceLost (u : ClockUnit) : ClockUnit := { discardWord u with horn := 0 }

/-! ## Flash counts (R146) -/

/-- A flash count at a frame mark. -/
def flashMark (u : ClockUnit) : ClockUnit :=
  { u with score := { u.score with homeFlash := u.score.homeFlash - 1
                                   guestFlash := u.score.guestFlash - 1 } }

/-! ## Desk cues (R137 to R140, R145) -/

/-- First field of a CLOCK_SETUP outside its encoding, by byte offset, in byte order (R138). -/
def clockSetupFault (q : ClockSetupCue) : Option Nat :=
  if 1 < q.clock then some 0
  else if 1 < q.source then some 1
  else if 1 < q.direction then some 2
  else if 1 < q.horn then some 3
  else if q.tenths < 1000 ∨ 600000 < q.tenths then some 4
  else if q.hornLength < 500 ∨ 3000 < q.hornLength then some 8
  else if 50 < q.comp then some 10
  else none

/-- State and value after a CLOCK_SETUP that passes, by what it changed (R138). -/
def setupState (c : Clock) (toLocal up : Bool) : ClockState × Nat :=
  if !toLocal then
    if c.localSource || c.up != up then (.noTime, 0) else (c.state, c.value)
  else if c.up != up then
    if c.state = .noTime then (.noTime, c.value) else (.stopped, capAt (rangeTop up) c.value)
  else if !c.localSource && (c.state == .running || c.state == .holdover) then (.running, c.value)
  else (c.state, c.value)

/-- CLOCK_SETUP (R138). -/
def clockSetupOp (slot : Nat) (q : ClockSetupCue) (x : ClockPort) : ClockPort :=
  match clockSetupFault q with
  | some off => (x.1, x.2.refuse .clock slot .badField (toWord off))
  | none =>
    let i := clockOfCode q.clock
    let sv := setupState (x.1.clock i) (q.source == 1) (q.direction == 1)
    (x.1.setClock i
       { localSource := q.source == 1, up := q.direction == 1, tenths := q.tenths,
         hornOn := q.horn == 1, hornLength := q.hornLength, comp := q.comp,
         state := sv.1, value := sv.2 },
     x.2.complete .clock slot .ok (toWord sv.1.code))

/-- State of a LOCAL clock after a CLOCK_SET of a value (R139). -/
def setState (c : Clock) (v : Nat) : ClockState :=
  if c.state = .running then
    if c.up then (if v = Config.upTop then .stopped else .running)
    else if v = 0 then .stopped else .running
  else .stopped

/-- CLOCK_SET (R139). -/
def clockSetOp (slot : Nat) (q : ClockSetCue) (x : ClockPort) : ClockPort :=
  if 1 < q.clock then (x.1, x.2.refuse .clock slot .badField 0)
  else
    let i := clockOfCode q.clock
    let c := x.1.clock i
    if !c.localSource then (x.1, x.2.refuse .clock slot .notLocal (toWord c.state.code))
    else
      let v := capAt (rangeTop c.up) q.value
      (x.1.setClock i { c with state := setState c v, value := v },
       x.2.complete .clock slot (okOr (v != q.value)) (toWord v))

/-- A LOCAL clock after CLOCK_RUN: STOPPED becomes RUNNING where it has somewhere to count (R140). -/
def runClock (c : Clock) : Clock :=
  if c.state = .stopped ∧ c.value ≠ (if c.up then Config.upTop else 0)
  then { c with state := .running } else c

/-- CLOCK_RUN (R140). -/
def clockRunOp (slot clock : Nat) (x : ClockPort) : ClockPort :=
  if 1 < clock then (x.1, x.2.refuse .clock slot .badField 0)
  else
    let i := clockOfCode clock
    let c := x.1.clock i
    if !c.localSource then (x.1, x.2.refuse .clock slot .notLocal (toWord c.state.code))
    else if c.state = .noTime then (x.1, x.2.refuse .clock slot .badField 1)
    else (x.1.setClock i (runClock c),
          x.2.complete .clock slot .ok (toWord (runClock c).state.code))

/-- A clock after CLOCK_STOP: RUNNING becomes STOPPED (R140). -/
def stopClock (c : Clock) : Clock := if c.state = .running then { c with state := .stopped } else c

/-- CLOCK_STOP (R140). -/
def clockStopOp (slot clock : Nat) (x : ClockPort) : ClockPort :=
  if 1 < clock then (x.1, x.2.refuse .clock slot .badField 0)
  else
    let i := clockOfCode clock
    let c := x.1.clock i
    if !c.localSource then (x.1, x.2.refuse .clock slot .notLocal (toWord c.state.code))
    else (x.1.setClock i (stopClock c),
          x.2.complete .clock slot .ok (toWord (stopClock c).state.code))

/-- A period clamped into 1..9 (R145). -/
def clampPeriod (n : Nat) : Nat := if n = 0 then 1 else capAt 9 n

/-- How many fields of a SCORE card are clamped (R145). -/
def scoreClamped (q : ScoreCue) : Nat :=
  flagNat (capAt 999 q.home != q.home) + flagNat (capAt 999 q.guest != q.guest) +
  flagNat (clampPeriod q.period != q.period) + flagNat (capAt 99 q.c0 != q.c0) +
  flagNat (capAt 99 q.c1 != q.c1) + flagNat (capAt 99 q.c2 != q.c2) +
  flagNat (capAt 99 q.c3 != q.c3)

/-- The score record after a SCORE card that passes (R145, R146). -/
def scoreAfter (s : Score) (q : ScoreCue) : Score :=
  { home := capAt 999 q.home, guest := capAt 999 q.guest, period := clampPeriod q.period,
    possession := q.possession, c0 := capAt 99 q.c0, c1 := capAt 99 q.c1, c2 := capAt 99 q.c2,
    c3 := capAt 99 q.c3,
    homeFlash := if capAt 999 q.home = s.home then s.homeFlash else 30,
    guestFlash := if capAt 999 q.guest = s.guest then s.guestFlash else 30 }

/-- SCORE (R145). -/
def scoreOp (slot : Nat) (q : ScoreCue) (x : ClockPort) : ClockPort :=
  if 2 < q.possession then (x.1, x.2.refuse .clock slot .badField 5)
  else ({ x.1 with score := scoreAfter x.1.score q },
        x.2.complete .clock slot (okOr (scoreClamped q != 0)) (toWord (scoreClamped q)))

/-! ## The display (R141, R142, R146) -/

/-- A number in decimal with no leading zero, as glyph codes. -/
def decimal (n : Nat) : List Byte := (Nat.toDigits 10 n).map fun c => BitVec.ofNat 8 c.toNat

/-- A number below 100 as two digits. -/
def twoDigits (n : Nat) : List Byte := [BitVec.ofNat 8 (48 + n / 10), BitVec.ofNat 8 (48 + n % 10)]

/-- Seconds shown as minutes and seconds. -/
def minutesString (s : Nat) : List Byte := decimal (s / 60) ++ [58] ++ twoDigits (s % 60)

/-- The display string of a clock (R141). -/
def clockString (c : Clock) : List Byte :=
  if c.state = .noTime then [45, 45, 58, 45, 45]
  else if c.up then minutesString (c.value / 1000)
  else
    let t := ceilDiv c.value 100
    if c.tenths ≤ t * 100 then minutesString (ceilDiv c.value 1000)
    else decimal (t / 10) ++ [46, BitVec.ofNat 8 (48 + t % 10)]

/-- A flashing item is drawn at flash count n (R146). -/
def flashDrawn (n : Nat) : Bool := n == 0 || (30 - n) / 5 % 2 == 0

/-- The string of a score item, empty where it is not drawn (R146). -/
def scoreString (s : Score) (item : Nat) : List Byte :=
  match item with
  | 0 => if flashDrawn s.homeFlash then decimal s.home else []
  | 1 => if flashDrawn s.guestFlash then decimal s.guest else []
  | 2 => decimal s.period
  | 3 => if s.possession = 1 then [60] else if s.possession = 2 then [62] else []
  | 4 => decimal s.c0
  | 5 => decimal s.c1
  | 6 => decimal s.c2
  | _ => decimal s.c3

/-! ## The clock record (R143) -/

/-- The four bytes of a word. -/
def leBytes (w : Word) : List Byte := [wordByte w 0, wordByte w 1, wordByte w 2, wordByte w 3]

/-- The two bytes of a half. -/
def leHalf (n : Nat) : List Byte := [wordByte (toWord n) 0, wordByte (toWord n) 1]

/-- A display string padded to 8 codes with 32. -/
def padded (bs : List Byte) : List Byte := (bs ++ List.replicate 8 32).take 8

/-- A flag as a byte. -/
def flagByte (b : Bool) : Byte := if b then 1 else 0

/-- The block of one clock: bytes 16 + k to 38 + k (8.7). -/
def clockBlock (c : Clock) : List Byte :=
  [BitVec.ofNat 8 c.state.code, flagByte c.localSource, flagByte c.up, flagByte c.hornOn] ++
  leBytes (toWord c.value) ++ padded (clockString c) ++ leBytes (toWord c.tenths) ++
  leHalf c.hornLength ++ [BitVec.ofNat 8 c.comp]

/-- Bytes 4 to 15 of the clock record. -/
def recordHead (u : ClockUnit) (tick : Word) : List Byte :=
  leBytes tick ++ [flagByte u.heard, flagByte (decide (0 < u.horn))] ++ leHalf u.horn ++
  leBytes (toWord u.discards)

/-- Bytes 80 to 91 of the clock record. -/
def scoreBlock (s : Score) : List Byte :=
  leHalf s.home ++ leHalf s.guest ++
  [BitVec.ofNat 8 s.period, BitVec.ofNat 8 s.possession, BitVec.ofNat 8 s.c0, BitVec.ofNat 8 s.c1,
   BitVec.ofNat 8 s.c2, BitVec.ofNat 8 s.c3, BitVec.ofNat 8 s.homeFlash, BitVec.ofNat 8 s.guestFlash]

/-- The clock record written under its edit count; bytes 39 + k to 47 + k and 92 to 95 are not
written (R143). -/
def writeClockRecord (x : ClockPort) : ClockPort :=
  let u := x.1
  let p := x.2
  let a := p.areaBase 6
  let p := p.poke a (u.edit + 1)
  let m := memWriteBytes p.mem (a + 4) (recordHead u p.showTick ++ clockBlock u.game)
  let m := memWriteBytes m (a + 48) (clockBlock u.aux)
  let m := memWriteBytes m (a + 80) (scoreBlock u.score)
  ({ u with edit := u.edit + 2 }, ({ p with mem := m }).poke a (u.edit + 2))

/-- CONSOLE_LOST at the mark of entry, while the line is LOST: it names the clocks now in HOLDOVER
(R148). -/
def clockEntryNotice (x : ClockPort) : ClockPort :=
  if x.1.heard then x
  else (x.1, x.2.notice .consoleLost
    (bothCode (x.1.game.state == .holdover) (x.1.aux.state == .holdover)) (toWord x.1.discards))

end Sys2Proof.Machine
end

