-- ==== Sys2Proof/Machine/Sections.lean ====
section
/-! DEFINITION. Sections, the segment map, segment health and the panel links (chapter 3). -/

namespace Sys2Proof.Machine

/-- The section table with the Port it reports to. -/
abbrev SectionsPort := Sections × Port

/-- The ribbon segment 0..67 that backs a ribbon section (R37). -/
def Sections.backing (c : Sections) (r : Nat) : Nat := tget 0 c.map r

/-- The ribbon section a ribbon segment backs, if any (R37). -/
def Sections.backed (c : Sections) (g : Nat) : Option Nat :=
  (List.range 64).find? fun r => c.backing r == g

/-- The segment that displays a section, numbered MAIN 0..15 and RIBBON 16..83 (R41). -/
def Sections.segmentOf (c : Sections) (i : Nat) : Nat := if i < 16 then i else 16 + c.backing (i - 16)

/-- A segment's number on its own canvas, as notices give it (R44). -/
def segmentNumber (g : Nat) : Nat := if g < 16 then g else g - 16

/-- Health record of a segment. -/
def Sections.segHealth (c : Sections) (g : Nat) : SegHealth := tget ⟨true, 0⟩ c.health g

/-- The state of a section by its table index (R41). -/
def Sections.stateOf (c : Sections) (i : Nat) : SectionState :=
  if tget false c.forced i then .out
  else if (c.segHealth (c.segmentOf i)).live then .live else .dead

/-- Result codes of a section state (R42). -/
def SectionState.code : SectionState → Nat
  | .live => 0 | .dead => 1 | .out => 2

/-- The sections' states as they now stand. -/
def Sections.newStates (c : Sections) : List SectionState := (List.range 80).map c.stateOf

/-! ## Health reports (R38 to R40) -/

/-- The segment at a position of a link, none for a position the link does not carry (R36). -/
def linkSegment (link position : Nat) : Option Nat :=
  if link < 4 then (if position < 4 then some (4 * link + position) else none)
  else if link < 8 then
    if position < 16 then some (16 + 16 * (link - 4) + position)
    else if position = 16 then some (16 + 64 + (link - 4)) else none
  else none

/-- A buffer after a well-formed report (R38). -/
def Report.after (b : Report) : HealthSays → Report
  | .ok => if b = .absent then .ok else b
  | .fault => .fault

/-- A health report arriving on a link (R38). -/
def Sections.report (c : Sections) (link position : Nat) (says' : HealthSays) (checkOk : Bool) :
    Sections :=
  match linkSegment link position with
  | some g =>
    if checkOk then
      { c with buffer := tset .absent c.buffer g ((tget .absent c.buffer g).after says') }
    else c
  | none => c

/-- A health record after a frame whose report buffer is given (R39). -/
def SegHealth.after (h : SegHealth) (b : Report) : SegHealth :=
  if h.live = (b == .ok) then { h with runCount := 0 }
  else if h.runCount < Config.runLimit then { h with runCount := h.runCount + 1 }
  else { live := !h.live, runCount := 0 }

/-- The health work of a mark that ends a frame: every record is updated by its buffer (R39). -/
def Sections.countHealth (c : Sections) : Sections :=
  { c with health := tmapFrom (fun g h => SegHealth.after h (tget .absent c.buffer g)) 0 c.health }

/-- The buffers made ABSENT for the frame a mark begins (R38, R40). -/
def Sections.clearBuffers (c : Sections) : Sections :=
  { c with buffer := List.replicate 84 .absent }

/-- One segment's health work alone. -/
def Sections.countSegment (c : Sections) (g : Nat) : Sections :=
  { c with health := tset ⟨true, 0⟩ c.health g ((c.segHealth g).after (tget .absent c.buffer g))
           buffer := tset .absent c.buffer g .absent }

/-- A segment whose next health work turns it (R39). -/
def Sections.turns (c : Sections) (g : Nat) : Bool :=
  decide (g < 84) && ((c.segHealth g).after (tget .absent c.buffer g)).live != (c.segHealth g).live

/-! ## Section states and notices (R41, R44) -/

/-- The notice of one section at a mark: at entry, SECTION_DEAD for each that is not LIVE; else
SECTION_DEAD or SECTION_LIVE for each that left or became LIVE (R44). -/
def sectionNotice (c : Sections) (entry : Bool) (p : Port) (i : Nat) : Port :=
  let before := tget .live c.states i
  let now := c.stateOf i
  let value := toWord (segmentNumber (c.segmentOf i))
  if entry then (if now = .live then p else p.notice .sectionDead i value)
  else if before = .live ∧ now ≠ .live then p.notice .sectionDead i value
  else if before ≠ .live ∧ now = .live then p.notice .sectionLive i value
  else p

/-- The states for the frame being begun are taken, with their notices in rising table index; in
CONFIG no notice is written (R41, R44). -/
def settleSections (entry : Bool) (x : SectionsPort) : SectionsPort :=
  ({ x.1 with states := x.1.newStates },
   (List.range 80).foldl (sectionNotice x.1 entry) x.2)

/-! ## SET_SECTION (R42, R43) -/

/-- What a SET_SECTION card comes to: refused, or the table after it and the section it names. -/
inductive SectionVerdict where
  | refused (o : CardOutcome) (r : Word)
  | accepted (c : Sections) (index : Nat)

/-- The MAP action (R43). -/
def Sections.remap (c : Sections) (r g : Nat) : SectionVerdict :=
  if c.backing r = g then .accepted c (16 + r)
  else match c.backed g with
    | some q => .refused .inUse (toWord (16 + q))
    | none => .accepted { c with map := tset 0 c.map r g } (16 + r)

/-- A SET_SECTION card checked and applied to the table (R42). -/
def Sections.apply (c : Sections) (q : SectionCue) : SectionVerdict :=
  if 1 < q.canvas ∨ 2 < q.action ∨ (q.canvas = 0 ∧ 15 < q.sect) ∨ (q.canvas = 1 ∧ 63 < q.sect)
  then .refused .badField 0
  else
    let i := if q.canvas = 0 then q.sect else 16 + q.sect
    if q.action = 2 then
      if q.canvas = 0 ∨ 67 < q.segment then .refused .badField 0 else c.remap q.sect q.segment
    else .accepted { c with forced := tset false c.forced i (q.action == 1) } i

/-- A SET_SECTION card applied; an accepted card's slot and section are given back, since its result
is the state of the section when the mark's work is done (R41, R42). -/
def setSectionOp (slot : Nat) (q : SectionCue) (x : SectionsPort) :
    SectionsPort × Option (Nat × Nat) :=
  match x.1.apply q with
  | .refused o r => ((x.1, x.2.refuse .plan slot o r), none)
  | .accepted c i => ((c, x.2), some (slot, i))

/-- An accepted SET_SECTION card's slot goes DONE with the section's state as result (R42). -/
def finishSection (c : Sections) (p : Port) (k : Nat × Nat) : Port :=
  p.complete .plan k.1 .ok (toWord (c.stateOf k.2).code)

/-! ## Geometry (R35, R49) and the links (R36) -/

/-- The canvas and pixels of a section under the given canvas sizes (R35). -/
def sectionRect (z : Sizes) (i : Nat) : Canvas × Rect :=
  if i < 16 then
    (.main, ⟨i % 4 * (z.mainW / 4), i / 4 * (z.mainH / 4), z.mainW / 4, z.mainH / 4⟩)
  else (.ribbon, ⟨(i - 16) * (z.ribbonW / 64), 0, z.ribbonW / 64, z.ribbonH⟩)

/-- The pixel ranges of the unusable sections of a canvas (R49). -/
def unusableRects (z : Sizes) (states : List SectionState) (c : Canvas) : List Rect :=
  ((List.range 80).filter fun i =>
    tget .live states i != .live && (sectionRect z i).1 == c).map fun i => (sectionRect z i).2

/-- Canvas sizes in force, or the largest where none has been validated (R35). -/
def Port.sizesInForce (p : Port) : Sizes := p.sizes.getD .largest

/-- The segments of a link in link order (R36). -/
def linkOrder (link : Nat) : List Nat := (List.range 17).filterMap (linkSegment link)

/-- What each segment is sent at a mark: the pixels of a section, or black (R36). -/
def Sections.newFeeds (c : Sections) : List (Option Nat) :=
  (List.range 84).map fun g =>
    if g < 16 then some g else (c.backed (g - 16)).map (16 + ·)

/-- The frames handed to the links at a mark (R36). -/
def Sections.send (c : Sections) : Sections := { c with feeds := c.newFeeds }

end Sys2Proof.Machine
end

