-- ==== Sys2Proof/Machine/Zones.lean ====
section
/-! DEFINITION. Zone records, their validation, and the visibility of a zone: cuts, fades, reversals,
yielding and adoption (chapter 2, R14 to R28). -/

namespace Sys2Proof.Machine

/-! ## Records and validation (R15, R16) -/

/-- Zone kinds by code (R14). -/
def kindOfCode : Nat → Option ZoneKind
  | 0 => some .live | 1 => some .replay | 2 => some .placement | 3 => some .clock
  | 4 => some .score | 5 => some .message | 6 => some .still | _ => none

/-- How many sources a kind has (R14). -/
def sourceCount : ZoneKind → Nat
  | .live => 4 | .replay => 2 | .placement => 8 | .clock => 2 | .score => 8 | .message => 4
  | .still => 512

/-- Two rectangles have at least one pixel in common (R14). -/
def Rect.overlaps (a b : Rect) : Bool :=
  decide (a.x < b.x + b.w) && decide (b.x < a.x + a.w) &&
  decide (a.y < b.y + b.h) && decide (b.y < a.y + a.h)

/-- Size of a canvas. -/
def Sizes.of (z : Sizes) : Canvas → Nat × Nat
  | .main => (z.mainW, z.mainH)
  | .ribbon => (z.ribbonW, z.ribbonH)

/-- The canvas a code names. -/
def canvasOfCode (n : Nat) : Canvas := if n = 0 then .main else .ribbon

/-- A record fails on its own (R15). -/
def recFails (z : Sizes) (r : ZoneRec) : Bool :=
  let size := z.of (canvasOfCode r.canvas)
  decide (15 < r.id) || decide (15 < r.rank) || decide (1 < r.canvas) || decide (1 < r.cover) ||
  decide (1 < r.vis) || decide (1 < r.yields) || decide (1 < r.transition) ||
  (r.transition == 1 && (r.fade == 0 || decide (60 < r.fade))) ||
  decide (r.w < 16) || decide (r.h < 16) ||
  decide (size.1 < r.x + r.w) || decide (size.2 < r.y + r.h) ||
  (match kindOfCode r.kind with
   | none => true
   | some k => decide (sourceCount k ≤ r.source))

/-- The rectangle of a record. -/
def ZoneRec.rect (r : ZoneRec) : Rect := ⟨r.x, r.y, r.w, r.h⟩

/-- A record fails against an earlier one (R16). Kind code 3 is CLOCK, 5 is MESSAGE. -/
def pairFails (e r : ZoneRec) : Bool :=
  e.id == r.id || (e.canvas == r.canvas && e.rank == r.rank) ||
  (e.kind == 5 && r.kind == 5 && e.source == r.source) ||
  (e.canvas == r.canvas && (ZoneRec.rect e).overlaps (ZoneRec.rect r) &&
    ((e.kind == 3 && decide (e.rank < r.rank)) || (r.kind == 3 && decide (r.rank < e.rank))))

/-- The position of the first faulty record, each checked alone and then against every earlier one
(R15, R16). -/
def firstFault (z : Sizes) : Nat → List ZoneRec → List ZoneRec → Option Nat
  | _, _, [] => none
  | i, earlier, r :: rs =>
    if recFails z r || earlier.any (pairFails · r) then some i
    else firstFault z (i + 1) (earlier ++ [r]) rs

/-- The result value of a faulty plan, none for a plan that passes (R15). -/
def planFault (z : Sizes) (q : PlanCue) : Option Nat :=
  if q.count = 0 ∨ 16 < q.count then some 16 else firstFault z 0 [] (q.recs.take q.count)

/-- A validated record as a zone (R14). -/
def zoneOfRec (r : ZoneRec) : Zone :=
  { id := r.id, canvas := canvasOfCode r.canvas, rect := ⟨r.x, r.y, r.w, r.h⟩, rank := r.rank,
    kind := (kindOfCode r.kind).getD .live, source := r.source, sheer := r.cover == 1,
    startShown := r.vis == 1, yields := r.yields == 1,
    fade := if r.transition = 1 then some r.fade else none }

/-! ## Visibility (R23 to R26) -/

/-- A zone in a transition (R23). -/
def Visibility.fading : Visibility → Bool
  | .fadingIn _ _ => true
  | .fadingOut _ _ => true
  | _ => false

/-- FADING_IN, SHOWN or FADING_OUT. -/
def Visibility.drawn : Visibility → Bool
  | .hidden => false
  | _ => true

/-- The opacity of a zone (R23). -/
def Visibility.alpha : Visibility → Nat
  | .hidden => 0
  | .fadingIn s n => 256 * s / (n + 1)
  | .shown => 256
  | .fadingOut s n => 256 * s / (n + 1)

/-- A zone drawn in the frame (R29). -/
def ZoneRun.drawn (z : ZoneRun) : Bool := z.vis.drawn && !z.yielded

/-- A fade whose last step has been drawn ends (R23). -/
def Visibility.ended : Visibility → Visibility
  | .fadingIn s n => if n ≤ s then .shown else .fadingIn s n
  | .fadingOut s n => if s ≤ 1 then .hidden else .fadingOut s n
  | v => v

/-- The next step of a fade (R23). -/
def Visibility.stepped : Visibility → Visibility
  | .fadingIn s n => .fadingIn (s + 1) n
  | .fadingOut s n => .fadingOut (s - 1) n
  | v => v

/-- The step a zone draws in the frame being begun: a fade settled at this mark keeps its step, any
other moves by one (R23, R26). -/
def ZoneRun.step (z : ZoneRun) : ZoneRun :=
  if z.fresh then { z with fresh := false } else { z with vis := z.vis.stepped }

/-- A zone whose fade's last step has been drawn, its transition ended (R23). -/
def ZoneRun.endFade (z : ZoneRun) : ZoneRun := { z with vis := z.vis.ended }

/-- What SHOW_ZONE does to a zone under a transition, and its result; none for no effect. `cut` says
that a plan is staged, so the cue acts as a CUT (R18, R24, R26). A fade begun by an earlier cue of the same take
is reversed like any other, at its step: DESIGN CHOICE, log entry 37. -/
def showEffect (z : ZoneRun) (fade : Option Nat) (cut : Bool) : Option (ZoneRun × Nat) :=
  match z.vis with
  | .shown => none
  | .fadingIn _ _ =>
    if z.yielded then some ({ z with vis := .shown, fresh := false }, 0) else none
  | .hidden =>
    if z.yielded || cut then some ({ z with vis := .shown, fresh := false }, 0)
    else match fade with
      | none => some ({ z with vis := .shown, fresh := false }, 0)
      | some n => some ({ z with vis := .fadingIn 1 n, fresh := true }, n)
  | .fadingOut s n =>
    if z.yielded || cut then some ({ z with vis := .shown, fresh := false }, 0)
    else some ({ z with vis := .fadingIn s n, fresh := true }, n + 1 - s)

/-- What HIDE_ZONE does to a zone under a transition, and its result; none for no effect (R18, R25,
R26). A fade begun by an earlier cue of the same take is reversed like any other, at its step: DESIGN CHOICE, log
entry 37. -/
def hideEffect (z : ZoneRun) (fade : Option Nat) (cut : Bool) : Option (ZoneRun × Nat) :=
  match z.vis with
  | .hidden => none
  | .fadingOut _ _ =>
    if z.yielded then some ({ z with vis := .hidden, fresh := false }, 0) else none
  | .shown =>
    if z.yielded || cut then some ({ z with vis := .hidden, fresh := false }, 0)
    else match fade with
      | none => some ({ z with vis := .hidden, fresh := false }, 0)
      | some n => some ({ z with vis := .fadingOut n n, fresh := true }, n)
  | .fadingIn s n =>
    if z.yielded || cut then some ({ z with vis := .hidden, fresh := false }, 0)
    else some ({ z with vis := .fadingOut s n, fresh := true }, s)

/-- The transition a zone cue uses: its override, or the zone's own (R24). -/
def cueFade (z : Zone) (q : ZoneCue) : Option Nat :=
  if q.override = 0 then z.fade else if q.override = 1 then none else some q.len

/-- The override of a zone cue is unknown or its FADE has a length outside 1..60 (R24). -/
def overrideFails (q : ZoneCue) : Bool :=
  decide (2 < q.override) || (q.override == 2 && (q.len == 0 || decide (60 < q.len)))

/-! ## Yielding (R28) -/

/-- A zone the urgent yield applies to (R28). -/
def Zone.yieldsNow (z : Zone) : Bool := z.kind == .placement && z.yields

/-- A fade ended by the beginning of a yield (R28). -/
def Visibility.settled : Visibility → Visibility
  | .fadingIn _ _ => .shown
  | .fadingOut _ _ => .hidden
  | v => v

/-- A zone at the mark at which the yield begins (R28). -/
def ZoneRun.yield (z : ZoneRun) : ZoneRun :=
  if z.zone.yieldsNow then { z with yielded := true, vis := z.vis.settled, fresh := false } else z

/-- A zone at the mark at which the yield ends (R28). -/
def ZoneRun.unyield (z : ZoneRun) : ZoneRun := { z with yielded := false }

/-- The zones of the active plan. -/
def Compositor.zones (c : Compositor) : List ZoneRun := (c.active.map (·.zones)).getD []

/-- The zones of the active plan passed through a function. -/
def Compositor.mapZones (c : Compositor) (f : ZoneRun → ZoneRun) : Compositor :=
  { c with active := c.active.map fun a => { a with zones := a.zones.map f } }

/-- The zone of the active plan with an id. -/
def Compositor.zone (c : Compositor) (id : Nat) : Option ZoneRun :=
  c.zones.find? fun z => z.zone.id == id

/-- The zone with an id replaced. -/
def Compositor.setZone (c : Compositor) (z : ZoneRun) : Compositor :=
  c.mapZones fun y => if y.zone.id = z.zone.id then z else y

/-- Urgent yield begins (R28). -/
def Compositor.beginYield (c : Compositor) : Compositor :=
  { c.mapZones ZoneRun.yield with urgentYield := true }

/-- Urgent yield ends (R28). -/
def Compositor.endYield (c : Compositor) : Compositor :=
  { c.mapZones ZoneRun.unyield with urgentYield := false }

/-- No zone of the active plan is in a transition (R19). -/
def Compositor.still (c : Compositor) : Bool := c.zones.all fun z => !z.vis.fading

/-! ## Adoption (R20) -/

/-- A zone of the new plan is continuing from an old zone: same id, kind and source (R20). -/
def continues (old new : Zone) : Bool :=
  old.id == new.id && old.kind == new.kind && old.source == new.source

/-- Visibility of a new zone from the adoption frame, and whether a fade is fresh (R20). -/
def newVisibility (z : Zone) : Visibility :=
  if z.startShown then
    match z.fade with
    | none => .shown
    | some n => .fadingIn 1 n
  else .hidden

/-- Visibility of a zone of the new plan, before images and yield are looked at (R20). -/
def adoptedVisibility (old : List ZoneRun) (z : Zone) : Visibility :=
  match old.find? fun o => continues o.zone z with
  | some o =>
    if o.vis = .shown then (if z.startShown then .shown else .hidden) else newVisibility z
  | none => newVisibility z

/-- A STILL zone that would be drawn without a READY image is adopted HIDDEN (R20). -/
def wantsImage (old : List ZoneRun) (ready : Nat → Bool) (z : Zone) : Bool :=
  z.kind == .still && (adoptedVisibility old z).drawn && !ready z.source

/-- A zone of the new plan as adopted (R20). `yieldOn` is the yield as the Lanes have left it at the frame before: one
that ends at the mark of adoption is still in force for the adoption (DESIGN CHOICE, log entry 43). -/
def adoptZone (old : List ZoneRun) (yieldOn : Bool) (ready : Nat → Bool) (z : Zone) : ZoneRun :=
  let v := if wantsImage old ready z then .hidden else adoptedVisibility old z
  if yieldOn && z.yieldsNow then { zone := z, vis := v.settled, yielded := true, fresh := false }
  else { zone := z, vis := v, yielded := false, fresh := v.fading }

end Sys2Proof.Machine
end

