-- ==== Sys2Proof/Machine/Exposure.lean ====
section
/-! DEFINITION. The Exposure Meter Unit: covers, visible area, permille, base weight and frame weight
(chapter 4). -/

namespace Sys2Proof.Machine

/-- Zone `y` covers zone `z` (R48). -/
def covers (y z : ZoneRun) : Bool :=
  y.zone.canvas == z.zone.canvas && decide (z.zone.rank < y.zone.rank) && !y.zone.sheer && y.drawn

/-- A rectangle less another: the strips above and below, then the pieces left and right. -/
def Rect.minus (a b : Rect) : List Rect :=
  if a.overlaps b then
    let y0 := max a.y b.y
    let y1 := min (a.y + a.h) (b.y + b.h)
    [⟨a.x, a.y, a.w, y0 - a.y⟩, ⟨a.x, y1, a.w, a.y + a.h - y1⟩,
     ⟨a.x, y0, b.x - a.x, y1 - y0⟩,
     ⟨b.x + b.w, y0, a.x + a.w - (b.x + b.w), y1 - y0⟩]
  else [a]

/-- Pixels of a rectangle. -/
def Rect.area (a : Rect) : Nat := a.w * a.h

/-- What is left of a list of disjoint rectangles when each of the covers is taken away. -/
def uncovered (rs covers : List Rect) : List Rect :=
  covers.foldl (fun rs c => rs.flatMap (·.minus c)) rs

/-- The number of pixels of a rectangle that lie in none of the covers (R50). -/
def visiblePixels (r : Rect) (covers : List Rect) : Nat :=
  ((uncovered [r] covers).map Rect.area).sum

/-- The regions that take area from a zone: its covers, and the unusable sections of its canvas
(R49, R50). -/
def hiddenRegions (zones : List ZoneRun) (z : ZoneRun) (unusable : Canvas → List Rect) : List Rect :=
  ((zones.filter (covers · z)).map (·.zone.rect)) ++ unusable z.zone.canvas

/-- Permille from visible area and area (R53). -/
def permille (visible area : Nat) : Nat := visible * 1000 / area

/-- Base weight from permille and the thresholds in force (R53). -/
def baseWeight (t : Thresholds) (p : Nat) : Nat :=
  if t.full ≤ p then 256
  else if p < t.floor then 0
  else 256 * (p - t.floor) / (t.full - t.floor)

/-- A zone that can earn credit (chapter 4). -/
def Zone.measured (z : Zone) : Bool := z.kind == .placement || z.kind == .message

/-- What the Unit holds for one measured zone (R47, R50, R53). -/
def measureZone (t : Thresholds) (zones : List ZoneRun) (unusable : Canvas → List Rect)
    (z : ZoneRun) : Measure :=
  let a := z.zone.rect.area
  let v := visiblePixels z.zone.rect (hiddenRegions zones z unusable)
  { zone := z.zone.id, area := a, visible := v, permille := permille v a,
    base := baseWeight t (permille v a) }

/-- The values the Unit holds, recomputed for the frame being begun (R51, R52). -/
def Blocks.measure (b : Blocks) (states : List SectionState) : Blocks :=
  { b with measures := match b.port.thresholds with
      | none => []
      | some t =>
        ((b.comp.zones.filter (·.zone.measured)).map
          (measureZone t b.comp.zones (unusableRects b.port.sizesInForce states))) }

/-- The base weight held for a zone. -/
def Blocks.baseOf (b : Blocks) (id : Nat) : Nat :=
  ((b.measures.find? fun m => m.zone == id).map (·.base)).getD 0

/-- The frame weight of a zone (R54). -/
def Blocks.weight (b : Blocks) (z : ZoneRun) : Nat :=
  if b.port.running && z.vis == .shown && !z.yielded then b.baseOf z.zone.id else 0

end Sys2Proof.Machine
end

