-- ==== Sys2Proof/Machine/Rotator.lean ====
section
/-! DEFINITION. The Placement Rotator: entries, the meter table, groups, selection, airings, credit and
the image bank (chapter 5). -/

namespace Sys2Proof.Machine

/-! ## Tables -/

/-- An entry, none where UNSET (R61). -/
def Rotator.entry (r : Rotator) (e : Nat) : Option Entry := tget none r.entries e

/-- An entry replaced. -/
def Rotator.setEntry (r : Rotator) (e : Nat) (x : Option Entry) : Rotator :=
  { r with entries := tset none r.entries e x }

/-- A group, none where unset (R67). -/
def Rotator.group (r : Rotator) (g : Nat) : Option Group := tget none r.groups g

/-- A group replaced. -/
def Rotator.setGroup (r : Rotator) (g : Nat) (x : Option Group) : Rotator :=
  { r with groups := tset none r.groups g x }

/-- An image slot (R81). -/
def Rotator.slot (r : Rotator) (i : Nat) : BankSlot := tget .empty r.bank i

/-- An image slot replaced. -/
def Rotator.setSlot (r : Rotator) (i : Nat) (x : BankSlot) : Rotator :=
  { r with bank := tset .empty r.bank i x }

/-- A READY slot (R81). -/
def BankSlot.isReady : BankSlot → Bool
  | .ready _ _ _ _ => true
  | _ => false

/-- A LOADING slot (R81). -/
def BankSlot.isLoading : BankSlot → Bool
  | .loading _ => true
  | _ => false

/-- Blocks held by a slot (R81). -/
def BankSlot.blocks : BankSlot → Nat
  | .empty => 0
  | .loading n => n
  | .ready _ _ n _ => n

/-- Free blocks of the image bank (R81). -/
def Rotator.freeBlocks (r : Rotator) : Nat := Config.bankBlocks - (r.bank.map BankSlot.blocks).sum

/-- The blocks with the Port changed. -/
def Blocks.onPort (b : Blocks) (f : Port → Port) : Blocks := { b with port := f b.port }

/-- The blocks with the Rotator changed. -/
def Blocks.onRot (b : Blocks) (f : Rotator → Rotator) : Blocks := { b with rot := f b.rot }

/-! ## The meter table (R66) -/

/-- First byte of an entry of the meter table (5.3). -/
def Port.meterAddr (p : Port) (e : Nat) : Nat := p.areaBase 5 + 32 * e

/-- Bytes 4 to 27 of a meter-table entry (5.3). -/
def meterBytes (x : Entry) : List Byte :=
  let le (w : Word) : List Byte := [wordByte w 0, wordByte w 1, wordByte w 2, wordByte w 3]
  [1, BitVec.ofNat 8 x.category, wordByte (toWord x.image) 0, wordByte (toWord x.image) 1] ++
  le (intWord x.meter) ++ le (toWord x.quota) ++ le (toWord x.onAir) ++ le (toWord x.airings) ++
  le (toWord x.dwell)

/-- Bytes of a meter-table entry from byte 4 on, written under the edit count kept for it (R66). -/
def Blocks.writeMeter (b : Blocks) (e : Nat) (bytes : List Byte) : Blocks :=
  let k := tget 0 b.rot.edits e
  let a := b.port.meterAddr e
  let p := b.port.poke a (k + 1)
  let p := { p with mem := memWriteBytes p.mem (a + 4) bytes }
  { b with port := p.poke a (k + 2), rot := { b.rot with edits := tset 0 b.rot.edits e (k + 2) } }

/-- An entry takes new values and its meter-table entry is written (R66). -/
def Blocks.putEntry (b : Blocks) (e : Nat) (x : Entry) : Blocks :=
  (b.onRot (·.setEntry e (some x))).writeMeter e (meterBytes x)

/-! ## Airings (R73 to R76) -/

/-- Why an airing ends, with the codes of R76. -/
inductive AiringEnd where
  | dwell | holdLimit | planChange | entryChanged | entryDropped | stop
  deriving DecidableEq, Repr

/-- End reason codes (R76). -/
def AiringEnd.code : AiringEnd → Nat
  | .dwell => 0 | .holdLimit => 1 | .planChange => 2 | .entryChanged => 3 | .entryDropped => 4
  | .stop => 5

/-- The record of an airing at its end (5.8, R76). -/
def airingRecord (r : Rotator) (reason : AiringEnd) (tick : Word) (a : Airing) : LogRecord :=
  { kind := 1, endCode := reason.code, place := a.zone, group := a.group, entry := a.entry,
    slot := ((r.entry a.entry).map (·.image)).getD 0, start := a.start, stop := tick,
    shown := a.shown, credited := a.credited, credits := a.credits, number := toWord a.number }

/-- The airings that satisfy a test end with a reason: their records are handed to the log in
increasing zone id, and they leave the open airings (R76). -/
def Blocks.endAirings (b : Blocks) (test : Airing → Bool) (reason : AiringEnd) : Blocks :=
  let ending := sortBy (·.zone) (b.rot.airings.filter test)
  let p := ending.foldl (fun p a => p.log (airingRecord b.rot reason p.showTick a)) b.port
  { b with port := p, rot := { b.rot with airings := b.rot.airings.filter fun a => !test a } }

/-- How an airing stands with its dwell at a mark: complete, at its hold limit, or neither (R75). -/
def Airing.due (a : Airing) : Option AiringEnd :=
  if a.seen then
    if a.dwell ≤ a.credited then some .dwell
    else if 3 * a.dwell ≤ a.shown then some .holdLimit else none
  else if a.dwell ≤ a.shown then some .dwell else none

/-- The airing of one zone ends where it is due with the given reason (R75). -/
def Blocks.endDue (b : Blocks) (reason : AiringEnd) (zone : Nat) : Blocks :=
  b.endAirings (fun a => a.zone == zone && a.due == some reason) reason

/-- The examination of every open airing at a mark (R75, R76). Airings of different zones are taken by rising zone
id, and so are their records: DESIGN CHOICE, log entry 25. -/
def Blocks.dwellWork (b : Blocks) : Blocks :=
  (List.range 16).foldl (fun b z => (b.endDue .dwell z).endDue .holdLimit z) b

/-! ## Setting and dropping entries (R62 to R65) -/

/-- A SET_ENTRY card fails its checks (R62). -/
def entryCueFails (q : EntryCue) : Bool :=
  decide (127 < q.entry) || decide (511 < q.image) || decide (q.dwell < 60) ||
  decide (36000 < q.dwell) || q.quota == 0 || decide (1073741824 < q.quota) ||
  decide (31 < q.category) || decide (1 < q.enabled) || decide (1 < q.keepMeter)

/-- The entry a SET_ENTRY card makes, with a meter and counts (R63, R64). -/
def entryOf (q : EntryCue) (meter : Int) (onAir airings : Nat) : Entry :=
  { image := q.image, dwell := q.dwell, quota := q.quota, category := q.category,
    enabled := q.enabled == 1, meter, onAir, airings }

/-- The meter kept by a keep-meter SET_ENTRY, as the table's word stands, clamped (R64). -/
def keptMeter (q : EntryCue) (m : Word) : Int := clampInt (-(q.quota : Int)) Config.meterTop m.toInt

/-- SET_ENTRY (R62 to R64). -/
def setEntryOp (slot : Nat) (q : EntryCue) (b : Blocks) : Blocks :=
  if entryCueFails q then b.onPort (·.refuse .rotation slot .badField 0)
  else
    let ended := (b.rot.airings.filter fun a => a.entry == q.entry).length
    let b := b.endAirings (fun a => a.entry == q.entry) .entryChanged
    if q.keepMeter = 1 then
      let a := b.port.meterAddr q.entry
      let w := memWord b.port.mem (a + 8)
      let x := entryOf q (keptMeter q w) (memWord b.port.mem (a + 16)).toNat
        (memWord b.port.mem (a + 20)).toNat
      (b.putEntry q.entry x).onPort
        (·.complete .rotation slot (okOr (keptMeter q w != w.toInt)) (toWord ended))
    else
      (b.putEntry q.entry (entryOf q (-(q.quota : Int)) 0 0)).onPort
        (·.complete .rotation slot .ok (toWord ended))

/-- Held SPONSORED cards that link an entry have their links cut (R165). -/
def Lanes.cutLinks (l : Lanes) (e : Nat) : Lanes :=
  { l with queue := l.queue.map fun c =>
      if c.cls = .sponsored ∧ c.linked = e then { c with linkIntact := false } else c }

/-- DROP_ENTRY (R65). -/
def dropEntryOp (slot entry : Nat) (b : Blocks) : Blocks :=
  if 127 < entry then b.onPort (·.refuse .rotation slot .badField 0)
  else match b.rot.entry entry with
    | none => b.onPort (·.complete .rotation slot .ok 0)
    | some _ =>
      let ended := (b.rot.airings.filter fun a => a.entry == entry).length
      let b := b.endAirings (fun a => a.entry == entry) .entryDropped
      let b := (b.onRot (·.setEntry entry none)).writeMeter entry [0]
      { b with lanes := b.lanes.cutLinks entry,
               port := b.port.complete .rotation slot .ok (toWord ended) }

/-! ## Groups (R67, R68) -/

/-- The position of the first id above 127 or equal to an earlier one (R68). -/
def firstBadId : Nat → List Nat → List Nat → Option Nat
  | _, _, [] => none
  | i, earlier, e :: r =>
    if 127 < e ∨ e ∈ earlier then some i else firstBadId (i + 1) (earlier ++ [e]) r

/-- The cursor carried over to a new list (R68). -/
def carriedCursor (old : Option Group) (ids : List Nat) : Option Nat :=
  match old with
  | none => none
  | some g =>
    match g.cursor with
    | none => none
    | some c => (tfindFrom (fun e => some e == g.ids[c]?) 0 ids).head?

/-- SET_GROUP (R68). Result 16 before the position of a faulty id, where a card meets both, is a DESIGN CHOICE: log
entry 46. -/
def setGroupOp (slot : Nat) (q : GroupCue) (b : Blocks) : Blocks :=
  if 7 < q.group ∨ 1 < q.mode ∨ q.count = 0 ∨ 16 < q.count then
    b.onPort (·.refuse .rotation slot .badField 16)
  else match firstBadId 0 [] (q.ids.take q.count) with
    | some i => b.onPort (·.refuse .rotation slot .badField (toWord i))
    | none =>
      let ids := q.ids.take q.count
      let cursor := carriedCursor (b.rot.group q.group) ids
      (b.onRot (·.setGroup q.group (some { ids, seen := q.mode == 1, cursor }))).onPort
        (·.complete .rotation slot .ok (toWord (cursor.getD 16)))

/-! ## Need, eligibility and selection (R69 to R72) -/

/-- The need of an entry (R70). -/
def need (x : Entry) : Nat := (max 0 (-x.meter)).toNat * 65536 / x.quota

/-- The need of an entry by id, 0 where UNSET. -/
def Rotator.needOf (r : Rotator) (e : Nat) : Nat := ((r.entry e).map need).getD 0

/-- The category of an entry by id, 0 where UNSET. -/
def Rotator.categoryOf (r : Rotator) (e : Nat) : Nat := ((r.entry e).map (·.category)).getD 0

/-- An entry is eligible against an exclusion set (R69). -/
def Rotator.eligible (r : Rotator) (excluded : List Nat) (e : Nat) : Bool :=
  match r.entry e with
  | none => false
  | some x => x.enabled && (r.slot x.image).isReady && (x.category == 0 || !excluded.contains x.category)

/-- The positions of a group's list in search order (R71). -/
def searchOrder (g : Group) : List Nat :=
  match g.cursor with
  | none => List.range g.ids.length
  | some c => (List.range g.ids.length).map fun k => (c + 1 + k) % g.ids.length

/-- The better of two positions: the first, unless the second has a larger need (R71). -/
def betterOf (r : Rotator) (ids : List Nat) (best : Option Nat) (i : Nat) : Option Nat :=
  match best with
  | none => some i
  | some j => if r.needOf (tget 0 ids j) < r.needOf (tget 0 ids i) then some i else some j

/-- The position a zone of a group chooses (R71). -/
def Rotator.choose (r : Rotator) (excluded : List Nat) (g : Group) : Option Nat :=
  ((searchOrder g).filter fun i => r.eligible excluded (tget 0 g.ids i)).foldl
    (betterOf r g.ids) none

/-- The nonzero categories of the entries of the open airings (R72). -/
def Rotator.exclusionSet (r : Rotator) : List Nat :=
  (r.airings.map fun a => r.categoryOf a.entry).filter (· != 0)

/-- An airing opened for a zone at a mark (R73). -/
def Blocks.openAiring (b : Blocks) (z : Zone) (g : Group) (i : Nat) : Blocks :=
  let e := tget 0 g.ids i
  match b.rot.entry e with
  | none => b
  | some x =>
    let x := { x with airings := capAt Config.countTop (x.airings + 1) }
    let b := b.putEntry e x
    let a : Airing :=
      { zone := z.id, entry := e, group := z.source, seen := g.seen, dwell := x.dwell,
        start := b.port.showTick, shown := 0, credited := 0, credits := 0, number := x.airings }
    b.onRot fun r => { r.setGroup z.source (some { g with cursor := some i }) with
      airings := r.airings ++ [a] }

/-- One zone selects; the exclusion set is that of the airings open at that point (R72). -/
def Blocks.select (b : Blocks) (z : Zone) : Blocks :=
  match b.rot.group z.source with
  | none => b
  | some g =>
    match b.rot.choose b.rot.exclusionSet g with
    | none => b
    | some i => b.openAiring z g i

/-- The zones that select, in the order of the pass: MAIN by descending rank, then RIBBON (R72). -/
def Blocks.selecting (b : Blocks) : List Zone :=
  sortBy (fun z => (if z.canvas = .main then 0 else 16) + (15 - z.rank))
    ((b.comp.zones.map (·.zone)).filter fun z =>
      z.kind == .placement && !b.rot.airings.any fun a => a.zone == z.id)

/-- The selection pass of a mark (R72). -/
def Blocks.selectionPass (b : Blocks) : Blocks := b.selecting.foldl Blocks.select b

/-! ## Credit (R74, R78) -/

/-- The zone of an airing in the active plan. -/
def Blocks.airingZone (b : Blocks) (a : Airing) : Option ZoneRun := b.comp.zone a.zone

/-- The airing's zone is shown in the frame: not HIDDEN, not yielded (R74). -/
def Blocks.airingShown (b : Blocks) (a : Airing) : Bool :=
  match b.airingZone a with
  | none => false
  | some z => z.drawn

/-- The frame weight of an airing's zone, 0 in a paused frame (R74). -/
def Blocks.airingWeight (b : Blocks) (a : Airing) : Nat :=
  match b.airingZone a with
  | none => 0
  | some z => if z.drawn then b.weight z else 0

/-- An airing after a credited frame (R74). -/
def Airing.count (a : Airing) (shown : Bool) (w : Nat) : Airing :=
  { a with shown := a.shown + flagNat shown, credited := a.credited + (if 0 < w then 1 else 0)
           credits := a.credits + w }

/-- An entry after a credited frame in which `n` of its airings were shown and credit `c` was handed
for it (R58, R74, R78). -/
def Entry.credit (x : Entry) (n c : Nat) : Entry :=
  { x with meter := if Config.meterTop < x.meter + c then Config.meterTop else x.meter + c
           onAir := capAt Config.countTop (x.onAir + n) }

/-- One entry's counting of a frame: written once where it changed, with QUOTA_MET at a crossing
(R66, R78). -/
def Blocks.creditEntry (n c : Nat → Nat) (b : Blocks) (e : Nat) : Blocks :=
  match b.rot.entry e with
  | none => b
  | some x =>
    let y := x.credit (n e) (c e)
    if y = x then b
    else
      let b := b.putEntry e y
      if x.meter < 0 ∧ 0 ≤ y.meter then
        b.onPort fun p => p.notice .quotaMet e p.showTick
      else b

/-- The Rotator's counting of a credited frame, with the credit the Lanes hand by entry (R74, R78).
Entries are taken by rising id; the order among them is DESIGN CHOICE, log entry 8. -/
def Blocks.creditFrame (b : Blocks) (laneCredit : List (Nat × Nat)) : Blocks :=
  let mine := b.rot.airings.map fun a => (a.entry, b.airingShown a, b.airingWeight a)
  let n (e : Nat) : Nat := (mine.filter fun m => m.1 == e && m.2.1).length
  let c (e : Nat) : Nat := ((mine.filter fun m => m.1 == e).map (·.2.2)).sum +
    ((laneCredit.filter fun m => m.1 == e).map (·.2)).sum
  let counted := b.rot.airings.map fun a => a.count (b.airingShown a) (b.airingWeight a)
  (List.range 128).foldl (Blocks.creditEntry n c)
    (b.onRot fun r => { r with airings := counted })

/-! ## The image bank (R81 to R84) -/

/-- Blocks an image needs (R81). -/
def imageBlocks (w h : Nat) : Nat := ceilDiv (w * h * 4) 65536

/-- Staging pages an image needs (R82). -/
def imagePages (w h : Nat) : Nat := ceilDiv (w * h * 4) 4096

/-- Pixels stored four bytes each from an address on (R82). -/
def pixelsAt (m : List Host.Cell) (a : Nat) : Nat → List Pixel
  | 0 => []
  | n + 1 => ⟨memRead m a, memRead m (a + 1), memRead m (a + 2)⟩ :: pixelsAt m (a + 4) n

/-- An image slot is on air (R84). -/
def Blocks.imageOnAir (b : Blocks) (i : Nat) : Bool :=
  (b.rot.airings.any fun a => ((b.rot.entry a.entry).map (·.image)) == some i) ||
  (b.comp.zones.any fun z => z.zone.kind == .still && z.zone.source == i && z.vis.drawn)

/-- A page range lies wholly inside another. -/
def PageRange.inside (r : PageRange) (s : PageRange) : Bool :=
  decide (s.first ≤ r.first) && decide (r.first + r.count ≤ s.first + s.count)

/-- What refuses a LOAD_IMAGE, the first failing check (R82). -/
def Blocks.loadFault (b : Blocks) (q : LoadCue) : Option (CardOutcome × Nat) :=
  let room := b.rot.freeBlocks + (b.rot.slot q.image).blocks
  if 511 < q.image ∨ q.width < 16 ∨ 4096 < q.width ∨ q.height < 16 ∨ 2160 < q.height then
    some (.badField, 0)
  else if !(PageRange.inside ⟨q.first, q.pages⟩ (b.port.area 9)) ||
      decide (q.pages < imagePages q.width q.height) then
    some (.badField, imagePages q.width q.height)
  else if (b.rot.slot q.image).isLoading || b.imageOnAir q.image then some (.inUse, 0)
  else if room < imageBlocks q.width q.height then some (.noRoom, room)
  else none

/-- LOAD_IMAGE (R82, R83). The outcome OK written at the move to ACTIVE, provisional under R175, is a DESIGN CHOICE: R82
names only the result value 0, log entry 45. -/
def loadImageOp (slot : Nat) (q : LoadCue) (b : Blocks) : Blocks :=
  match b.loadFault q with
  | some (o, r) => b.onPort (·.refuse .rotation slot o (toWord r))
  | none =>
    let k := imageBlocks q.width q.height
    let load : Load :=
      { deskSlot := slot, image := q.image, width := q.width, height := q.height,
        pages := ⟨q.first, q.pages⟩, blocks := k,
        picture := .raster q.width
          (pixelsAt b.port.mem (Config.pageBytes * q.first) (q.width * q.height)),
        framesLeft := max 1 (ceilDiv (imagePages q.width q.height) 256) }
    { b with
      rot := { b.rot.setSlot q.image (.loading k) with queue := b.rot.queue ++ [load] }
      port := (({ b.port with loadLocks := b.port.loadLocks ++ [⟨q.first, q.pages⟩] } :
        Port).provisional .rotation slot .ok 0).activate .rotation slot }

/-- The head load completes (R83). -/
def Blocks.completeLoad (b : Blocks) : Blocks :=
  match b.rot.queue with
  | [] => b
  | l :: rest =>
    { b with
      rot := { b.rot.setSlot l.image (.ready l.width l.height l.blocks l.picture) with queue := rest }
      port := ({ b.port with loadLocks := b.port.loadLocks.erase l.pages } : Port).complete
        .rotation l.deskSlot .ok (toWord l.blocks) }

/-- The copying of a frame: the head load comes one frame nearer, and completes at its last
(R83). -/
def Blocks.copyFrame (b : Blocks) : Blocks :=
  match b.rot.queue with
  | [] => b
  | l :: rest =>
    if l.framesLeft ≤ 1 then b.completeLoad
    else b.onRot fun r => { r with queue := { l with framesLeft := l.framesLeft - 1 } :: rest }

/-! ## Show stop (R85) -/

/-- A LOADING slot abandoned. -/
def BankSlot.abandon (s : BankSlot) : BankSlot := if s.isLoading then .empty else s

/-- The Rotator's show stop: airings end STOP, loads are abandoned and their cards go DONE STOPPED
(R85). -/
def Blocks.stopRotator (b : Blocks) : Blocks :=
  let b := b.endAirings (fun _ => true) .stop
  let p := b.rot.queue.foldl (fun p l => p.complete .rotation l.deskSlot .stopped 0) b.port
  { b with port := p, rot := { b.rot with bank := b.rot.bank.map BankSlot.abandon, queue := [] } }

end Sys2Proof.Machine
end

