-- ==== Sys2Proof/Machine/Lanes.lean ====
section
/-! DEFINITION. The Message Lanes: the font, the message queue, the five stages of a mark, passes, the
URGENT takeover and the credit of sponsored passes (chapter 9). -/

namespace Sys2Proof.Machine

/-! ## The font (R151) -/

/-- Glyph height as the glyph area holds it (9.1). -/
def Port.glyphHeight (p : Port) : Nat := memHalf p.mem (p.areaBase 10)

/-- Ink colour (9.1). -/
def Port.ink (p : Port) : Pixel :=
  ⟨memRead p.mem (p.areaBase 10 + 2), memRead p.mem (p.areaBase 10 + 3),
   memRead p.mem (p.areaBase 10 + 4)⟩

/-- Advance of the blank glyph; a blank advance above 1,023 is taken as 0 (R151). -/
def Port.blankAdvance (p : Port) : Nat :=
  let a := memHalf p.mem (p.areaBase 10 + 6)
  if 1023 < a then 0 else a

/-- The advance field of a code's glyph record (9.1). -/
def Port.ownAdvance (p : Port) (c : Byte) : Nat := memHalf p.mem (p.areaBase 10 + 16 + 8 * c.toNat)

/-- The bitmap offset of a code's glyph record (9.1). -/
def Port.glyphOffset (p : Port) (c : Byte) : Nat :=
  (memWord p.mem (p.areaBase 10 + 20 + 8 * c.toNat)).toNat

/-- Bytes of the bitmap of a code (9.1). -/
def Port.glyphBytes (p : Port) (c : Byte) : Nat := p.glyphHeight * ceilDiv (p.ownAdvance c) 8

/-- The font is usable (R151). -/
def Port.fontUsable (p : Port) : Bool := p.glyphHeight != 0 && decide (p.glyphHeight ≤ 128)

/-- A code has a glyph (R151). -/
def Port.hasGlyph (p : Port) (c : Byte) : Bool :=
  p.fontUsable && p.ownAdvance c != 0 && decide (p.ownAdvance c ≤ 1023) &&
  decide (p.glyphOffset c + p.glyphBytes c ≤ Config.pageBytes * (p.area 10).count)

/-- Advance of a code (R151). -/
def Port.advance (p : Port) (c : Byte) : Nat :=
  if p.hasGlyph c then p.ownAdvance c else p.blankAdvance

/-- Bitmap of a code, empty where it is drawn as the blank glyph (R151). -/
def Port.bitmap (p : Port) (c : Byte) : List Byte :=
  if p.hasGlyph c then memBytes p.mem (p.areaBase 10 + p.glyphOffset c) (p.glyphBytes c) else []

/-- Width of a string: the sum of the advances of its codes (R151, R152). -/
def Port.stringWidth (p : Port) (text : List Byte) : Nat := (text.map p.advance).sum

/-- The glyphs of a string laid one after another from a column on, of which only the first `left` columns are
drawn (R151, R159). -/
def Port.placeGlyphs (p : Port) : Int → Nat → List Byte → List PlacedGlyph
  | _, _, [] => []
  | x, left, c :: cs =>
    ⟨x, p.advance c, min (p.advance c) left, p.bitmap c⟩ ::
      p.placeGlyphs (x + p.advance c) (left - p.advance c) cs

/-- A string of the given width drawn from a column on: text columns from that width on are not drawn (R151,
R159; log entry 40). -/
def Port.drawString (p : Port) (x : Int) (width : Nat) (text : List Byte) : Content :=
  .glyphs p.ink p.glyphHeight (p.placeGlyphs x width text)

/-! ## Cards and the queue (R152 to R154) -/

/-- Classes in queue order: URGENT 0, SPONSORED 1, FAN 2 (R153). -/
def MsgClass.rank : MsgClass → Nat
  | .urgent => 0 | .sponsored => 1 | .fan => 2

/-- The class a code names. -/
def classOfCode (n : Nat) : MsgClass := if n = 0 then .urgent else if n = 1 then .sponsored else .fan

/-- Byte offset of the first failing field of a MESSAGE card (R152). -/
def messageFault (q : MessageCue) : Option Nat :=
  if 2 < q.cls then some 0
  else if 1 < q.mode then some 1
  else if q.mode = 1 ∧ (q.hold < 30 ∨ 3600 < q.hold) then some 4
  else if q.repeats = 0 ∨ 8 < q.repeats then some 6
  else if q.cls ≠ 0 ∧ q.mask % 16 = 0 then some 7
  else if q.cls = 1 ∧ 127 < q.linked then some 12
  else if q.length = 0 ∨ 120 < q.length then some 14
  else none

/-- An expiry tick has come at a mark (R161). -/
def expiryCome (tick expiry : Word) : Bool :=
  expiry != 0 && decide ((tick - expiry).toNat < 2147483648)

/-- A speed brought into 16..1,024 (R152). -/
def clampSpeed (v : Nat) : Nat := if v < 16 then 16 else capAt 1024 v

/-- The card a MESSAGE cue makes, of the given width (R152). -/
def cardOf (slot : Nat) (post : Word) (q : MessageCue) (w : Nat) : MsgCard :=
  { slot, post, cls := classOfCode q.cls, holdMode := q.mode == 1, speed := clampSpeed q.speed,
    holdFrames := q.hold, repeats := q.repeats, remaining := q.repeats, completed := 0,
    expiry := q.expiry, mask := q.mask % 16, linked := q.linked, linkIntact := true,
    text := q.text.take q.length, width := w, clamped := clampSpeed q.speed != q.speed,
    onAir := false, started := false }

/-- The held card of a desk slot. -/
def Lanes.card (l : Lanes) (slot : Nat) : Option MsgCard := l.queue.find? fun c => c.slot == slot

/-- A held card replaced, in its place in the queue. -/
def Lanes.setCard (l : Lanes) (c : MsgCard) : Lanes :=
  { l with queue := l.queue.map fun d => if d.slot = c.slot then c else d }

/-- A card joins in its place in the queue order (R153). -/
def Lanes.join (l : Lanes) (c : MsgCard) : Lanes :=
  { l with queue := insertBy (·.cls.rank) c l.queue }

/-- A card leaves the queue. -/
def Lanes.leave (l : Lanes) (slot : Nat) : Lanes :=
  { l with queue := l.queue.filter fun c => c.slot != slot }

/-- The WAITING cards in queue order (R153). -/
def Lanes.waiting (l : Lanes) : List MsgCard := l.queue.filter fun c => !c.onAir

/-- The newest WAITING card of the lowest class: the last in queue order (R154). -/
def Lanes.newestLowest (l : Lanes) : Option MsgCard := l.waiting.getLast?

/-- The blocks with the Lanes changed. -/
def Blocks.onLanes (b : Blocks) (f : Lanes → Lanes) : Blocks := { b with lanes := f b.lanes }

/-- A held card leaves the queue and goes DONE, with its passes completed as result. -/
def Blocks.finishCard (b : Blocks) (c : MsgCard) (o : CardOutcome) : Blocks :=
  (b.onLanes (·.leave c.slot)).onPort (·.complete .message c.slot o (toWord c.completed))

/-- A card joins the queue; its slot stays TAKEN with the outcome so far and W (R152). -/
def Blocks.hold (b : Blocks) (c : MsgCard) : Blocks :=
  (b.onLanes (·.join c)).onPort (·.provisional .message c.slot (okOr c.clamped) (toWord c.width))

/-- A card offered to the queue: it joins, or evicts the newest WAITING card of the lowest class where
its own class is higher, or is refused QUEUE_FULL (R153, R154). -/
def Blocks.offer (b : Blocks) (c : MsgCard) : Blocks :=
  if b.lanes.queue.length < Config.queueCards then b.hold c
  else match b.lanes.newestLowest with
    | some d =>
      if c.cls.rank < d.cls.rank then (b.finishCard d .evicted).hold c
      else b.onPort (·.refuse .message c.slot .queueFull 48)
    | none => b.onPort (·.refuse .message c.slot .queueFull 48)

/-- MESSAGE (R152 to R154). -/
def messageOp (slot : Nat) (post : Word) (q : MessageCue) (b : Blocks) : Blocks :=
  match messageFault q with
  | some o => b.onPort (·.refuse .message slot .badField (toWord o))
  | none =>
    if q.cls = 1 ∧ b.rot.entry q.linked = none then
      b.onPort (·.refuse .message slot .badEntry (toWord q.linked))
    else
      let w := b.port.stringWidth (q.text.take q.length)
      if 32767 < w then b.onPort (·.refuse .message slot .badField 16)
      else if expiryCome b.port.showTick q.expiry then
        b.onPort (·.complete .message slot .expired 0)
      else b.offer (cardOf slot post q w)

/-! ## Passes (R158, R159) -/

/-- Width of a lane's zone, none while the lane is not shown (R155). -/
def Lanes.laneWidth (l : Lanes) (k : Nat) : Option Nat := tget none l.shown k

/-- A shown lane (R155). -/
def Lanes.isShown (l : Lanes) (k : Nat) : Bool := (l.laneWidth k).isSome

/-- The shown lanes with their widths, by rising number. -/
def Lanes.shownLanes (l : Lanes) : List (Nat × Nat) :=
  (List.range 4).filterMap fun k => (l.laneWidth k).map fun w => (k, w)

/-- The pass a lane carries. -/
def Lanes.passOn (l : Lanes) (k : Nat) : Option Pass :=
  l.passes.find? fun p => p.parts.any fun x => x.lane == k

/-- Lowest lane of a pass. -/
def Pass.lane (p : Pass) : Nat := ((p.parts.map (·.lane)).head?).getD 0

/-- Length of a pass: the greatest among its lanes (R160, R163). -/
def Pass.length (p : Pass) : Nat := (p.parts.map (·.length)).foldl max 0

/-- Frames of a crawl of width w over a lane of width l at speed v (R158). -/
def crawlLength (w l v : Nat) : Nat := ceilDiv ((w + l) * 16) v

/-- The part of a card's pass on a lane of width l (R158). -/
def MsgCard.part (c : MsgCard) (lane l : Nat) : LanePart :=
  if c.holdMode && decide (c.width ≤ l) then ⟨lane, true, l, c.holdFrames⟩
  else ⟨lane, false, l, crawlLength c.width l c.speed⟩

/-- The pass that begins of a card on some lanes at a show tick (R158, R163). -/
def MsgCard.begin (c : MsgCard) (lanes : List (Nat × Nat)) (tick : Word) : Pass :=
  { slot := c.slot, number := c.repeats - c.remaining + 1,
    parts := lanes.map fun x => c.part x.1 x.2, index := 0, start := tick, onAir := 0,
    credited := 0, credits := 0 }

/-- A HOLD card must crawl on one of its lanes (R158). -/
def MsgCard.mustCrawl (c : MsgCard) (lanes : List (Nat × Nat)) : Bool :=
  c.holdMode && lanes.any fun x => decide (x.2 < c.width)

/-- The slot of a card whose pass begins: CLAMPED written where it must crawl, ACTIVE at its first
pass (R157, R158, R162). -/
def Port.beginCard (p : Port) (c : MsgCard) (lanes : List (Nat × Nat)) : Port :=
  let p := if c.mustCrawl lanes then
      p.poke (p.slotAddr .message c.slot + 12) (toWord CardOutcome.clamped.code) else p
  if c.started then p else p.activate .message c.slot

/-- A pass of a card begins on some lanes (R157, R158, R163). Its frame n = 0 is counted by the credit of the mark;
a pass begun by a row of the table by itself has that frame uncounted (log entry 13). -/
def Blocks.beginPass (b : Blocks) (c : MsgCard) (lanes : List (Nat × Nat)) : Blocks :=
  let c' := { c with onAir := true, started := true, clamped := c.clamped || c.mustCrawl lanes }
  let b := b.onLanes fun l => { l.setCard c' with passes := l.passes ++ [c.begin lanes b.port.showTick] }
  b.onPort (·.beginCard c lanes)

/-- Column of the left edge of the text of a pass's part at frame index n (R159). -/
def LanePart.textX (x : LanePart) (c : MsgCard) (n : Nat) : Int :=
  if x.hold then ((x.width - c.width) / 2 : Nat)
  else (x.width : Int) - ((n * c.speed / 16 : Nat) : Int)

/-- What a lane shows: the card on air in it and the column of its text, none where it shows black
(R159, R163). -/
def Lanes.showing (l : Lanes) (k : Nat) : Option (MsgCard × Int) :=
  match l.passOn k with
  | none => none
  | some p =>
    match l.card p.slot, p.parts.find? (fun x => x.lane == k) with
    | some c, some x => if p.index < x.length then some (c, x.textX c p.index) else none
    | _, _ => none

/-! ## The end of a pass (R160, R162, R163, R166) -/

/-- Why a pass ends, with the codes of R166. -/
inductive PassEnd where
  | complete | preempted | laneLost | stop
  deriving DecidableEq, Repr

/-- Pass end codes (R166). -/
def PassEnd.code : PassEnd → Nat
  | .complete => 0 | .preempted => 1 | .laneLost => 2 | .stop => 3

/-- The MESSAGE_AIRING record of a pass (R166). -/
def passRecord (c : MsgCard) (p : Pass) (e : PassEnd) (tick : Word) : LogRecord :=
  { kind := 2, endCode := e.code, place := p.lane, group := p.number,
    entry := if c.linkIntact then c.linked else 65535, slot := c.slot, start := p.start, stop := tick,
    shown := p.onAir, credited := p.credited, credits := p.credits, number := c.post }

/-- A pass ends: the record of a SPONSORED card goes to the log, and the card is WAITING (R160, R162,
R166). -/
def Blocks.endPass (b : Blocks) (c : MsgCard) (p : Pass) (e : PassEnd) : Blocks :=
  let b := b.onLanes fun l =>
    { l.setCard { c with onAir := false } with passes := l.passes.filter fun q => q.slot != p.slot }
  if c.cls = .sponsored then b.onPort fun r => r.log (passRecord c p e r.showTick) else b

/-- A pass ends COMPLETE: its card goes DONE at its last repeat, else it is WAITING again (R160). -/
def Blocks.completePass (b : Blocks) (c : MsgCard) (p : Pass) : Blocks :=
  let b := b.endPass c p .complete
  let c := { c with onAir := false, remaining := c.remaining - 1, completed := c.completed + 1 }
  if c.remaining = 0 then b.finishCard c (okOr c.clamped) else b.onLanes (·.setCard c)

/-- A pass without the lanes that are no longer shown (R163). -/
def Lanes.stillIn (l : Lanes) (p : Pass) : Pass := { p with parts := p.parts.filter fun x => l.isShown x.lane }

/-- A pass that has drawn n frames: how it ends, if it does, and the pass with the lanes still shown
(R155, R160, R163). -/
def Lanes.judge (l : Lanes) (p : Pass) (n : Nat) : Option PassEnd × Pass :=
  if p.length ≤ n then (some .complete, p)
  else
    let p' := l.stillIn p
    if p'.parts = [] then (some .laneLost, p)
    else if p'.length ≤ n then (some .complete, p') else (none, p')

/-- A pass replaced. -/
def Lanes.setPass (l : Lanes) (p : Pass) : Lanes :=
  { l with passes := l.passes.map fun q => if q.slot = p.slot then p else q }

/-- A judged pass ends or goes on. -/
def Blocks.applyJudgement (b : Blocks) (j : Option PassEnd × Pass) : Blocks :=
  match b.lanes.card j.2.slot with
  | none => b
  | some c =>
    match j.1 with
    | none => b.onLanes (·.setPass j.2)
    | some .complete => b.completePass c j.2
    | some e => b.endPass c j.2 e

/-- Passes by their lowest lane. -/
def Lanes.passesByLane (l : Lanes) : List Pass := sortBy Pass.lane l.passes

/-! ## The five stages of a mark (R156) -/

/-- Stage 1: passes advance, and those drawn to their end or off the shown lanes end (R156). They are
taken by rising lane; DESIGN CHOICE, log entry 9. -/
def Blocks.advancePasses (b : Blocks) : Blocks :=
  b.lanes.passesByLane.foldl
    (fun b p => b.applyJudgement (b.lanes.judge { p with index := p.index + 1 } (p.index + 1))) b

/-- A WAITING card whose expiry has come goes DONE EXPIRED (R161). -/
def Blocks.expireCard (b : Blocks) (slot : Nat) : Blocks :=
  match b.lanes.card slot with
  | none => b
  | some c =>
    if !c.onAir && expiryCome b.port.showTick c.expiry then b.finishCard c .expired else b

/-- Stage 3: the WAITING cards whose expiry has come go DONE, in queue order (R161). -/
def Blocks.expireCards (b : Blocks) : Blocks :=
  (b.lanes.queue.map (·.slot)).foldl Blocks.expireCard b

/-- The URGENT card that may take over (R162). -/
def Lanes.taker (l : Lanes) : Option MsgCard :=
  if (l.queue.any fun c => c.cls == .urgent && c.onAir) || l.shownLanes.isEmpty then none
  else l.waiting.head?.filter fun c => c.cls == .urgent

/-- A pass is preempted; its card is WAITING, or DONE EXPIRED where its expiry has come (R162). -/
def Blocks.preempt (b : Blocks) (p : Pass) : Blocks :=
  match b.lanes.card p.slot with
  | none => b
  | some c => (b.endPass c p .preempted).expireCard c.slot

/-- An URGENT card takes every shown lane (R162). -/
def Blocks.takeLanes (b : Blocks) (c : MsgCard) : Blocks :=
  (b.lanes.passesByLane.foldl Blocks.preempt b).beginPass c b.lanes.shownLanes

/-- The urgent state turns ON with an URGENT card (R164). -/
def Blocks.urgentOn (b : Blocks) (c : MsgCard) : Blocks :=
  if b.lanes.urgent.isSome then b
  else { b with lanes := { b.lanes with urgent := some b.port.showTick }
                comp := b.comp.beginYield
                port := b.port.notice .urgentOn c.slot c.post }

/-- The urgent state turns OFF once no URGENT card is held (R164). -/
def Blocks.urgentOff (b : Blocks) : Blocks :=
  match b.lanes.urgent with
  | none => b
  | some t =>
    if b.lanes.queue.any fun c => c.cls == .urgent then b
    else { b with lanes := { b.lanes with urgent := none }
                  comp := b.comp.endYield
                  port := b.port.notice .urgentOff 0 (b.port.showTick - t) }

/-- Stage 4: the urgent stage (R162 to R164). -/
def Blocks.urgentStage (b : Blocks) : Blocks :=
  match b.lanes.taker with
  | some c => (b.takeLanes c).urgentOn c
  | none => b.urgentOff

/-- The card a lane takes: the first WAITING card, not URGENT, whose mask names it (R157, R162). -/
def Lanes.candidate (l : Lanes) (k : Nat) : Option MsgCard :=
  l.waiting.find? fun c => c.cls != .urgent && c.mask.testBit k

/-- One lane is served (R157). -/
def Blocks.serveLane (b : Blocks) (k : Nat) : Blocks :=
  if b.lanes.urgent.isSome || (b.lanes.passOn k).isSome then b
  else match b.lanes.laneWidth k, b.lanes.candidate k with
    | some w, some c => b.beginPass c [(k, w)]
    | _, _ => b

/-- Stage 5: the free shown lanes are served by rising number (R157). -/
def Blocks.serveLanes (b : Blocks) : Blocks := (List.range 4).foldl Blocks.serveLane b

/-- The Lanes' work of a mark, the cards taken at it given as one change (R156). -/
def Blocks.lanesWork (cards : Blocks → Blocks) (b : Blocks) : Blocks :=
  ((cards b.advancePasses).expireCards.urgentStage).serveLanes

/-! ## The lanes shown (R155) -/

/-- The lanes that a plan's zones show, with their widths (R155). -/
def lanesShown (zones : List Zone) : List (Option Nat) :=
  (List.range 4).map fun k =>
    (zones.find? fun z => z.kind == .message && z.source == k).map (·.rect.w)

/-- A pass at an adoption by itself: the lanes no longer shown leave it, and it goes on with the others; with none
left it ends LANE_LOST, unless it has drawn all its frames and is left to complete (R155, R163). -/
def Lanes.judgeLost (l : Lanes) (p : Pass) : Option PassEnd × Pass :=
  let q := l.stillIn p
  if q.parts ≠ [] then (none, q) else if p.length ≤ p.index + 1 then (none, p) else (some .laneLost, p)

/-- The passes on lanes that an adoption ceases to show, dealt with at the adoption by itself (R155, R163). -/
def Blocks.loseLanes (b : Blocks) : Blocks :=
  b.lanes.passesByLane.foldl (fun b p => b.applyJudgement (b.lanes.judgeLost p)) b

/-! ## Credit (R57, R165) -/

/-- The zone that shows a lane. -/
def Blocks.laneZone (b : Blocks) (k : Nat) : Option ZoneRun :=
  b.comp.zones.find? fun z => z.zone.kind == .message && z.zone.source == k

/-- The frame weight of the zone that shows a lane. -/
def Blocks.laneWeight (b : Blocks) (k : Nat) : Nat :=
  match b.laneZone k with
  | none => 0
  | some z => b.weight z

/-- The entry that earns the frames of a pass (R165). -/
def Lanes.earner (l : Lanes) (p : Pass) : Option Nat :=
  (l.card p.slot).bind fun c =>
    if c.cls = .sponsored ∧ c.linkIntact = true then some c.linked else none

/-- A pass after a credited frame of weight w; without a link it earns nothing (R165). -/
def Pass.count (p : Pass) (earns : Bool) (w : Nat) : Pass :=
  let w := if earns then w else 0
  { p with onAir := p.onAir + 1, credited := p.credited + (if 0 < w then 1 else 0),
           credits := p.credits + w }

/-- The credit the Lanes hand for a frame, by entry (R57, R165). -/
def Blocks.laneCredit (b : Blocks) : List (Nat × Nat) :=
  b.lanes.passes.filterMap fun p => (b.lanes.earner p).map fun e => (e, b.laneWeight p.lane)

/-- The Lanes' counting of a credited frame (R165). -/
def Blocks.countPasses (b : Blocks) : Blocks :=
  b.onLanes fun l =>
    { l with passes := l.passes.map fun p => p.count (l.earner p).isSome (b.laneWeight p.lane) }

/-! ## Show stop (R167) -/

/-- Every pass ends STOP and every held card goes DONE STOPPED (R167). -/
def Blocks.stopLanes (b : Blocks) : Blocks :=
  let b := b.lanes.passesByLane.foldl
    (fun b p => match b.lanes.card p.slot with
      | none => b
      | some c => b.endPass c p .stop) b
  let b := b.lanes.queue.foldl (fun b c => b.finishCard c .stopped) b
  b.onLanes fun _ => .init

end Sys2Proof.Machine
end

