-- ==== Sys2Proof/Machine/Plans.lean ====
section
/-! DEFINITION. Plans on the boards: staging, SHOW_ZONE and HIDE_ZONE, fades, adoption and show stop, with
what each hands to the Rotator and the Lanes (chapter 2, R15 to R28, R33). -/

namespace Sys2Proof.Machine

/-- The blocks with the Compositor changed. -/
def Blocks.onComp (b : Blocks) (f : Compositor → Compositor) : Blocks := { b with comp := f b.comp }

/-! ## Staging (R15 to R17) -/

/-- The staged plan, if any, is discarded and its slot refused SUPERSEDED (R17). -/
def Blocks.supersede (b : Blocks) : Blocks :=
  match b.comp.staged with
  | none => b
  | some s => b.onPort (·.refuse .plan s.slot .superseded 0)

/-- POST_PLAN (R15 to R17). -/
def postPlanOp (slot : Nat) (post : Word) (q : PlanCue) (b : Blocks) : Blocks :=
  match planFault b.port.sizesInForce q with
  | some r => b.onPort (·.refuse .plan slot .badField (toWord r))
  | none =>
    b.supersede.onComp fun c =>
      { c with staged := some { zones := (q.recs.take q.count).map zoneOfRec, slot, post } }

/-! ## SHOW_ZONE and HIDE_ZONE (R18, R24 to R26) -/

/-- The zone a cue names, none where the card is refused BAD_FIELD (R24). -/
def Compositor.cueZone (c : Compositor) (q : ZoneCue) : Option ZoneRun :=
  if overrideFails q then none else c.zone q.zone

/-- What refuses a SHOW_ZONE on a HIDDEN STILL zone (R24). -/
def Blocks.stillFault (b : Blocks) (z : ZoneRun) : Option CardOutcome :=
  if z.zone.kind = .still ∧ z.vis = .hidden then
    match b.rot.slot z.zone.source with
    | .empty => some .badField
    | .loading _ => some .inUse
    | .ready _ _ _ _ => none
  else none

/-- A zone cue takes effect, or has none; `cut` says that a plan is staged (R18, R24, R25). -/
def Blocks.applyCue (b : Blocks) (slot : Nat) (cut : Bool) (e : Option (ZoneRun × Nat)) : Blocks :=
  match e with
  | none => b.onPort (·.complete .plan slot .ok 0)
  | some (z, r) => (b.onComp (·.setZone z)).onPort (·.complete .plan slot (okOr cut) (toWord r))

/-- SHOW_ZONE (R24). The result value of the refusals of a STILL zone is not stated: a free value, log
entry 4. That the refusals with result 0 come before those is a DESIGN CHOICE: log entry 46. -/
def showZoneOp (slot : Nat) (q : ZoneCue) (b : Blocks) : Blocks :=
  match b.comp.cueZone q with
  | none => b.onPort (·.refuse .plan slot .badField 0)
  | some z =>
    match b.stillFault z with
    | some o => b.onPort fun p => p.drawUnstated.2.refuse .plan slot o p.drawUnstated.1
    | none =>
      b.applyCue slot b.comp.staged.isSome (showEffect z (cueFade z.zone q) b.comp.staged.isSome)

/-- HIDE_ZONE (R25). -/
def hideZoneOp (slot : Nat) (q : ZoneCue) (b : Blocks) : Blocks :=
  match b.comp.cueZone q with
  | none => b.onPort (·.refuse .plan slot .badField 0)
  | some z =>
    b.applyCue slot b.comp.staged.isSome (hideEffect z (cueFade z.zone q) b.comp.staged.isSome)

/-! ## Fades (R23) -/

/-- The fades whose last step has been drawn end (R23). -/
def Compositor.endFades (c : Compositor) : Compositor := c.mapZones ZoneRun.endFade

/-- Every fade takes its step for the frame being begun (R23). -/
def Compositor.stepFades (c : Compositor) : Compositor := c.mapZones ZoneRun.step

/-- A fade that began by itself between marks has its step for the frame in progress. -/
def Compositor.settleFades (c : Compositor) : Compositor :=
  c.mapZones fun z => { z with fresh := false }

/-- One zone's fade ends where its last step has been drawn (R23). -/
def Compositor.endFadeOf (c : Compositor) (id : Nat) : Compositor :=
  c.mapZones fun z => if z.zone.id = id then z.endFade else z

/-! ## Adoption (R19 to R22) -/

/-- The zone of an airing goes on in a new plan (R20, R77). -/
def continuesInto (old : List ZoneRun) (new : List Zone) (zone : Nat) : Bool :=
  old.any fun o => o.zone.id == zone && new.any (continues o.zone)

/-- The staged plan becomes the active plan (R20 to R22, R77). The records of the airings it ends, and a LOG_FULL of
theirs, come before PLAN_ADOPTED: DESIGN CHOICE, log entry 25. -/
def Blocks.adoptPlan (b : Blocks) (s : StagedPlan) : Blocks :=
  let old := b.comp.zones
  let ready (i : Nat) : Bool := (b.rot.slot i).isReady
  let n := (s.zones.filter (wantsImage old ready)).length
  let b := b.endAirings (fun a => !continuesInto old s.zones a.zone) .planChange
  let b := b.onComp fun c =>
    { c with active := some { zones := s.zones.map (adoptZone old c.urgentYield ready), slot := s.slot,
                              post := s.post }
             staged := none }
  let b := b.onLanes fun l => { l with shown := lanesShown s.zones }
  b.onPort fun p => (p.complete .plan s.slot (okOr (n != 0)) (toWord n)).notice .planAdopted s.slot s.post

/-- The test of a mark: a staged plan is adopted when no zone of the active plan is in a transition
(R19). -/
def Blocks.adopt (b : Blocks) : Blocks :=
  match b.comp.staged with
  | none => b
  | some s => if b.comp.still then b.adoptPlan s else b

/-! ## Show stop (R33) -/

/-- Both plans and all zone runtime are discarded, and a staged plan's slot goes DONE STOPPED (R33). -/
def Blocks.stopPlans (b : Blocks) : Blocks :=
  let b := match b.comp.staged with
    | none => b
    | some s => b.onPort (·.complete .plan s.slot .stopped 0)
  { b with comp := { b.comp with active := none, staged := none, urgentYield := false }, measures := [] }

end Sys2Proof.Machine
end

