-- ==== Sys2Proof/Machine/Capture.lean ====
section
/-! DEFINITION. The Capture Unit: frame arrival, numbering, bays, starvation and what the Replay Unit
reads (chapter 6), with the claims that clips make on bays as frames are written (R107 to R109,
R114). -/

namespace Sys2Proof.Machine

/-! ## Rings and bays (R93, R100) -/

/-- An EMPTY bay (R90, R93). Its first number is of no effect and not stated: DESIGN CHOICE 0, log entry 47. -/
def Bay.empty : Bay :=
  { state := .empty, first := 0, pending := 0, kept := 0, damaged := [], frames := [] }

/-- A camera input; an input that does not exist reads as OFF. -/
def Capture.input (c : Capture) (i : Nat) : Input := tget (.offAt 0) c.inputs i

/-- A camera input replaced. -/
def Capture.setInput (c : Capture) (i : Nat) (x : Input) : Capture :=
  { c with inputs := tset (.offAt 0) c.inputs i x }

/-- One input of the blocks changed. -/
def Blocks.onInput (b : Blocks) (i : Nat) (f : Input → Input) : Blocks :=
  { b with cap := b.cap.setInput i (f (b.cap.input i)) }

/-- A bay of a ring. -/
def Input.bay (x : Input) (k : Nat) : Bay := tget .empty x.bays k

/-- A bay replaced. -/
def Input.setBay (x : Input) (k : Nat) (y : Bay) : Input := { x with bays := tset .empty x.bays k y }

/-- The free frame slots (R90). -/
def Capture.freeSlots (c : Capture) : Nat :=
  Config.frameSlots - (c.inputs.map fun x => if x.state = .off then 0 else 64 * x.baySize).sum

/-- A FILLING or FILLED bay holds frame n (R93). -/
def Bay.holds (y : Bay) (n : Nat) : Bool :=
  y.state != .empty && decide (y.first ≤ n) && decide (n < y.first + y.frames.length)

/-- The bay that holds frame n. -/
def Input.bayOf (x : Input) (n : Nat) : Option Nat := (tfindFrom (·.holds n) 0 x.bays).head?

/-- Frame n lies under a damage mark (R100, R101). -/
def Input.damagedFrame (x : Input) (n : Nat) : Bool :=
  x.bays.any fun y => y.holds n && y.damaged.contains (n - y.first)

/-- Frame n is present (R100). -/
def Input.present (x : Input) (n : Nat) : Bool :=
  x.bays.any fun y => y.holds n && !y.damaged.contains (n - y.first)

/-- The picture of frame n. -/
def Input.picture (x : Input) (n : Nat) : Option Picture :=
  match x.bayOf n with
  | none => none
  | some k => (x.bay k).frames[n - (x.bay k).first]?

/-- The present frames of a bay. -/
def Bay.presentNumbers (y : Bay) : List Nat :=
  if y.state = .empty then []
  else ((List.range y.frames.length).filter fun p => !y.damaged.contains p).map (y.first + ·)

/-- The oldest present frame (R100). -/
def Input.oldestPresent (x : Input) : Option Nat := (x.bays.flatMap Bay.presentNumbers).min?

/-- The newest present frame (R100). -/
def Input.newestPresent (x : Input) : Option Nat := (x.bays.flatMap Bay.presentNumbers).max?

/-- The newest number: the last number given in this show (R100). -/
def Input.newestNumber (x : Input) : Option Nat := if x.next = 0 then none else some (x.next - 1)

/-- The FILLING bay. -/
def Input.filling (x : Input) : Option Nat := (tfindFrom (·.state == .filling) 0 x.bays).head?

/-- The bay a choice takes: the lowest EMPTY, else the oldest FILLED with kept count 0 (R95). -/
def Input.chooseBay (x : Input) : Option Nat :=
  match (tfindFrom (·.state == .empty) 0 x.bays).head? with
  | some k => some k
  | none => x.ages.find? fun k => (x.bay k).kept == 0

/-- A chosen bay becomes FILLING with the given first number, its frames gone (R95). -/
def Input.takeBay (x : Input) (k n : Nat) : Input :=
  { x.setBay k { Bay.empty with state := .filling, first := n } with ages := x.ages.erase k }

/-- A frame goes into the next position of a bay (R94). -/
def Bay.write (y : Bay) (p : Picture) : Bay :=
  { y with frames := y.frames ++ [p], damaged := y.damaged.filter (· != y.frames.length) }

/-- A bay that holds B frames becomes FILLED, its pending count joining its kept count (R94, R98). -/
def Bay.fill (y : Bay) : Bay := { y with state := .filled, kept := y.kept + y.pending, pending := 0 }

/-! ## Clips as frames arrive (R108, R109) -/

/-- A clip. -/
def Replay.clip (r : Replay) (c : Nat) : Option Clip := tget none r.clips c

/-- A clip replaced. -/
def Replay.setClip (r : Replay) (c : Nat) (x : Option Clip) : Replay :=
  { r with clips := tset none r.clips c x }

/-- Every clip that is not FREE passed through a function of its number. -/
def Replay.mapClips (r : Replay) (f : Nat → Clip → Clip) : Replay :=
  { r with clips := tmapFrom (fun c x => x.map (f c)) 0 r.clips }

/-- The range of a clip holds frame n (R105). -/
def Clip.inRange (x : Clip) (n : Nat) : Bool :=
  decide (x.inPoint ≤ n) && (match x.outPoint with
    | none => true
    | some o => decide (n ≤ o))

/-- The clip claims a bay of input i at the writing of frame n (R108). -/
def Clip.claims' (x : Clip) (i n k : Nat) : Bool :=
  x.input == i && x.state != .lapsing && x.inRange n && !x.claims.contains k

/-- The live edge after frame n of input i is written (R108). -/
def Clip.raiseEdge (x : Clip) (i n : Nat) : Clip :=
  if x.input = i ∧ x.outPoint = none ∧ x.inPoint ≤ n ∧ x.edge.getD 0 ≤ n
  then { x with edge := some n } else x

/-- The number whose giving closes an OPEN clip (R109). -/
def Clip.closeNumber (x : Clip) : Nat := min (x.inPoint + 599) Config.lastNumber

/-- Frame n of input i, written into bay k: clips claim the bay and live edges rise (R108). -/
def Blocks.claimFrame (b : Blocks) (i n k : Nat) : Blocks :=
  let claimers := (b.rep.clips.filter fun c => (c.map (·.claims' i n k)).getD false).length
  let rep := b.rep.mapClips fun _ x =>
    (if x.claims' i n k then { x with claims := x.claims ++ [k] } else x).raiseEdge i n
  { b with rep }.onInput i fun x =>
    x.setBay k { x.bay k with pending := (x.bay k).pending + claimers }

/-- An OPEN clip closes at a number, with its CLIP_CLOSED notice (R109). -/
def Blocks.closeClip (b : Blocks) (c n : Nat) : Blocks :=
  match b.rep.clip c with
  | none => b
  | some x =>
    { b with rep := b.rep.setClip c (some { x with outPoint := some n, edge := none }),
             port := b.port.notice .clipClosed c (toWord n) }

/-- The OPEN clips of input i that close when it numbers frame n (R109). -/
def Blocks.closing (b : Blocks) (i n : Nat) : List Nat :=
  tfindFrom (fun c => (c.map fun x =>
    x.input == i && x.outPoint == none && x.closeNumber == n).getD false) 0 b.rep.clips

/-- OPEN clips close as frame n of input i is numbered (R109). They are taken by rising clip number: DESIGN CHOICE,
log entry 25. -/
def Blocks.closeClips (b : Blocks) (i n : Nat) : Blocks :=
  (b.closing i n).foldl (fun b c => b.closeClip c n) b

/-! ## Rings given back (R91, R114) -/

/-- A ring is discarded: the input is OFF with its next number kept, and the clips on it keep no bay
(R91, R114). -/
def Blocks.dropRing (b : Blocks) (i : Nat) : Blocks :=
  { b.onInput i fun x => .offAt x.next with
    rep := b.rep.mapClips fun _ x => if x.input = i then { x with claims := [] } else x }

/-! ## Arrivals (R88 to R97) -/

/-- The input becomes STARVED, with CAPTURE_STARVED if its flag was clear (R96). -/
def Blocks.starve (b : Blocks) (i n : Nat) : Blocks :=
  let x := b.cap.input i
  let b := b.onInput i fun x => { x with state := .starved, starved := true }
  if x.starved then b else b.onPort (·.notice .captureStarved i (toWord n))

/-- The FILLING bay has reached B frames: it becomes FILLED and the next bay is chosen at once
(R94, R95). -/
def Blocks.fillBay (b : Blocks) (i k : Nat) : Blocks :=
  let b := b.onInput i fun x => { x.setBay k (x.bay k).fill with ages := x.ages ++ [k] }
  let x := b.cap.input i
  match x.chooseBay with
  | some j => b.onInput i fun x => x.takeBay j x.next
  | none => b.starve i x.next

/-- A frame is written into bay k, which is FILLING (R94, R108). The Replay Unit's CLIP_CLOSED comes before the
Capture Unit's CAPTURE_STARVED and INPUT_ENDED, and after its CAPTURE_RESUMED: DESIGN CHOICE, log entry 25. -/
def Blocks.storeFrame (b : Blocks) (i k : Nat) (p : Picture) : Blocks :=
  let n := (b.cap.input i).next
  let b := b.onInput i fun x =>
    { x.setBay k ((x.bay k).write p) with state := .capturing, next := n + 1, live := some p }
  let b := (b.claimFrame i n k).closeClips i n
  let x := b.cap.input i
  if x.baySize ≤ (x.bay k).frames.length ∧ n ≠ Config.lastNumber then b.fillBay i k else b

/-- A frame is numbered and discarded for want of a bay (R96). CAPTURE_STARVED, where it is called for, comes before
CLIP_CLOSED here: DESIGN CHOICE, log entry 25. -/
def Blocks.discardFrame (b : Blocks) (i : Nat) (p : Picture) : Blocks :=
  let n := (b.cap.input i).next
  ((b.starve i n).onInput i fun x => { x with next := n + 1, live := some p }).closeClips i n

/-- A bay chosen at a conforming arrival; CAPTURE_RESUMED if the starvation flag was set (R97). -/
def Blocks.resume (b : Blocks) (i k : Nat) : Blocks :=
  let x := b.cap.input i
  let b := b.onInput i fun x => { x.takeBay k x.next with starved := false }
  if x.starved then b.onPort (·.notice .captureResumed i (toWord x.next)) else b

/-- A conforming frame numbered and written or discarded (R92, R94 to R97). -/
def Blocks.numberFrame (b : Blocks) (i : Nat) (p : Picture) : Blocks :=
  match (b.cap.input i).filling with
  | some k => b.storeFrame i k p
  | none =>
    match (b.cap.input i).chooseBay with
    | some k => (b.resume i k).storeFrame i k p
    | none => b.discardFrame i p

/-- The numbers of an input are exhausted: it goes OFF with INPUT_ENDED (R92). -/
def Blocks.exhaust (b : Blocks) (i : Nat) : Blocks :=
  (b.dropRing i).onPort (·.notice .inputEnded i (toWord Config.lastNumber))

/-- A conforming arrival in whole: after the frame given the last number the input goes OFF (R92). -/
def Blocks.conformingArrival (b : Blocks) (i : Nat) (p : Picture) : Blocks :=
  let n := (b.cap.input i).next
  let b := b.numberFrame i p
  if n = Config.lastNumber then b.exhaust i else b

/-- An arrival on an input that is not OFF: the silence timer restarts, and the frame is judged
(R88, R89). `timer` is 3L. -/
def Blocks.arrive (b : Blocks) (i timer : Nat) (conforming : Bool) (p : Picture) : Blocks :=
  if (b.cap.input i).state = .off then b
  else
    let b := b.onInput i fun x => { x with silence := some timer }
    if conforming then b.conformingArrival i p
    else b.onInput i fun x => { x with state := .mismatch }

/-- Loss of signal on an input (R89). -/
def Input.loseSignal (x : Input) : Input :=
  if x.state = .off then x else { x with state := .seeking, silence := none }

/-- One input's silence timer over `dt` reference periods (R88). -/
def Input.elapse (dt : Nat) (x : Input) : Input :=
  match x.silence with
  | none => x
  | some r => if r ≤ dt then x.loseSignal else { x with silence := some (r - dt) }

/-- The silence timers over `dt` reference periods (R88). -/
def Capture.elapse (dt : Nat) (c : Capture) : Capture :=
  { c with inputs := c.inputs.map (Input.elapse dt) }

/-! ## SET_INPUT (R90, R91) -/

/-- State codes (R90). -/
def InputState.code : InputState → Nat
  | .off => 0 | .seeking => 1 | .mismatch => 2 | .capturing => 3 | .starved => 4

/-- A ring of 64 EMPTY bays is allocated and the input is SEEKING (R90). -/
def Blocks.allocate (b : Blocks) (i size timer : Nat) : Blocks :=
  let x : Input := { state := .seeking, baySize := size, bays := List.replicate 64 .empty, ages := [],
                     next := (b.cap.input i).next, starved := false, silence := some timer,
                     live := none, ring := b.cap.rings }
  { b with cap := { b.cap.setInput i x with rings := b.cap.rings + 1 } }

/-- SET_INPUT ON, its fields in range (R90). Numbers exhausted before too few free slots, where an OFF input meets both, is
a DESIGN CHOICE: log entry 46. -/
def setInputOn (slot i size timer : Nat) (b : Blocks) : Blocks :=
  let x := b.cap.input i
  if x.state = .off then
    if Config.lastNumber < x.next then b.onPort (·.refuse .replay slot .badField 3)
    else if b.cap.freeSlots < 64 * size then
      b.onPort (·.refuse .replay slot .noRoom (toWord b.cap.freeSlots))
    else
      let b := b.allocate i size timer
      b.onPort (·.complete .replay slot .ok (toWord b.cap.freeSlots))
  else if size = x.baySize then b.onPort (·.complete .replay slot .ok (toWord x.state.code))
  else b.onPort (·.refuse .replay slot .inUse (toWord x.baySize))

/-- A SET_INPUT OFF card goes DONE with the next number as result. Once the numbers are exhausted there is no next
number, and the result is not stated: a free value, log entry 4. -/
def Port.completeOff (p : Port) (slot next : Nat) : Port :=
  if Config.lastNumber < next then p.drawUnstated.2.complete .replay slot .ok p.drawUnstated.1
  else p.complete .replay slot .ok (toWord next)

/-- SET_INPUT OFF (R91). -/
def setInputOff (slot i : Nat) (b : Blocks) : Blocks :=
  let x := b.cap.input i
  (if x.state = .off then b else b.dropRing i).onPort (·.completeOff slot x.next)

/-- SET_INPUT (R90, R91). `timer` is 3L. The order input, action, B, where a card fails in more than one, is a DESIGN
CHOICE: log entry 46. -/
def setInputOp (timer slot : Nat) (q : InputCue) (b : Blocks) : Blocks :=
  if 3 < q.input then b.onPort (·.refuse .replay slot .badField 0)
  else if 1 < q.action then b.onPort (·.refuse .replay slot .badField 1)
  else if q.action = 0 then setInputOff slot q.input b
  else if q.bay < 4 ∨ 40 < q.bay then b.onPort (·.refuse .replay slot .badField 2)
  else setInputOn slot q.input q.bay timer b

/-! ## Frame-store errors (R101, R102) -/

/-- The first uncorrectable error since the host cleared the location is recorded (R102). -/
def Port.recordError (p : Port) (slot : Word) (i n : Nat) : Port :=
  if memWord p.mem errorSlotAddr = 0 then
    ((p.pokePart 84 (toWord i)).pokePart 88 (toWord n)).pokePart 80 slot
  else p

/-- An uncorrectable read of frame n of input i: the damage mark is put and the error recorded
(R101, R102). The frame slot is a free value, log entry 3. -/
def Blocks.damage (b : Blocks) (i n : Nat) : Blocks :=
  let x := b.cap.input i
  match x.bayOf n with
  | none => b
  | some k =>
    let y := x.bay k
    let pos := n - y.first
    (b.onInput i fun x => x.setBay k { y with damaged := y.damaged ++ [pos] }).onPort
      (·.recordError (toWord ((Config.frameSlot x.ring k pos).val + 1)) i n)

/-! ## Show stop and resets (R103, R104) -/

/-- Every input OFF with its next number kept (R103). -/
def Capture.stop (c : Capture) : Capture :=
  { c with inputs := c.inputs.map fun x => .offAt x.next }

/-- Numbering starts again from 0 at entry to RUNNING (R92). -/
def Capture.enter (c : Capture) : Capture :=
  { c with inputs := c.inputs.map fun x => { x with next := 0 } }

end Sys2Proof.Machine
end

