-- ==== Sys2Proof/Machine/Replay.lean ====
section
/-! DEFINITION. The Replay Unit: the clip table, the keep timers, the heads, their movement and their
output (chapter 7). -/

namespace Sys2Proof.Machine

/-! ## Heads and users (R105, R115) -/

/-- Head A is 0, head B is 1 (00_scope, Numbering). -/
def Replay.head (r : Replay) (h : Nat) : Head := if h = 0 then r.headA else r.headB

/-- A head replaced. -/
def Replay.setHead (r : Replay) (h : Nat) (x : Head) : Replay :=
  if h = 0 then { r with headA := x } else { r with headB := x }

/-- A head uses a clip while it holds it in any state but IDLE (R105). -/
def Head.uses (x : Head) (c : Nat) : Bool := x.state != .idle && x.clip == some c

/-- The number of heads that use a clip (R105). -/
def Replay.userHeads (r : Replay) (c : Nat) : Nat := flagNat (r.headA.uses c) + flagNat (r.headB.uses c)

/-- The blocks with the Replay Unit changed. -/
def Blocks.onRep (b : Blocks) (f : Replay → Replay) : Blocks := { b with rep := f b.rep }

/-! ## Freeing a clip (R98, R113) -/

/-- A release on a bay lowers the kept count of a FILLED bay or the pending count of the FILLING bay
(R98). -/
def Bay.release (y : Bay) : Bay :=
  if y.state = .filled then { y with kept := y.kept - 1 }
  else if y.state = .filling then { y with pending := y.pending - 1 } else y

/-- The releases of a clip's claims (R113). -/
def Input.releaseAll (x : Input) (claims : List Nat) : Input :=
  claims.foldl (fun x k => x.setBay k (x.bay k).release) x

/-- A clip is freed: releases, CLIP_LAPSED, and its MARK_CLIP card DONE with the outcome and result
of its take (R113). -/
def Blocks.freeClip (b : Blocks) (c cause : Nat) : Blocks :=
  match b.rep.clip c with
  | none => b
  | some x =>
    ((b.onInput x.input (·.releaseAll x.claims)).onPort fun p =>
      (p.notice .clipLapsed c (toWord cause)).complete .replay x.slot (okOr x.clamped)
        (toWord c)).onRep (·.setClip c none)

/-- A LAPSING clip without users is freed with its lapse cause (R113). -/
def Blocks.freeIfLeft (b : Blocks) (c : Nat) : Blocks :=
  match b.rep.clip c with
  | none => b
  | some x => if x.state = .lapsing ∧ b.rep.userHeads c = 0 then b.freeClip c x.cause else b

/-- A clip released by expiry (cause 0) or drop (cause 1): freed, or LAPSING while heads use it
(R110, R112). The keep of a LAPSING clip is of no effect and stays as it stood: DESIGN CHOICE, log entry 47. -/
def Blocks.releaseClip (b : Blocks) (c cause : Nat) : Blocks :=
  match b.rep.clip c with
  | none => b
  | some x =>
    if b.rep.userHeads c = 0 then b.freeClip c cause
    else b.onRep (·.setClip c (some { x with state := .lapsing, cause }))

/-! ## Keep timers (R110) -/

/-- At the start of a mark: which clips were KEPT for the frame just ended (R110). -/
def Replay.noteKept (r : Replay) : Replay :=
  r.mapClips fun _ x => { x with ran := x.state == .kept }

/-- One clip's keep timer at a mark; at 0 the clip expires (R110). -/
def Blocks.keepTick (b : Blocks) (c : Nat) : Blocks :=
  match b.rep.clip c with
  | none => b
  | some x =>
    if x.state = .kept ∧ x.ran then
      if x.keep ≤ 1 then b.releaseClip c 0
      else b.onRep (·.setClip c (some { x with keep := x.keep - 1, ran := false }))
    else b

/-- The keep timers of a mark (R110). The clips are taken by rising number, and so are their CLIP_LAPSED notices:
DESIGN CHOICE, log entry 25. -/
def Blocks.keepWork (b : Blocks) : Blocks := (List.range 32).foldl Blocks.keepTick b

/-! ## MARK_CLIP (R106 to R109) -/

/-- X: the earliest number the input can still supply (R106). -/
def Input.earliest (x : Input) : Nat := x.oldestPresent.getD x.next

/-- What refuses a MARK_CLIP, the first failing check (R106). -/
def Blocks.markFault (b : Blocks) (q : MarkCue) : Option (CardOutcome × Word) :=
  let x := b.cap.input q.input
  if 3 < q.input ∨ 1 < q.range ∨ Config.keepTop < q.keep then some (.badField, 0)
  else if q.range = 0 ∧ q.outPoint < q.inPoint then some (.badField, 1)
  else if (q.range = 0 ∧ q.outPoint < x.earliest) ∨
      (Config.lastNumber < x.next ∧ x.oldestPresent = none) then some (.badField, 2)
  else if b.rep.clips.all Option.isSome then some (.noRoom, 0)
  else none

/-- The bays a new clip claims: those that hold a number of its range (R107). -/
def Input.claimable (x : Input) (lo : Nat) (hi : Option Nat) : List Nat :=
  tfindFrom (fun y => y.state != .empty && decide (0 < y.frames.length) &&
    decide (lo < y.first + y.frames.length) && (match hi with
      | none => true
      | some o => decide (y.first ≤ o))) 0 x.bays

/-- A claim handed at the take of a clip (R98, R107). -/
def Bay.claim (y : Bay) : Bay :=
  if y.state = .filled then { y with kept := y.kept + 1 } else { y with pending := y.pending + 1 }

/-- The clip a MARK_CLIP card makes (R106, R108). Its lapse cause is of no effect: DESIGN CHOICE 0, log entry 47. -/
def markedClip (x : Input) (slot : Nat) (post : Word) (q : MarkCue) : Clip :=
  let lo := max q.inPoint x.earliest
  let hi := if q.range = 0 then some q.outPoint else none
  { state := .kept, input := q.input, inPoint := lo, outPoint := hi,
    edge := if q.range = 0 then none else x.newestPresent.filter (lo ≤ ·),
    keep := if q.keep = 0 then 36000 else q.keep, claims := x.claimable lo hi, slot, post,
    clamped := decide (q.inPoint < x.earliest), cause := 0, ran := false }

/-- MARK_CLIP (R106 to R109). An OPEN clip that closes at its own mark of take has made its claims as an OPEN clip
before it closes: DEDUCED, log entry 38. -/
def markClipOp (slot : Nat) (post : Word) (q : MarkCue) (b : Blocks) : Blocks :=
  match b.markFault q with
  | some (o, r) => b.onPort (·.refuse .replay slot o r)
  | none =>
    let x := b.cap.input q.input
    let c := (tfindFrom Option.isNone 0 b.rep.clips).headD 0
    let y := markedClip x slot post q
    let b := (b.onRep (·.setClip c (some y))).onInput q.input fun x =>
      y.claims.foldl (fun x k => x.setBay k (x.bay k).claim) x
    let b := b.onPort fun p => (p.provisional .replay slot (okOr y.clamped) (toWord c)).activate
      .replay slot
    match x.newestNumber with
    | none => b
    | some n =>
      if y.outPoint = none ∧ y.inPoint + 599 ≤ n then b.closeClip c (y.inPoint + 599) else b

/-! ## KEEP_CLIP and DROP_CLIP (R111, R112) -/

/-- The clip a card names by number and mark post number, none where it is FREE or another's
(R111). -/
def Replay.named (r : Replay) (c : Nat) (post : Word) : Option Clip :=
  (r.clip c).filter fun x => x.post == post

/-- A clip after KEEP_CLIP with the outcome and result (R111). The keep of a HELD clip is of no effect: DESIGN CHOICE 0,
log entry 47. -/
def Clip.keepOn (x : Clip) (q : KeepCue) : Clip × CardOutcome × Nat :=
  if q.action = 1 then ({ x with state := .held, keep := 0 }, .ok, 0)
  else if x.state = .kept then
    let k := capAt Config.keepTop (x.keep + q.frames)
    ({ x with keep := k }, okOr (k != x.keep + q.frames), k)
  else ({ x with state := .kept, keep := q.frames }, .ok, q.frames)

/-- KEEP_CLIP (R111). Result 0 before 3 before 4, where a card meets more than one, is a DESIGN CHOICE: log entry 46. -/
def keepClipOp (slot : Nat) (q : KeepCue) (b : Blocks) : Blocks :=
  if 31 < q.clip ∨ 1 < q.action ∨ (q.action = 0 ∧ (q.frames = 0 ∨ Config.keepTop < q.frames)) then
    b.onPort (·.refuse .replay slot .badField 0)
  else match b.rep.named q.clip q.post with
    | none => b.onPort (·.refuse .replay slot .badField 3)
    | some x =>
      if x.state = .lapsing then b.onPort (·.refuse .replay slot .badField 4)
      else
        let y := x.keepOn q
        (b.onRep (·.setClip q.clip (some y.1))).onPort
          (·.complete .replay slot y.2.1 (toWord y.2.2))

/-- DROP_CLIP (R112). -/
def dropClipOp (slot : Nat) (q : DropClipCue) (b : Blocks) : Blocks :=
  if 31 < q.clip then b.onPort (·.refuse .replay slot .badField 0)
  else match b.rep.named q.clip q.post with
    | none => b.onPort (·.complete .replay slot .ok 3)
    | some x =>
      let users := b.rep.userHeads q.clip
      (if x.state = .lapsing then b else b.releaseClip q.clip 1).onPort
        (·.complete .replay slot .ok (toWord users))

/-! ## Head cues (R117 to R119) -/

/-- A start frame lies outside a clip (R117). -/
def Clip.startOutside (x : Clip) (n : Nat) : Bool :=
  decide (n < x.inPoint) || decide ((match x.outPoint with
    | some o => o
    | none => x.edge.getD x.inPoint) < n)

/-- What refuses a CUE_HEAD (R117). Result 0, then 3, 4 and 2, where a card meets more than one, is a DESIGN CHOICE: log
entry 46. -/
def Replay.cueFault (r : Replay) (q : CueHeadCue) : Option Word :=
  if 1 < q.head ∨ 31 < q.clip ∨ 1 < q.blend ∨ 1 < q.start then some 0
  else match r.named q.clip q.post with
    | none => some 3
    | some x =>
      if x.state = .lapsing then some 4
      else if q.start = 1 ∧ x.startOutside q.frame then some 2
      else none

/-- The frame a CUE_HEAD cues (R117). -/
def Replay.cuedFrame (r : Replay) (q : CueHeadCue) : Nat :=
  if q.start = 1 then q.frame else ((r.clip q.clip).map (·.inPoint)).getD 0

/-- CUE_HEAD (R117). -/
def cueHeadOp (slot : Nat) (q : CueHeadCue) (b : Blocks) : Blocks :=
  match b.rep.cueFault q with
  | some r => b.onPort (·.refuse .replay slot .badField r)
  | none =>
    let h := b.rep.head q.head
    let f := b.rep.cuedFrame q
    let b := b.onRep (·.setHead q.head
      { h with state := .cued, clip := some q.clip, position := f * 256, blend := q.blend == 1 })
    let b := match h.clip with
      | some c => b.freeIfLeft c
      | none => b
    b.onPort (·.complete .replay slot .ok (toWord f))

/-- A rate clamped into −512..+512 (R118). -/
def clampRate (z : Int) : Int := clampInt (-512) 512 z

/-- PLAY (R118). Result 0 before 1, where a card meets both, is a DESIGN CHOICE: log entry 46. -/
def playOp (slot : Nat) (q : PlayCue) (b : Blocks) : Blocks :=
  if 1 < q.head ∨ 1 < q.loop then b.onPort (·.refuse .replay slot .badField 0)
  else
    let h := b.rep.head q.head
    if h.state = .idle then b.onPort (·.refuse .replay slot .badField 1)
    else
      let r := clampRate q.rate
      (b.onRep (·.setHead q.head { h with state := .playing, rate := r, loop := q.loop == 1 })).onPort
        (·.complete .replay slot (okOr (r != q.rate)) (intWord r))

/-- SET_RATE (R118). -/
def setRateOp (slot : Nat) (q : RateCue) (b : Blocks) : Blocks :=
  if 1 < q.head then b.onPort (·.refuse .replay slot .badField 0)
  else
    let h := b.rep.head q.head
    if h.state = .idle then b.onPort (·.refuse .replay slot .badField 1)
    else
      let r := clampRate q.rate
      (b.onRep (·.setHead q.head { h with rate := r })).onPort
        (·.complete .replay slot (okOr (r != q.rate)) (intWord r))

/-- A head after PAUSE (R119). -/
def Head.paused (h : Head) : Head :=
  if h.state = .playing ∨ h.state = .atLive then { h with state := .paused } else h

/-- PAUSE (R119). -/
def pauseOp (slot head : Nat) (b : Blocks) : Blocks :=
  if 1 < head then b.onPort (·.refuse .replay slot .badField 0)
  else
    let h := b.rep.head head
    if h.state = .idle then b.onPort (·.refuse .replay slot .badField 1)
    else (b.onRep (·.setHead head h.paused)).onPort
      (·.complete .replay slot .ok (toWord (h.position / 256)))

/-- STOP_HEAD (R119). -/
def stopHeadOp (slot head : Nat) (b : Blocks) : Blocks :=
  if 1 < head then b.onPort (·.refuse .replay slot .badField 0)
  else
    let h := b.rep.head head
    let b := b.onRep (·.setHead head .idle)
    let b := match h.clip with
      | some c => b.freeIfLeft c
      | none => b
    b.onPort (·.complete .replay slot .ok 0)

/-! ## Movement (R120 to R122) -/

/-- A wrapped position within a clip of N frames from I on (R120). -/
def wrapPosition (inPt n : Nat) (p : Int) : Nat :=
  inPt * 256 + ((p - inPt * 256) % ((n * 256 : Nat) : Int)).toNat

/-- A head stopped at an end of its clip. -/
def Head.endAt (h : Head) (f : Nat) : Head := { h with state := .ended, position := f * 256 }

/-- The advance of a head on a fixed clip, with the end reached if it stopped there (R120, R122). -/
def Head.advanceFixed (h : Head) (lo hi : Nat) : Head × Option (NoticeKind × Nat) :=
  let h := { h with state := .playing }
  let p : Int := h.position + h.rate
  if ((hi + 1) * 256 : Nat) ≤ p then
    if h.loop then ({ h with position := wrapPosition lo (hi + 1 - lo) p }, none)
    else (h.endAt hi, some (.headEnded, hi))
  else if p < (lo * 256 : Nat) then
    if h.loop then ({ h with position := wrapPosition lo (hi + 1 - lo) p }, none)
    else (h.endAt lo, some (.headEnded, lo))
  else ({ h with position := p.toNat }, none)

/-- The advance of a head on an OPEN clip with live edge `e` (R121). -/
def Head.advanceOpen (h : Head) (lo e : Nat) : Head × Option (NoticeKind × Nat) :=
  let p : Int := h.position + h.rate
  if h.state = .atLive then
    if 256 ≤ h.rate ∨ ((e * 256 : Nat) : Int) ≤ p then ({ h with position := e * 256 }, none)
    else if p < (lo * 256 : Nat) then (h.endAt lo, some (.headEnded, lo))
    else ({ h with state := .playing, position := p.toNat }, none)
  else if p < (lo * 256 : Nat) then (h.endAt lo, some (.headEnded, lo))
  else if ((e * 256 : Nat) : Int) < p then
    ({ h with state := .atLive, position := e * 256 }, some (.headAtLive, e))
  else ({ h with position := p.toNat }, none)

/-- The advance of a head on its clip (R120 to R122). -/
def Head.advance (h : Head) (x : Clip) : Head × Option (NoticeKind × Nat) :=
  match x.outPoint with
  | some o => h.advanceFixed x.inPoint o
  | none => h.advanceOpen x.inPoint (x.edge.getD x.inPoint)

/-- The first stage of one head at a mark (R116). -/
def Blocks.advanceHead (b : Blocks) (i : Nat) : Blocks :=
  let h := b.rep.head i
  if h.state = .playing ∨ h.state = .atLive then
    match h.clip.bind b.rep.clip with
    | none => b
    | some x =>
      let y := h.advance x
      let b := b.onRep (·.setHead i y.1)
      match y.2 with
      | none => b
      | some (k, n) => b.onPort (·.notice k i (toWord n))
  else b

/-- The first stage of both heads (R116). Head A is taken before head B, and so are their notices: DESIGN CHOICE, log
entry 25. -/
def Blocks.advanceHeads (b : Blocks) : Blocks := (b.advanceHead 0).advanceHead 1

/-! ## Output (R123 to R125) -/

/-- A read of frame n of input i by a head: its picture, or none where the frame is absent or the
read finds an uncorrectable error, which is then marked, recorded and reported (R101, R125). `bad` holds the frames
whose reads fail at the mark: of two reads of one frame the first fails or neither does (DESIGN CHOICE, log entry 44). -/
def Blocks.readFrame (b : Blocks) (bad : List (Nat × Nat)) (head i n : Nat) :
    Option Picture × Blocks :=
  if !(b.cap.input i).present n then (none, b)
  else if bad.contains (i, n) then
    (none, (b.damage i n).onPort (·.notice .frameDamaged head (toWord n)))
  else ((b.cap.input i).picture n, b)

/-- The limit below which frame f + 1 belongs to a clip for a blend (R124). -/
def Clip.blendLimit (x : Clip) : Nat :=
  match x.outPoint with
  | some o => o
  | none => x.edge.getD 0

/-- The picture of frame f, blended with frame f + 1 where R124 applies. -/
def Blocks.blended (b : Blocks) (bad : List (Nat × Nat)) (head : Nat) (h : Head) (x : Clip)
    (pic : Picture) : Picture × Blocks :=
  let f := h.position / 256
  let phi := h.position % 256
  if h.blend && phi != 0 && decide (f < x.blendLimit) then
    match b.readFrame bad head x.input (f + 1) with
    | (some q, b) => (.blend pic q phi, b)
    | (none, b) => (pic, b)
  else (pic, b)

/-- A head's frame is absent: the held picture is output, with FRAME_MISSING where it is called for
(R123, R125). -/
def Blocks.missFrame (b : Blocks) (i : Nat) (x : Clip) : Blocks :=
  let h := b.rep.head i
  let f := h.position / 256
  let h' := { h with output := h.heldPicture }
  if (b.cap.input x.input).damagedFrame f || h.reported == some f then b.onRep (·.setHead i h')
  else (b.onRep (·.setHead i { h' with reported := some f })).onPort
    (·.notice .frameMissing i (toWord f))

/-- The output of one head for the frame a mark begins (R123). -/
def Blocks.outputHead (bad : List (Nat × Nat)) (b : Blocks) (i : Nat) : Blocks :=
  let h := b.rep.head i
  match h.clip.bind b.rep.clip with
  | none => b.onRep (·.setHead i { h with output := none })
  | some x =>
    if h.state = .idle then b.onRep (·.setHead i { h with output := none })
    else if (b.cap.input x.input).present (h.position / 256) then
      match b.readFrame bad i x.input (h.position / 256) with
      | (none, b) => b.onRep (·.setHead i { h with output := h.heldPicture })
      | (some pic, b) =>
        let y := b.blended bad i h x pic
        y.2.onRep (·.setHead i { h with output := some y.1, heldPicture := some y.1 })
    else b.missFrame i x

/-- The output of both heads, whose reads are made one at a time (R123, R125). -/
def Blocks.outputHeads (bad : List (Nat × Nat)) (headBFirst : Bool) (b : Blocks) : Blocks :=
  if headBFirst then (b.outputHead bad 1).outputHead bad 0
  else (b.outputHead bad 0).outputHead bad 1

/-! ## Show stop (R126) -/

/-- A clip's MARK_CLIP card at a show stop. -/
def Port.stopClip (p : Port) (c : Nat) (x : Option Clip) : Port :=
  match x with
  | none => p
  | some x => p.complete .replay x.slot .stopped (toWord c)

/-- The Replay Unit's show stop: clips are freed without releases or notices, their cards DONE
STOPPED, and the heads are IDLE (R126). -/
def Blocks.stopReplay (b : Blocks) : Blocks :=
  { b with port := (List.range 32).foldl (fun p c => p.stopClip c (b.rep.clip c)) b.port,
           rep := .init }

end Sys2Proof.Machine
end

