-- ==== Sys2Proof/Machine/Compose.lean ====
section
/-! DEFINITION. Composition: the content of each zone for a frame, the layers of each canvas, and what any
pixel of a composed frame is (R13, R29 to R32, R124, R142, R151). -/

namespace Sys2Proof.Machine

/-! ## Pixels -/

/-- A component as a number's low byte. -/
def component (n : Nat) : Byte := BitVec.ofNat 8 n

/-- The weighted mean of two components in 1/256, rounded to the nearest with halves up: weight `w` of the
first (R29, R124). -/
def mixComponent (w : Nat) (a b : Byte) : Byte :=
  component ((a.toNat * w + b.toNat * (256 - w) + 128) / 256)

/-- The weighted mean of two pixels, component by component (R29, R124). -/
def mixPixel (w : Nat) (a b : Pixel) : Pixel :=
  ⟨mixComponent w a.c0 b.c0, mixComponent w a.c1 b.c1, mixComponent w a.c2 b.c2⟩

/-- A pixel of a picture; outside a raster's data it is black (R124 for a blend). -/
def picturePixel : Picture → Nat → Nat → Pixel
  | .solid p, _, _ => p
  | .raster w ps, x, y => if x < w then tget Pixel.black ps (y * w + x) else .black
  | .blend a b phi, x, y => mixPixel (256 - phi) (picturePixel a x y) (picturePixel b x y)

/-- A pixel of a placed glyph is ink (R151), in the columns that are drawn (R159). -/
def PlacedGlyph.inkAt (g : PlacedGlyph) (u v : Nat) : Bool :=
  let i := ((u : Int) - g.x).toNat
  decide (g.x ≤ u) && decide (i < g.drawn) &&
  (tget 0 g.bits (v * ceilDiv g.advance 8 + i / 8)).getLsbD (i % 8)

/-- A pixel of a zone's content (R30, R31, R151). -/
def Content.pixel : Content → Nat → Nat → Pixel
  | .black, _, _ => .black
  | .fitted p w h, u, v => picturePixel p (u * 1920 / w) (v * 1080 / h)
  | .image p w h, u, v => if u < w ∧ v < h then picturePixel p u v else .black
  | .glyphs ink height gs, u, v =>
    if v < height ∧ gs.any (fun g => g.inkAt u v) then ink else .black

/-- A layer has a pixel of a canvas in its rectangle (R14). -/
def Rect.hasPixel (r : Rect) (x y : Nat) : Bool :=
  decide (r.x ≤ x) && decide (x < r.x + r.w) && decide (r.y ≤ y) && decide (y < r.y + r.h)

/-- One layer drawn over a pixel (R29). -/
def Layer.over (x y : Nat) (below : Pixel) (l : Layer) : Pixel :=
  if l.rect.hasPixel x y then
    let c := l.content.pixel (x - l.rect.x) (y - l.rect.y)
    if l.sheer && c == .black then below else mixPixel l.alpha c below
  else below

/-- A pixel of a composed frame (R29). -/
def Frame.pixel (f : Frame) (x y : Nat) : Pixel := f.layers.foldl (Layer.over x y) .black

/-- What a segment was sent at the latest mark, pixel (u, v) of its section: the pixels of the section it
backs, or black (R36). -/
def Part.segmentPixel (s : Part) (g u v : Nat) : Pixel :=
  match tget none s.sec.feeds g with
  | none => .black
  | some i =>
    let r := sectionRect s.blk.port.sizesInForce i
    let f := if r.1 = .main then s.blk.comp.mainFrame else s.blk.comp.ribbonFrame
    f.pixel (r.2.x + u) (r.2.y + v)

/-! ## Content of a zone (R30 to R32) -/

/-- What a LIVE zone shows: its input as received, while it is CAPTURING or STARVED (R30). -/
def Input.livePicture (x : Input) : Option Picture :=
  if x.state = .capturing ∨ x.state = .starved then x.live else none

/-- A camera frame fitted to a zone, or black (R30). -/
def fitTo (r : Rect) : Option Picture → Content
  | none => .black
  | some p => .fitted p r.w r.h

/-- The image of an image slot, where it is READY (R31). -/
def BankSlot.content : BankSlot → Content
  | .ready w h _ p => .image p w h
  | _ => .black

/-- The image slot of the entry on air in a zone (R31). -/
def Blocks.airedSlot (b : Blocks) (zone : Nat) : Option Nat :=
  ((b.rot.airings.find? fun a => a.zone == zone).bind fun a => b.rot.entry a.entry).map (·.image)

/-- A string of the Clock Unit, centred in a zone, or from the left edge where it is wider (R142). -/
def Port.centredString (p : Port) (w : Nat) (text : List Byte) : Content :=
  p.drawString (((w - p.stringWidth text) / 2 : Nat)) (p.stringWidth text) text

/-- The content of a zone for the frame a mark begins (R30 to R32). -/
def Blocks.content (b : Blocks) (u : ClockUnit) (z : Zone) : Content :=
  match z.kind with
  | .live => fitTo z.rect (b.cap.input z.source).livePicture
  | .replay => fitTo z.rect (b.rep.head z.source).output
  | .placement => match b.airedSlot z.id with
    | none => .black
    | some i => (b.rot.slot i).content
  | .still => (b.rot.slot z.source).content
  | .clock => b.port.centredString z.rect.w (clockString (u.clock (clockOfCode z.source)))
  | .score => b.port.centredString z.rect.w (scoreString u.score z.source)
  | .message => match b.lanes.showing z.source with
    | none => .black
    | some (c, x) => b.port.drawString x c.width c.text

/-! ## Frames (R13, R29) -/

/-- A drawn zone as a layer (R29). -/
def Blocks.layer (b : Blocks) (u : ClockUnit) (z : ZoneRun) : Layer :=
  { rect := z.zone.rect, alpha := z.vis.alpha, sheer := z.zone.sheer, content := b.content u z.zone }

/-- The layers of a canvas, lowest rank first (R29). -/
def Blocks.layers (b : Blocks) (u : ClockUnit) (c : Canvas) : List Layer :=
  (sortBy (fun z => z.zone.rank)
    (b.comp.zones.filter fun z => z.drawn && z.zone.canvas == c)).map (b.layer u)

/-- The frames composed at a mark: black in CONFIG and without a plan (R13, R29). -/
def Blocks.compose (b : Blocks) (u : ClockUnit) : Blocks :=
  let z := b.port.sizesInForce
  let layers (c : Canvas) : List Layer := if b.port.running then b.layers u c else []
  { b with comp := { b.comp with mainFrame := ⟨z.mainW, z.mainH, layers .main⟩
                                 ribbonFrame := ⟨z.ribbonW, z.ribbonH, layers .ribbon⟩ } }

end Sys2Proof.Machine
end

