-- ==== Sys2Proof/Machine/Operands.lean ====
section
/-! DEFINITION. The operands of the commands as their cards hold them in Show Memory: the parameter
bytes of every cue kind (chapters 2, 3, 5 to 9) and the kinds of each desk (10.5). Fields are
little-endian; a field the manual does not list is not read. -/

namespace Sys2Proof.Machine

/-! ## Fields -/

/-- Parameter byte `o` of the slot at `a`: parameters begin at byte 32 (10.5). -/
def par8 (m : List Host.Cell) (a o : Nat) : Nat := (memRead m (a + 32 + o)).toNat

/-- The half at parameter byte `o`. -/
def par16 (m : List Host.Cell) (a o : Nat) : Nat := memHalf m (a + 32 + o)

/-- The word at parameter byte `o`. -/
def parWord (m : List Host.Cell) (a o : Nat) : Word := memWord m (a + 32 + o)

/-- The word at parameter byte `o` as a number. -/
def par32 (m : List Host.Cell) (a o : Nat) : Nat := (parWord m a o).toNat

/-- The word at parameter byte `o` as a signed number. -/
def parInt (m : List Host.Cell) (a o : Nat) : Int := (parWord m a o).toInt

/-! ## PLAN desk -/

/-- Zone record `i` of a POST_PLAN card: parameter bytes 4 + 20i to 23 + 20i (2.2). -/
def zoneRecAt (m : List Host.Cell) (a i : Nat) : ZoneRec :=
  let o := 4 + 20 * i
  { id := par8 m a o, canvas := par8 m a (o + 1), rank := par8 m a (o + 2), kind := par8 m a (o + 3),
    x := par16 m a (o + 4), y := par16 m a (o + 6), w := par16 m a (o + 8), h := par16 m a (o + 10),
    source := par16 m a (o + 12), cover := par8 m a (o + 14), vis := par8 m a (o + 15),
    yields := par8 m a (o + 16), transition := par8 m a (o + 17), fade := par8 m a (o + 18) }

/-- POST_PLAN: the count, and the records within it where it is in range (2.2). -/
def planCueAt (m : List Host.Cell) (a : Nat) : PlanCue :=
  let n := par32 m a 0
  { count := n, recs := if 16 < n then [] else (List.range n).map (zoneRecAt m a) }

/-- SHOW_ZONE and HIDE_ZONE (10.5). -/
def zoneCueAt (m : List Host.Cell) (a : Nat) : ZoneCue :=
  { zone := par8 m a 0, override := par8 m a 1, len := par8 m a 2 }

/-- SET_SECTION (3.5). -/
def sectionCueAt (m : List Host.Cell) (a : Nat) : SectionCue :=
  { canvas := par8 m a 0, sect := par8 m a 1, action := par8 m a 2, segment := par8 m a 3 }

/-! ## REPLAY desk -/

/-- SET_INPUT (6.2). -/
def inputCueAt (m : List Host.Cell) (a : Nat) : InputCue :=
  { input := par8 m a 0, action := par8 m a 1, bay := par8 m a 2 }

/-- MARK_CLIP (7.1). -/
def markCueAt (m : List Host.Cell) (a : Nat) : MarkCue :=
  { input := par8 m a 0, range := par8 m a 1, inPoint := par32 m a 4, outPoint := par32 m a 8,
    keep := par32 m a 12 }

/-- KEEP_CLIP (7.1). -/
def keepCueAt (m : List Host.Cell) (a : Nat) : KeepCue :=
  { clip := par8 m a 0, action := par8 m a 1, post := parWord m a 4, frames := par32 m a 8 }

/-- DROP_CLIP (7.1). -/
def dropClipCueAt (m : List Host.Cell) (a : Nat) : DropClipCue :=
  { clip := par8 m a 0, post := parWord m a 4 }

/-- CUE_HEAD (7.1). -/
def cueHeadCueAt (m : List Host.Cell) (a : Nat) : CueHeadCue :=
  { head := par8 m a 0, clip := par8 m a 1, blend := par8 m a 2, start := par8 m a 3,
    post := parWord m a 4, frame := par32 m a 8 }

/-- PLAY (7.1). -/
def playCueAt (m : List Host.Cell) (a : Nat) : PlayCue :=
  { head := par8 m a 0, loop := par8 m a 1, rate := parInt m a 4 }

/-- SET_RATE (7.1). -/
def rateCueAt (m : List Host.Cell) (a : Nat) : RateCue := { head := par8 m a 0, rate := parInt m a 4 }

/-! ## ROTATION desk -/

/-- SET_GROUP: the ids within the count where it is in range (5.1). -/
def groupCueAt (m : List Host.Cell) (a : Nat) : GroupCue :=
  let n := par8 m a 2
  { group := par8 m a 0, mode := par8 m a 1, count := n,
    ids := if 16 < n then [] else (List.range n).map fun i => par16 m a (4 + 2 * i) }

/-- SET_ENTRY (5.1). -/
def entryCueAt (m : List Host.Cell) (a : Nat) : EntryCue :=
  { entry := par16 m a 0, image := par16 m a 2, dwell := par32 m a 4, quota := par32 m a 8,
    category := par8 m a 12, enabled := par8 m a 13, keepMeter := par8 m a 14 }

/-- LOAD_IMAGE (5.1). -/
def loadCueAt (m : List Host.Cell) (a : Nat) : LoadCue :=
  { image := par16 m a 0, width := par16 m a 2, height := par16 m a 4, first := par32 m a 8,
    pages := par32 m a 12 }

/-! ## CLOCK desk -/

/-- CLOCK_SETUP (8.5). -/
def clockSetupCueAt (m : List Host.Cell) (a : Nat) : ClockSetupCue :=
  { clock := par8 m a 0, source := par8 m a 1, direction := par8 m a 2, horn := par8 m a 3,
    tenths := par32 m a 4, hornLength := par16 m a 8, comp := par8 m a 10 }

/-- CLOCK_SET (8.5). -/
def clockSetCueAt (m : List Host.Cell) (a : Nat) : ClockSetCue :=
  { clock := par8 m a 0, value := par32 m a 4 }

/-- SCORE (8.9). -/
def scoreCueAt (m : List Host.Cell) (a : Nat) : ScoreCue :=
  { home := par16 m a 0, guest := par16 m a 2, period := par8 m a 4, possession := par8 m a 5,
    c0 := par8 m a 6, c1 := par8 m a 7, c2 := par8 m a 8, c3 := par8 m a 9 }

/-! ## MESSAGE desk -/

/-- MESSAGE: the codes within the text length where it is in range (9.2). -/
def messageCueAt (m : List Host.Cell) (a : Nat) : MessageCue :=
  let n := par8 m a 14
  { cls := par8 m a 0, mode := par8 m a 1, speed := par16 m a 2, hold := par16 m a 4,
    repeats := par8 m a 6, mask := par8 m a 7, expiry := parWord m a 8, linked := par16 m a 12,
    length := n, text := if 120 < n then [] else memBytes m (a + 48) n }

/-! ## Cards by desk and cue kind (10.5) -/

/-- A card of the PLAN desk. -/
inductive PlanCard where
  | postPlan (q : PlanCue)
  | showZone (q : ZoneCue)
  | hideZone (q : ZoneCue)
  | setSection (q : SectionCue)

/-- A card of the REPLAY desk. -/
inductive ReplayCard where
  | setInput (q : InputCue)
  | markClip (q : MarkCue)
  | keepClip (q : KeepCue)
  | dropClip (q : DropClipCue)
  | cueHead (q : CueHeadCue)
  | play (q : PlayCue)
  | pause (head : Nat)
  | setRate (q : RateCue)
  | stopHead (head : Nat)

/-- A card of the ROTATION desk. -/
inductive RotationCard where
  | setGroup (q : GroupCue)
  | setEntry (q : EntryCue)
  | dropEntry (entry : Nat)
  | loadImage (q : LoadCue)

/-- A card of the CLOCK desk. -/
inductive ClockCard where
  | setup (q : ClockSetupCue)
  | set (q : ClockSetCue)
  | run (clock : Nat)
  | stop (clock : Nat)
  | score (q : ScoreCue)

/-- A PLAN desk card by its cue kind (10.5). -/
def planCardAt (kind : Word) (m : List Host.Cell) (a : Nat) : Option PlanCard :=
  if kind = 1 then some (.postPlan (planCueAt m a))
  else if kind = 2 then some (.showZone (zoneCueAt m a))
  else if kind = 3 then some (.hideZone (zoneCueAt m a))
  else if kind = 4 then some (.setSection (sectionCueAt m a)) else none

/-- A REPLAY desk card by its cue kind (10.5). -/
def replayCardAt (kind : Word) (m : List Host.Cell) (a : Nat) : Option ReplayCard :=
  if kind = 16 then some (.setInput (inputCueAt m a))
  else if kind = 17 then some (.markClip (markCueAt m a))
  else if kind = 18 then some (.keepClip (keepCueAt m a))
  else if kind = 19 then some (.dropClip (dropClipCueAt m a))
  else if kind = 20 then some (.cueHead (cueHeadCueAt m a))
  else if kind = 21 then some (.play (playCueAt m a))
  else if kind = 22 then some (.pause (par8 m a 0))
  else if kind = 23 then some (.setRate (rateCueAt m a))
  else if kind = 24 then some (.stopHead (par8 m a 0)) else none

/-- A ROTATION desk card by its cue kind (10.5). -/
def rotationCardAt (kind : Word) (m : List Host.Cell) (a : Nat) : Option RotationCard :=
  if kind = 32 then some (.setGroup (groupCueAt m a))
  else if kind = 33 then some (.setEntry (entryCueAt m a))
  else if kind = 34 then some (.dropEntry (par16 m a 0))
  else if kind = 35 then some (.loadImage (loadCueAt m a)) else none

/-- A CLOCK desk card by its cue kind (10.5). -/
def clockCardAt (kind : Word) (m : List Host.Cell) (a : Nat) : Option ClockCard :=
  if kind = 48 then some (.setup (clockSetupCueAt m a))
  else if kind = 49 then some (.set (clockSetCueAt m a))
  else if kind = 50 then some (.run (par8 m a 0))
  else if kind = 51 then some (.stop (par8 m a 0))
  else if kind = 52 then some (.score (scoreCueAt m a)) else none

/-- A MESSAGE desk card by its cue kind (10.5). -/
def messageCardAt (kind : Word) (m : List Host.Cell) (a : Nat) : Option MessageCue :=
  if kind = 64 then some (messageCueAt m a) else none

end Sys2Proof.Machine
end

