-- ==== Sys2Proof/Machine/Desk.lean ====
section
/-! DEFINITION. The Desk Reader and the entry to RUNNING: pickup, scan and take at a frame mark, the
validation of the layout record, the stages of the entry, the orphan sweep, and what a show stop does
to the Port (chapter 10, R172 to R183). -/

namespace Sys2Proof.Machine

/-! ## Scan and take (R176 to R180) -/

/-- A card taken from a desk: its slot, its post number and the card. -/
structure Taken (α : Type) where
  slot : Nat
  post : Word
  card : α

/-- A slot found POSTED by a scan, with its post number (R177). -/
structure Posted where
  slot : Nat
  post : Word

/-- A post number is newer than the last taken (R177). -/
def isNewer (last post : Word) : Bool :=
  let d := (post - last).toNat
  decide (1 ≤ d) && decide (d ≤ 2147483647)

/-- The slots of a desk outside its held set that are POSTED, in slot order (R177, R180). -/
def Port.scan (p : Port) (d : Desk) : List Posted :=
  (List.range (deskSlots d)).filterMap fun i =>
    let a := p.slotAddr d i
    if !(p.desks.get d).held.contains i && memWord p.mem a == slotPosted then
      some ⟨i, memWord p.mem (a + 4)⟩ else none

/-- A slot REFUSED from POSTED: its take tick is written too, equal to its finish tick (R175). -/
def Port.refusePosted (p : Port) (d : Desk) (i : Nat) (o : CardOutcome) (r : Word) : Port :=
  (p.poke (p.slotAddr d i + 16) p.showTick).refuse d i o r

/-- The lowest slot among the POSTED that shares a post number (R177). -/
def lowestWith (ps : List Posted) (post : Word) : Option Nat :=
  (ps.find? fun x => x.post == post).map (·.slot)

/-- One POSTED slot judged: STALE, DUPLICATE, or left POSTED (R177). -/
def Port.judgePosted (last : Word) (newer : List Posted) (d : Desk) (p : Port) (x : Posted) : Port :=
  if isNewer last x.post then
    match lowestWith newer x.post with
    | some i => if i = x.slot then p else p.refusePosted d x.slot .duplicate (toWord i)
    | none => p
  else p.refusePosted d x.slot .stale last

/-- The slots that stay POSTED after the refusals of a scan, in the order of take (R177, R178). -/
def takeOrder (last : Word) (newer : List Posted) : List Posted :=
  sortBy (fun x => (x.post - last).toNat)
    (newer.filter fun x => lowestWith newer x.post == some x.slot)

/-- Last taken set to a post number (R178). -/
def Port.setLast (p : Port) (d : Desk) (post : Word) : Port :=
  p.setDesk d { p.desks.get d with last := post }

/-- A slot goes TAKEN and enters the held set (R175, R178). -/
def Port.markTaken (p : Port) (d : Desk) (i : Nat) : Port :=
  let a := p.slotAddr d i
  let p := (p.poke (a + 16) p.showTick).poke a slotTaken
  let x := p.desks.get d
  p.setDesk d { x with held := x.held ++ [i] }

/-- One slot taken: its card is kept, or it is refused BAD_KIND (R178). `parse` reads a card of the
desk by its cue kind. -/
def takeOne {α : Type} (parse : Word → List Host.Cell → Nat → Option α) (d : Desk)
    (acc : Port × List (Taken α)) (x : Posted) : Port × List (Taken α) :=
  let p := acc.1
  let a := p.slotAddr d x.slot
  let card := parse (memWord p.mem (a + 8)) p.mem a
  let p := p.setLast d x.post
  match card with
  | none => (p.refusePosted d x.slot .badKind 0, acc.2)
  | some c => (p.markTaken d x.slot, acc.2 ++ [⟨x.slot, x.post, c⟩])

/-- The host's post count of a desk (10.2). -/
def Port.postCount (p : Port) (d : Desk) : Word := memWord p.mem (4 * deskIndex d)

/-- A seen count recorded and written to the part page, as no slot remains POSTED (R176). -/
def Port.setSeen (p : Port) (d : Desk) (n : Word) : Port :=
  (p.setDesk d { p.desks.get d with seen := n, rescan := false }).pokePart (16 + 4 * deskIndex d) n

/-- Slots remain POSTED because of the limit: the desk is scanned again at the next mark (R176). -/
def Port.setRescan (p : Port) (d : Desk) : Port := p.setDesk d { p.desks.get d with rescan := true }

/-- The scan of a desk and its take of at most 8 cards (R176 to R178). -/
def scanDesk {α : Type} (parse : Word → List Host.Cell → Nat → Option α) (d : Desk) (p : Port) :
    Port × List (Taken α) :=
  let last := (p.desks.get d).last
  let count := p.postCount d
  let posted := p.scan d
  let newer := posted.filter fun x => isNewer last x.post
  let q := posted.foldl (Port.judgePosted last newer d) p
  let order := takeOrder last newer
  let y := (order.take Config.takeLimit).foldl (takeOne parse d) (q, [])
  if order.length ≤ Config.takeLimit then (y.1.setSeen d count, y.2)
  else (y.1.setRescan d, y.2)

/-- The pickup of a desk at a mark: nothing where its counts are equal and no slot remains from an earlier
limit, or where it is stalled (R176, R179). -/
def pickup {α : Type} (parse : Word → List Host.Cell → Nat → Option α) (d : Desk) (stalled : Bool)
    (p : Port) : Port × List (Taken α) :=
  if stalled || (p.postCount d == (p.desks.get d).seen && !(p.desks.get d).rescan) then (p, []) else scanDesk parse d p

/-! ## The layout record (R172) -/

/-- Pages required of each area (10.1). -/
def requiredPages : Nat → Nat
  | 0 => 1 | 1 => 5 | 2 => 4 | 3 => 2 | 4 => 8 | 7 => 32 | _ => 1

/-- The layout record of the host page (10.2). -/
structure Layout where
  areas : List PageRange
  sizes : Sizes
  floor : Nat
  full : Nat
  deriving DecidableEq, Repr

/-- The area record of the layout record (10.2). -/
def areaRecord (m : List Host.Cell) (a : Nat) : PageRange :=
  ⟨(memWord m (80 + 8 * a)).toNat, (memWord m (84 + 8 * a)).toNat⟩

/-- A RIBBON width as written: 32,768 is written as 0 (10.2). -/
def ribbonWidth (n : Nat) : Nat := if n = 0 then 32768 else n

/-- The layout record as it stands (R172). -/
def readLayout (m : List Host.Cell) : Layout :=
  { areas := (List.range 11).map (areaRecord m)
    sizes := ⟨memHalf m 64, memHalf m 66, ribbonWidth (memHalf m 68), memHalf m 70⟩
    floor := memHalf m 72, full := memHalf m 74 }

/-- The thresholds of a record: F = 0 with U = 0 gives F = 500 and U = 900 (R172). -/
def Layout.thresholds (l : Layout) : Thresholds :=
  if l.floor = 0 ∧ l.full = 0 then ⟨500, 900⟩ else ⟨l.floor, l.full⟩

/-- An area lies outside the pages that areas may have (R172, check 1). -/
def PageRange.outside (r : PageRange) : Bool :=
  r.count != 0 && (decide (Config.pages < r.first + r.count) || decide (r.first < 2))

/-- Two areas share a page (R172, check 2). -/
def PageRange.meets (r s : PageRange) : Bool :=
  decide (r.first < s.first + s.count) && decide (s.first < r.first + r.count) &&
  r.count != 0 && s.count != 0

/-- Area `i` of the record. -/
def Layout.area (l : Layout) (i : Nat) : PageRange := tget ⟨0, 0⟩ l.areas i

/-- The higher index of the first overlapping pair (R172, check 2). -/
def Layout.overlap (l : Layout) : Option Nat :=
  ((List.range 11).flatMap fun i =>
    (List.range 11).filter fun j => decide (i < j) && (l.area i).meets (l.area j)).head?

/-- A side of a canvas is in range and divisible (R172, check 4). -/
def sideOk (lo hi by' n : Nat) : Bool := decide (lo ≤ n) && decide (n ≤ hi) && n % by' == 0

/-- The canvas sizes pass (R172, check 4). -/
def Sizes.valid (z : Sizes) : Bool :=
  sideOk 16 3840 4 z.mainW && sideOk 16 2160 4 z.mainH && sideOk 64 32768 64 z.ribbonW &&
  sideOk 16 128 1 z.ribbonH

/-- The layout result and area of a record, the checks made in order (R172). -/
def Layout.check (l : Layout) : LayoutResult × Nat :=
  match (List.range 11).find? fun i => (l.area i).outside with
  | some i => (.badRange, i)
  | none => match l.overlap with
    | some i => (.badRange, i)
    | none => match (List.range 11).find? fun i => decide ((l.area i).count < requiredPages i) with
      | some i => (.areaSmall, i)
      | none =>
        if !l.sizes.valid then (.badCanvas, 255)
        else if l.thresholds.floor < l.thresholds.full ∧ l.thresholds.full ≤ 1000 then (.ok, 255)
        else (.badThreshold, 255)

/-! ## The entry to RUNNING (R173, R181) -/

/-- Stage 1: the record's areas, sizes and thresholds come into force (R173). -/
def Port.putInForce (p : Port) (l : Layout) : Port :=
  { p with areas := some l.areas, sizes := some l.sizes, thresholds := some l.thresholds }

/-- Stage 2: the counts of the desks are 0, and the held sets empty (R173). -/
def Port.clearDesks (p : Port) : Port :=
  allDesks.foldl (fun p d =>
    (p.pokePart (16 + 4 * deskIndex d) 0).pokePart (36 + 4 * deskIndex d) 0)
    { p with desks := ⟨.init, .init, .init, .init, .init⟩ }

/-- Stage 3: the write counts are set to the read marks and the flags are clear (R173). -/
def Port.startCounts (p : Port) : Port :=
  let log := p.logMark
  let notice := p.noticeMark
  let p := { p with logWrite := log, noticeWrite := notice, logFull := false, overrun := false,
                    countsInForce := true }
  ((((p.pokePart 56 log).pokePart 60 0).pokePart 64 notice).pokePart 68 0).evalConditions

/-- One slot swept: TAKEN or ACTIVE goes REFUSED ORPHANED with finish tick 0 (R181). -/
def Port.sweepSlot (d : Desk) (p : Port) (i : Nat) : Port :=
  let w := memWord p.mem (p.slotAddr d i)
  if w = slotTaken ∨ w = slotActive then p.moveOut d i slotRefused .orphaned 0 0 else p

/-- Stage 4: the orphan sweep of the five desks (R181). -/
def Port.sweep (p : Port) : Port :=
  allDesks.foldl (fun p d => (List.range (deskSlots d)).foldl (Port.sweepSlot d) p) p

/-- Stage 5: the part locks on page 1 and on the meter table, clock record, log and notice areas
(R183). -/
def Port.lockPart (p : Port) : Port :=
  { p with partLocks := [⟨1, 1⟩, p.area 5, p.area 6, p.area 7, p.area 8] }

/-- Stage 6: the show tick is 0 and the run state RUNNING (R173). -/
def Port.startShow (p : Port) : Port :=
  ({ p with showTick := 0, runState := .running }).pokePart 12 0

/-- The entry to RUNNING on a record that passed (R173). -/
def Port.enter (p : Port) (l : Layout) : Port :=
  (((({ p with result := .ok, resultArea := 255 }.putInForce l).clearDesks).startCounts).sweep.lockPart).startShow

/-- A failed validation: result, LAYOUT_BAD and the RUN request cleared (R172). -/
def Port.failEntry (p : Port) (r : LayoutResult) (area : Nat) : Port :=
  ({ p with result := r, resultArea := area, runRequest := false }).latchLayoutBad

/-- The attempt at entry in CONFIG with the RUN request set (R11, R172, R173). -/
def Port.attempt (p : Port) : Port :=
  let l := readLayout p.mem
  let c := l.check
  if c.1 = .ok then p.enter l else p.failEntry c.1 c.2

/-! ## The show tick, the part page and show stop (R12, R171, R182) -/

/-- The show tick advances at a RUNNING mark after the entry (R12). -/
def Port.advanceTick (p : Port) : Port :=
  ({ p with showTick := p.showTick + 1 }).pokePart 12 (p.showTick + 1)

/-- The words of the part page written at every mark (R171). -/
def Port.writePartPage (p : Port) : Port :=
  ((p.pokePart 0 (toWord (flagNat p.running))).pokePart 4 (toWord p.result.code)).pokePart 8
    (toWord p.resultArea)

/-- The part is CONFIG from the stop mark, and every lock is cleared (R182, R183). -/
def Port.stopShow (p : Port) : Port :=
  { p with runState := .config, partLocks := [], loadLocks := [] }

end Sys2Proof.Machine
end

