-- ==== Sys2Proof/Machine/Timebase.lean ====
section
/-! DEFINITION. The Timebase: frame lengths, genlock and its notices, and the passing of reference
periods, with the timers that run down with them (chapter 1; R88, R129). -/

namespace Sys2Proof.Machine

/-- The Timebase with the Port it reports to. -/
abbrev TimebasePort := Timebase × Port

/-! ## Lengths (1.3) -/

/-- L: nominal frame length in reference periods (1.3). -/
def Rate.length : Rate → Nat
  | .fps50 => 540000 | .fps5994 => 450450 | .fps60 => 450000

/-- S: the largest correction applied to one frame (1.3). -/
def Rate.limit (r : Rate) : Nat := r.length / 1000

/-- Half the width of the acceptance window (R5). -/
def Rate.window (r : Rate) : Nat := r.length / 2000

/-- Genlock state codes (R9). -/
def Genlock.code : Genlock → Nat
  | .freeRun => 0 | .locking => 1 | .locked => 2 | .holdover => 3

/-- LOCKING or LOCKED. -/
def Genlock.following : Genlock → Bool
  | .locking => true
  | .locked => true
  | _ => false

/-! ## The frame mark (R2, R4, R7, R8) -/

/-- The genlock state of the first frame mark after synthesiser lock (R2). -/
def Timebase.firstGenlock (t : Timebase) : Genlock :=
  if !t.genlockEnable then .freeRun else if t.syncTimer.isSome then .locking else .holdover

/-- The first frame mark after synthesiser lock: e and the LOCKING count are 0 and the frame has length L
(R2, R4). -/
def Timebase.firstFrame (t : Timebase) : Timebase :=
  { t with synthLocked := true, genlock := t.firstGenlock, correction := 0, lockCount := 0,
           frameLength := t.rate.length, sinceMark := 0, sinceMs := 0 }

/-- c: the correction of the frame a mark begins (R4). -/
def Timebase.step (t : Timebase) : Int :=
  if t.genlock.following then clampInt (-(t.rate.limit : Int)) t.rate.limit t.correction else 0

/-- A later frame mark: the frame has length L + c, and e becomes e − c (R4, R7, R8). -/
def Timebase.nextFrame (t : Timebase) : Timebase :=
  { t with frameLength := ((t.rate.length : Int) + t.step).toNat
           correction := t.correction - t.step
           lockCount := if t.genlock = .locking then t.lockCount + 1 else t.lockCount
           sinceMark := t.sinceMark - t.frameLength }

/-! ## House sync (R5, R7 to R9) -/

/-- A pulse is accepted by the time since its predecessor (R5). -/
def Timebase.accepts (t : Timebase) : Bool :=
  match t.sincePulse with
  | none => false
  | some n => decide (t.rate.length - t.rate.window ≤ n) && decide (n ≤ t.rate.length + t.rate.window)

/-- The lead of house sync at a pulse (R7). -/
def Timebase.lead (t : Timebase) : Int :=
  (t.sinceMark : Int) - ((t.frameLength : Int) - t.rate.length)

/-- e as measured: the lead, or the lead less L where it is above L/2 (R7). -/
def Timebase.measured (t : Timebase) : Int :=
  if 2 * t.lead ≤ t.rate.length then t.lead else t.lead - t.rate.length

/-- e lies between −n and +n. -/
def within (n : Nat) (e : Int) : Bool := decide (-(n : Int) ≤ e) && decide (e ≤ n)

/-- An accepted pulse: the timer restarts, and the state follows the measurement (R5, R7, R8, R9). A pulse
that brings HOLDOVER to LOCKING is not itself tested for LOCKED: DEDUCED, log entry 10. -/
def acceptPulse (x : TimebasePort) : TimebasePort :=
  let t := { x.1 with syncTimer := some (3 * x.1.rate.length) }
  match t.genlock with
  | .freeRun => (t, x.2)
  | .holdover => ({ t with genlock := .locking, lockCount := 0, correction := t.measured }, x.2)
  | .locking =>
    if within 27 t.measured then
      ({ t with genlock := .locked, correction := t.measured },
       x.2.notice .genlockLocked 2 (toWord t.lockCount))
    else ({ t with correction := t.measured }, x.2)
  | .locked =>
    if within 135 t.measured then ({ t with correction := t.measured }, x.2)
    else ({ t with genlock := .locking, lockCount := 0, correction := t.measured },
          x.2.notice .genlockLost 1 1)

/-- A pulse on the house sync input with genlock enable on and the reference present (R5). -/
def examinePulse (x : TimebasePort) : TimebasePort :=
  let y := if x.1.accepts then acceptPulse x else x
  ({ y.1 with sincePulse := some 0 }, y.2)

/-- The sync-loss timer expires: sync is absent, and LOCKING or LOCKED becomes HOLDOVER (R5, R9). -/
def loseSync (x : TimebasePort) : TimebasePort :=
  let t := { x.1 with syncTimer := none }
  if t.genlock.following then
    ({ t with genlock := .holdover, correction := 0 }, x.2.notice .genlockLost 3 0)
  else (t, x.2)

/-- The sync-loss timer over `dt` reference periods (R5). -/
def elapseSync (dt : Nat) (x : TimebasePort) : TimebasePort :=
  match x.1.syncTimer with
  | none => x
  | some r => if r ≤ dt then loseSync x else ({ x.1 with syncTimer := some (r - dt) }, x.2)

/-! ## Genlock notices at a mark (R3, R9) -/

/-- The notice at the mark of entry, with genlock enable on (R9). -/
def genlockEntryNotice (t : Timebase) (p : Port) : Port :=
  if !t.genlockEnable then p
  else if t.genlock = .locked then p.notice .genlockLocked 2 (toWord t.lockCount)
  else p.notice .genlockLost t.genlock.code 3

/-- The notice at the first mark after relock (R3, R9). -/
def relockNotice (t : Timebase) (p : Port) : Port :=
  if t.relocking then p.notice .genlockLost t.genlock.code 2 else p

/-! ## Reference periods -/

/-- The counters of the Timebase over `dt` reference periods: the time since the latest pulse, and while
the synthesiser is LOCKED the time since the latest mark and ms tick. -/
def Timebase.advance (dt : Nat) (t : Timebase) : Timebase :=
  let t := { t with sincePulse := t.sincePulse.map (· + dt) }
  if t.synthLocked then { t with sinceMark := t.sinceMark + dt, sinceMs := t.sinceMs + dt } else t

/-- The Timebase with the Port replaced in the part. -/
def Part.withTimebase (s : Part) (x : TimebasePort) : Part :=
  { s with tb := x.1, blk := { s.blk with port := x.2 } }

/-- The reference clock is present. -/
def Part.referencePresent (s : Part) : Part := { s with tb := { s.tb with reference := true } }

/-- The part over `dt` reference periods. Periods that pass show the reference present (log entry 17): the
sync-loss timer runs with them, and the silence timers and the console receiver while the synthesiser is
LOCKED (R2, R5, R88, R129). A timer that comes due in the time expires in it. -/
def Part.elapse (dt : Nat) (s : Part) : Part :=
  if !s.tb.reference && dt == 0 then s
  else
    let s := s.referencePresent
    let s := s.withTimebase (elapseSync dt (s.tb.advance dt, s.blk.port))
    if s.tb.synthLocked then
      { s with clk := elapseGap dt s.clk, blk := { s.blk with cap := s.blk.cap.elapse dt } }
    else s

/-- What comes `dt` reference periods on. The time passes whether or not the synthesiser is LOCKED then (R2, R5); what
needs it LOCKED comes only if it is. -/
def Part.afterTime (dt : Nat) (f : Part → Part) (s : Part) : Part :=
  let s := s.elapse dt
  if s.tb.synthLocked then f s else s

/-- The reference clock is absent: the synthesiser is UNLOCKED and genlock FREE_RUN with e discarded; the
next pulse has no predecessor; the horn is released and a console word in progress discarded (R2, R3, R5,
R129, R144). -/
def Part.loseReference (s : Part) : Part :=
  { s with
    tb := { s.tb with reference := false, synthLocked := false, genlock := .freeRun, correction := 0,
                      sincePulse := none, relocking := s.tb.relocking || s.tb.synthLocked }
    clk := clockReferenceLost s.clk }

/-- A frame is conforming under the strapped rate (R88). -/
def conforms (r : Rate) (f : CameraFrame) : Bool :=
  f.width == 1920 && f.height == 1080 && f.progressive &&
  (match r, f.rate with
   | .fps50, .fps50 => true
   | .fps5994, .fps5994 => true
   | .fps60, .fps60 => true
   | _, _ => false)

end Sys2Proof.Machine
end

