-- ==== Sys2Proof/Machine/Mark.lean ====
section
/-! DEFINITION. The frame mark: what every block does at it, in the order the manual gives, and in the
order the surroundings settle where it gives none (R4, R11, R13, R39 to R44, R56, R72, R116, R156, R173,
R182). -/

namespace Sys2Proof.Machine

/-! ## The work of a mark in the making -/

/-- The part while a mark's cards are applied: `accepted` holds the SET_SECTION cards that acted, with
their sections, whose results wait for the section states (R42). -/
structure Work where
  sec : Sections
  clk : ClockUnit
  blk : Blocks
  accepted : List (Nat × Nat)

/-- The cards taken at a mark, by desk (R178). -/
structure Cards where
  plan : List (Taken PlanCard)
  replay : List (Taken ReplayCard)
  rotation : List (Taken RotationCard)
  clock : List (Taken ClockCard)
  message : List (Taken MessageCue)

/-- The work with the blocks changed. -/
def Work.onBlk (w : Work) (f : Blocks → Blocks) : Work := { w with blk := f w.blk }

/-- The work with the sections and the Port replaced. -/
def Work.withSections (w : Work) (x : SectionsPort) : Work :=
  { w with sec := x.1, blk := { w.blk with port := x.2 } }

/-- The work with the Clock Unit and the Port replaced. -/
def Work.withClock (w : Work) (x : ClockPort) : Work :=
  { w with clk := x.1, blk := { w.blk with port := x.2 } }

/-- A SET_SECTION card applied (R42). -/
def Work.applySection (w : Work) (slot : Nat) (q : SectionCue) : Work :=
  let y := setSectionOp slot q (w.sec, w.blk.port)
  let w := w.withSections y.1
  { w with accepted := w.accepted ++ y.2.toList }

/-- A PLAN desk card applied (R178). -/
def Work.applyPlan (w : Work) (t : Taken PlanCard) : Work :=
  match t.card with
  | .postPlan q => w.onBlk (postPlanOp t.slot t.post q)
  | .showZone q => w.onBlk (showZoneOp t.slot q)
  | .hideZone q => w.onBlk (hideZoneOp t.slot q)
  | .setSection q => w.applySection t.slot q

/-- A REPLAY desk card applied (R178); `timer` is 3L. -/
def Blocks.applyReplay (timer : Nat) (b : Blocks) (t : Taken ReplayCard) : Blocks :=
  match t.card with
  | .setInput q => setInputOp timer t.slot q b
  | .markClip q => markClipOp t.slot t.post q b
  | .keepClip q => keepClipOp t.slot q b
  | .dropClip q => dropClipOp t.slot q b
  | .cueHead q => cueHeadOp t.slot q b
  | .play q => playOp t.slot q b
  | .pause h => pauseOp t.slot h b
  | .setRate q => setRateOp t.slot q b
  | .stopHead h => stopHeadOp t.slot h b

/-- A ROTATION desk card applied (R178). -/
def Blocks.applyRotation (b : Blocks) (t : Taken RotationCard) : Blocks :=
  match t.card with
  | .setGroup q => setGroupOp t.slot q b
  | .setEntry q => setEntryOp t.slot q b
  | .dropEntry e => dropEntryOp t.slot e b
  | .loadImage q => loadImageOp t.slot q b

/-- A CLOCK desk card applied (R137, R178). -/
def applyClock (x : ClockPort) (t : Taken ClockCard) : ClockPort :=
  match t.card with
  | .setup q => clockSetupOp t.slot q x
  | .set q => clockSetOp t.slot q x
  | .run c => clockRunOp t.slot c x
  | .stop c => clockStopOp t.slot c x
  | .score q => scoreOp t.slot q x

/-- A MESSAGE card applied (R152). -/
def Blocks.applyMessage (b : Blocks) (t : Taken MessageCue) : Blocks :=
  messageOp t.slot t.post t.card b

/-! ## The order of a mark's open work -/

/-- Every piece of open work, in the order in which pieces not named are taken. -/
def allTasks : List MarkTask := [.clips, .plan, .replay, .rotation, .clock, .messages, .dwell]

/-- A list with each task once, at its first place. -/
def onceEach (l : List MarkTask) : List MarkTask :=
  l.foldl (fun acc t => if acc.contains t then acc else acc ++ [t]) []

/-- The Lanes' work moved to follow the plan's where it stands before it (R19, R156). -/
def messagesAfterPlan (l : List MarkTask) : List MarkTask :=
  if (l.takeWhile (· != .plan)).contains .messages then
    l.flatMap fun t => if t = .messages then [] else if t = .plan then [.plan, .messages] else [t]
  else l

/-- The order of the open work of a mark: as the surroundings settle it, but that the Lanes follow a plan
that may be adopted at the mark, since its lanes are theirs and their yield is not seen by its test (R19,
R155, R156). So a yield that ends at the mark still holds for the adoption: DESIGN CHOICE, log entry 43. -/
def taskOrder (order : List MarkTask) (staging : Bool) : List MarkTask :=
  let l := onceEach (order ++ allTasks)
  if staging then messagesAfterPlan l else l

/-- A plan is staged, or a POST_PLAN card is among those taken. -/
def mayAdopt (b : Blocks) (c : Cards) : Bool :=
  b.comp.staged.isSome || c.plan.any fun t => match t.card with
    | .postPlan _ => true
    | _ => false

/-- One piece of a mark's open work. -/
def Work.task (timer : Nat) (c : Cards) (w : Work) : MarkTask → Work
  | .clips => w.onBlk Blocks.keepWork
  | .plan => (c.plan.foldl Work.applyPlan w).onBlk Blocks.adopt
  | .replay => w.onBlk fun b => c.replay.foldl (Blocks.applyReplay timer) b
  | .rotation => w.onBlk fun b => c.rotation.foldl Blocks.applyRotation b
  | .clock => w.withClock (c.clock.foldl applyClock (w.clk, w.blk.port))
  | .messages => w.onBlk (Blocks.lanesWork fun b => c.message.foldl Blocks.applyMessage b)
  | .dwell => w.onBlk Blocks.dwellWork

/-! ## The stages of a RUNNING mark -/

/-- The pickup of the five desks; the PLAN desk is stalled by a plan staged before this mark (R176,
R179). -/
def Blocks.pickupAll (b : Blocks) : Blocks × Cards :=
  let pl := pickup planCardAt .plan b.comp.staged.isSome b.port
  let re := pickup replayCardAt .replay false pl.1
  let ro := pickup rotationCardAt .rotation false re.1
  let ck := pickup clockCardAt .clock false ro.1
  let ms := pickup messageCardAt .message false ck.1
  ({ b with port := ms.1 },
   { plan := pl.2, replay := re.2, rotation := ro.2, clock := ck.2, message := ms.2 })

/-- What precedes the cards of a mark: a load's frame of copying, the fades that end and the heads'
advance (R83, R23, R116). -/
def Blocks.beforeCards (b : Blocks) : Blocks :=
  (b.copyFrame.onComp Compositor.endFades).advanceHeads

/-- The section states of a mark with their notices, and the results of its SET_SECTION cards (R41, R42,
R44). The notices come after those of the open pieces of work: DESIGN CHOICE, log entry 25. -/
def Work.settle (entry : Bool) (w : Work) : Work :=
  let w := w.withSections (settleSections entry (w.sec, w.blk.port))
  w.onBlk (·.onPort fun p => w.accepted.foldl (finishSection w.sec) p)

/-- The credit of the frame a mark begins (R56, R57, R78, R165). -/
def Blocks.credit (b : Blocks) : Blocks :=
  let c := b.laneCredit
  b.countPasses.creditFrame c

/-- What follows the cards of a mark: fade steps, visible areas, the selection pass, the heads' output and
the credit of the frame (R23, R51, R72, R123, R56). -/
def Blocks.afterCards (i : MarkInput) (states : List SectionState) (b : Blocks) : Blocks :=
  ((((b.onComp Compositor.stepFades).measure states).selectionPass).outputHeads i.uncorrectable
    i.headBFirst).credit

/-- The entry work of the blocks, or the relock notice of a later mark (R9, R92, R148). -/
def Part.openMark (entry : Bool) (s : Part) : Part :=
  if entry then
    let p := genlockEntryNotice s.tb s.blk.port
    let x := clockEntryNotice (s.clk, p)
    { s with clk := x.1, blk := { s.blk with port := x.2, cap := s.blk.cap.enter } }
  else { s with blk := { s.blk with port := relockNotice s.tb s.blk.port } }

/-- The flags tested at each RUNNING mark, and which clips were KEPT for the frame just ended (R80, R110,
R190). -/
def Blocks.startMark (b : Blocks) : Blocks :=
  { b with port := b.port.testLogFull.testOverrun, rep := b.rep.noteKept }

/-- The show work of a RUNNING mark. The notices of different blocks come in its order, which R189 leaves open: DESIGN
CHOICE, log entry 25. -/
def Part.showWork (i : MarkInput) (entry : Bool) (s : Part) : Part :=
  let s := s.openMark entry
  let y := s.blk.startMark.pickupAll
  let order := taskOrder i.order (mayAdopt y.1 y.2)
  let w : Work := { sec := s.sec, clk := s.clk, blk := y.1.beforeCards, accepted := [] }
  let w := (order.foldl (Work.task (3 * s.tb.rate.length) y.2) w).settle entry
  let w := w.onBlk (Blocks.afterCards i w.sec.states)
  let w := w.withClock (writeClockRecord (w.clk, w.blk.port))
  { s with sec := w.sec, clk := w.clk, blk := w.blk }

/-- The section states of a CONFIG mark, with no notice (R41, R44). -/
def Part.idleWork (s : Part) : Part :=
  let x := settleSections false (s.sec, s.blk.port)
  { s with sec := x.1, blk := { s.blk with port := x.2 } }

/-- Each owner's show stop, while notices are still taken; then the part is CONFIG (R33, R60, R85, R103,
R126, R167, R182, R189). -/
def Blocks.stop (b : Blocks) : Blocks :=
  let b := b.stopRotator.stopReplay
  let b := { b with cap := b.cap.stop }
  b.stopLanes.stopPlans.onPort Port.stopShow

/-- The RUN request sampled at a mark, and the work that follows (R11). -/
def Part.sampleRun (i : MarkInput) (s : Part) : Part :=
  let p := s.blk.port
  if p.running then
    if p.runRequest then
      Part.showWork i false { s with blk := s.blk.onPort Port.advanceTick }
    else Part.idleWork { s with blk := s.blk.stop }
  else if p.runRequest then
    let s := { s with blk := s.blk.onPort Port.attempt }
    if s.blk.port.running then s.showWork i true else s.idleWork
  else s.idleWork

/-- What ends a mark: the frames are composed and sent, and the part page is written (R13, R36, R171). -/
def Part.closeMark (s : Part) : Part :=
  { s with
    tb := { s.tb with relocking := false }
    sec := s.sec.send
    blk := (s.blk.compose s.clk).onPort Port.writePartPage }

/-- A frame mark in whole; the first after synthesiser lock ends no frame (R2, R4, R40). -/
def Part.mark (first : Bool) (i : MarkInput) (s : Part) : Part :=
  let sec := if first then s.sec else s.sec.countHealth
  let s := { s with tb := if first then s.tb.firstFrame else s.tb.nextFrame
                    sec := sec.clearBuffers
                    clk := flashMark s.clk }
  (s.sampleRun i).closeMark

/-- FRAME_MARK: the frame in progress runs to its length, and the next begins; while the synthesiser is
UNLOCKED there is none (R2, R4). -/
def Part.frameMark (i : MarkInput) (s : Part) : Part :=
  if s.tb.synthLocked then (s.elapse (s.tb.frameLength - s.tb.sinceMark)).mark false i else s

/-- SYNTHESISER_LOCK: the reference is present, and the first frame begins at once (R2, R3). -/
def Part.lockSynthesiser (dt : Nat) (i : MarkInput) (s : Part) : Part :=
  if s.tb.synthLocked then s else (s.referencePresent.elapse dt).mark true i

/-- MS_TICK: the time to the next tick passes, and the Clock Unit counts (R10). -/
def Part.msTick (silenceFirst : Bool) (s : Part) : Part :=
  if s.tb.synthLocked then
    let s := s.elapse (Config.msPeriods - s.tb.sinceMs)
    let x := clockTick silenceFirst (s.clk, s.blk.port)
    { s with tb := { s.tb with sinceMs := s.tb.sinceMs - Config.msPeriods }, clk := x.1,
             blk := { s.blk with port := x.2 } }
  else s

end Sys2Proof.Machine
end

