-- ==== Sys2Proof/Machine/Resets.lean ====
section
/-! DEFINITION. The resets: power-on, hard reset and SOFT_RESET, each block by its own rule (R1, R34, R45,
R86, R87, R104, R127, R150, R168, R187, R188), and the shapes in which every meaning changes the
state. -/

namespace Sys2Proof.Machine

/-! ## The shapes of a meaning -/

/-- What every meaning answers. -/
abbrev Answer := Host.Outcome State Fault Refusal

/-- The state with the part changed. -/
def State.onPart (s : State) (f : Part → Part) : State := { s with part := f s.part }

/-- The part with the Port changed. -/
def Part.onPort (s : Part) (f : Port → Port) : Part := { s with blk := s.blk.onPort f }

/-- The part with the blocks of the frame mark changed. -/
def Part.onBlk (s : Part) (f : Blocks → Blocks) : Part := { s with blk := f s.blk }

/-- The part with the Clock Unit and the Port changed. -/
def Part.onClock (s : Part) (f : ClockPort → ClockPort) : Part :=
  let x := f (s.clk, s.blk.port)
  { s with clk := x.1, blk := { s.blk with port := x.2 } }

/-- The part is RUNNING and produces frame marks: only then is a card's step, or a step of a frame mark,
taken (R2, R176). -/
def Part.live (s : Part) : Bool := s.blk.port.running && s.tb.synthLocked

/-- A change of the part made while it is live, and none otherwise. -/
def Part.whenLive (s : Part) (f : Part → Part) : Part := if s.live then f s else s

/-! ## The blocks at a reset -/

/-- The Port and the Desk Reader at every reset: the interrupt follows the cleared mask (R187, R191,
R192). Nothing is written to Show Memory. -/
def Port.reset (p : Port) : Port :=
  ({ p with
      runState := .config, runRequest := false, thresholds := none, result := .notValidated,
      resultArea := 255, partLocks := [], loadLocks := [], faultPage := 0, latches := .clear,
      noticeWaiting := false, logWaiting := false, mask := 0,
      desks := ⟨.init, .init, .init, .init, .init⟩, countsInForce := false }).settle

/-- The Port at a power-on or hard reset: no area or size is in force, and the show tick is 0 (R12,
R188). -/
def Port.hardReset (p : Port) : Port :=
  { p.reset with areas := none, sizes := none, showTick := 0 }

/-- The Rotator at a soft reset: READY image slots are kept (R86). -/
def Rotator.softReset (r : Rotator) : Rotator := { Rotator.init with bank := r.bank.map BankSlot.abandon }

/-- The blocks at a soft reset (R34, R60, R86, R104, R127, R168, R187). -/
def Blocks.softReset (b : Blocks) : Blocks :=
  { port := b.port.reset, comp := .init b.port.sizesInForce, measures := [], rot := b.rot.softReset,
    cap := .init b.cap.rings, rep := .init, lanes := .init }

/-- The blocks at a power-on or hard reset (R34, R60, R87, R104, R127, R168, R188). -/
def Blocks.hardReset (b : Blocks) : Blocks :=
  { port := b.port.hardReset, comp := .init .largest, measures := [], rot := .init,
    cap := .init b.cap.rings, rep := .init, lanes := .init }

/-- The part at a hard reset with the straps as sampled at its release (R1, R2, R45, R150). -/
def Part.hardReset (rate : Rate) (genlockEnable : Bool) (s : Part) : Part :=
  { tb := .init rate genlockEnable s.tb.reference, sec := .init, clk := .init, blk := s.blk.hardReset }

/-- Show Memory after power-on: whatever it happens to hold, with the error slot word written to 0 (R102,
R188). -/
def powerOnMemory (contents : List Host.Cell) : List Host.Cell :=
  memWriteWord (memOfCells contents) errorSlotAddr 0

/-- The part at power-on: as at a hard reset, with no reference seen yet and Show Memory undefined (R1,
R102, R188). -/
def Part.powerOn (rate : Rate) (genlockEnable : Bool) (contents : List Host.Cell) (s : Part) : Part :=
  { tb := .init rate genlockEnable false, sec := .init, clk := .init,
    blk := s.blk.hardReset.onPort fun p => { p with mem := powerOnMemory contents } }

/-- The part at a soft reset: the Timebase and the Clock Unit go on (R45, R150, R187, 1.7). -/
def Part.softReset (s : Part) : Part := { s with sec := .init, blk := s.blk.softReset }

/-! ## Meanings -/

/-- POWER_ON (R188). -/
def execPowerOn (frate1 frate0 gensel : Bool) (contents : List Host.Cell) (s : State) : Answer :=
  .next (s.onPart (Part.powerOn (rateOfStraps frate1 frate0) gensel contents))

/-- HARD_RESET (R1): HRESET_N and PERST_N act alike. -/
def execHardReset (_ : ResetPin) (frate1 frate0 gensel : Bool) (s : State) : Answer :=
  .next (s.onPart (Part.hardReset (rateOfStraps frate1 frate0) gensel))

/-- SOFT_RESET (R187): bit 0 of the write is not used. -/
def execSoftReset (_ : Bool) (s : State) : Answer := .next (s.onPart Part.softReset)

end Sys2Proof.Machine
end

