-- ==== Sys2Proof/Machine/BoardEvents.lean ====
section
/-! DEFINITION. The steps of a frame mark that the table lists by themselves: fades, adoption, airings,
loads and message passes (R19, R23, R75, R83, R157, R160 to R162). Each is the step as the frame mark
takes it, where it is due, stamped with the show tick of the latest mark (R4). -/

namespace Sys2Proof.Machine

/-- A step of the blocks after which the visible areas are recomputed, while the part is live (R51). -/
def Part.boardStep (f : Blocks → Blocks) (s : Part) : Part :=
  s.whenLive fun s => s.onBlk fun b => (f b).measure s.sec.states

/-- FADE_END (R23). -/
def execFadeEnd (zone : Nat) (s : State) : Answer :=
  .next (s.onPart (·.boardStep (·.onComp (·.endFadeOf zone))))

/-- Adoption by itself: the fades whose last step has been drawn are seen as ended; where the staged plan is
then adopted, the passes on lanes it does not show are lost (R19, R155). -/
def Blocks.adoptAlone (b : Blocks) : Blocks :=
  let c := b.onComp Compositor.endFades
  if c.comp.staged.isSome && c.comp.still then c.adopt.loseLanes.onComp Compositor.settleFades else b

/-- ADOPTION (R19). -/
def execAdoption (s : State) : Answer := .next (s.onPart (·.boardStep Blocks.adoptAlone))

/-- DWELL_COMPLETE (R75). -/
def execDwellComplete (zone : Nat) (s : State) : Answer :=
  .next (s.onPart (·.whenLive (·.onBlk (·.endDue .dwell zone))))

/-- HOLD_LIMIT (R75). -/
def execHoldLimit (zone : Nat) (s : State) : Answer :=
  .next (s.onPart (·.whenLive (·.onBlk (·.endDue .holdLimit zone))))

/-- The head load, where its last frame of copying is due, completes (R83). -/
def Blocks.finishLoad (b : Blocks) : Blocks :=
  match b.rot.queue with
  | [] => b
  | l :: _ => if l.framesLeft ≤ 1 then b.completeLoad else b

/-- LOAD_COMPLETE (R83). -/
def execLoadComplete (s : State) : Answer := .next (s.onPart (·.whenLive (·.onBlk Blocks.finishLoad)))

/-- The pass on a lane, where its last frame has been begun, completes; stages 3 and 4 of the Lanes'
work follow (R156, R160). -/
def Blocks.passEnds (lane : Nat) (b : Blocks) : Blocks :=
  match b.lanes.passOn lane with
  | none => b
  | some p =>
    if p.length ≤ p.index + 1 then
      (b.applyJudgement (some .complete, { p with index := p.index + 1 })).expireCards.urgentStage
    else b

/-- PASS_COMPLETE (R160). -/
def execPassComplete (lane : Nat) (s : State) : Answer :=
  .next (s.onPart (·.boardStep (Blocks.passEnds lane)))

/-- A WAITING card whose expiry has come goes DONE; the urgent stage follows (R161, R164). -/
def Blocks.messageExpires (slot : Nat) (b : Blocks) : Blocks :=
  match b.lanes.card slot with
  | none => b
  | some c =>
    if !c.onAir && expiryCome b.port.showTick c.expiry then (b.expireCard slot).urgentStage else b

/-- MESSAGE_EXPIRY (R161). -/
def execMessageExpiry (slot : Nat) (s : State) : Answer :=
  .next (s.onPart (·.boardStep (Blocks.messageExpires slot)))

/-- The first WAITING URGENT card takes over where it may (R162). -/
def Blocks.takeover (b : Blocks) : Blocks :=
  match b.lanes.taker with
  | none => b
  | some c => (b.takeLanes c).urgentOn c

/-- URGENT_TAKEOVER (R162). -/
def execUrgentTakeover (s : State) : Answer := .next (s.onPart (·.boardStep Blocks.takeover))

/-- LANE_ASSIGNMENT (R157). -/
def execLaneAssignment (lane : Nat) (s : State) : Answer :=
  .next (s.onPart (·.whenLive (·.onBlk (·.serveLane lane))))

end Sys2Proof.Machine
end

