-- ==== Sys2Proof/Machine/Cameras.lean ====
section
/-! DEFINITION. Camera frames, loss of signal and the expiry of clips (R88 to R97, R109, R110). -/

namespace Sys2Proof.Machine

/-- A frame taken at an input (R88). -/
def Part.takeFrame (i : Nat) (conforming : Bool) (p : Picture) (s : Part) : Part :=
  s.onBlk fun b => b.arrive i (3 * s.tb.rate.length) conforming p

/-- An arrival on an input; while the synthesiser is UNLOCKED none is taken (R88). -/
def Part.arrival (dt i : Nat) (conforming : Bool) (p : Picture) (s : Part) : Part :=
  s.afterTime dt (·.takeFrame i conforming p)

/-- A conforming arrival that meets a condition on the blocks at its moment; else only the time passes. -/
def Part.arrivalWhen (cond : Blocks → Bool) (dt i : Nat) (p : Picture) (s : Part) : Part :=
  s.afterTime dt fun s => if cond s.blk then s.takeFrame i true p else s

/-- FRAME_ARRIVAL (R88). -/
def execFrameArrival (dt input : Nat) (frame : CameraFrame) (s : State) : Answer :=
  .next (s.onPart fun p => p.arrival dt input (conforms p.tb.rate frame) frame.picture)

/-- A STARVED input for which a bay can now be chosen (R97). -/
def resumable (i : Nat) (b : Blocks) : Bool :=
  (b.cap.input i).state == .starved && (b.cap.input i).chooseBay.isSome

/-- CAPTURE_RESUME (R97). -/
def execCaptureResume (dt input : Nat) (picture : Picture) (s : State) : Answer :=
  .next (s.onPart (·.arrivalWhen (resumable input) dt input picture))

/-- An input whose next number is the last (R92). -/
def exhausting (i : Nat) (b : Blocks) : Bool :=
  (b.cap.input i).state != .off && (b.cap.input i).next == Config.lastNumber

/-- NUMBERS_EXHAUSTED (R92). -/
def execNumbersExhausted (dt input : Nat) (picture : Picture) (s : State) : Answer :=
  .next (s.onPart (·.arrivalWhen (exhausting input) dt input picture))

/-- The input a clip is on. -/
def Blocks.clipInput (b : Blocks) (c : Nat) : Nat := ((b.rep.clip c).map (·.input)).getD 4

/-- An OPEN clip whose input numbers its last frame next (R109). -/
def closingNext (c : Nat) (b : Blocks) : Bool :=
  match b.rep.clip c with
  | none => false
  | some x =>
    x.outPoint == none && (b.cap.input x.input).state != .off &&
    (b.cap.input x.input).next == x.closeNumber

/-- OPEN_CLIP_CLOSE (R109). -/
def execOpenClipClose (dt clip : Nat) (picture : Picture) (s : State) : Answer :=
  .next (s.onPart fun p => p.arrivalWhen (closingNext clip) dt (p.blk.clipInput clip) picture)

/-- An input's silence timer runs to its end (R88). -/
def Part.expireSilence (i : Nat) (s : Part) : Part :=
  match (s.blk.cap.input i).silence with
  | none => s
  | some r => s.elapse r

/-- Loss of signal on an input; while the synthesiser is UNLOCKED the inputs are not received (R88,
R89). -/
def Part.loseSignal (i : Nat) (cause : SignalLoss) (s : Part) : Part :=
  match cause with
  | .timer => if s.tb.synthLocked then s.expireSilence i else s
  | .receiver dt => s.afterTime dt (·.onBlk (·.onInput i Input.loseSignal))

/-- LOSS_OF_SIGNAL (R89). -/
def execLossOfSignal (input : Nat) (cause : SignalLoss) (s : State) : Answer :=
  .next (s.onPart (·.loseSignal input cause))

/-- A KEPT clip with one frame of keep remaining expires (R110). -/
def Blocks.expireClip (c : Nat) (b : Blocks) : Blocks :=
  match b.rep.clip c with
  | none => b
  | some x => if x.state = .kept ∧ x.keep ≤ 1 then b.releaseClip c 0 else b

/-- CLIP_EXPIRY (R110). -/
def execClipExpiry (clip : Nat) (s : State) : Answer :=
  .next (s.onPart (·.whenLive (·.onBlk (Blocks.expireClip clip))))

end Sys2Proof.Machine
end

