-- ==== Sys2Proof/Machine/Console.lean ====
section
/-! DEFINITION. The console line and the counts of the Clock Unit as commands (R129 to R136, R144, R146). -/

namespace Sys2Proof.Machine

/-- What arrives on the console line `dt` reference periods on; while the synthesiser is UNLOCKED the
receiver takes nothing (R129). -/
def Part.onLine (dt : Nat) (f : ClockPort → ClockPort) (s : Part) : Part :=
  s.afterTime dt (·.onClock f)

/-- A step of the ms tick taken by itself where it is due; there is none while the synthesiser is UNLOCKED
(R10). -/
def Part.onTick (due : ClockUnit → Bool) (f : ClockPort → ClockPort) (s : Part) : Part :=
  if s.tb.synthLocked && due s.clk then s.onClock f else s

/-- CLOCK_WORD (R132). -/
def execClockWord (dt : Nat) (clock : ClockId) (running : Bool) (value : BitVec 24) (s : State) : Answer :=
  .next (s.onPart (·.onLine dt (clockWordOp clock running value.toNat)))

/-- HORN_WORD (R134). -/
def execHornWord (dt : Nat) (length : BitVec 16) (s : State) : Answer :=
  .next (s.onPart (·.onLine dt (hornWordOp length.toNat)))

/-- PERIOD_WORD (R134). -/
def execPeriodWord (dt : Nat) (period : Fin 9) (s : State) : Answer :=
  .next (s.onPart (·.onLine dt (periodWordOp (period.val + 1))))

/-- CONSOLE_BYTE (R129). -/
def execConsoleByte (dt : Nat) (value : Byte) (framingOk : Bool) (s : State) : Answer :=
  .next (s.onPart (·.onLine dt (receiveByte value framingOk)))

/-- A byte discards the word in progress: there was one, there is none, and the discard is counted
(R129, R130). -/
def discards (before after : ClockUnit) : Bool :=
  before.word.isSome && after.word.isNone && after.discards != 0

/-- A byte taken where it discards the word in progress; else only the time passes. -/
def Part.discardByte (dt : Nat) (b : Byte) (framingOk : Bool) (s : Part) : Part :=
  s.afterTime dt fun s =>
    if discards s.clk (receiveByte b framingOk (s.clk, s.blk.port)).1 then s.onClock (receiveByte b framingOk)
    else s

/-- WORD_DISCARD (R130). -/
def execWordDiscard (dt : Nat) (value : Byte) (framingOk : Bool) (s : State) : Answer :=
  .next (s.onPart (·.discardByte dt value framingOk))

/-- The gap after the latest byte of a word in progress grows past 4 ms (R129). -/
def Part.expireGap (s : Part) : Part :=
  if s.tb.synthLocked && s.clk.word.isSome then s.elapse (Config.gapPeriods + 1 - s.clk.gap) else s

/-- INTER_BYTE_GAP (R129). -/
def execInterByteGap (s : State) : Answer := .next (s.onPart Part.expireGap)

/-- The next count of silence loses the line (R131). -/
def silenceDue (u : ClockUnit) : Bool := u.heard && decide (Config.silenceLimit ≤ u.silence + 1)

/-- CONSOLE_SILENCE_EXPIRY (R131). -/
def execConsoleSilenceExpiry (s : State) : Answer := .next (s.onPart (·.onTick silenceDue silenceTick))

/-- The next count expires a DOWN clock (R135). -/
def expiryDue (i : ClockId) (u : ClockUnit) : Bool :=
  (u.clock i).counting && !(u.clock i).up && decide ((u.clock i).value ≤ 1)

/-- CLOCK_EXPIRY (R135). -/
def execClockExpiry (clock : ClockId) (s : State) : Answer :=
  .next (s.onPart (·.onTick (expiryDue clock) (countClock clock)))

/-- The next count brings an UP clock to its limit (R135). -/
def limitDue (i : ClockId) (u : ClockUnit) : Bool :=
  (u.clock i).counting && (u.clock i).up && decide (Config.upTop ≤ (u.clock i).value + 1)

/-- CLOCK_LIMIT_REACHED (R135). -/
def execClockLimitReached (clock : ClockId) (s : State) : Answer :=
  .next (s.onPart (·.onTick (limitDue clock) (countClock clock)))

/-- HORN_RELEASE (R144). -/
def execHornRelease (s : State) : Answer :=
  .next (s.onPart (·.onTick (fun u => u.horn == 1) fun x => (hornTick x.1, x.2)))

/-- The flash count of one item. -/
def Score.flash (s : Score) : Side → Nat
  | .home => s.homeFlash
  | .guest => s.guestFlash

/-- One item's flash is over (R146). -/
def Score.endFlash (s : Score) : Side → Score
  | .home => { s with homeFlash := 0 }
  | .guest => { s with guestFlash := 0 }

/-- FLASH_END (R146). -/
def execFlashEnd (side : Side) (s : State) : Answer :=
  .next (s.onPart (·.onTick (fun u => u.score.flash side == 1)
    fun x => ({ x.1 with score := x.1.score.endFlash side }, x.2)))

end Sys2Proof.Machine
end

