-- ==== Sys2Proof/Machine/Signals.lean ====
section
/-! DEFINITION. The reference, the marks and ticks, house sync and the panel links' reports (R2 to R10,
R38 to R41). -/

namespace Sys2Proof.Machine

/-- REFERENCE_LOST (R3): the reference was present for `dt` periods and is so no more. -/
def execReferenceLost (dt : Nat) (s : State) : Answer :=
  .next (s.onPart fun p => (p.elapse dt).loseReference)

/-- SYNTHESISER_LOCK (R2, R3). -/
def execSynthesiserLock (dt : Nat) (mark : MarkInput) (s : State) : Answer :=
  .next (s.onPart (·.lockSynthesiser dt mark))

/-- FRAME_MARK (R4). -/
def execFrameMark (mark : MarkInput) (s : State) : Answer := .next (s.onPart (·.frameMark mark))

/-- MS_TICK (R10). -/
def execMsTick (silenceFirst : Bool) (s : State) : Answer := .next (s.onPart (·.msTick silenceFirst))

/-- A house sync pulse at a part whose reference is present: it is examined with genlock enable on
(R5, R6). -/
def Part.housePulse (dt : Nat) (s : Part) : Part :=
  let s := s.referencePresent.elapse dt
  if s.tb.genlockEnable then s.withTimebase (examinePulse (s.tb, s.blk.port)) else s

/-- HOUSE_SYNC_PULSE (R5): while the reference is absent no pulse is examined (R2). -/
def execHouseSyncPulse (reference : Bool) (dt : Nat) (s : State) : Answer :=
  .next (if reference then s.onPart (·.housePulse dt) else s)

/-- The sync-loss timer runs to its end, with the reference (R5). -/
def Part.expireSync (s : Part) : Part :=
  match s.tb.syncTimer with
  | none => s
  | some r => s.referencePresent.elapse r

/-- SYNC_LOSS_EXPIRY (R5). -/
def execSyncLossExpiry (s : State) : Answer := .next (s.onPart Part.expireSync)

/-- HEALTH_REPORT (R38). -/
def execHealthReport (link position : Nat) (report : HealthSays) (checkOk : Bool) (s : State) : Answer :=
  .next (s.onPart fun p => { p with sec := p.sec.report link position report checkOk })

/-- The section states settled and the visible areas recomputed, outside a frame mark (R41, R44, R51). -/
def Part.settleStates (s : Part) : Part :=
  let x := settleSections false (s.sec, s.blk.port)
  { s with sec := x.1, blk := ({ s.blk with port := x.2 } : Blocks).measure x.1.states }

/-- A segment's health work, where it turns the segment (R39). -/
def Part.turnSegment (g : Nat) (s : Part) : Part :=
  if s.tb.synthLocked && s.sec.turns g then
    Part.settleStates { s with sec := s.sec.countSegment g } else s

/-- SEGMENT_HEALTH_CHANGE (R39). -/
def execSegmentHealthChange (segment : Nat) (s : State) : Answer :=
  .next (s.onPart (·.turnSegment segment))

end Sys2Proof.Machine
end

