-- ==== Sys2Proof/Machine/DeskCards.lean ====
section
/-! DEFINITION. The desk cues as commands: what the owner of a card does with it at its mark of take (R178).
A cue acts while the part is RUNNING and produces frame marks; in CONFIG the desks are not read
(R176). -/

namespace Sys2Proof.Machine

/-- A card's change of the blocks. -/
def Part.card (f : Blocks → Blocks) (s : Part) : Part := s.whenLive (·.onBlk f)

/-- A CLOCK desk card's change (R137). -/
def Part.clockCard (f : ClockPort → ClockPort) (s : Part) : Part := s.whenLive (·.onClock f)

/-! ## PLAN desk -/

/-- POST_PLAN (R15). -/
def execPostPlan (slot : Nat) (post : Word) (cue : PlanCue) (s : State) : Answer :=
  .next (s.onPart (·.card (postPlanOp slot post cue)))

/-- SHOW_ZONE (R24). -/
def execShowZone (slot : Nat) (_ : Word) (cue : ZoneCue) (s : State) : Answer :=
  .next (s.onPart (·.boardStep fun b => (showZoneOp slot cue b).onComp Compositor.settleFades))

/-- HIDE_ZONE (R25). -/
def execHideZone (slot : Nat) (_ : Word) (cue : ZoneCue) (s : State) : Answer :=
  .next (s.onPart (·.boardStep fun b => (hideZoneOp slot cue b).onComp Compositor.settleFades))

/-- A SET_SECTION card by itself: refused, or applied, the section states settled, and the slot finished with
its section's state (R41, R42). -/
def Part.setSection (slot : Nat) (q : SectionCue) (s : Part) : Part :=
  let y := setSectionOp slot q (s.sec, s.blk.port)
  let s := { s with sec := y.1.1, blk := { s.blk with port := y.1.2 } }
  match y.2 with
  | none => s
  | some k =>
    let s := s.settleStates
    s.onPort fun p => finishSection s.sec p k

/-- SET_SECTION (R42). -/
def execSetSection (slot : Nat) (_ : Word) (cue : SectionCue) (s : State) : Answer :=
  .next (s.onPart (·.whenLive (·.setSection slot cue)))

/-! ## REPLAY desk -/

/-- SET_INPUT (R90). -/
def execSetInput (slot : Nat) (_ : Word) (cue : InputCue) (s : State) : Answer :=
  .next (s.onPart fun p => p.card (setInputOp (3 * p.tb.rate.length) slot cue))

/-- MARK_CLIP (R106). -/
def execMarkClip (slot : Nat) (post : Word) (cue : MarkCue) (s : State) : Answer :=
  .next (s.onPart (·.card (markClipOp slot post cue)))

/-- KEEP_CLIP (R111). -/
def execKeepClip (slot : Nat) (_ : Word) (cue : KeepCue) (s : State) : Answer :=
  .next (s.onPart (·.card (keepClipOp slot cue)))

/-- DROP_CLIP (R112). -/
def execDropClip (slot : Nat) (_ : Word) (cue : DropClipCue) (s : State) : Answer :=
  .next (s.onPart (·.card (dropClipOp slot cue)))

/-- CUE_HEAD (R117). -/
def execCueHead (slot : Nat) (_ : Word) (cue : CueHeadCue) (s : State) : Answer :=
  .next (s.onPart (·.card (cueHeadOp slot cue)))

/-- PLAY (R118). -/
def execPlay (slot : Nat) (_ : Word) (cue : PlayCue) (s : State) : Answer :=
  .next (s.onPart (·.card (playOp slot cue)))

/-- SET_RATE (R118). -/
def execSetRate (slot : Nat) (_ : Word) (cue : RateCue) (s : State) : Answer :=
  .next (s.onPart (·.card (setRateOp slot cue)))

/-- PAUSE (R119). -/
def execPause (slot : Nat) (_ : Word) (head : Nat) (s : State) : Answer :=
  .next (s.onPart (·.card (pauseOp slot head)))

/-- STOP_HEAD (R119). -/
def execStopHead (slot : Nat) (_ : Word) (head : Nat) (s : State) : Answer :=
  .next (s.onPart (·.card (stopHeadOp slot head)))

/-! ## ROTATION desk -/

/-- SET_GROUP (R68). -/
def execSetGroup (slot : Nat) (_ : Word) (cue : GroupCue) (s : State) : Answer :=
  .next (s.onPart (·.card (setGroupOp slot cue)))

/-- SET_ENTRY (R63). -/
def execSetEntry (slot : Nat) (_ : Word) (cue : EntryCue) (s : State) : Answer :=
  .next (s.onPart (·.card (setEntryOp slot cue)))

/-- DROP_ENTRY (R65). -/
def execDropEntry (slot : Nat) (_ : Word) (entry : Nat) (s : State) : Answer :=
  .next (s.onPart (·.card (dropEntryOp slot entry)))

/-- LOAD_IMAGE (R82). -/
def execLoadImage (slot : Nat) (_ : Word) (cue : LoadCue) (s : State) : Answer :=
  .next (s.onPart (·.card (loadImageOp slot cue)))

/-! ## CLOCK desk -/

/-- CLOCK_SETUP (R138). -/
def execClockSetup (slot : Nat) (_ : Word) (cue : ClockSetupCue) (s : State) : Answer :=
  .next (s.onPart (·.clockCard (clockSetupOp slot cue)))

/-- CLOCK_SET (R139). -/
def execClockSet (slot : Nat) (_ : Word) (cue : ClockSetCue) (s : State) : Answer :=
  .next (s.onPart (·.clockCard (clockSetOp slot cue)))

/-- CLOCK_RUN (R140). -/
def execClockRun (slot : Nat) (_ : Word) (clock : Nat) (s : State) : Answer :=
  .next (s.onPart (·.clockCard (clockRunOp slot clock)))

/-- CLOCK_STOP (R140). -/
def execClockStop (slot : Nat) (_ : Word) (clock : Nat) (s : State) : Answer :=
  .next (s.onPart (·.clockCard (clockStopOp slot clock)))

/-- SCORE (R145). -/
def execScore (slot : Nat) (_ : Word) (cue : ScoreCue) (s : State) : Answer :=
  .next (s.onPart (·.clockCard (scoreOp slot cue)))

/-! ## MESSAGE desk -/

/-- MESSAGE (R152). -/
def execMessage (slot : Nat) (post : Word) (cue : MessageCue) (s : State) : Answer :=
  .next (s.onPart (·.card (messageOp slot post cue)))

end Sys2Proof.Machine
end

