-- ==== Sys2Proof/Machine/HostPort.lean ====
section
/-! DEFINITION. The host's writes to the register window and to Show Memory (R184 to R186, R191, R192). -/

namespace Sys2Proof.Machine

/-- RUN (R186): the RUN request is set or cleared. -/
def execRun (bit0 : Bool) (s : State) : Answer :=
  .next (s.onPart (·.onPort fun p => { p with runRequest := bit0 }))

/-- CAUSE_WRITE (R191). -/
def execCauseWrite (value : Word) (s : State) : Answer :=
  .next (s.onPart (·.onPort fun p => p.clearLatches value))

/-- CAUSE_MASK_WRITE (R192). -/
def execCauseMaskWrite (value : Word) (s : State) : Answer :=
  .next (s.onPart (·.onPort fun p => p.setMask value))

/-- REGISTER_WRITE_OTHER (R185, 10.10): no effect. -/
def execRegisterWriteOther (_ _ : Nat) (_ : Word) (s : State) : Answer := .next s

/-- HOST_WRITE (R184). -/
def execHostWrite (w : HostWrite) (s : State) : Answer :=
  .next (s.onPart (·.onPort fun p => p.hostWrite w))

end Sys2Proof.Machine
end

