-- ==== Sys2Proof/Machine/Dispatch.lean ====
section
/-! DEFINITION. The meaning of every command: one arm per row of spec/opcode_table.json. -/

namespace Sys2Proof.Machine

/-- The effect of a command on everything but the queue. -/
def exec (i : Instr) (s : State) : Host.Outcome State Fault Refusal :=
  match i with
  | .powerOn frate1 frate0 gensel contents => Sys2Proof.Machine.execPowerOn frate1 frate0 gensel contents s
  | .hardReset pin frate1 frate0 gensel => Sys2Proof.Machine.execHardReset pin frate1 frate0 gensel s
  | .softReset bit0 => Sys2Proof.Machine.execSoftReset bit0 s
  | .run bit0 => Sys2Proof.Machine.execRun bit0 s
  | .causeWrite value => Sys2Proof.Machine.execCauseWrite value s
  | .causeMaskWrite value => Sys2Proof.Machine.execCauseMaskWrite value s
  | .registerWriteOther offset width value => Sys2Proof.Machine.execRegisterWriteOther offset width value s
  | .hostWrite w => Sys2Proof.Machine.execHostWrite w s
  | .referenceLost dt => Sys2Proof.Machine.execReferenceLost dt s
  | .synthesiserLock dt mark => Sys2Proof.Machine.execSynthesiserLock dt mark s
  | .frameMark mark => Sys2Proof.Machine.execFrameMark mark s
  | .msTick silenceFirst => Sys2Proof.Machine.execMsTick silenceFirst s
  | .houseSyncPulse reference dt => Sys2Proof.Machine.execHouseSyncPulse reference dt s
  | .syncLossExpiry => Sys2Proof.Machine.execSyncLossExpiry s
  | .healthReport link position report checkOk => Sys2Proof.Machine.execHealthReport link position report checkOk s
  | .segmentHealthChange segment => Sys2Proof.Machine.execSegmentHealthChange segment s
  | .frameArrival dt input frame => Sys2Proof.Machine.execFrameArrival dt input frame s
  | .captureResume dt input picture => Sys2Proof.Machine.execCaptureResume dt input picture s
  | .numbersExhausted dt input picture => Sys2Proof.Machine.execNumbersExhausted dt input picture s
  | .lossOfSignal input cause => Sys2Proof.Machine.execLossOfSignal input cause s
  | .openClipClose dt clip picture => Sys2Proof.Machine.execOpenClipClose dt clip picture s
  | .clipExpiry clip => Sys2Proof.Machine.execClipExpiry clip s
  | .clockWord dt clock running value => Sys2Proof.Machine.execClockWord dt clock running value s
  | .hornWord dt length => Sys2Proof.Machine.execHornWord dt length s
  | .periodWord dt period => Sys2Proof.Machine.execPeriodWord dt period s
  | .wordDiscard dt value framingOk => Sys2Proof.Machine.execWordDiscard dt value framingOk s
  | .interByteGap => Sys2Proof.Machine.execInterByteGap s
  | .consoleSilenceExpiry => Sys2Proof.Machine.execConsoleSilenceExpiry s
  | .clockExpiry clock => Sys2Proof.Machine.execClockExpiry clock s
  | .clockLimitReached clock => Sys2Proof.Machine.execClockLimitReached clock s
  | .hornRelease => Sys2Proof.Machine.execHornRelease s
  | .flashEnd side => Sys2Proof.Machine.execFlashEnd side s
  | .fadeEnd zone => Sys2Proof.Machine.execFadeEnd zone s
  | .adoption => Sys2Proof.Machine.execAdoption s
  | .dwellComplete zone => Sys2Proof.Machine.execDwellComplete zone s
  | .holdLimit zone => Sys2Proof.Machine.execHoldLimit zone s
  | .loadComplete => Sys2Proof.Machine.execLoadComplete s
  | .passComplete lane => Sys2Proof.Machine.execPassComplete lane s
  | .messageExpiry slot => Sys2Proof.Machine.execMessageExpiry slot s
  | .urgentTakeover => Sys2Proof.Machine.execUrgentTakeover s
  | .laneAssignment lane => Sys2Proof.Machine.execLaneAssignment lane s
  | .postPlan slot post cue => Sys2Proof.Machine.execPostPlan slot post cue s
  | .showZone slot post cue => Sys2Proof.Machine.execShowZone slot post cue s
  | .hideZone slot post cue => Sys2Proof.Machine.execHideZone slot post cue s
  | .setSection slot post cue => Sys2Proof.Machine.execSetSection slot post cue s
  | .setInput slot post cue => Sys2Proof.Machine.execSetInput slot post cue s
  | .markClip slot post cue => Sys2Proof.Machine.execMarkClip slot post cue s
  | .keepClip slot post cue => Sys2Proof.Machine.execKeepClip slot post cue s
  | .dropClip slot post cue => Sys2Proof.Machine.execDropClip slot post cue s
  | .cueHead slot post cue => Sys2Proof.Machine.execCueHead slot post cue s
  | .play slot post cue => Sys2Proof.Machine.execPlay slot post cue s
  | .setRate slot post cue => Sys2Proof.Machine.execSetRate slot post cue s
  | .pause slot post head => Sys2Proof.Machine.execPause slot post head s
  | .stopHead slot post head => Sys2Proof.Machine.execStopHead slot post head s
  | .setGroup slot post cue => Sys2Proof.Machine.execSetGroup slot post cue s
  | .setEntry slot post cue => Sys2Proof.Machine.execSetEntry slot post cue s
  | .dropEntry slot post entry => Sys2Proof.Machine.execDropEntry slot post entry s
  | .loadImage slot post cue => Sys2Proof.Machine.execLoadImage slot post cue s
  | .clockSetup slot post cue => Sys2Proof.Machine.execClockSetup slot post cue s
  | .clockSet slot post cue => Sys2Proof.Machine.execClockSet slot post cue s
  | .clockRun slot post clock => Sys2Proof.Machine.execClockRun slot post clock s
  | .clockStop slot post clock => Sys2Proof.Machine.execClockStop slot post clock s
  | .score slot post cue => Sys2Proof.Machine.execScore slot post cue s
  | .message slot post cue => Sys2Proof.Machine.execMessage slot post cue s
  | .consoleByte dt value framingOk => Sys2Proof.Machine.execConsoleByte dt value framingOk s

end Sys2Proof.Machine
end

