-- ==== Sys2Proof/Safety.lean ====
section
/-! DEFINITION. What a safe state and a safe run of the 7160 are, in the terms the claims use. -/

namespace Sys2Proof.Machine

/-- The value of a clock lies within its direction's range (R128). -/
def Clock.inRange (c : Clock) : Prop := c.value ≤ rangeTop c.up

/-- A clock in each state as R128 has it: NO_TIME holds 0, EXPIRED is DOWN at 0, and only a CONSOLE clock
is in HOLDOVER. -/
def Clock.sound (c : Clock) : Prop :=
  c.inRange ∧ (c.state = .noTime → c.value = 0) ∧ (c.state = .expired → c.up = false ∧ c.value = 0) ∧
  (c.state = .holdover → c.localSource = false)

/-- Both clocks are sound. -/
def State.clocksSound (s : State) : Prop := s.part.clk.game.sound ∧ s.part.clk.aux.sound

/-- A segment backs at most one section at any time, and every section is backed by a segment that exists
(R37). -/
def Sections.mapSound (c : Sections) : Prop :=
  c.map.length = 64 ∧ (∀ r, r < 64 → c.backing r < 68) ∧
  ∀ r q, r < 64 → q < 64 → c.backing r = c.backing q → r = q

/-- The interrupt is asserted exactly while CAUSE and CAUSE_MASK have a common member (R192). -/
def Port.irqSound (p : Port) : Prop := p.irq = p.common

/-- Show Memory is in its canonical form. -/
def State.memorySound (s : State) : Prop := Memory.wf s.part.blk.port.mem = true

/-- A property that every step keeps, in every state. -/
def Kept (inv : State → Prop) : Prop := ∀ s t : State, inv s → step s = .next t → inv t

/-- A machine that no command stops. -/
def neverStops : Prop := ∀ s : State, ∃ t : State, step s = .next t

/-! ## Words in which the claims speak of a change -/

/-- The blocks of the frame mark. -/
abbrev State.blk (s : State) : Blocks := s.part.blk

/-- The Port. -/
abbrev State.port (s : State) : Port := s.part.blk.port

/-- The part is RUNNING and produces frame marks, Show Memory is in its canonical form, and the area of a desk
lies clear of the host page and the part page, as every layout that passes has it (R172). -/
def State.ready (s : State) (d : Desk) : Prop :=
  s.part.live = true ∧ Memory.wf s.port.mem = true ∧ 2 ≤ (s.port.area (deskIndex d)).first

/-- The bytes outside some words, each four bytes long, read as before. -/
def bytesKept (m m' : List Host.Cell) (words : List Nat) : Prop :=
  ∀ a, (∀ w ∈ words, a < w ∨ w + 4 ≤ a) → memRead m' a = memRead m a

/-- The words that a move of a slot to DONE or REFUSED writes: state, outcome, finish tick and result of the
slot, and the desk's done count in the part page (R175). -/
def Port.slotWords (p : Port) (d : Desk) (i : Nat) : List Nat :=
  [p.slotAddr d i, p.slotAddr d i + 12, p.slotAddr d i + 20, p.slotAddr d i + 24,
   partPage + 36 + 4 * deskIndex d]

/-- The interrupt behind a change of CAUSE: asserted while CAUSE and CAUSE_MASK have a common member, with an assert or a
release message where that moves it (R192). -/
def Port.interruptFollows (p q : Port) : Prop :=
  q.irq = q.common ∧
  q.messages = p.messages ++ (if q.irq = p.irq then [] else [if q.irq then .assert else .release])

/-- Both conditions of CAUSE as an evaluation leaves them: each set while its write count differs from the effective read
mark, and clear while no write count is in force (R191). -/
def Port.conditionsFollow (q : Port) : Prop :=
  q.noticeWaiting = (q.countsInForce && q.noticeUsed != 0) ∧ q.logWaiting = (q.countsInForce && q.logUsed != 0)

/-- The words of the next notice record, of the notice write count and of the overrun flag (R189, R190). -/
def Port.noticeWords (p : Port) : List Nat :=
  let a := p.areaBase 8 + 16 * (p.noticeWrite.toNat % 256)
  [a, a + 4, a + 8, partPage + 64, partPage + 68]

/-- All that a notice handed to the notice area does to the Port: nothing outside RUNNING; where the area has room, the
record at its place, the write count, both conditions evaluated anew and the interrupt behind them; where it has none, the
overrun flag alone (R189 to R192). -/
def Port.noticeTaken (p q : Port) (kind subject : Nat) (value : Word) : Prop :=
  let a := p.areaBase 8 + 16 * (p.noticeWrite.toNat % 256)
  (p.runState = .config → q = p) ∧
  (p.runState = .running → p.noticeUsed < 256 →
    memHalf q.mem a = kind ∧ memHalf q.mem (a + 2) = subject % 65536 ∧ memWord q.mem (a + 4) = value ∧
    memWord q.mem (a + 8) = p.showTick ∧ q.noticeWrite = p.noticeWrite + 1 ∧
    memWord q.mem (partPage + 64) = p.noticeWrite + 1 ∧
    q.overrun = (p.overrun && p.noticeUsed != 0) ∧
    (p.overrun = true → p.noticeUsed = 0 → memWord q.mem (partPage + 68) = 0) ∧
    q.conditionsFollow ∧ p.interruptFollows q ∧ bytesKept p.mem q.mem p.noticeWords) ∧
  (p.runState = .running → 256 ≤ p.noticeUsed →
    (p.overrun = false → memWord q.mem (partPage + 68) = 1) ∧ (p.overrun = true → q = p) ∧
    bytesKept p.mem q.mem [partPage + 68] ∧ q = { p with mem := q.mem, overrun := true }) ∧
  q = { p with mem := q.mem, noticeWrite := q.noticeWrite, overrun := q.overrun
               noticeWaiting := q.noticeWaiting, logWaiting := q.logWaiting, irq := q.irq
               messages := q.messages }

/-- The words of the next log record, of the log write count and of the log-full flag (R79, R80). -/
def Port.recordWords (p : Port) : List Nat :=
  ((List.range 8).map fun k => p.areaBase 7 + 32 * (p.logWrite.toNat % 4096) + 4 * k) ++
    [partPage + 56, partPage + 60]

/-- All that a record handed to the log does to the Port: where the log has room, its 32 bytes at their place, the write
count, both conditions evaluated anew and the interrupt behind them; where it has none, the log-full flag with one LOG_FULL
notice, or nothing where the flag is set (5.8, R79, R80, R191, R192). -/
def Port.recordTaken (p q : Port) (r : LogRecord) : Prop :=
  let a := p.areaBase 7 + 32 * (p.logWrite.toNat % 4096)
  (p.logUsed < 4096 →
    (memRead q.mem a).toNat = r.kind % 256 ∧ (memRead q.mem (a + 1)).toNat = r.endCode % 256 ∧
    (memRead q.mem (a + 2)).toNat = r.place % 256 ∧ (memRead q.mem (a + 3)).toNat = r.group % 256 ∧
    memHalf q.mem (a + 4) = r.entry % 65536 ∧ memHalf q.mem (a + 6) = r.slot % 65536 ∧
    memWord q.mem (a + 8) = r.start ∧ memWord q.mem (a + 12) = r.stop ∧
    memWord q.mem (a + 16) = toWord r.shown ∧ memWord q.mem (a + 20) = toWord r.credited ∧
    memWord q.mem (a + 24) = toWord r.credits ∧ memWord q.mem (a + 28) = r.number ∧
    q.logWrite = p.logWrite + 1 ∧ memWord q.mem (partPage + 56) = p.logWrite + 1 ∧
    q.logFull = false ∧ (p.logFull = true → memWord q.mem (partPage + 60) = 0) ∧
    q.conditionsFollow ∧ p.interruptFollows q ∧ bytesKept p.mem q.mem p.recordWords ∧
    q = { p with mem := q.mem, logWrite := q.logWrite, logFull := q.logFull
                 noticeWaiting := q.noticeWaiting, logWaiting := q.logWaiting, irq := q.irq
                 messages := q.messages }) ∧
  (4096 ≤ p.logUsed → p.logFull = true → q = p) ∧
  (4096 ≤ p.logUsed → p.logFull = false →
    ({ p with logFull := true, mem := memWriteWord p.mem (partPage + 60) 1 } : Port).noticeTaken q
      5 0 p.logWrite)

/-- The words of a meter-table entry (5.3). -/
def Port.meterWords (p : Port) (e : Nat) : List Nat :=
  (List.range 7).map fun k => p.meterAddr e + 4 * k

/-- The head words of a slot after a move: state, outcome, finish tick and result (R175). -/
def Port.slotReads (p q : Port) (d : Desk) (i : Nat) (state outcome tick result : Word) : Prop :=
  memWord q.mem (p.slotAddr d i) = state ∧ memWord q.mem (p.slotAddr d i + 12) = outcome ∧
  memWord q.mem (p.slotAddr d i + 20) = tick ∧ memWord q.mem (p.slotAddr d i + 24) = result

/-- The desk, the latches and the interrupt after a move of a slot: the slot is out of the held set, the done
count is one higher, DESK_DONE is latched, and the interrupt follows CAUSE and CAUSE_MASK (R175, R178,
R192). -/
def Port.deskDone (p q : Port) (d : Desk) (i : Nat) : Prop :=
  q.desks = p.desks.set d
    { p.desks.get d with done := (p.desks.get d).done + 1
                         held := (p.desks.get d).held.filter (· != i) } ∧
  q.latches = { p.latches with deskDone := true } ∧ p.interruptFollows q

/-- All that a move of slot `i` of a desk to DONE or REFUSED does to the Port, at the show tick in force
(R175). -/
def Port.slotMoved (p q : Port) (d : Desk) (i : Nat) (state outcome result : Word) : Prop :=
  p.slotReads q d i state outcome p.showTick result ∧
  memWord q.mem (partPage + 36 + 4 * deskIndex d) = (p.desks.get d).done + 1 ∧
  bytesKept p.mem q.mem (p.slotWords d i) ∧ p.deskDone q d i ∧
  q = { p with mem := q.mem, desks := q.desks, latches := q.latches, irq := q.irq, messages := q.messages }

/-- A card of a desk changed nothing but the Port, which did no more than move its slot. -/
def State.onlyMoved (s t : State) (d : Desk) (i : Nat) (state outcome result : Word) : Prop :=
  s.port.slotMoved t.port d i state outcome result ∧
  t = s.onPart (·.onPort fun _ => t.port)

/-! ## Changes of the Port, one after another -/

/-- Show Memory is in its canonical form, and every area lies clear of the host page and the part page, as every
layout that passes has it (R172). -/
def Port.laid (p : Port) : Prop := Memory.wf p.mem = true ∧ ∀ i, i < 11 → 2 ≤ (p.area i).first

/-- The Port so lies while it is RUNNING; in CONFIG, where no notice is taken, it may lie as it will. -/
def Port.laidWhenRunning (p : Port) : Prop := p.runState = .running → p.laid

/-- A change of the Port, said of the Port before it and the Port after it. -/
abbrev PortChange := Port → Port → Prop

/-- The Port goes through some changes, one after another. -/
def Port.through : List PortChange → PortChange
  | [], p, q => q = p
  | f :: fs, p, q => ∃ m, f p m ∧ Port.through fs m q

/-- A notice of a kind, with its subject and value (R189, R190). -/
def noticed (kind subject : Nat) (value : Word) : PortChange := fun p q => p.noticeTaken q kind subject value

/-- A move of a slot to a state, with its outcome and result (R175). -/
def slotMoves (d : Desk) (i : Nat) (state outcome result : Word) : PortChange :=
  fun p q => p.slotMoved q d i state outcome result

/-- The record of an airing that ends for the reason of a code, at the show tick in force (5.8, R76, R79). -/
def Rotator.airingLogged (r : Rotator) (code : Nat) (a : Airing) : PortChange := fun p q =>
  p.recordTaken q
    { kind := 1, endCode := code, place := a.zone, group := a.group, entry := a.entry
      slot := ((r.entry a.entry).map (·.image)).getD 0, start := a.start, stop := p.showTick, shown := a.shown
      credited := a.credited, credits := a.credits, number := toWord a.number }

/-- The record of a pass of a card that ends for the reason of a code, at the show tick in force; a card that is not
SPONSORED has none (R79, R166). -/
def MsgCard.passLogged (c : MsgCard) (code : Nat) (x : Pass) : List PortChange :=
  if c.cls = .sponsored then
    [fun p q => p.recordTaken q
      { kind := 2, endCode := code, place := x.lane, group := x.number
        entry := if c.linkIntact then c.linked else 65535, slot := c.slot, start := x.start, stop := p.showTick
        shown := x.onAir, credited := x.credited, credits := x.credits, number := c.post }]
  else []

/-- The writing of a meter-table entry: the edit count `k`, and behind it every field of the entry, or the state byte
alone where it becomes UNSET; nothing else is written (5.3, R66). -/
def meterWritten (e : Nat) (k : Word) (x : Option Entry) : PortChange := fun p q =>
  let a := p.meterAddr e
  memWord q.mem a = k ∧
  (match x with
   | none => memRead q.mem (a + 4) = 0 ∧ ∀ b, b < a ∨ a + 5 ≤ b → memRead q.mem b = memRead p.mem b
   | some x =>
     memRead q.mem (a + 4) = 1 ∧ (memRead q.mem (a + 5)).toNat = x.category % 256 ∧
     memHalf q.mem (a + 6) = x.image % 65536 ∧ memWord q.mem (a + 8) = BitVec.ofInt 32 x.meter ∧
     memWord q.mem (a + 12) = toWord x.quota ∧ memWord q.mem (a + 16) = toWord x.onAir ∧
     memWord q.mem (a + 20) = toWord x.airings ∧ memWord q.mem (a + 24) = toWord x.dwell ∧
     ∀ b, b < a ∨ a + 28 ≤ b → memRead q.mem b = memRead p.mem b) ∧
  q = { p with mem := q.mem }

/-- HORN is latched, and the interrupt follows (R144, R191, R192). -/
def hornLatched : PortChange := fun p q =>
  q = { p with latches := { p.latches with horn := true }, irq := q.irq, messages := q.messages } ∧
  p.interruptFollows q

/-- The next count of a clock ends it: a DOWN clock at 0, an UP clock at its limit (R135). -/
def Clock.runsOut (c : Clock) : Bool :=
  (c.state == .running || c.state == .holdover) &&
    if c.up then decide (11999999 ≤ c.value + 1) else decide (c.value ≤ 1)

/-- What a count of a clock gives where it ends the clock: CLOCK_LIMIT of value 0, or CLOCK_EXPIRED of value 0 and, where its
horn is on and finds the line released, the HORN latch; by the clock's id and the horn count the request finds (R135, R144,
R148). -/
def Clock.countNoticed (c : Clock) (id horn : Nat) : List PortChange :=
  if c.runsOut then
    if c.up then [noticed 17 id 0]
    else noticed 15 id 0 :: if c.hornOn = true ∧ horn = 0 ∧ 0 < c.hornLength then [hornLatched] else []
  else []

/-- The horn request of the next count of a clock: its horn length where a DOWN clock with its horn on runs out, else 0 (R135,
R144). -/
def Clock.asks (c : Clock) : Nat := if c.runsOut = true ∧ c.up = false ∧ c.hornOn = true then c.hornLength else 0

/-- The notices and the HORN latch of an ms tick, `discards` the discard count then: CONSOLE_LOST where a HEARD line is 500
ticks silent, its subject the CONSOLE clocks that are RUNNING, but for one that ran out where the clocks are counted first;
and the count of GAME before that of AUX, each horn request finding the horn as the tick and the request before it left it
(R131, R135, R144, R148). Which of silence and count comes first the command says; that, GAME before AUX, and the horn lowered
before either are log entry 22. -/
def ClockUnit.tickNoticed (u : ClockUnit) (silenceFirst : Bool) (discards : Nat) : List PortChange :=
  let names (c : Clock) : Bool := !c.localSource && c.state == .running && (silenceFirst || !c.runsOut)
  let silent := if u.heard = true ∧ 500 ≤ u.silence + 1 then
    [noticed 18 ((if names u.game then 1 else 0) + if names u.aux then 2 else 0) (toWord discards)] else []
  let clocks := u.game.countNoticed 0 (u.horn - 1) ++ u.aux.countNoticed 1 (max (u.horn - 1) u.game.asks)
  if silenceFirst then silent ++ clocks else clocks ++ silent

/-- The notices of the section states, in rising table index: SECTION_DEAD for a section that was LIVE and is not,
SECTION_LIVE for one that is and was not, and at the mark of entry SECTION_DEAD for each that is not; each with the index
as subject and the segment that displays the section as value (R44). -/
def Sections.noticed (c : Sections) (entry : Bool) (was : List SectionState) : List PortChange :=
  (List.range 80).flatMap fun i =>
    let segment := toWord (if i < 16 then i else c.backing (i - 16))
    if entry then (if c.stateOf i = .live then [] else [Machine.noticed 2 i segment])
    else if tget .live was i = .live ∧ c.stateOf i ≠ .live then [Machine.noticed 2 i segment]
    else if tget .live was i ≠ .live ∧ c.stateOf i = .live then [Machine.noticed 3 i segment]
    else []

/-- The CLIP_CLOSED notices of the OPEN clips of input `i` that close as it numbers frame `n`, by rising clip number
(R109; the order is log entry 25). -/
def Blocks.clipsClosed (b : Blocks) (i n : Nat) : List PortChange :=
  (List.range b.rep.clips.length).flatMap fun c =>
    match b.rep.clip c with
    | none => []
    | some x =>
      if x.input = i ∧ x.outPoint = none ∧ min (x.inPoint + 599) 4294967295 = n then [noticed 9 c (toWord n)]
      else []

/-- A clip claims bay `k` as frame `n` of input `i` is written into it: KEPT or HELD on that input, its range holds the
number, and its claim set does not yet hold the bay (R108). -/
def Clip.claimsAt (x : Clip) (i n k : Nat) : Bool :=
  x.input == i && x.state != .lapsing && decide (x.inPoint ≤ n) &&
  (match x.outPoint with | none => true | some o => decide (n ≤ o)) && !x.claims.contains k

/-- How many clips so claim a bay. -/
def Blocks.claimsMade (b : Blocks) (i n k : Nat) : Nat :=
  (b.rep.clips.filter fun c => match c with | none => false | some x => x.claimsAt i n k).length

/-- A clip once input `i` has numbered frame `n`, written into bay `k` or discarded. At a written frame it claims the bay
where R108 says so, and the live edge of an OPEN clip rises to a number at or above its in-point and above the edge; an OPEN
clip closes at its last number, with no live edge (R108, R109). -/
def Clip.numbered (x : Clip) (i n : Nat) (bay : Option Nat) : Clip :=
  let y : Clip := match bay with
    | none => x
    | some k =>
      { x with
        claims := if x.claimsAt i n k then x.claims ++ [k] else x.claims
        edge := if x.input = i ∧ x.outPoint = none ∧ x.inPoint ≤ n ∧ (x.edge.all fun e => decide (e < n)) = true
          then some n else x.edge }
  if x.input = i ∧ x.outPoint = none ∧ min (x.inPoint + 599) 4294967295 = n
  then { y with outPoint := some n, edge := none } else y

/-- The bay a choice takes: the lowest EMPTY one, else the oldest FILLED one with kept count 0 (R95). -/
def Input.bayChosen (x : Input) : Option Nat :=
  match (List.range x.bays.length).find? fun j => (x.bay j).state == .empty with
  | some j => some j
  | none => x.ages.find? fun j => (x.bay j).kept == 0

/-- The notice with which an arrival at input `i` finds its bay: none where the input has a FILLING bay; CAPTURE_RESUMED
where one is chosen and the starvation flag was set; CAPTURE_STARVED where there is none and the flag was clear (R96,
R97). -/
def Blocks.bayNoticed (b : Blocks) (i : Nat) : List PortChange :=
  let x := b.cap.input i
  match x.filling, x.chooseBay with
  | some _, _ => []
  | none, some _ => if x.starved then [noticed 7 i (toWord x.next)] else []
  | none, none => if x.starved then [] else [noticed 6 i (toWord x.next)]

/-- All that freeing a clip does: a release for every bay of its claim set, which lowers the kept count of a FILLED bay
and the pending count of the FILLING bay; CLIP_LAPSED with the lapse cause; its MARK_CLIP card DONE with the outcome and
clip number of its take; and the clip is FREE. Other clips, other inputs and the heads stay (R98, R113). -/
def Blocks.clipFreed (b t : Blocks) (c cause : Nat) (x : Clip) : Prop :=
  let y := b.cap.input x.input
  let z := t.cap.input x.input
  t.rep.clip c = none ∧ (∀ d, d ≠ c → t.rep.clip d = b.rep.clip d) ∧
  t.rep.headA = b.rep.headA ∧ t.rep.headB = b.rep.headB ∧
  (∀ i, i ≠ x.input → t.cap.input i = b.cap.input i) ∧ t.cap.rings = b.cap.rings ∧
  z = { y with bays := z.bays } ∧
  (∀ k, z.bay k = match (y.bay k).state with
    | .empty => y.bay k
    | .filling => { y.bay k with pending := (y.bay k).pending - x.claims.count k }
    | .filled => { y.bay k with kept := (y.bay k).kept - x.claims.count k }) ∧
  (b.port.laid → Port.through [noticed 10 c (toWord cause),
    slotMoves .replay x.slot 4 (if x.clamped then 1 else 0) (toWord c)] b.port t.port) ∧
  t = { b with port := t.port, cap := t.cap, rep := t.rep }

/-! ## What a frame mark does to the Port -/

/-- The GENLOCK_LOST notice of value 0 where the sync-loss timer runs out in LOCKING or LOCKED within some reference periods,
its subject HOLDOVER (R5, R9). Periods that pass show the reference present, and so does a lock of an UNLOCKED synthesiser,
log entry 17. -/
def Timebase.syncLost (b : Timebase) (dt : Nat) : List PortChange :=
  if (b.reference = true ∨ b.synthLocked = false ∨ 0 < dt) ∧ (b.genlock = .locking ∨ b.genlock = .locked) ∧
    (b.syncTimer.any fun r => decide (r ≤ dt)) = true then [noticed 22 3 0] else []

/-- The code of the genlock state in force, as the genlock notices give it (R9). -/
def Timebase.genlockSubject (b : Timebase) : Nat :=
  match b.genlock with | .freeRun => 0 | .locking => 1 | .locked => 2 | .holdover => 3

/-- The genlock notice of the mark of entry: with genlock enable on, GENLOCK_LOCKED with the LOCKING count, or GENLOCK_LOST
of value 3 (R9). -/
def Timebase.entryNoticed (b : Timebase) : List PortChange :=
  if b.genlockEnable = true then
    [if b.genlock = .locked then noticed 23 2 (toWord b.lockCount) else noticed 22 b.genlockSubject 3]
  else []

/-- The console's notice of the mark of entry: CONSOLE_LOST while the line is LOST, naming the clocks now in HOLDOVER, with
the discard count (R148). -/
def ClockUnit.entryNoticed (u : ClockUnit) : List PortChange :=
  if u.heard = true then []
  else [noticed 18 ((if u.game.state = .holdover then 1 else 0) + if u.aux.state = .holdover then 2 else 0)
    (toWord u.discards)]

/-- The show tick rises by 1, modulo 2^32, and is written to the part page (R12). -/
def tickAdvanced : PortChange := fun p q =>
  memWord q.mem (partPage + 12) = p.showTick + 1 ∧ bytesKept p.mem q.mem [partPage + 12] ∧
  q = { p with mem := q.mem, showTick := p.showTick + 1 }

/-- The tests of both flags at a RUNNING mark: the log-full flag clears, with its word, where the log has room, and the
overrun flag where the notice area is empty (R80, R190). -/
def flagsTested : PortChange := fun p q =>
  let logClears : Prop := p.logFull = true ∧ p.logUsed < 4096
  let overrunClears : Prop := p.overrun = true ∧ p.noticeUsed = 0
  (logClears → memWord q.mem (partPage + 60) = 0) ∧ (overrunClears → memWord q.mem (partPage + 68) = 0) ∧
  bytesKept p.mem q.mem [partPage + 60, partPage + 68] ∧
  (¬logClears → ∀ a, partPage + 60 ≤ a → a < partPage + 64 → memRead q.mem a = memRead p.mem a) ∧
  (¬overrunClears → ∀ a, partPage + 68 ≤ a → a < partPage + 72 → memRead q.mem a = memRead p.mem a) ∧
  q = { p with mem := q.mem, logFull := p.logFull && !decide (p.logUsed < 4096)
               overrun := p.overrun && p.noticeUsed != 0 }

/-! ## The stages of an entry to RUNNING (R173) -/

/-- The result OK with area 255, and stage 1: the areas, sizes and thresholds of the record are in force (R172, R173). -/
def layoutInForce (l : Layout) : PortChange := fun p q =>
  q = { p with result := .ok, resultArea := 255, areas := some l.areas, sizes := some l.sizes
               thresholds := some l.thresholds }

/-- The words of the part page that hold the seen counts and the done counts of the desks (10.2). -/
def deskCountWords : List Nat := (List.range 10).map fun k => partPage + 16 + 4 * k

/-- Stage 2: every desk has seen count, done count and last taken 0 and nothing held, and the ten counts are written
(R173). -/
def desksCleared : PortChange := fun p q =>
  (∀ d, q.desks.get d = ⟨0, 0, 0, [], false⟩) ∧ (∀ a ∈ deskCountWords, memWord q.mem a = 0) ∧
  bytesKept p.mem q.mem deskCountWords ∧ q = { p with mem := q.mem, desks := q.desks }

/-- Stage 3: the log and notice write counts are the host's read marks as they stand and both flags are clear, all four
written; log and notice area being empty, both conditions are clear, and the interrupt follows (R173, R191, R192). -/
def countsStarted : PortChange := fun p q =>
  q.logWrite = memWord p.mem 20 ∧ q.noticeWrite = memWord p.mem 24 ∧
  memWord q.mem (partPage + 56) = memWord p.mem 20 ∧ memWord q.mem (partPage + 60) = 0 ∧
  memWord q.mem (partPage + 64) = memWord p.mem 24 ∧ memWord q.mem (partPage + 68) = 0 ∧
  bytesKept p.mem q.mem [partPage + 56, partPage + 60, partPage + 64, partPage + 68] ∧ p.interruptFollows q ∧
  q = { p with mem := q.mem, logWrite := q.logWrite, noticeWrite := q.noticeWrite, logFull := false
               overrun := false, countsInForce := true, noticeWaiting := false, logWaiting := false
               irq := q.irq, messages := q.messages }

/-- A slot of a desk that the sweep finds TAKEN or ACTIVE (R181). -/
def Port.orphan (p : Port) (d : Desk) (i : Nat) : Prop :=
  i < deskSlots d ∧ (memWord p.mem (p.slotAddr d i) = 2 ∨ memWord p.mem (p.slotAddr d i) = 3)

/-- Stage 4: every slot found TAKEN or ACTIVE goes REFUSED ORPHANED with finish tick 0 and result 0; its desk's done count is
raised for it and written, and DESK_DONE latched; with none so found nothing changes, and nothing else is written (R175,
R181). -/
def orphansSwept : PortChange := fun p q =>
  (∀ d i, p.orphan d i → p.slotReads q d i 5 25 0 0) ∧
  (∀ d, ∃ swept : List Nat, swept.Nodup ∧ (∀ i, i ∈ swept ↔ p.orphan d i) ∧
    q.desks.get d = { p.desks.get d with
      done := (p.desks.get d).done + toWord swept.length
      held := (p.desks.get d).held.filter fun i => !swept.contains i } ∧
    (swept ≠ [] → memWord q.mem (partPage + 36 + 4 * deskIndex d) = (q.desks.get d).done)) ∧
  (∀ b, (∀ d i, p.orphan d i → ∀ w ∈ p.slotWords d i, b < w ∨ w + 4 ≤ b) →
    memRead q.mem b = memRead p.mem b) ∧
  ((∃ d i, p.orphan d i) → q.latches = { p.latches with deskDone := true } ∧ q.irq = q.common) ∧
  ((¬∃ d i, p.orphan d i) → q = p) ∧
  q = { p with mem := q.mem, desks := q.desks, latches := q.latches, irq := q.irq, messages := q.messages }

/-- Stage 5: page 1 and every page of the meter table, clock record, log and notice areas are under the part lock
(R183). -/
def partLocked : PortChange := fun p q =>
  q = { p with partLocks := ⟨1, 1⟩ :: [5, 6, 7, 8].map p.area }

/-- Stage 6: the show tick is 0 and written, and the run state is RUNNING (R12, R173). -/
def showStarted : PortChange := fun p q =>
  memWord q.mem (partPage + 12) = 0 ∧ bytesKept p.mem q.mem [partPage + 12] ∧
  q = { p with mem := q.mem, showTick := 0, runState := .running }

/-- The stages of the entry under a record, in their order (R173). -/
def entryStages (l : Layout) : List PortChange :=
  [layoutInForce l, desksCleared, countsStarted, orphansSwept, partLocked, showStarted]

/-! ## The stages of a RUNNING mark -/

/-- The stages of a RUNNING mark: the blocks as the desks are read; the cards taken; the Clock Unit then; the blocks before
the cards, with the heads advanced; the work once every open piece of it is done, and once the sections are settled; and the
blocks once the zones have selected, once the heads have made their output, and once the frame is credited. -/
structure MarkStages where
  read : Blocks
  cards : Cards
  clock : ClockUnit
  advanced : Blocks
  done : Work
  worked : Work
  selected : Blocks
  output : Blocks
  credited : Blocks

/-- The sections as a mark's work finds them: with the health of the frame it ends counted, unless it is the first after
synthesiser lock and ends none, and every report buffer ABSENT (R38 to R40). -/
def State.markSections (s : State) (first : Bool) : Sections :=
  (if first then s.part.sec else s.part.sec.countHealth).clearBuffers

/-- The Clock Unit as a mark's work finds it: the flash counts run down, and but for the console receiver all else as it
stood (R146). -/
def State.markClock (s : State) (u : ClockUnit) : Prop :=
  u = { s.part.clk with score := u.score, word := u.word, gap := u.gap, discards := u.discards } ∧
  u.score = { s.part.clk.score with homeFlash := s.part.clk.score.homeFlash - 1
                                    guestFlash := s.part.clk.score.guestFlash - 1 } ∧
  (s.part.clk.word = none → u.word = none ∧ u.gap = s.part.clk.gap ∧ u.discards = s.part.clk.discards)

/-- The boards as the desks are read: every plan, entry, airing, load, ring, head, clip and card as it stood, but that the
silence timers of the inputs have run, that the clips KEPT for the frame just ended are noted, and that at the mark of entry
numbering starts from 0 (R88, R92, R110). -/
def MarkStages.finds (g : MarkStages) (entry : Bool) (s : State) : Prop :=
  g.read.cap.rings = s.blk.cap.rings ∧
  (∀ i, g.read.cap.input i = { s.blk.cap.input i with
    state := (g.read.cap.input i).state, silence := (g.read.cap.input i).silence
    next := if entry then 0 else (s.blk.cap.input i).next }) ∧
  g.read.rep = { s.blk.rep with clips := g.read.rep.clips } ∧
  (∀ c, g.read.rep.clip c = (s.blk.rep.clip c).map fun x => { x with ran := x.state == .kept }) ∧
  g.read = { s.blk with port := g.read.port, cap := g.read.cap, rep := g.read.rep }

/-- A mark that goes on RUNNING, `dt` periods on: the Port takes the notice of a sync loss in that time, then the new show
tick, then at the first mark after a relock the GENLOCK_LOST of value 2 whatever the genlock enable, then the tests of both
flags; of Show Memory only the notice area and the part page may have moved (R3, R9, R12, R80, R190). The desks are then
read, with the boards as they stood (R176). -/
def MarkStages.opens (g : MarkStages) (dt : Nat) (s t : State) : Prop :=
  let p := s.port
  let q := g.read.port
  q.showTick = p.showTick + 1 ∧ q.runState = .running ∧ q.desks = p.desks ∧ q.areas = p.areas ∧ q.sizes = p.sizes ∧
  q.thresholds = p.thresholds ∧
  (p.laid → q.laid ∧ Port.through (s.part.tb.syncLost dt ++ [tickAdvanced] ++
    (if s.part.tb.relocking = true then [noticed 22 t.part.tb.genlockSubject 2] else []) ++ [flagsTested]) p q) ∧
  (p.laid → ∀ a, a < partPage ∨ partPage + 4096 ≤ a → a < p.areaBase 8 ∨ p.areaBase 8 + 4096 ≤ a →
    memRead q.mem a = memRead p.mem a) ∧
  g.finds false s

/-- The mark of entry: the Port goes through the stages of the entry under the record it reads, then takes the genlock notice
and the console's, then the tests of both flags; the notices of the sections come as they settle (R9, R44, R148, R173; that
order is log entry 25). A sync loss in CONFIG gives no notice. The desks are then read, with the boards as they stood (R92,
R176). -/
def MarkStages.enters (g : MarkStages) (s t : State) : Prop :=
  g.read.port.laid ∧
  Port.through (entryStages (readLayout s.port.mem) ++ t.part.tb.entryNoticed ++ g.clock.entryNoticed ++ [flagsTested])
    s.port g.read.port ∧
  g.finds true s

/-- The five desks are picked up, the PLAN desk stalled by a plan staged before the mark; then a frame of copying is done,
the fades whose last step is drawn end, and the heads advance (R23, R83, R116, R176, R179). -/
def MarkStages.takes (g : MarkStages) (s : State) : Prop :=
  let plan := pickup planCardAt .plan s.blk.comp.staged.isSome g.read.port
  let replay := pickup replayCardAt .replay false plan.1
  let rotation := pickup rotationCardAt .rotation false replay.1
  let clock := pickup clockCardAt .clock false rotation.1
  let message := pickup messageCardAt .message false clock.1
  g.cards = ⟨plan.2, replay.2, rotation.2, clock.2, message.2⟩ ∧
  g.advanced =
    ((({ g.read with port := message.1 }.copyFrame).onComp Compositor.endFades).advanceHead 0).advanceHead 1

/-- The sections settle: every section has its state for the frame the mark begins, and the Port takes the notices of those
that left or became LIVE, at the mark of entry of those that are not LIVE, then finishes the mark's SET_SECTION cards, each
with the state of its section (R41, R42, R44, R173; the order is log entries 25 and 26). -/
def MarkStages.settles (g : MarkStages) (entry : Bool) : Prop :=
  g.worked = g.done.settle entry ∧ g.worked.clk = g.done.clk ∧
  g.worked.sec = { g.done.sec with states := g.worked.sec.states } ∧
  (∀ i, i < 80 → tget .live g.worked.sec.states i = g.done.sec.stateOf i) ∧
  (g.read.port.laid → g.done.blk.port.laid ∧ Port.through
    (g.done.sec.noticed entry g.done.sec.states ++
      g.done.accepted.map fun k => slotMoves .plan k.1 4 0 (toWord (g.done.sec.stateOf k.2).code))
    g.done.blk.port g.worked.blk.port) ∧
  g.worked.blk = { g.done.blk with port := g.worked.blk.port }

/-- Every open piece of the mark's work is done once, in one order, the Lanes' behind the plans' where a plan may be
adopted (R19, R155); the section states are then settled, and what follows takes the state so reached: the fade steps and
visible areas, the selection pass, the heads' output, and the credit of the frame begun (R23, R41, R51, R56, R72, R116,
R123). -/
def MarkStages.works (g : MarkStages) (first entry : Bool) (m : MarkInput) (s : State) : Prop :=
  s.markClock g.clock ∧
  (∃ order, List.Perm order [.clips, .plan, .replay, .rotation, .clock, .messages, .dwell] ∧
    (mayAdopt s.blk g.cards = true → order.idxOf .plan < order.idxOf .messages) ∧
    (mayAdopt s.blk g.cards = false → m.order.Nodup → m.order <+: order) ∧
    g.done = order.foldl (Work.task (3 * s.part.tb.rate.length) g.cards)
      { sec := s.markSections first, clk := g.clock, blk := g.advanced, accepted := [] }) ∧
  g.settles entry ∧
  g.selected = ((g.worked.blk.onComp Compositor.stepFades).measure g.worked.sec.states).selectionPass ∧
  g.output = (if m.headBFirst then (g.selected.outputHead m.uncorrectable 1).outputHead m.uncorrectable 0
    else (g.selected.outputHead m.uncorrectable 0).outputHead m.uncorrectable 1) ∧
  g.credited = g.output.credit

/-- A mark ends: the clock record is written, the sections are sent the frames composed of the blocks as they then stand,
and the part page takes its run state, layout result and area (R13, R36, R143, R171). -/
def MarkStages.ends (g : MarkStages) (t : State) : Prop :=
  let x := writeClockRecord (g.worked.clk, g.credited.port)
  t.part.clk = x.1 ∧ t.part.sec = g.worked.sec.send ∧
  t.blk = { { g.credited with port := x.2 }.compose x.1 with port := t.port } ∧
  (Memory.wf x.2.mem = true → bytesKept x.2.mem t.port.mem [4096, 4100, 4104] ∧ memWord t.port.mem 4096 = 1 ∧
    memWord t.port.mem 4100 = toWord t.port.result.code ∧ memWord t.port.mem 4104 = toWord t.port.resultArea) ∧
  t.port = { x.2 with mem := t.port.mem }

/-- A mark that goes on RUNNING goes from one state to the next through its stages; `first` where it is the one that
synthesiser lock makes. -/
def MarkStages.link (g : MarkStages) (first : Bool) (dt : Nat) (m : MarkInput) (s t : State) : Prop :=
  g.opens dt s t ∧ g.takes s ∧ g.works first false m s ∧ g.ends t

/-- The mark of entry goes through the stages of the entry and then through those of any RUNNING mark. -/
def MarkStages.entryLink (g : MarkStages) (first : Bool) (m : MarkInput) (s t : State) : Prop :=
  g.enters s t ∧ g.takes s ∧ g.works first true m s ∧ g.ends t

/-! ## What a mark leaves, by run state and RUN request (R11) -/

/-- The clock record as a RUNNING mark leaves it: its edit count two higher, and behind it the show tick, the line, the
horn, the discards, both clocks with their display strings, and the score, as they stand (8.7, R143). -/
def State.clockRecorded (s t : State) : Prop :=
  let a := t.port.areaBase 6
  let m := t.port.mem
  let u := t.part.clk
  let clock (a : Nat) (c : Clock) : Prop :=
    (memRead m a).toNat = (match c.state with
      | .noTime => 0 | .stopped => 1 | .running => 2 | .expired => 3 | .holdover => 4) ∧
    memRead m (a + 1) = (if c.localSource then 1 else 0) ∧ memRead m (a + 2) = (if c.up then 1 else 0) ∧
    memRead m (a + 3) = (if c.hornOn then 1 else 0) ∧ memWord m (a + 4) = toWord c.value ∧
    ((List.range 8).map fun j => memRead m (a + 8 + j)) =
      (clockString c ++ List.replicate 8 32).take 8 ∧
    memWord m (a + 16) = toWord c.tenths ∧ memHalf m (a + 20) = c.hornLength % 65536 ∧
    (memRead m (a + 22)).toNat = c.comp % 256
  u.edit = s.part.clk.edit + 2 ∧ memWord m a = u.edit ∧ memWord m (a + 4) = t.port.showTick ∧
  memRead m (a + 8) = (if u.heard then 1 else 0) ∧ memRead m (a + 9) = (if 0 < u.horn then 1 else 0) ∧
  memHalf m (a + 10) = u.horn % 65536 ∧ memWord m (a + 12) = toWord u.discards ∧
  clock (a + 16) u.game ∧ clock (a + 48) u.aux ∧
  memHalf m (a + 80) = u.score.home % 65536 ∧ memHalf m (a + 82) = u.score.guest % 65536 ∧
  ((List.range 8).map fun j => (memRead m (a + 84 + j)).toNat) =
    [u.score.period, u.score.possession, u.score.c0, u.score.c1, u.score.c2, u.score.c3,
      u.score.homeFlash, u.score.guestFlash].map (· % 256)

/-- RUNNING with the RUN request set: the show goes on at the next show tick under the same layout, the clock record is
written, and the mark goes through its stages (R11, R12, R143). -/
def State.goesOn (s : State) (first : Bool) (dt : Nat) (m : MarkInput) (t : State) : Prop :=
  t.port.showTick = s.port.showTick + 1 ∧
  t.port.runState = .running ∧ t.port.runRequest = true ∧ t.port.areas = s.port.areas ∧
  t.port.sizes = s.port.sizes ∧ t.port.thresholds = s.port.thresholds ∧
  t.port.partLocks = s.port.partLocks ∧ t.port.mask = s.port.mask ∧
  t.port.faultPage = s.port.faultPage ∧
  (Memory.wf s.port.mem = true → 2 ≤ (s.port.area 6).first → s.clockRecorded t) ∧
  ∃ g : MarkStages, g.link first dt m s t

/-- CONFIG with the RUN request set and a record that passes: the show starts at show tick 0 under that record, with the
part-only pages locked and the clock record written, and the mark goes through the stages of the entry and of a RUNNING
mark (R11, R12, R143, R172, R173, R183). -/
def State.showStarts (s : State) (first : Bool) (m : MarkInput) (t : State) : Prop :=
  let l := readLayout s.port.mem
  t.port.runState = .running ∧ t.port.runRequest = true ∧ t.port.showTick = 0 ∧ t.port.areas = some l.areas ∧
  t.port.sizes = some l.sizes ∧ t.port.thresholds = some l.thresholds ∧
  t.port.result = .ok ∧ t.port.resultArea = 255 ∧ t.port.countsInForce = true ∧
  t.port.partLocks = ⟨1, 1⟩ :: [5, 6, 7, 8].map (fun i => tget ⟨0, 0⟩ l.areas i) ∧
  t.port.mask = s.port.mask ∧ t.port.faultPage = s.port.faultPage ∧
  (Memory.wf s.port.mem = true → s.clockRecorded t ∧ ∃ g : MarkStages, g.entryLink first m s t)

/-- What a mark that leaves the part in CONFIG leaves of all but the Port: both frames are black; the sections have their
states for the frame it begins, which is sent; of the inputs the silence timers alone run; the flash counts run down; and
plans, zones, urgent yield and the other blocks stand (R12, R13, R36, R41, R88, R146). -/
def State.standsDark (s : State) (first : Bool) (t : State) : Prop :=
  (∀ x y, t.blk.comp.mainFrame.pixel x y = .black) ∧
  (∀ x y, t.blk.comp.ribbonFrame.pixel x y = .black) ∧
  t.blk = { s.blk with port := t.port, cap := t.blk.cap, comp := t.blk.comp } ∧
  t.blk.comp = { s.blk.comp with mainFrame := t.blk.comp.mainFrame
                                 ribbonFrame := t.blk.comp.ribbonFrame } ∧
  t.blk.cap.rings = s.blk.cap.rings ∧
  (∀ i, t.blk.cap.input i = { s.blk.cap.input i with state := (t.blk.cap.input i).state
                                                     silence := (t.blk.cap.input i).silence }) ∧
  (∀ i, (s.blk.cap.input i).silence = none → t.blk.cap.input i = s.blk.cap.input i) ∧
  s.markClock t.part.clk ∧
  t.part.sec = ({ s.markSections first with states := t.part.sec.states } : Sections).send ∧
  ∀ i, i < 80 → tget .live t.part.sec.states i = t.part.sec.stateOf i

/-- CONFIG with no RUN request: of the Port only the run state, layout result and area words of the part page are written
(R11, R171). -/
def State.staysConfig (s : State) (first : Bool) (t : State) : Prop :=
  t.port.runState = .config ∧ memWord t.port.mem 4096 = 0 ∧ memWord t.port.mem 4100 = toWord s.port.result.code ∧
  memWord t.port.mem 4104 = toWord s.port.resultArea ∧ bytesKept s.port.mem t.port.mem [4096, 4100, 4104] ∧
  t.port = { s.port with mem := t.port.mem } ∧ s.standsDark first t

/-- CONFIG with the RUN request set and a record that fails: the result and its area are recorded and written to the part
page, LAYOUT_BAD is latched, the interrupt follows, and the RUN request is cleared; nothing else of the Port moves (R11,
R171, R172, R192). -/
def State.entryFails (s : State) (first : Bool) (t : State) : Prop :=
  let c := (readLayout s.port.mem).check
  t.port.runState = .config ∧ t.port.runRequest = false ∧ t.port.result = c.1 ∧ t.port.resultArea = c.2 ∧
  t.port.latches = { s.port.latches with layoutBad := true } ∧ s.port.interruptFollows t.port ∧
  memWord t.port.mem 4096 = 0 ∧ memWord t.port.mem 4100 = toWord c.1.code ∧ memWord t.port.mem 4104 = toWord c.2 ∧
  bytesKept s.port.mem t.port.mem [4096, 4100, 4104] ∧
  t.port = { s.port with mem := t.port.mem, runRequest := false, result := c.1, resultArea := c.2
                         latches := t.port.latches, irq := t.port.irq, messages := t.port.messages } ∧
  s.standsDark first t

/-- RUNNING with the RUN request clear: the part is CONFIG, the show tick stands, every owner lets go of what it held, and
what outlives the show stays; on the way the Port takes the STOP records and finishes the cards, behind the notice of a sync
loss in the `dt` periods before the mark (R33, R60, R76, R85, R103, R126, R166, R167, R182, R183). -/
def State.showStops (s : State) (first : Bool) (dt : Nat) (t : State) : Prop :=
  t.port.runState = .config ∧
  t.port.showTick = s.port.showTick ∧ t.port.areas = s.port.areas ∧ t.port.sizes = s.port.sizes ∧
  t.port.partLocks = [] ∧ t.port.loadLocks = [] ∧
  t.blk.comp.active = none ∧ t.blk.comp.staged = none ∧ t.blk.comp.urgentYield = false ∧
  t.blk.measures = [] ∧ t.blk.rot.airings = [] ∧ t.blk.rot.queue = [] ∧
  t.blk.rot.entries = s.blk.rot.entries ∧ t.blk.rot.groups = s.blk.rot.groups ∧
  (∀ i, (s.blk.rot.slot i).isReady = true → t.blk.rot.slot i = s.blk.rot.slot i) ∧
  (∀ i, (s.blk.rot.slot i).isReady = false → t.blk.rot.slot i = .empty) ∧
  (∀ i, (t.blk.cap.input i).state = .off ∧ (t.blk.cap.input i).next = (s.blk.cap.input i).next) ∧
  (∀ c, t.blk.rep.clip c = none) ∧ (∀ i, (t.blk.rep.head i).state = .idle) ∧
  t.blk.lanes.queue = [] ∧ t.blk.lanes.passes = [] ∧ t.blk.lanes.urgent = none ∧
  t.part.sec = ({ s.markSections first with states := t.part.sec.states } : Sections).send ∧
  (∀ i, i < 80 → tget .live t.part.sec.states i = t.part.sec.stateOf i) ∧
  t.part.sec.map = s.part.sec.map ∧ t.part.sec.forced = s.part.sec.forced ∧
  s.markClock t.part.clk ∧ t.part.clk.game = s.part.clk.game ∧ t.part.clk.aux = s.part.clk.aux ∧
  (∀ x y, t.blk.comp.mainFrame.pixel x y = .black) ∧
  (∀ x y, t.blk.comp.ribbonFrame.pixel x y = .black) ∧
  (s.port.laid → (s.blk.lanes.queue.map (·.slot)).Nodup →
    ∃ airings passes m, List.Perm airings s.blk.rot.airings ∧
      airings.Pairwise (fun a b => a.zone ≤ b.zone) ∧ List.Perm passes s.blk.lanes.passes ∧
      passes.Pairwise (fun p q => p.lane ≤ q.lane) ∧
      Port.through
        (s.part.tb.syncLost dt ++ (airings.map (s.blk.rot.airingLogged 5)) ++
          (s.blk.rot.queue.map fun l => slotMoves .rotation l.deskSlot 4 4 0) ++
          ((List.range 32).flatMap fun c => match s.blk.rep.clip c with
            | none => []
            | some x => [slotMoves .replay x.slot 4 4 (toWord c)]) ++
          (passes.flatMap fun p => match s.blk.lanes.card p.slot with
            | none => []
            | some c => c.passLogged 3 p) ++
          (s.blk.lanes.queue.map fun c => slotMoves .message c.slot 4 4 (toWord c.completed)) ++
          (match s.blk.comp.staged with
            | none => []
            | some p => [slotMoves .plan p.slot 4 4 0])) s.port m ∧
      bytesKept m.mem t.port.mem [4096, 4100, 4104] ∧ memWord t.port.mem 4096 = 0 ∧
      memWord t.port.mem 4100 = toWord t.port.result.code ∧ memWord t.port.mem 4104 = toWord t.port.resultArea ∧
      t.port = { m with mem := t.port.mem, runState := .config, partLocks := [], loadLocks := [] })

/-- The reference periods from a state to its next frame mark (R4). -/
def State.toMark (s : State) : Nat := s.part.tb.frameLength - s.part.tb.sinceMark

/-! ## What every reset leaves, and the layout in force -/

/-- What every reset leaves, whatever kind it is: CONFIG with no request, no lock, no latch and no mask; desks
at 0 with nothing held; no plan, airing, load, clip or message; inputs OFF at number 0; heads IDLE; every
section LIVE under the default map (R34, R45, R60, R86, R87, R104, R127, R168, R187, R188). -/
def Part.cleared (t : Part) : Prop :=
  let p := t.blk.port
  p.runState = .config ∧ p.runRequest = false ∧ p.result = .notValidated ∧ p.resultArea = 255 ∧
  p.partLocks = [] ∧ p.loadLocks = [] ∧ p.faultPage = 0 ∧ p.cause = 0 ∧ p.mask = 0 ∧ p.irq = false ∧
  (∀ d, p.desks.get d = ⟨0, 0, 0, [], false⟩) ∧
  t.blk.comp.active = none ∧ t.blk.comp.staged = none ∧ t.blk.comp.urgentYield = false ∧
  t.blk.measures = [] ∧ (∀ e, t.blk.rot.entry e = none) ∧ (∀ g, t.blk.rot.group g = none) ∧
  t.blk.rot.airings = [] ∧ t.blk.rot.queue = [] ∧
  (∀ i, (t.blk.cap.input i).state = .off ∧ (t.blk.cap.input i).next = 0) ∧
  (∀ c, t.blk.rep.clip c = none) ∧ (∀ i, (t.blk.rep.head i).state = .idle) ∧
  t.blk.lanes.queue = [] ∧ t.blk.lanes.passes = [] ∧ t.blk.lanes.urgent = none ∧
  (∀ r, r < 64 → t.sec.backing r = r) ∧ (∀ i, i < 80 → t.sec.stateOf i = .live)

/-- The layout in force while RUNNING passed the validation (R172, R173). -/
def Port.layoutSound (p : Port) : Prop :=
  p.runState = .running → ∃ l : Layout, l.check.1 = .ok ∧ p.areas = some l.areas ∧
    p.sizes = some l.sizes ∧ p.thresholds = some l.thresholds

end Sys2Proof.Machine
end

