-- ==== Sys2Proof/Certificates/Slice0/Obligations.lean ====
section
/-! DEFINITION. The statements about the machine, for the provers. Each docstring names the rules it rests on;
where a statement rests on a choice of the model, its docstring names the log entry. A card by itself is its owner's
step on a card already taken (log entry 12). -/

open Sys2Proof Sys2Proof.Machine

/-! ## The machine as a whole -/

/-- A step takes the command at the front of the queue and carries it out on the state with the rest of the
queue; with none waiting it changes nothing (the queue and the idle step are the model's, log entry 11). -/
def Obligations.StepTakesTheFrontCommand : Prop :=
  (∀ (c : Instr) (rest : List Instr) (s : State),
    step { s with pending := c :: rest } = exec c { s with pending := rest }) ∧
  ∀ s : State, s.pending = [] → step s = .next s

/-- Every command is carried out in every state, and no command touches the queue. The queue is the model's, log entry 11
(DESIGN CHOICE), and that no command faults or is refused is its reading of the manual, log entry 32 (DEDUCED). -/
def Obligations.EveryCommandIsCarriedOut : Prop :=
  ∀ (c : Instr) (s : State), ∃ t, exec c s = .next t ∧ t.pending = s.pending

/-- What the model calls sound holds after reset: the clocks, the segment map, the interrupt and the layout (R37, R128, R172,
R192), and Show Memory's canonical form, in which reset lists no byte: that clause is the model's choice, log entry 1. -/
def Obligations.ResetIsSound : Prop :=
  State.reset.clocksSound ∧ State.reset.part.sec.mapSound ∧ State.reset.port.irqSound ∧
  State.reset.memorySound ∧ State.reset.port.layoutSound

/-- Every step keeps both clocks sound: values within their range, NO_TIME at 0, EXPIRED a DOWN clock at 0,
HOLDOVER a CONSOLE clock (R128). -/
def Obligations.ClocksStaySound : Prop := Kept State.clocksSound

/-- Every step keeps the segment map sound: a segment backs at most one section (R37). -/
def Obligations.SegmentMapStaysOneToOne : Prop := Kept fun s => s.part.sec.mapSound

/-- After every step the interrupt is asserted exactly while CAUSE and CAUSE_MASK have a common member
(R192). -/
def Obligations.InterruptFollowsCause : Prop := Kept fun s => s.port.irqSound

/-- Every step keeps Show Memory in its canonical form, so that equal contents are equal data. The form is the
model's own (log entry 1). -/
def Obligations.ShowMemoryStaysCanonical : Prop := Kept State.memorySound

/-- Every step keeps the layout sound: while RUNNING, the areas, sizes and thresholds in force are those of a
record that passed the checks (R172, R173). -/
def Obligations.RunningKeepsAPassingLayout : Prop := Kept fun s => s.port.layoutSound

/-! ## Registers and host accesses -/

/-- A RUN_CONTROL write with bit 1 clear sets or clears the RUN request and changes nothing else. An access of another
kind to the register window changes nothing. IDENT reads the part code 7,160, revision 3, the rate code, genlock enable and
the vendor code 76; RUN_CONTROL reads the RUN request, 0 in bit 1, the run state, the layout result and its area; CAUSE and
CAUSE_MASK read one bit for each member, and FAULT_PAGE the fault page with 0 above it. A read at any other offset, or of
another width, gives 0 (10.10, R185, R186, R191, R192). That a write of another kind changes nothing is the model's reading,
log entry 33; of a bit the table lists nowhere the statement says nothing, log entry 5. -/
def Obligations.RunAndOtherRegisterAccesses : Prop :=
  (∀ (bit0 : Bool) (s : State), ∃ t, exec (.run bit0) s = .next t ∧
     t.port = { s.port with runRequest := bit0 } ∧ t = s.onPart (·.onPort fun _ => t.port)) ∧
  ((∀ (offset width : Nat) (v : Word) (s : State), exec (.registerWriteOther offset width v) s = .next s) ∧
   (∀ (r : Rate) (g : Bool) (p : Port),
     let ident := readRegister r g p 0 4
     let run := readRegister r g p 4 4
     let fault := readRegister r g p 16 4
     ident.extractLsb' 0 16 = 7160#16 ∧ ident.extractLsb' 16 4 = 3#4 ∧
     ident.extractLsb' 20 2 = (match r with | .fps50 => 0#2 | .fps5994 => 1#2 | .fps60 => 2#2) ∧
     ident.getLsbD 22 = g ∧ ident.extractLsb' 24 8 = 76#8 ∧
     run.getLsbD 0 = p.runRequest ∧ run.getLsbD 1 = false ∧
     run.getLsbD 4 = decide (p.runState = .running) ∧
     run.extractLsb' 8 4 = (match p.result with
       | .notValidated => 0#4 | .ok => 1#4 | .badRange => 2#4 | .areaSmall => 3#4 | .badCanvas => 4#4
       | .badThreshold => 5#4) ∧
     run.extractLsb' 16 8 = BitVec.ofNat 8 p.resultArea ∧
     (readRegister r g p 8 4).extractLsb' 0 6 = p.cause ∧
     (readRegister r g p 12 4).extractLsb' 0 6 = p.mask ∧
     fault.extractLsb' 0 14 = BitVec.ofNat 14 p.faultPage ∧ fault.extractLsb' 14 18 = 0#18 ∧
     ∀ offset width, width ≠ 4 ∨ offset ∉ [0, 4, 8, 12, 16] → readRegister r g p offset width = 0))

/-- A CAUSE_MASK write gives the mask its bits; the interrupt follows the common set, with an assert or a release
message where it changes. A CAUSE write clears the latches whose bits are 1 and leaves the others and both conditions;
clearing PAGE_FAULT sets the fault page to 0. Nothing else changes (R184, R191, R192). -/
def Obligations.CauseAndMaskWritesMoveTheInterrupt : Prop :=
  (∀ (v : Word) (s : State), ∃ t, exec (.causeMaskWrite v) s = .next t ∧
     t.port.mask = v.setWidth 6 ∧ t.port.cause = s.port.cause ∧
     t.port.irq = (s.port.cause &&& v.setWidth 6 != 0) ∧
     t.port.messages = s.port.messages ++
       (if t.port.irq = s.port.irq then [] else [if t.port.irq then .assert else .release]) ∧
     t = s.onPart (·.onPort fun p => { p with mask := t.port.mask, irq := t.port.irq,
                                              messages := t.port.messages })) ∧
  (∀ (v : Word) (s : State), ∃ t, exec (.causeWrite v) s = .next t ∧
     t.port.cause = s.port.cause &&& ~~~(v.setWidth 6 &&& 60#6) ∧
     t.port.faultPage = (if v.getLsbD 3 then 0 else s.port.faultPage) ∧
     t.port.noticeWaiting = s.port.noticeWaiting ∧ t.port.logWaiting = s.port.logWaiting ∧
     t.port.irq = (t.port.cause &&& t.port.mask != 0) ∧
     t = s.onPart (·.onPort fun p => { p with latches := t.port.latches, faultPage := t.port.faultPage,
                                              irq := t.port.irq, messages := t.port.messages }))

/-- A host write to a page that is not locked is performed: a word or a byte is stored and every other byte is left
alone; a write to a read mark word evaluates the conditions, and the interrupt follows. A host write to a locked page is
dropped: Show Memory is left as it was, PAGE_FAULT is latched, and the page is captured where PAGE_FAULT was clear, the
interrupt following; where it was set nothing changes. A word write of 0 to the error slot word, byte 80 of the part page, is
performed all the same and is no fault (R102, R184, R191, R192). -/
def Obligations.HostWritesObeyTheLocks : Prop :=
  (∀ (w : HostWrite) (s : State), Memory.wf s.port.mem = true →
     s.port.locked (hostWriteAddr w / 4096) = false →
     ∃ t, exec (.hostWrite w) s = .next t ∧
       (match w with
        | .word i v => memWord t.port.mem (4 * i.toNat) = v ∧
           bytesKept s.port.mem t.port.mem [4 * i.toNat]
        | .byte a v => memRead t.port.mem a.toNat = v ∧
           ∀ b, b ≠ a.toNat → memRead t.port.mem b = memRead s.port.mem b) ∧
       (hostWriteAddr w / 4 = 5 ∨ hostWriteAddr w / 4 = 6 →
         t.port.conditionsFollow ∧ s.port.interruptFollows t.port) ∧
       (hostWriteAddr w / 4 ≠ 5 → hostWriteAddr w / 4 ≠ 6 →
         t.port = { s.port with mem := t.port.mem }) ∧
       t = s.onPart (·.onPort fun p =>
         { p with mem := t.port.mem, noticeWaiting := t.port.noticeWaiting
                  logWaiting := t.port.logWaiting, irq := t.port.irq, messages := t.port.messages })) ∧
  (∀ (w : HostWrite) (s : State), s.port.locked (hostWriteAddr w / 4096) = true →
     ((∀ i, w = .word i 0 → 4 * i.toNat ≠ 4176) →
       ∃ t, exec (.hostWrite w) s = .next t ∧ t.port.mem = s.port.mem ∧
         t.port.latches = { s.port.latches with pageFault := true } ∧
         t.port.faultPage =
           (if s.port.latches.pageFault then s.port.faultPage else hostWriteAddr w / 4096) ∧
         (s.port.latches.pageFault = false → s.port.interruptFollows t.port) ∧
         (s.port.latches.pageFault = true → t = s) ∧
         t = s.onPart (·.onPort fun p => { p with latches := t.port.latches, faultPage := t.port.faultPage,
                                                  irq := t.port.irq, messages := t.port.messages })) ∧
     (∀ i, w = .word i 0 → 4 * i.toNat = 4176 → Memory.wf s.port.mem = true →
       ∃ t, exec (.hostWrite w) s = .next t ∧ memWord t.port.mem 4176 = 0 ∧
         bytesKept s.port.mem t.port.mem [4176] ∧
         t = s.onPart (·.onPort fun p => { p with mem := t.port.mem })))

/-! ## Resets -/

/-- SOFT_RESET leaves the part cleared and in CONFIG; Show Memory, the show tick, the Timebase, the Clock Unit, the
areas and sizes and every READY image slot are kept, and an image slot that was loading is EMPTY (R12, R45, R86,
R150, R187). -/
def Obligations.SoftResetClearsAndKeeps : Prop :=
  ∀ (bit0 : Bool) (s : State), ∃ t, exec (.softReset bit0) s = .next t ∧ t.part.cleared ∧
    t.port.mem = s.port.mem ∧ t.port.showTick = s.port.showTick ∧ t.part.tb = s.part.tb ∧
    t.part.clk = s.part.clk ∧ t.port.areas = s.port.areas ∧ t.port.sizes = s.port.sizes ∧
    (∀ i, (s.blk.rot.slot i).isReady = true → t.blk.rot.slot i = s.blk.rot.slot i) ∧
    (∀ i, (s.blk.rot.slot i).isReady = false → t.blk.rot.slot i = .empty)

/-- A hard reset by either pin samples the straps and leaves the part cleared: no layout is in force, the show tick
is 0, the clocks are in NO_TIME, the image bank is EMPTY, the synthesiser UNLOCKED; Show Memory is kept. Power-on does
the same with the reference not yet seen, and Show Memory holds whatever it happens to hold, an operand of the command,
but for the error slot word, which the part writes to 0 (R1, R2, R12, R87, R102, R150, R188). The model's choices here: the
contents as an operand, log entry 19; the values of the Timebase and the Clock Unit that the manual gives none for, in their
.init, log entry 35; that a pulse before power-on is no predecessor of the first one after it, log entry 41; the reference not
yet seen, log entry 2. -/
def Obligations.HardResetAndPowerOnClear : Prop :=
  (∀ (pin : ResetPin) (f1 f0 g : Bool) (s : State), ∃ t, exec (.hardReset pin f1 f0 g) s = .next t ∧
     t.part.cleared ∧ t.port.mem = s.port.mem ∧ t.port.showTick = 0 ∧ t.port.areas = none ∧
     t.port.sizes = none ∧ t.port.thresholds = none ∧
     t.part.tb.rate = (if f1 then .fps60 else if f0 then .fps5994 else .fps50) ∧
     t.part.tb.genlockEnable = g ∧ t.part.tb.synthLocked = false ∧ t.part.tb.genlock = .freeRun ∧
     t.part.tb.reference = s.part.tb.reference ∧
     (∀ i, (t.part.clk.clock i).state = .noTime ∧ (t.part.clk.clock i).value = 0) ∧
     t.part.clk.horn = 0 ∧ t.part.clk.heard = false ∧ (∀ i, t.blk.rot.slot i = .empty)) ∧
  (∀ (f1 f0 g : Bool) (cs : List Host.Cell) (s : State), ∃ t, exec (.powerOn f1 f0 g cs) s = .next t ∧
     t.part.cleared ∧ t.port.showTick = 0 ∧ t.port.areas = none ∧ t.port.sizes = none ∧
     t.part.tb = .init (if f1 then .fps60 else if f0 then .fps5994 else .fps50) g false ∧
     t.part.clk = .init ∧ (∀ i, t.blk.rot.slot i = .empty) ∧
     memWord t.port.mem 4176 = 0 ∧ bytesKept (memOfCells cs) t.port.mem [4176])

/-! ## Timebase and frame marks -/

/-- When the reference is lost the synthesiser is UNLOCKED and genlock FREE_RUN with e discarded, the horn is released and a
console word in progress discarded, the clocks hold, and nothing on the boards moves; from then on there are no frame
marks and no ms ticks. Where the synthesiser was LOCKED the next lock is a relock, and so it stays until the first mark
after it (R2, R3, R129, R144). -/
def Obligations.ReferenceLossStopsTheMarks : Prop :=
  (∀ (dt : Nat) (s : State), ∃ t, exec (.referenceLost dt) s = .next t ∧
    t.part.tb.reference = false ∧ t.part.tb.synthLocked = false ∧ t.part.tb.genlock = .freeRun ∧
    t.part.tb.correction = 0 ∧ t.part.tb.sincePulse = none ∧ t.part.tb.rate = s.part.tb.rate ∧
    t.part.tb.relocking = (s.part.tb.relocking || s.part.tb.synthLocked) ∧
    t.part.clk.horn = 0 ∧ t.part.clk.word = none ∧ t.part.clk.game = s.part.clk.game ∧
    t.part.clk.aux = s.part.clk.aux ∧ t.part.clk.score = s.part.clk.score ∧ t.part.sec = s.part.sec ∧
    t.blk = { s.blk with port := t.port, cap := t.blk.cap } ∧
    t.port.showTick = s.port.showTick ∧ t.port.runState = s.port.runState) ∧
  ∀ s : State, s.part.tb.synthLocked = false →
    (∀ m, exec (.frameMark m) s = .next s) ∧ ∀ b, exec (.msTick b) s = .next s

/-- When an unlocked synthesiser locks, the first frame begins at once: it has length L, e and the LOCKING count
are 0, no frame is ended, and genlock is FREE_RUN with genlock enable off, LOCKING while house sync is present and
HOLDOVER while it is not (R2, R4, R40). Its mark does the work of the run state as every mark does: RUNNING with the RUN
request set, the show tick rises and the mark goes through its stages, the Port taking behind the tick, after a relock, a
GENLOCK_LOST of value 2 with the state genlock takes, whatever the genlock enable; RUNNING with it clear, the show stops; in CONFIG with it
set a record that passes starts the show and one that fails is recorded; and in CONFIG without it both frames are black (R3,
R9, R11, R12, R173). After that mark no relock is pending. The model's orders are log entries 20, 25 and 26; the reference it
shows, log entry 17. -/
def Obligations.SynthesiserLockBeginsAFrame : Prop :=
  ∀ (dt : Nat) (m : MarkInput) (s : State), s.part.tb.synthLocked = false →
    ∃ t, exec (.synthesiserLock dt m) s = .next t ∧
      t.part.tb.synthLocked = true ∧ t.part.tb.reference = true ∧ t.part.tb.rate = s.part.tb.rate ∧
      t.part.tb.frameLength =
        (match s.part.tb.rate with | .fps50 => 540000 | .fps5994 => 450450 | .fps60 => 450000) ∧
      t.part.tb.correction = 0 ∧ t.part.tb.lockCount = 0 ∧ t.part.tb.sinceMark = 0 ∧
      t.part.tb.sinceMs = 0 ∧ t.part.tb.genlockEnable = s.part.tb.genlockEnable ∧
      t.part.tb.genlock = (if t.part.tb.genlockEnable = false then .freeRun
        else if t.part.tb.syncTimer.isSome then .locking else .holdover) ∧
      t.part.tb.syncTimer = (s.part.tb.syncTimer.bind fun r => if r ≤ dt then none else some (r - dt)) ∧
      t.part.tb.relocking = false ∧ t.part.sec.health = s.part.sec.health ∧
      (s.port.runState = .running → s.port.runRequest = true → s.goesOn true dt m t) ∧
      (s.port.runState = .running → s.port.runRequest = false → s.showStops true dt t) ∧
      (s.port.runState = .config → s.port.runRequest = true → (readLayout s.port.mem).check.1 = .ok →
        s.showStarts true m t) ∧
      (s.port.runState = .config → s.port.runRequest = true → (readLayout s.port.mem).check.1 ≠ .ok →
        Memory.wf s.port.mem = true → s.entryFails true t) ∧
      (s.port.runState = .config → s.port.runRequest = false → Memory.wf s.port.mem = true → s.staysConfig true t)

/-- A frame mark begins a frame of length L + c, where c is 0 in FREE_RUN and HOLDOVER and e lowered into
−S..+S in LOCKING and LOCKED; e becomes e − c, and a mark in LOCKING raises the LOCKING count; after it no relock is pending.
So it is wherever house sync does not fail in the frame just ended (R3, R4, R7, R8). -/
def Obligations.FrameMarkSetsTheFrameLength : Prop :=
  ∀ (m : MarkInput) (s : State), s.part.tb.synthLocked = true → s.part.tb.reference = true →
    s.part.tb.sinceMark ≤ s.part.tb.frameLength →
    (∀ r, s.part.tb.syncTimer = some r → s.part.tb.frameLength - s.part.tb.sinceMark < r) →
    ∃ t, exec (.frameMark m) s = .next t ∧
      ∃ c : Int, ((t.part.tb.frameLength : Int) = s.part.tb.rate.length + c) ∧
        t.part.tb.correction = s.part.tb.correction - c ∧ t.part.tb.sinceMark = 0 ∧
        t.part.tb.genlock = s.part.tb.genlock ∧ t.part.tb.relocking = false ∧
        (s.part.tb.genlock = .freeRun ∨ s.part.tb.genlock = .holdover → c = 0) ∧
        (s.part.tb.genlock = .locking ∨ s.part.tb.genlock = .locked →
          c = max (-(s.part.tb.rate.limit : Int)) (min s.part.tb.rate.limit s.part.tb.correction)) ∧
        t.part.tb.lockCount =
          s.part.tb.lockCount + (if s.part.tb.genlock = .locking then 1 else 0)

/-- At a frame mark in CONFIG with no RUN request nothing is shown or taken: both frames are black, the show tick,
the desks and the blocks stand, and of Show Memory only the run state, layout result and area words of the part
page are written; of the inputs the silence timers alone run, and of the plans, zones and urgent yield nothing moves (R11,
R12, R13, R171). The sections have their states for the frame the mark begins, which is sent, and the flash counts run down
(R36, R41, R146). A canvas composed while RUNNING is black where no zone is drawn, and where one is the highest drawn there,
each component is floor((c × α + b × (256 − α) + 128) / 256) of its content c over b, what the canvas shows without it, but
that a black content pixel of a SHEER zone leaves b (R23, R29). The frames a mark leaves are so composed of the blocks as its
work leaves them, the part page alone being written behind. -/
def Obligations.ConfigMarkShowsBlack : Prop :=
  (∀ (m : MarkInput) (s : State), s.part.tb.synthLocked = true → s.port.runState = .config →
    s.port.runRequest = false → Memory.wf s.port.mem = true →
    ∃ t, exec (.frameMark m) s = .next t ∧ s.staysConfig false t) ∧
  (∀ (m : MarkInput) (s : State), s.part.tb.synthLocked = true →
    ∃ (t : State) (b : Blocks), exec (.frameMark m) s = .next t ∧ t.blk = { b.compose t.part.clk with port := t.port } ∧
      t.port = { b.port with mem := t.port.mem } ∧
      (Memory.wf b.port.mem = true → bytesKept b.port.mem t.port.mem [4096, 4100, 4104])) ∧
  ∀ (b : Blocks) (u : ClockUnit) (canvas : Canvas) (x y : Nat), b.port.runState = .running →
    let shown (b : Blocks) : Pixel := match canvas with
      | .main => (b.compose u).comp.mainFrame.pixel x y
      | .ribbon => (b.compose u).comp.ribbonFrame.pixel x y
    let drawn (z : ZoneRun) : Prop := z.zone.canvas = canvas ∧ z.vis ≠ .hidden ∧ z.yielded = false ∧
      z.zone.rect.x ≤ x ∧ x < z.zone.rect.x + z.zone.rect.w ∧
      z.zone.rect.y ≤ y ∧ y < z.zone.rect.y + z.zone.rect.h
    ((∀ z ∈ b.comp.zones, ¬drawn z) → shown b = .black) ∧
    ∀ (a : ActivePlan) (pre post : List ZoneRun) (z : ZoneRun), b.comp.active = some a →
      a.zones = pre ++ z :: post → drawn z →
      (∀ o ∈ pre ++ post, drawn o → o.zone.rank < z.zone.rank) →
      let below := shown { b with comp := { b.comp with active := some { a with zones := pre ++ post } } }
      let c := (b.content u z.zone).pixel (x - z.zone.rect.x) (y - z.zone.rect.y)
      let alpha := match z.vis with
        | .hidden => 0
        | .fadingIn k n => 256 * k / (n + 1)
        | .shown => 256
        | .fadingOut k n => 256 * k / (n + 1)
      let mix (p q : Byte) : Byte :=
        BitVec.ofNat 8 ((p.toNat * alpha + q.toNat * (256 - alpha) + 128) / 256)
      shown b = if z.zone.sheer = true ∧ c = .black then below
        else ⟨mix c.c0 below.c0, mix c.c1 below.c1, mix c.c2 below.c2⟩

/-- At every frame mark while RUNNING with the RUN request set the show tick rises by 1, modulo 2^32; the part
stays RUNNING under the same layout (R11, R12). The clock record is written: its edit count two higher, the show tick, the
line, the horn, the discards, both clocks with their display strings, and the score, as they stand (R143). The pickup of a
desk: nothing where it is stalled, or where its counts agree and no slot remains from an earlier limit. Else every POSTED
slot that is not newer than the last taken is REFUSED STALE; of those that share a newer post number all but the lowest are
REFUSED DUPLICATE; and of the rest the first 8 in order of age are taken, or REFUSED BAD_KIND, and the others left for the
next mark (R175 to R180). The mark goes through its stages: the Port takes the notice of a sync loss in the frame just ended,
the new show tick, at the first mark after a relock the GENLOCK_LOST of value 2, and the tests of the log-full and overrun
flags (R3, R9, R80, R190); each desk is so picked up, the slots as the host left them; loads copy, fades end and the heads
advance; every open piece of work is done once, the Lanes' behind the plans' where a plan may be adopted; the section states
are settled; then come the fade steps and visible areas, the selection pass, the heads' output, the credit of the frame, the
clock record, the frames and the part page (R56, R72, R116). The order of the open pieces is the surroundings', log entry
20; that of the notices is log entry 25. -/
def Obligations.RunningMarkAdvancesTheShowTick : Prop :=
  (∀ (m : MarkInput) (s : State), s.part.tb.synthLocked = true → s.port.runState = .running →
    s.port.runRequest = true →
    ∃ t, exec (.frameMark m) s = .next t ∧ s.goesOn false s.toMark m t) ∧
  ∀ (α : Type) (parse : Word → List Host.Cell → Nat → Option α) (d : Desk) (stalled : Bool) (p : Port),
    Memory.wf p.mem = true → 2 ≤ (p.area (deskIndex d)).first →
    (∀ kind m m' a, (∀ b, a + 32 ≤ b → b < a + 512 → memRead m b = memRead m' b) →
      parse kind m a = parse kind m' a) →
    let x := p.desks.get d
    let q := (pickup parse d stalled p).1
    let y := q.desks.get d
    let cards := (pickup parse d stalled p).2
    let count := memWord p.mem (4 * deskIndex d)
    let word (i k : Nat) : Word := memWord p.mem (p.slotAddr d i + k)
    let posted (i : Nat) : Prop := i < deskSlots d ∧ i ∉ x.held ∧ word i 0 = 1
    let age (i : Nat) : Nat := (word i 4 - x.last).toNat
    let newer (i : Nat) : Prop := posted i ∧ 1 ≤ age i ∧ age i ≤ 2147483647
    let refused (i : Nat) (outcome result : Word) : Prop :=
      p.slotReads q d i 5 outcome p.showTick result ∧ memWord q.mem (p.slotAddr d i + 16) = p.showTick
    (stalled = true ∨ (count = x.seen ∧ x.rescan = false) → q = p ∧ cards = []) ∧
    (stalled = false → count ≠ x.seen ∨ x.rescan = true →
      (∀ i, posted i → ¬newer i → refused i 16 x.last) ∧
      ∃ order : List Nat, order.Pairwise (fun i j => age i < age j) ∧
        (∀ i, i ∈ order ↔ newer i ∧ ∀ j, j < i → newer j → word j 4 ≠ word i 4) ∧
        (∀ i j, newer i → j ∈ order → j ≠ i → word j 4 = word i 4 → refused i 17 (toWord j)) ∧
        (∀ i ∈ order.take 8, match parse (word i 8) p.mem (p.slotAddr d i) with
          | none => refused i 18 0
          | some _ => memWord q.mem (p.slotAddr d i) = 2 ∧
              memWord q.mem (p.slotAddr d i + 16) = p.showTick) ∧
        cards = ((order.take 8).filterMap fun i =>
          (parse (word i 8) p.mem (p.slotAddr d i)).map fun c => ⟨i, word i 4, c⟩) ∧
        (∀ b, 8192 ≤ b → (∀ i, posted i → i ∉ order.drop 8 →
          b < p.slotAddr d i ∨ p.slotAddr d i + 28 ≤ b) → memRead q.mem b = memRead p.mem b) ∧
        y.last = (match (order.take 8).getLast? with | none => x.last | some i => word i 4) ∧
        y.held = x.held ++ cards.map (·.slot) ∧
        (order.length ≤ 8 → y.seen = count ∧ y.rescan = false ∧
          memWord q.mem (4112 + 4 * deskIndex d) = count) ∧
        (8 < order.length → y.seen = x.seen ∧ y.rescan = true))

/-- At the frame mark at which the RUN request is sampled clear the show stops: the part is CONFIG, the show tick stands, and
every owner lets go of what it held; entries, READY images, numbers, the layout, the segment map and the clocks stay,
every lock is cleared and both frames are black (R12, R33, R37, R60, R85, R103, R126, R167, R182, R183). On the way the
Port takes, in this order, the notice of a sync loss in the frame just ended, the STOP record of every open airing by
rising zone; every load's card, every clip's MARK_CLIP card, the STOP record of every SPONSORED pass by rising lane, every
held MESSAGE card and the staged plan's card: each of these cards goes DONE STOPPED at the show tick of the last RUNNING
mark, with result 0 for a load and a plan, the clip number for a clip and the passes completed for a message (R76, R166).
The order among the blocks is the model's choice, log entry 25. -/
def Obligations.ShowStopEndsEverything : Prop :=
  ∀ (m : MarkInput) (s : State), s.part.tb.synthLocked = true → s.port.runState = .running →
    s.port.runRequest = false →
    ∃ t, exec (.frameMark m) s = .next t ∧ s.showStops false s.toMark t

/-- At a frame mark in CONFIG with the RUN request set, a layout record that passes puts the part in RUNNING with the show
tick at 0, the record's areas, sizes and thresholds in force, the part-only pages locked and the clock record written. The
mark goes through the stages of the entry, in their order: the layout in force; every desk at seen, done and last taken 0
with nothing held, the ten counts written; the log and notice write counts at the host's read marks and both flags clear,
all written; the sweep, which moves every slot found TAKEN or ACTIVE to REFUSED ORPHANED with finish tick 0 and result 0,
raises its desk's done count for it and latches DESK_DONE, every other slot left as it is; the part locks; and the show
tick. The Port then takes GENLOCK_LOCKED or GENLOCK_LOST of value 3 with genlock enable on, CONSOLE_LOST while the line is
LOST, and, as the sections settle, SECTION_DEAD for each that is not LIVE; the rest of the mark is that of every RUNNING
mark (R9, R11, R12, R44, R148, R173, R181, R183). A record that fails leaves the part in CONFIG, with the result and its
area recorded and written to the part page, LAYOUT_BAD latched and the RUN request cleared (R172). The sweep by itself
does the same over the areas of any record that passes. The order of the notices is log entry 25. -/
def Obligations.EntryAttemptValidatesTheLayout : Prop :=
  (∀ (m : MarkInput) (s : State), s.part.tb.synthLocked = true → s.port.runState = .config →
     s.port.runRequest = true → (readLayout s.port.mem).check.1 = .ok →
     ∃ t, exec (.frameMark m) s = .next t ∧ s.showStarts false m t) ∧
  (∀ (m : MarkInput) (s : State), s.part.tb.synthLocked = true → s.port.runState = .config →
     s.port.runRequest = true → (readLayout s.port.mem).check.1 ≠ .ok → Memory.wf s.port.mem = true →
     ∃ t, exec (.frameMark m) s = .next t ∧ s.entryFails false t) ∧
  ∀ (l : Layout) (p : Port), l.check.1 = .ok → p.areas = some l.areas → Memory.wf p.mem = true →
    orphansSwept p p.sweep

/-- A house sync pulse with genlock enable on is accepted where the time since its predecessor is within L/2000 of L. One
not accepted moves the predecessor's time alone: the sync-loss timer runs on, and no notice is given. An accepted pulse
restarts the timer at 3L and measures e: within 27 periods LOCKING becomes LOCKED, with GENLOCK_LOCKED; beyond 135 LOCKED
becomes LOCKING, with GENLOCK_LOST; HOLDOVER becomes LOCKING. When the timer expires LOCKING and LOCKED become HOLDOVER, e is
discarded and GENLOCK_LOST given; FREE_RUN and HOLDOVER stay. Only the time passed moves with them: the frame length, the
sections, the clocks and the boards stay (R5, R7, R8, R9, R189). While the reference is absent no pulse is examined (R2).
That a pulse which brings HOLDOVER to LOCKING is not tested for LOCKED as well is the model's reading, log entry 10; dt, and
the reference it shows, are log entries 15 and 17. -/
def Obligations.HouseSyncMeasuresThePhaseOrIsLost : Prop :=
  let notified (s t : State) (kind subject : Nat) (value : Word) : Prop :=
    Memory.wf s.port.mem = true → 2 ≤ (s.port.area 8).first → s.port.noticeTaken t.port kind subject value
  let rest (s t : State) : Prop := t.part.sec = s.part.sec ∧ t.pending = s.pending ∧
    t.part.clk = { s.part.clk with word := t.part.clk.word, gap := t.part.clk.gap
                                   discards := t.part.clk.discards } ∧
    t.blk = { s.blk with port := t.port, cap := t.blk.cap }
  (∀ (dt : Nat) (s : State), (∀ r, s.part.tb.syncTimer = some r → dt < r) →
     ∃ t, exec (.houseSyncPulse true dt) s = .next t ∧
       let b := s.part.tb
       let d := t.part.tb
       let L := b.rate.length
       let run := if b.synthLocked then dt else 0
       let lead : Int := (b.sinceMark + run : Nat) - ((b.frameLength : Int) - L)
       let e : Int := if 2 * lead ≤ L then lead else lead - L
       let accepted : Prop := b.genlockEnable = true ∧
         ∃ n, b.sincePulse = some n ∧ L - L / 2000 ≤ n + dt ∧ n + dt ≤ L + L / 2000
       d = { b with reference := true, sinceMark := b.sinceMark + run, sinceMs := b.sinceMs + run
                    sincePulse := d.sincePulse, syncTimer := d.syncTimer, genlock := d.genlock
                    correction := d.correction, lockCount := d.lockCount } ∧
       (b.genlockEnable = true → d.sincePulse = some 0) ∧
       (¬accepted → d.genlock = b.genlock ∧ d.correction = b.correction ∧ d.lockCount = b.lockCount ∧
         d.syncTimer = b.syncTimer.map (· - dt) ∧ t.port = s.port) ∧
       (accepted → d.syncTimer = some (3 * L) ∧
         match b.genlock with
         | .freeRun => d.genlock = .freeRun ∧ d.correction = b.correction ∧ d.lockCount = b.lockCount ∧
             t.port = s.port
         | .holdover => d.genlock = .locking ∧ d.correction = e ∧ d.lockCount = 0 ∧ t.port = s.port
         | .locking => d.correction = e ∧ d.lockCount = b.lockCount ∧
             if -27 ≤ e ∧ e ≤ 27 then d.genlock = .locked ∧ notified s t 23 2 (toWord b.lockCount)
             else d.genlock = .locking ∧ t.port = s.port
         | .locked => d.correction = e ∧
             if -135 ≤ e ∧ e ≤ 135 then
               d.genlock = .locked ∧ d.lockCount = b.lockCount ∧ t.port = s.port
             else d.genlock = .locking ∧ d.lockCount = 0 ∧ notified s t 22 1 1) ∧
       rest s t) ∧
  (∀ (r : Nat) (s : State), s.part.tb.syncTimer = some r →
     ∃ t, exec .syncLossExpiry s = .next t ∧
       let b := s.part.tb
       let d := t.part.tb
       let run := if b.synthLocked then r else 0
       d = { b with reference := true, sinceMark := b.sinceMark + run, sinceMs := b.sinceMs + run
                    sincePulse := b.sincePulse.map (· + r), syncTimer := none, genlock := d.genlock
                    correction := d.correction } ∧
       (b.genlock = .locking ∨ b.genlock = .locked →
         d.genlock = .holdover ∧ d.correction = 0 ∧ notified s t 22 3 0) ∧
       (b.genlock = .freeRun ∨ b.genlock = .holdover →
         d.genlock = b.genlock ∧ d.correction = b.correction ∧ t.port = s.port) ∧
       rest s t) ∧
  (∀ (dt : Nat) (s : State), exec (.houseSyncPulse false dt) s = .next s) ∧
  ∀ s : State, s.part.tb.syncTimer = none → exec .syncLossExpiry s = .next s

/-- At an ms tick every clock in RUNNING or HOLDOVER counts by 1: a DOWN clock that reaches 0 is EXPIRED, an UP clock that
reaches 11,999,999 is STOPPED, and a clock in another state holds; the settings of the clocks stay (R10, R135). The
silence count rises by 1 and saturates; a HEARD line at 500 becomes LOST, and a CONSOLE clock that is RUNNING and goes on
counting is then in HOLDOVER (R131). The horn count falls by 1 where it is above 0, and the horn requests of the clocks
that expire raise it (R144); that such a request is not itself lowered at the tick is log entry 22. The score and the edit
count stay, and so do the receiver and the discard count where no word is in progress. The Port takes the notice of a sync
loss in the time to the tick, then CONSOLE_LOST where the line becomes LOST, and for each clock that ends, GAME first,
CLOCK_EXPIRED with the HORN latch its request makes or CLOCK_LIMIT; CONSOLE_LOST comes before or after those of the clocks
as the tick has silence or the clocks first, and names a clock that ends at the tick only where silence comes first (R5,
R9, R148, R191). -/
def Obligations.MsTickCountsTheClocks : Prop :=
  ∀ (silenceFirst : Bool) (s : State) (i : ClockId), s.part.tb.synthLocked = true →
    ∃ t, exec (.msTick silenceFirst) s = .next t ∧
      let c := s.part.clk.clock i
      let d := t.part.clk.clock i
      let u := s.part.clk
      let v := t.part.clk
      let lost : Bool := u.heard && decide (500 ≤ u.silence + 1)
      let held : ClockState := if lost && c.state == .running && !c.localSource then .holdover else c.state
      let asks (k : Clock) : Nat :=
        if (k.state = .running ∨ k.state = .holdover) ∧ k.up = false ∧ k.value ≤ 1 ∧ k.hornOn = true
        then k.hornLength else 0
      (c.state = .noTime ∨ c.state = .stopped ∨ c.state = .expired → d = c) ∧
      d = { c with state := d.state, value := d.value } ∧
      v.horn = max (u.horn - 1) (max (asks u.game) (asks u.aux)) ∧
      v.silence = min (u.silence + 1) 4294967295 ∧ v.heard = (u.heard && !lost) ∧
      v = { u with game := v.game, aux := v.aux, horn := v.horn, silence := v.silence, heard := v.heard
                   word := v.word, gap := v.gap, discards := v.discards } ∧
      (u.word = none → v.word = none ∧ v.gap = u.gap ∧ v.discards = u.discards) ∧
      (s.port.laidWhenRunning → Port.through
        (s.part.tb.syncLost (27000 - s.part.tb.sinceMs) ++ u.tickNoticed silenceFirst v.discards) s.port t.port) ∧
      (c.state = .running ∨ c.state = .holdover → c.up = false → 2 ≤ c.value →
        d.value = c.value - 1 ∧ d.state = held) ∧
      (c.state = .running ∨ c.state = .holdover → c.up = false → c.value ≤ 1 →
        d.value = 0 ∧ d.state = .expired) ∧
      (c.state = .running ∨ c.state = .holdover → c.up = true → c.value + 1 < 11999999 →
        d.value = c.value + 1 ∧ d.state = held) ∧
      (c.state = .running ∨ c.state = .holdover → c.up = true → 11999999 ≤ c.value + 1 →
        d.value = 11999999 ∧ d.state = .stopped) ∧
      t.part.sec = s.part.sec ∧ t.blk = { s.blk with port := t.port, cap := t.blk.cap } ∧
      t.port.showTick = s.port.showTick

/-! ## Sections, links and exposure -/

/-- A well-formed health report for a position its link carries makes the segment's buffer OK if it was ABSENT and
FAULT if it says FAULT; a buffer that holds FAULT keeps it. A report whose check fails, or for a position the link
does not carry, changes nothing; no other part of the state moves (R36, R38). -/
def Obligations.HealthReportFillsTheBuffer : Prop :=
  ∀ (link position : Nat) (report : HealthSays) (checkOk : Bool) (s : State),
    ∃ t, exec (.healthReport link position report checkOk) s = .next t ∧
      t = s.onPart (fun p => { p with sec := { p.sec with buffer := t.part.sec.buffer } }) ∧
      ((link < 4 ∧ position < 4) ∨ (4 ≤ link ∧ link < 8 ∧ position < 17) → checkOk = true →
        let g := if link < 4 then 4 * link + position
          else if position < 16 then 16 + (16 * (link - 4) + position) else 16 + (64 + (link - 4))
        tget .absent t.part.sec.buffer g =
          (if report = .fault ∨ tget .absent s.part.sec.buffer g = .fault then .fault else .ok) ∧
        ∀ h, h ≠ g → tget .absent t.part.sec.buffer h = tget .absent s.part.sec.buffer h) ∧
      (checkOk = false ∨ (link < 4 ∧ 4 ≤ position) ∨ (4 ≤ link ∧ 17 ≤ position) → t = s)

/-- A frame mark that ends a frame updates the health record of every segment by its report buffer: a bad frame is
FAULT or ABSENT, and the 30th of the other kind in a row turns the segment, its run count back at 0. The row of the turn
taken by itself is that step of the mark (log entry 13): the segment turns where its run count stands at 29 and its report
is of the other kind, its buffer is ABSENT, the section states follow, and the map, the forced flags and the other
segments stay (R39, R41). Each section that leaves LIVE gives SECTION_DEAD and each that becomes LIVE gives SECTION_LIVE, in
rising table index, with its segment as value; at the mark of entry SECTION_DEAD stands for every section that is not LIVE,
and that every mark so settles its sections is said with the stages of a mark (R44). -/
def Obligations.HealthTurnsAtTheThirtiethBadFrame : Prop :=
  (∀ (m : MarkInput) (s : State) (g : Nat), s.part.tb.synthLocked = true → g < s.part.sec.health.length →
     ∃ t, exec (.frameMark m) s = .next t ∧
       let bad := tget .absent s.part.sec.buffer g ≠ .ok
       let h := s.part.sec.segHealth g
       let k := t.part.sec.segHealth g
       ((h.live = true ↔ ¬bad) → k.live = h.live ∧ k.runCount = 0) ∧
       ((h.live = true ↔ bad) → h.runCount < 29 → k.live = h.live ∧ k.runCount = h.runCount + 1) ∧
       ((h.live = true ↔ bad) → 29 ≤ h.runCount → k.live = !h.live ∧ k.runCount = 0) ∧
       t.part.sec.buffer = List.replicate 84 .absent) ∧
  (∀ (g : Nat) (s : State), s.part.tb.synthLocked = true → g < 84 →
     29 ≤ (s.part.sec.segHealth g).runCount →
     ((s.part.sec.segHealth g).live = true ↔ tget .absent s.part.sec.buffer g ≠ .ok) →
     ∃ t, exec (.segmentHealthChange g) s = .next t ∧
       t.part.sec.segHealth g = ⟨!(s.part.sec.segHealth g).live, 0⟩ ∧
       tget .absent t.part.sec.buffer g = .absent ∧
       (∀ h, h ≠ g → t.part.sec.segHealth h = s.part.sec.segHealth h) ∧
       (∀ i, i < 80 → tget .live t.part.sec.states i = t.part.sec.stateOf i) ∧
       t.part.sec.map = s.part.sec.map ∧ t.part.sec.forced = s.part.sec.forced ∧
       t.part.tb = s.part.tb ∧ t.part.clk = s.part.clk ∧
       (s.port.laid → Port.through (t.part.sec.noticed false s.part.sec.states) s.port t.port) ∧
       t.blk = { s.blk with port := t.port, measures := t.blk.measures }) ∧
  ∀ (entry : Bool) (c : Sections) (p : Port), p.laidWhenRunning →
    let x := settleSections entry (c, p)
    x.1 = { c with states := x.1.states } ∧ (∀ i, i < 80 → tget .live x.1.states i = c.stateOf i) ∧
    Port.through (c.noticed entry c.states) p x.2

/-- A SET_SECTION card that passes its checks acts and goes DONE OK with the state of its section: IN clears and OUT sets
the section's forced flag, and MAP gives a ribbon section a segment that backs no other section, the one it left becoming
free. Each section that leaves or becomes LIVE by it gives its notice before the slot is finished (R44; that order is log
entry 26). Other sections, the health of segments and the other blocks stay. A card whose canvas, action, section or
segment is outside its encoding or range, MAP on MAIN among them, is refused BAD_FIELD with result 0, and a MAP of a
segment that backs another section r IN_USE with result 16 + r; a refused card moves nothing but its slot (R42, R43). -/
def Obligations.SetSectionForcesOrMaps : Prop :=
  (∀ (slot : Nat) (post : Word) (q : SectionCue) (s : State), s.ready .plan →
     q.canvas ≤ 1 → q.sect < (if q.canvas = 0 then 16 else 64) →
     (q.action ≤ 1 ∨ (q.action = 2 ∧ q.canvas = 1 ∧ q.segment < 68 ∧
       ∀ r, r < 64 → r ≠ q.sect → s.part.sec.backing r ≠ q.segment)) →
     let i := if q.canvas = 0 then q.sect else 16 + q.sect
     ∃ t, exec (.setSection slot post q) s = .next t ∧
       (q.action ≤ 1 → tget false t.part.sec.forced i = decide (q.action = 1) ∧
         (∀ j, j ≠ i → tget false t.part.sec.forced j = tget false s.part.sec.forced j) ∧
         t.part.sec.map = s.part.sec.map) ∧
       (q.action = 2 → t.part.sec.backing q.sect = q.segment ∧
         (∀ r, r ≠ q.sect → t.part.sec.backing r = s.part.sec.backing r) ∧
         t.part.sec.forced = s.part.sec.forced) ∧
       s.port.slotReads t.port .plan slot 4 0 s.port.showTick (toWord (t.part.sec.stateOf i).code) ∧
       (s.port.laid → Port.through (t.part.sec.noticed false s.part.sec.states ++
         [slotMoves .plan slot 4 0 (toWord (t.part.sec.stateOf i).code)]) s.port t.port) ∧
       t.part.sec.health = s.part.sec.health ∧ t.part.tb = s.part.tb ∧ t.part.clk = s.part.clk ∧
       t.blk = { s.blk with port := t.port, measures := t.blk.measures }) ∧
  ∀ (slot : Nat) (post : Word) (q : SectionCue) (s : State), s.ready .plan →
    let fails : Prop := 1 < q.canvas ∨ 2 < q.action ∨ (if q.canvas = 0 then 16 else 64) ≤ q.sect ∨
      (q.action = 2 ∧ (q.canvas = 0 ∨ 67 < q.segment))
    (fails → ∃ t, exec (.setSection slot post q) s = .next t ∧ s.onlyMoved t .plan slot 5 19 0) ∧
    ∀ r, ¬fails → q.action = 2 → r < 64 → s.part.sec.backing r = q.segment →
      s.part.sec.backing q.sect ≠ q.segment →
      (∀ u, u < 64 → s.part.sec.backing u = q.segment → u = r) →
      ∃ t, exec (.setSection slot post q) s = .next t ∧ s.onlyMoved t .plan slot 5 21 (toWord (16 + r))

/-- The visible area of a measured zone is the number of pixels of its rectangle that lie in no zone that covers it
and in no unusable section of its canvas, each pixel counted once (R50). -/
def Obligations.VisibleAreaCountsPixels : Prop :=
  ∀ (th : Thresholds) (zones : List ZoneRun) (unusable : Canvas → List Rect) (z : ZoneRun),
    let r := z.zone.rect
    (measureZone th zones unusable z).visible =
      (((Finset.Ico r.x (r.x + r.w)) ×ˢ (Finset.Ico r.y (r.y + r.h))).filter fun q : Nat × Nat =>
        (∀ y ∈ zones, covers y z = true → y.zone.rect.hasPixel q.1 q.2 = false) ∧
        ∀ u ∈ unusable z.zone.canvas, u.hasPixel q.1 q.2 = false).card

/-- The base weight never falls as the permille rises; it is 0 below F, 256 at U and above, and at most 255 between
(R53). -/
def Obligations.BaseWeightRisesWithVisibility : Prop :=
  ∀ (th : Thresholds) (p q : Nat), th.floor < th.full → p ≤ q →
    baseWeight th p ≤ baseWeight th q ∧ baseWeight th q ≤ 256 ∧
    (p < th.floor → baseWeight th p = 0) ∧ (th.full ≤ p → baseWeight th p = 256) ∧
    (p < th.full → baseWeight th p ≤ 255)

/-! ## Plans and zones -/

/-- A POST_PLAN card whose count is 1 to 16, whose records each pass by themselves and against every earlier one,
becomes the staged plan; its slot is not finished yet, a plan staged before is discarded and its slot REFUSED
SUPERSEDED, and the active plan and all else stay. A card whose count is outside 1 to 16 is refused BAD_FIELD with result 16,
and one with a record that fails by itself or against an earlier one with the position of the first such record; it moves
nothing but its slot (R15, R16, R17). -/
def Obligations.PostPlanStagesAPlan : Prop :=
  (∀ (slot : Nat) (post : Word) (q : PlanCue) (s : State), s.ready .plan →
     1 ≤ q.count → q.count ≤ 16 → q.recs.length = q.count →
     (∀ r ∈ q.recs, recFails s.port.sizesInForce r = false) →
     q.recs.Pairwise (fun e r => pairFails e r = false) →
     ∃ t, exec (.postPlan slot post q) s = .next t ∧
       t.blk.comp.staged = some ⟨q.recs.map zoneOfRec, slot, post⟩ ∧
       t = s.onPart (·.onBlk fun b =>
         { b with port := t.port, comp := { b.comp with staged := t.blk.comp.staged } }) ∧
       match s.blk.comp.staged with
       | none => t.port = s.port
       | some old => s.port.slotMoved t.port .plan old.slot 5 26 0) ∧
  ∀ (slot : Nat) (post : Word) (q : PlanCue) (s : State), s.ready .plan →
    (q.count = 0 ∨ 16 < q.count →
      ∃ t, exec (.postPlan slot post q) s = .next t ∧ s.onlyMoved t .plan slot 5 19 16) ∧
    ∀ i r, 1 ≤ q.count → q.count ≤ 16 → q.recs.length = q.count → q.recs[i]? = some r →
      (recFails s.port.sizesInForce r = true ∨ ∃ e ∈ q.recs.take i, pairFails e r = true) →
      (∀ j u, j < i → q.recs[j]? = some u →
        recFails s.port.sizesInForce u = false ∧ ∀ e ∈ q.recs.take j, pairFails e u = false) →
      ∃ t, exec (.postPlan slot post q) s = .next t ∧ s.onlyMoved t .plan slot 5 19 (toWord i)

/-- SHOW_ZONE and HIDE_ZONE on a zone of the active plan. SHOW: a HIDDEN zone is SHOWN by a CUT with result 0 and begins
to fade in at step 1 with result N by a FADE of N; a fade-out turns to a fade-in at the same step s with result N + 1 − s;
a zone FADING_IN or SHOWN is left with result 0. HIDE: a SHOWN zone is HIDDEN by a CUT with result 0 and begins to fade
out at step N with result N; a fade-in turns to a fade-out at the same step s with result s; a zone FADING_OUT or HIDDEN
is left with result 0. The override of the card replaces the zone's own transition, and other zones stay (R24, R25, R26).
On a yielded zone, and while a plan is staged, the card acts as a CUT with result 0, a yielded zone in a transition taking
the end the card names; while a plan is staged the outcome of a card that has an effect is CLAMPED, and a zone not yielded
that is already on its way is left with outcome OK (R18, R28). A card that names no zone of an active plan, or has an
override or a length outside its encoding, is refused BAD_FIELD with result 0; a SHOW of a HIDDEN STILL zone is refused
BAD_FIELD where its image slot is EMPTY and IN_USE where it is LOADING, with a free value as result, log entry 4; the
result 0 before those is log entry 46. A refused card moves no zone. Where the fade that is reversed was begun by an
earlier card of the same mark, its step and the result are the model's choice, log entry 37. -/
def Obligations.ZoneCardsShowAndHide : Prop :=
  ∀ (slot : Nat) (post : Word) (q : ZoneCue) (s : State), s.ready .plan →
    let staged : Prop := s.blk.comp.staged ≠ none
    let coded : Prop := q.override ≤ 1 ∨ (q.override = 2 ∧ 1 ≤ q.len ∧ q.len ≤ 60)
    let seen (t : State) (id : Nat) := (t.blk.comp.zone id).map fun y => (y.zone, y.vis, y.yielded)
    let fade (z : ZoneRun) := if q.override = 0 then z.zone.fade else if q.override = 1 then none else some q.len
    let shown (z : ZoneRun) : Visibility × Nat := match z.vis, fade z with
      | .shown, _ => (.shown, 0)
      | .fadingIn k n, _ => if z.yielded = true then (.shown, 0) else (.fadingIn k n, 0)
      | .hidden, none => (.shown, 0)
      | .hidden, some n => if z.yielded = true ∨ staged then (.shown, 0) else (.fadingIn 1 n, n)
      | .fadingOut k n, _ => if z.yielded = true ∨ staged then (.shown, 0) else (.fadingIn k n, n + 1 - k)
    let hidden (z : ZoneRun) : Visibility × Nat := match z.vis, fade z with
      | .hidden, _ => (.hidden, 0)
      | .fadingOut k n, _ => if z.yielded = true then (.hidden, 0) else (.fadingOut k n, 0)
      | .shown, none => (.hidden, 0)
      | .shown, some n => if z.yielded = true ∨ staged then (.hidden, 0) else (.fadingOut n n, n)
      | .fadingIn k n, _ => if z.yielded = true ∨ staged then (.hidden, 0) else (.fadingOut k n, k)
    let moved (t : State) : Prop := t = s.onPart (·.onBlk fun b =>
      { b with port := t.port, measures := t.blk.measures, comp := { b.comp with active := t.blk.comp.active } })
    let acts (i : Instr) (z : ZoneRun) (after : Visibility × Nat) : Prop :=
      ∃ t, exec i s = .next t ∧ moved t ∧ seen t q.zone = some (z.zone, after.1, z.yielded) ∧
        (∀ id, id ≠ q.zone → seen t id = seen s id) ∧
        s.port.slotMoved t.port .plan slot 4 (if staged ∧ after.1 ≠ z.vis then 1 else 0) (toWord after.2)
    let refused (i : Instr) : Prop :=
      ∃ t, exec i s = .next t ∧ moved t ∧ (∀ id, seen t id = seen s id) ∧
        s.port.slotMoved t.port .plan slot 5 19 0
    (∀ z, coded → s.blk.comp.zone q.zone = some z →
      (z.zone.kind = .still → z.vis = .hidden → (s.blk.rot.slot z.zone.source).isReady = true) →
      acts (.showZone slot post q) z (shown z)) ∧
    (∀ z, coded → s.blk.comp.zone q.zone = some z → acts (.hideZone slot post q) z (hidden z)) ∧
    (¬coded ∨ s.blk.comp.zone q.zone = none →
      refused (.showZone slot post q) ∧ refused (.hideZone slot post q)) ∧
    ∀ z, coded → s.blk.comp.zone q.zone = some z → z.zone.kind = .still → z.vis = .hidden →
      (s.blk.rot.slot z.zone.source).isReady = false →
      ∃ t result, exec (.showZone slot post q) s = .next t ∧ moved t ∧ (∀ id, seen t id = seen s id) ∧
        ({ s.port with unstated := s.port.unstated + 1 } : Port).slotMoved t.port .plan slot 5
          (if s.blk.rot.slot z.zone.source = .empty then 19 else 21) result

/-- A zone whose fade has drawn its last step ends its transition: FADING_IN at step N is SHOWN, FADING_OUT at step 1
is HIDDEN; the other zones, the Port and the other blocks stay (R23). The row taken by
itself is that step of the mark, log entry 13. -/
def Obligations.FadeEndSettlesTheZone : Prop :=
  ∀ (id : Nat) (s : State) (z : ZoneRun), s.part.live = true → s.blk.comp.zone id = some z →
    ∃ t, exec (.fadeEnd id) s = .next t ∧
      (∀ n, z.vis = .fadingIn n n → (t.blk.comp.zone id).map (·.vis) = some .shown) ∧
      (∀ n, z.vis = .fadingOut 1 n → (t.blk.comp.zone id).map (·.vis) = some .hidden) ∧
      (∀ j, j ≠ id → t.blk.comp.zone j = s.blk.comp.zone j) ∧
      t = s.onPart (·.onBlk fun b => { b with measures := t.blk.measures,
                                              comp := { b.comp with active := t.blk.comp.active } })

/-- A staged plan is adopted once no zone of the active plan is in a transition: it becomes the active plan with its slot
and post number, and nothing is staged. A zone is continuing where the old plan held one of the same id, kind and source:
one that was SHOWN is SHOWN or HIDDEN at once as its record says; every other is SHOWN under a CUT and FADING_IN at step 1
under a FADE where it starts SHOWN, else HIDDEN. A STILL zone that would be drawn without a READY image is HIDDEN and
counted. With urgent yield in force a PLACEMENT zone that yields is yielded and begins no fade. Airings whose zone is not
continuing end with PLAN_CHANGE, by rising zone; the slot goes DONE, CLAMPED where a zone was counted, with the count as
result, and PLAN_ADOPTED gives it and the post number; a SPONSORED pass left without a lane ends LANE_LOST (R19 to R22,
R77, R155, R166). A pass left without a lane and with frames to draw goes, and its card is WAITING in its place with its
repeats unchanged; another goes on, without the lanes no longer shown where some are left (R155, R163). The queue
otherwise and the urgent state stay. While a zone is in a transition that goes on, the plan waits (R19). The row taken by
itself is that step of the mark, log entry 13. The order of the blocks' records and notices is the model's choice, log
entry 25, and so is that of the LANE_LOST records by rising lane, log entry 9. -/
def Obligations.AdoptionMakesTheStagedPlanActive : Prop :=
  (∀ (s : State) (p : StagedPlan), s.part.live = true → s.blk.comp.staged = some p →
    (∀ z ∈ s.blk.comp.zones, z.vis.fading = false) →
    let old := s.blk.comp.zones
    let same (x y : Zone) : Bool := x.id == y.id && x.kind == y.kind && x.source == y.source
    let newly (z : Zone) : Visibility :=
      if z.startShown then (match z.fade with | none => .shown | some n => .fadingIn 1 n) else .hidden
    let wanted (z : Zone) : Visibility :=
      match old.find? fun o => same o.zone z with
      | some o => if o.vis = .shown then (if z.startShown then .shown else .hidden) else newly z
      | none => newly z
    let bare (z : Zone) : Bool :=
      z.kind == .still && wanted z != .hidden && !(s.blk.rot.slot z.source).isReady
    let run (z : Zone) : ZoneRun :=
      let v := if bare z then .hidden else wanted z
      if s.blk.comp.urgentYield = true ∧ z.kind = .placement ∧ z.yields = true then
        { zone := z, yielded := true, fresh := false
          vis := match v with | .fadingIn _ _ => .shown | v => v }
      else { zone := z, vis := v, yielded := false, fresh := false }
    let n := (p.zones.filter bare).length
    let goesOn (a : Airing) : Bool :=
      old.any fun o => o.zone.id == a.zone && p.zones.any fun z => same o.zone z
    ∃ t, exec .adoption s = .next t ∧
      t.blk.comp = { s.blk.comp with staged := none, active := some ⟨p.zones.map run, p.slot, p.post⟩ } ∧
      t.blk.rot = { s.blk.rot with airings := s.blk.rot.airings.filter goesOn } ∧
      t.blk.lanes = { s.blk.lanes with shown := t.blk.lanes.shown, passes := t.blk.lanes.passes
                                       queue := t.blk.lanes.queue } ∧
      ((s.blk.lanes.queue.map (·.slot)).Nodup → (s.blk.lanes.passes.map (·.slot)).Nodup →
        (∀ x ∈ s.blk.lanes.passes, ∃ c ∈ s.blk.lanes.queue, c.slot = x.slot) →
        let shown (x : LanePart) : Bool := (t.blk.lanes.laneWidth x.lane).isSome
        let lost (x : Pass) : Bool := !x.parts.any shown && decide (x.index + 1 < x.length)
        t.blk.lanes.passes = ((s.blk.lanes.passes.filter fun x => !lost x).map fun x =>
          if x.parts.any shown then { x with parts := x.parts.filter shown } else x) ∧
        t.blk.lanes.queue = s.blk.lanes.queue.map fun c =>
          if s.blk.lanes.passes.any (fun x => x.slot == c.slot && lost x) then { c with onAir := false } else c) ∧
      (∀ k, t.blk.lanes.laneWidth k = if k < 4 then
        (p.zones.find? fun z => z.kind == .message && z.source == k).map (·.rect.w) else none) ∧
      (t.port.desks.get .plan).done = (s.port.desks.get .plan).done + 1 ∧
      t.port.latches.deskDone = true ∧ t.port.showTick = s.port.showTick ∧
      (s.port.laid → ∃ ended passes, List.Perm ended (s.blk.rot.airings.filter fun a => !goesOn a) ∧
        ended.Pairwise (fun a b => a.zone ≤ b.zone) ∧ List.Perm passes s.blk.lanes.passes ∧
        passes.Pairwise (fun q r => q.lane ≤ r.lane) ∧
        Port.through
          (ended.map (s.blk.rot.airingLogged 2) ++
            [slotMoves .plan p.slot 4 (if n = 0 then 0 else 1) (toWord n), noticed 1 p.slot p.post] ++
            passes.flatMap fun q => match s.blk.lanes.card q.slot with
              | none => []
              | some c =>
                if (∀ x ∈ q.parts, t.blk.lanes.laneWidth x.lane = none) ∧ q.index + 1 < q.length then
                  c.passLogged 2 q
                else []) s.port t.port) ∧
      t = s.onPart (·.onBlk fun b => { b with port := t.port, comp := t.blk.comp, rot := t.blk.rot
                                              lanes := t.blk.lanes, measures := t.blk.measures })) ∧
  ∀ (s : State) (p : StagedPlan) (z : ZoneRun), s.part.live = true → s.blk.comp.staged = some p →
    z ∈ s.blk.comp.zones →
    (match z.vis with | .fadingIn k n => k < n | .fadingOut k _ => 1 < k | _ => False) →
    ∃ t, exec .adoption s = .next t ∧
      t = s.onPart (·.onBlk fun b => { b with measures := t.blk.measures })

/-! ## Placement rotation -/

/-- A SET_GROUP card that passes gives the group its list and dwell mode; the cursor moves to where the entry under it
stands in the new list and is none where it does not; entries, airings and the other groups stay, and the slot goes DONE
OK with the cursor, or 16, as result (R67, R68). A failing card is refused BAD_FIELD and moves nothing but its slot: with
result 16 for the group, the mode or the count, and with the position of the first id above 127 or equal to an earlier
one; that 16 comes before a position is the model's choice, log entry 46. -/
def Obligations.SetGroupReplacesTheList : Prop :=
  (∀ (slot : Nat) (post : Word) (q : GroupCue) (s : State), s.ready .rotation →
    q.group ≤ 7 → q.mode ≤ 1 → 1 ≤ q.count → q.count ≤ 16 → q.ids.length = q.count →
    (∀ e ∈ q.ids, e ≤ 127) → q.ids.Nodup →
    ∃ t, exec (.setGroup slot post q) s = .next t ∧
      (∃ cursor, t.blk.rot.group q.group = some ⟨q.ids, decide (q.mode = 1), cursor⟩ ∧
        (∀ j, cursor = some j ↔ ∃ old c e, s.blk.rot.group q.group = some old ∧ old.cursor = some c ∧
          old.ids[c]? = some e ∧ q.ids[j]? = some e) ∧
        s.port.slotMoved t.port .rotation slot 4 0 (toWord (cursor.getD 16))) ∧
      (∀ g, g ≠ q.group → t.blk.rot.group g = s.blk.rot.group g) ∧
      t = s.onPart (·.onBlk fun b =>
        { b with port := t.port, rot := { b.rot with groups := t.blk.rot.groups } })) ∧
  ∀ (slot : Nat) (post : Word) (q : GroupCue) (s : State), s.ready .rotation →
    let outside : Prop := 7 < q.group ∨ 1 < q.mode ∨ q.count = 0 ∨ 16 < q.count
    let refused (result : Word) : Prop :=
      ∃ t, exec (.setGroup slot post q) s = .next t ∧ s.onlyMoved t .rotation slot 5 19 result
    (outside → refused 16) ∧
    ∀ i e, ¬outside → q.ids.length = q.count → q.ids[i]? = some e → (127 < e ∨ e ∈ q.ids.take i) →
      (∀ f ∈ q.ids.take i, f ≤ 127) → (q.ids.take i).Nodup → refused (toWord i)

/-- A SET_ENTRY card that passes ends the open airings of its entry, and the entry is SET with the card's fields: with the
keep-meter flag clear at M = −Q and with its counts at 0; with the flag set and no airing of it open, at the meter word
its meter-table entry holds, clamped into −Q..2,147,483,647. Other entries and airings stay, and the slot goes DONE with
the number of airings ended; where none was open, Show Memory changes only in the entry's meter-table entry and the words
of the slot's move (R62, R63, R64, R66). The airings' records come first, with ENTRY_CHANGED by rising zone (R76, R79); a
kept meter and its counts are read from the table as it stands then; the meter-table entry is then written with every
field of the entry, its edit count two above the Rotator's copy; and the slot is finished last (the order of table and
slot is log entry 25). A card with a field outside its range is refused BAD_FIELD with result 0 and moves nothing but its
slot. -/
def Obligations.SetEntrySetsTheEntry : Prop :=
  (∀ (slot : Nat) (post : Word) (q : EntryCue) (s : State), s.ready .rotation →
    q.entry ≤ 127 → q.image ≤ 511 → 60 ≤ q.dwell → q.dwell ≤ 36000 → 1 ≤ q.quota →
    q.quota ≤ 1073741824 → q.category ≤ 31 → q.enabled ≤ 1 → q.keepMeter ≤ 1 →
    ∃ t, exec (.setEntry slot post q) s = .next t ∧
      let ended := (s.blk.rot.airings.filter fun a => a.entry == q.entry).length
      let stored := (memWord s.port.mem (s.port.meterAddr q.entry + 8)).toInt
      (∃ x, t.blk.rot.entry q.entry = some x ∧ x.image = q.image ∧ x.dwell = q.dwell ∧
        x.quota = q.quota ∧ x.category = q.category ∧ x.enabled = decide (q.enabled = 1) ∧
        (q.keepMeter = 0 → x.meter = -(q.quota : Int) ∧ x.onAir = 0 ∧ x.airings = 0 ∧
          s.port.slotReads t.port .rotation slot 4 0 s.port.showTick (toWord ended)) ∧
        (q.keepMeter = 1 → ended = 0 → x.meter = max (-(q.quota : Int)) (min 2147483647 stored) ∧
          s.port.slotReads t.port .rotation slot 4 (if x.meter = stored then 0 else 1)
            s.port.showTick 0)) ∧
      (∀ e, e ≠ q.entry → t.blk.rot.entry e = s.blk.rot.entry e) ∧
      t.blk.rot.airings = (s.blk.rot.airings.filter fun a => a.entry != q.entry) ∧
      t.blk.rot.groups = s.blk.rot.groups ∧ t.blk.rot.bank = s.blk.rot.bank ∧
      t.blk.rot.queue = s.blk.rot.queue ∧
      (ended = 0 → bytesKept s.port.mem t.port.mem
        (s.port.meterWords q.entry ++ s.port.slotWords .rotation slot)) ∧
      (s.port.laid → ∃ airings m x,
        List.Perm airings (s.blk.rot.airings.filter fun a => a.entry == q.entry) ∧
        airings.Pairwise (fun a b => a.zone ≤ b.zone) ∧
        Port.through (airings.map (s.blk.rot.airingLogged 3)) s.port m ∧
        t.blk.rot.entry q.entry = some x ∧
        (let a := s.port.meterAddr q.entry
         let kept := (memWord m.mem (a + 8)).toInt
         (q.keepMeter = 1 → x.meter = max (-(q.quota : Int)) (min 2147483647 kept) ∧
           x.onAir = (memWord m.mem (a + 16)).toNat ∧ x.airings = (memWord m.mem (a + 20)).toNat) ∧
         Port.through
           [meterWritten q.entry (tget 0 s.blk.rot.edits q.entry + 2) (some x),
            slotMoves .rotation slot 4 (if q.keepMeter = 1 ∧ x.meter ≠ kept then 1 else 0) (toWord ended)]
           m t.port)) ∧
      (∀ e, tget 0 t.blk.rot.edits e = tget 0 s.blk.rot.edits e + if e = q.entry then 2 else 0) ∧
      t = s.onPart (·.onBlk fun b => { b with port := t.port, rot := t.blk.rot })) ∧
  ∀ (slot : Nat) (post : Word) (q : EntryCue) (s : State), s.ready .rotation →
    127 < q.entry ∨ 511 < q.image ∨ q.dwell < 60 ∨ 36000 < q.dwell ∨ q.quota = 0 ∨ 1073741824 < q.quota ∨
      31 < q.category ∨ 1 < q.enabled ∨ 1 < q.keepMeter →
    ∃ t, exec (.setEntry slot post q) s = .next t ∧ s.onlyMoved t .rotation slot 5 19 0

/-- A DROP_ENTRY card ends the open airings of its entry, makes it UNSET and cuts the links of held SPONSORED cards to it,
every other card, the passes, the shown lanes and the urgent state staying; on an entry already UNSET it goes DONE OK with
result 0 and nothing else changes (R65, R165). The airings' records come first, with ENTRY_DROPPED by rising zone; the
meter-table entry then takes its edit count two above the Rotator's copy and the state byte UNSET, its other fields left
as they were; and the slot is finished last (R66, R76, R79; the order of table and slot is log entry 25). An id above 127 is
refused BAD_FIELD with result 0, and the card moves nothing but its slot. -/
def Obligations.DropEntryUnsetsTheEntry : Prop :=
  (∀ (slot : Nat) (post : Word) (e : Nat) (s : State), s.ready .rotation → e ≤ 127 →
    ∃ t, exec (.dropEntry slot post e) s = .next t ∧
      (s.blk.rot.entry e = none → s.onlyMoved t .rotation slot 4 0 0) ∧
      (s.blk.rot.entry e ≠ none → t.blk.rot.entry e = none ∧
        (∀ f, f ≠ e → t.blk.rot.entry f = s.blk.rot.entry f) ∧
        t.blk.rot.airings = (s.blk.rot.airings.filter fun a => a.entry != e) ∧
        t.blk.rot.groups = s.blk.rot.groups ∧ t.blk.rot.bank = s.blk.rot.bank ∧
        t.blk.rot.queue = s.blk.rot.queue ∧
        t.blk.lanes = { s.blk.lanes with queue := s.blk.lanes.queue.map fun c =>
          if c.cls = .sponsored ∧ c.linked = e then { c with linkIntact := false } else c } ∧
        s.port.slotReads t.port .rotation slot 4 0 s.port.showTick
          (toWord (s.blk.rot.airings.filter fun a => a.entry == e).length) ∧
        ((∀ a ∈ s.blk.rot.airings, a.entry ≠ e) → bytesKept s.port.mem t.port.mem
          (s.port.meterWords e ++ s.port.slotWords .rotation slot)) ∧
        (s.port.laid → ∃ airings, List.Perm airings (s.blk.rot.airings.filter fun a => a.entry == e) ∧
          airings.Pairwise (fun a b => a.zone ≤ b.zone) ∧
          Port.through (airings.map (s.blk.rot.airingLogged 4) ++
            [meterWritten e (tget 0 s.blk.rot.edits e + 2) none,
             slotMoves .rotation slot 4 0 (toWord airings.length)]) s.port t.port) ∧
        (∀ f, tget 0 t.blk.rot.edits f = tget 0 s.blk.rot.edits f + if f = e then 2 else 0) ∧
        t = s.onPart (·.onBlk fun b =>
          { b with port := t.port, rot := t.blk.rot, lanes := t.blk.lanes }))) ∧
  ∀ (slot : Nat) (post : Word) (e : Nat) (s : State), s.ready .rotation → 127 < e →
    ∃ t, exec (.dropEntry slot post e) s = .next t ∧ s.onlyMoved t .rotation slot 5 19 0

/-- A LOAD_IMAGE card that passes every check makes its image slot LOADING with the blocks of the image, holds its
pages under load locks and puts the load behind those in flight; its desk slot goes ACTIVE with outcome OK and result 0,
and only those words of Show Memory change. The head load, at its last frame of copying, completes: its image slot is
READY with the image, its load locks are released, the next load is the head, and its card goes DONE OK with the blocks
as result. A card that fails is refused by its first failing check and moves nothing but its slot: BAD_FIELD with result 0 for
the slot or a size, BAD_FIELD with the pages needed for the page range, IN_USE for a slot LOADING or on air, NO_ROOM with the
blocks there are (R81, R82, R83, R84, R183). The outcome OK at the move to ACTIVE is the model's choice, log entry 45: R82
names none. The row taken by itself is that step of the mark, log entry 13. -/
def Obligations.ImageLoadsQueueAndComplete : Prop :=
  (∀ (slot : Nat) (post : Word) (q : LoadCue) (s : State), s.ready .rotation →
     q.image ≤ 511 → 16 ≤ q.width → q.width ≤ 4096 → 16 ≤ q.height → q.height ≤ 2160 →
     (s.port.area 9).first ≤ q.first →
     q.first + q.pages ≤ (s.port.area 9).first + (s.port.area 9).count →
     ceilDiv (q.width * q.height * 4) 4096 ≤ q.pages →
     (s.blk.rot.slot q.image).isLoading = false → s.blk.imageOnAir q.image = false →
     ceilDiv (q.width * q.height * 4) 65536 ≤
       s.blk.rot.freeBlocks + (s.blk.rot.slot q.image).blocks →
     ∃ t, exec (.loadImage slot post q) s = .next t ∧
       t.blk.rot.slot q.image = .loading (ceilDiv (q.width * q.height * 4) 65536) ∧
       (∀ i, i ≠ q.image → t.blk.rot.slot i = s.blk.rot.slot i) ∧
       (∃ l : Load, t.blk.rot.queue = s.blk.rot.queue ++ [l] ∧ l.deskSlot = slot ∧ l.image = q.image ∧
         l.width = q.width ∧ l.height = q.height ∧ l.pages = ⟨q.first, q.pages⟩) ∧
       t.port.loadLocks = s.port.loadLocks ++ [⟨q.first, q.pages⟩] ∧
       memWord t.port.mem (s.port.slotAddr .rotation slot) = 3 ∧
       memWord t.port.mem (s.port.slotAddr .rotation slot + 12) = 0 ∧
       memWord t.port.mem (s.port.slotAddr .rotation slot + 24) = 0 ∧
       bytesKept s.port.mem t.port.mem [s.port.slotAddr .rotation slot,
         s.port.slotAddr .rotation slot + 12, s.port.slotAddr .rotation slot + 24] ∧
       t.port = { s.port with mem := t.port.mem, loadLocks := t.port.loadLocks } ∧
       t = s.onPart (·.onBlk fun b => { b with port := t.port
                                               rot := { b.rot with bank := t.blk.rot.bank
                                                                   queue := t.blk.rot.queue } })) ∧
  (∀ (s : State) (l : Load) (rest : List Load), s.ready .rotation → s.blk.rot.queue = l :: rest →
     l.framesLeft ≤ 1 →
     ∃ t, exec .loadComplete s = .next t ∧
       t.blk.rot.slot l.image = .ready l.width l.height l.blocks l.picture ∧
       (∀ i, i ≠ l.image → t.blk.rot.slot i = s.blk.rot.slot i) ∧ t.blk.rot.queue = rest ∧
       ({ s.port with loadLocks := s.port.loadLocks.erase l.pages } : Port).slotMoved t.port
         .rotation l.deskSlot 4 0 (toWord l.blocks) ∧
       t = s.onPart (·.onBlk fun b => { b with port := t.port
                                               rot := { b.rot with bank := t.blk.rot.bank
                                                                   queue := rest } })) ∧
  ∀ (slot : Nat) (post : Word) (q : LoadCue) (s : State), s.ready .rotation →
    let pages := ceilDiv (q.width * q.height * 4) 4096
    let room := s.blk.rot.freeBlocks + (s.blk.rot.slot q.image).blocks
    let sized : Prop := q.image ≤ 511 ∧ 16 ≤ q.width ∧ q.width ≤ 4096 ∧ 16 ≤ q.height ∧ q.height ≤ 2160
    let staged : Prop := (s.port.area 9).first ≤ q.first ∧
      q.first + q.pages ≤ (s.port.area 9).first + (s.port.area 9).count ∧ pages ≤ q.pages
    let busy : Prop := (s.blk.rot.slot q.image).isLoading = true ∨ s.blk.imageOnAir q.image = true
    let refused (outcome result : Word) : Prop :=
      ∃ t, exec (.loadImage slot post q) s = .next t ∧ s.onlyMoved t .rotation slot 5 outcome result
    (¬sized → refused 19 0) ∧ (sized → ¬staged → refused 19 (toWord pages)) ∧
    (sized → staged → busy → refused 21 0) ∧
    (sized → staged → ¬busy → room < ceilDiv (q.width * q.height * 4) 65536 → refused 20 (toWord room))

/-- An airing whose dwell is complete ends with DWELL, code 0: ON_AIR at D shown frames, SEEN at D credited frames; a SEEN
airing with fewer credited frames ends with HOLD_LIMIT, code 1, at 3 × D shown frames. The airings of the zone that are so
due leave the open airings and no other does. Where one leaves, its AIRING record is handed to the log at this show tick,
written where there is room and lost under the log-full flag where there is none; where none leaves, nothing is written. At
the credit of a frame the part is RUNNING in, each SET entry's meter rises, to 2,147,483,647 at most, by the weights of the
zones its airings are open in and of the lanes its intact SPONSORED passes are on; its frames on air rise with its shown
airings, and the airings and the passes count the frame. The meter-table entry of each entry so changed is written once, and
QUOTA_MET follows it where the meter crosses zero, the entries taken by rising id (R54, R57, R58, R66, R74 to R76, R78 to R80,
R165; that order is log entry 8). The row taken by itself is that step of the mark, log entry 13. -/
def Obligations.DwellAndHoldLimitEndTheAiring : Prop :=
  (∀ (zone : Nat) (s : State), s.ready .rotation →
    let dwell (a : Airing) : Bool := a.zone == zone &&
      (if a.seen then decide (a.dwell ≤ a.credited) else decide (a.dwell ≤ a.shown))
    let hold (a : Airing) : Bool := a.zone == zone && a.seen && decide (a.credited < a.dwell) &&
      decide (3 * a.dwell ≤ a.shown)
    let recorded (code : Nat) (a : Airing) (t : State) : Prop := ∀ x, s.blk.rot.entry a.entry = some x →
      2 ≤ (s.port.area 7).first → 2 ≤ (s.port.area 8).first →
      s.port.recordTaken t.port
        { kind := 1, endCode := code, place := a.zone, group := a.group, entry := a.entry, slot := x.image
          start := a.start, stop := s.port.showTick, shown := a.shown, credited := a.credited
          credits := a.credits, number := toWord a.number }
    (∃ t, exec (.dwellComplete zone) s = .next t ∧
      t.blk.rot.airings = (s.blk.rot.airings.filter fun a => !dwell a) ∧
      (s.blk.rot.airings.filter dwell = [] → t.port = s.port) ∧
      (∀ a, s.blk.rot.airings.filter dwell = [a] → recorded 0 a t) ∧
      t = s.onPart (·.onBlk fun b => { b with port := t.port
                                              rot := { b.rot with airings := t.blk.rot.airings } })) ∧
    (∃ t, exec (.holdLimit zone) s = .next t ∧
      t.blk.rot.airings = (s.blk.rot.airings.filter fun a => !hold a) ∧
      (s.blk.rot.airings.filter hold = [] → t.port = s.port) ∧
      (∀ a, s.blk.rot.airings.filter hold = [a] → recorded 1 a t) ∧
      t = s.onPart (·.onBlk fun b => { b with port := t.port
                                              rot := { b.rot with airings := t.blk.rot.airings } }))) ∧
  ∀ b : Blocks, b.port.runState = .running →
    let weight (z : ZoneRun) : Nat :=
      if z.vis = .shown ∧ z.yielded = false then b.baseOf z.zone.id else 0
    let w (a : Airing) : Nat := match b.comp.zone a.zone with | none => 0 | some z => weight z
    let seen (a : Airing) : Bool := match b.comp.zone a.zone with
      | none => false
      | some z => z.vis != .hidden && !z.yielded
    let earns (p : Pass) : Option Nat := (b.lanes.card p.slot).bind fun c =>
      if c.cls = .sponsored ∧ c.linkIntact = true then some c.linked else none
    let v (p : Pass) : Nat :=
      if (earns p).isSome then
        match b.comp.zones.find? fun z : ZoneRun => z.zone.kind == .message && z.zone.source == p.lane with
        | none => 0
        | some z => weight z
      else 0
    let after (e : Nat) (x : Entry) : Entry :=
      let n := (b.rot.airings.filter fun a => a.entry == e && seen a).length
      let c := ((b.rot.airings.filter fun a => a.entry == e).map w).sum +
        ((b.lanes.passes.filter fun p => earns p == some e).map v).sum
      { x with meter := min 2147483647 (x.meter + c), onAir := min 4294967295 (x.onAir + n) }
    (∀ e x, e < 128 → b.rot.entry e = some x → b.credit.rot.entry e = some (after e x)) ∧
    (b.port.laid → Port.through ((List.range 128).flatMap fun e =>
      match b.rot.entry e with
      | none => []
      | some x =>
        if after e x = x then []
        else meterWritten e (tget 0 b.rot.edits e + 2) (some (after e x)) ::
          if x.meter < 0 ∧ 0 ≤ (after e x).meter then [noticed 4 e b.port.showTick] else [])
      b.port b.credit.port) ∧
    (∀ e, b.rot.entry e = none → b.credit.rot.entry e = none) ∧
    b.credit.rot.airings = (b.rot.airings.map fun a =>
      { a with shown := a.shown + (if seen a then 1 else 0)
               credited := a.credited + (if 0 < w a then 1 else 0), credits := a.credits + w a }) ∧
    b.credit.lanes.passes = (b.lanes.passes.map fun p : Pass =>
      { p with onAir := p.onAir + 1, credited := p.credited + (if 0 < v p then 1 else 0)
               credits := p.credits + v p }) ∧
    b.credit.lanes.queue = b.lanes.queue ∧ b.credit.comp = b.comp

/-- A zone that selects takes an eligible entry of its group with the largest need, and takes none exactly where no entry
of the list is eligible; among equal needs it takes the one met first from the position behind the cursor round to the
cursor itself (R69, R70, R71). The zone then opens an airing of that entry: an entry is eligible that is SET, enabled, on
a READY image slot, and of category 0 or of one that no open airing's entry has; its airings count rises and its
meter-table entry is written, the cursor moves to its position, and the airing holds the zone, the entry, the group with
its dwell mode, the entry's dwell, the show tick, counts of 0 and the raised count as its number. Nothing else changes
(R66, R72, R73). A pass of a mark serves the PLACEMENT zones without an open airing, MAIN before RIBBON and by descending
rank (R72). A RUNNING frame mark makes that pass behind all its other work but the heads' output and the credit, which
leave the groups, the image bank and who airs what: after the mark every PLACEMENT zone of the plan has an open airing, or
its group has no eligible entry. -/
def Obligations.SelectionTakesTheLargestNeed : Prop :=
  (∀ (r : Rotator) (excluded : List Nat) (g : Group),
    (∀ i, r.choose excluded g = some i →
      i < g.ids.length ∧ r.eligible excluded (tget 0 g.ids i) = true ∧
      ∀ j, j < g.ids.length → r.eligible excluded (tget 0 g.ids j) = true →
        r.needOf (tget 0 g.ids j) ≤ r.needOf (tget 0 g.ids i)) ∧
    (r.choose excluded g = none ↔
      ∀ j, j < g.ids.length → r.eligible excluded (tget 0 g.ids j) = false)) ∧
  (∀ (r : Rotator) (excluded : List Nat) (g : Group) (i : Nat), r.choose excluded g = some i →
    let place (k : Nat) : Nat := ((match g.cursor with | none => 0 | some c => c + 1) + k) % g.ids.length
    ∃ k, k < g.ids.length ∧ i = place k ∧
      ∀ j, j < k → r.eligible excluded (tget 0 g.ids (place j)) = true →
        r.needOf (tget 0 g.ids (place j)) < r.needOf (tget 0 g.ids i)) ∧
  (∀ (b : Blocks) (z : Zone),
    let t := b.select z
    let free (n : Nat) : Prop := n = 0 ∨
      ∀ a ∈ b.rot.airings, ∀ y, b.rot.entry a.entry = some y → y.category ≠ n
    let eligible (e : Nat) : Prop := ∃ x, b.rot.entry e = some x ∧ x.enabled = true ∧
      (b.rot.slot x.image).isReady = true ∧ free x.category
    let need (e : Nat) : Nat := match b.rot.entry e with
      | none => 0
      | some x => (-x.meter).toNat * 65536 / x.quota
    (b.rot.group z.source = none → t = b) ∧
    ∀ g, b.rot.group z.source = some g →
      ((∀ i, i < g.ids.length → ¬eligible (tget 0 g.ids i)) → t = b) ∧
      ((∃ i, i < g.ids.length ∧ eligible (tget 0 g.ids i)) → ∃ i x, i < g.ids.length ∧
        eligible (tget 0 g.ids i) ∧
        (∀ j, j < g.ids.length → eligible (tget 0 g.ids j) → need (tget 0 g.ids j) ≤ need (tget 0 g.ids i)) ∧
        let e := tget 0 g.ids i
        let y := { x with airings := min 4294967295 (x.airings + 1) }
        b.rot.entry e = some x ∧ t.rot.entry e = some y ∧
        (∀ f, f ≠ e → t.rot.entry f = b.rot.entry f) ∧
        t.rot.group z.source = some { g with cursor := some i } ∧
        (∀ k, k ≠ z.source → t.rot.group k = b.rot.group k) ∧
        t.rot.airings = b.rot.airings ++
          [{ zone := z.id, entry := e, group := z.source, seen := g.seen, dwell := x.dwell
             start := b.port.showTick, shown := 0, credited := 0, credits := 0, number := y.airings }] ∧
        t.rot.bank = b.rot.bank ∧ t.rot.queue = b.rot.queue ∧
        (∀ f, tget 0 t.rot.edits f = tget 0 b.rot.edits f + if f = e then 2 else 0) ∧
        (b.port.laid → meterWritten e (tget 0 b.rot.edits e + 2) (some y) b.port t.port) ∧
        t = { b with port := t.port, rot := t.rot })) ∧
  (∀ b : Blocks, ∃ zones : List Zone, b.selectionPass = zones.foldl Blocks.select b ∧
    List.Perm zones ((b.comp.zones.map (·.zone)).filter fun z =>
      z.kind == .placement && b.rot.airings.all fun a => a.zone != z.id) ∧
    ((∀ z ∈ zones, z.rank ≤ 15) → zones.Pairwise fun x y =>
      if x.canvas = y.canvas then y.rank ≤ x.rank else x.canvas = .main)) ∧
  ∀ (m : MarkInput) (s : State), s.part.tb.synthLocked = true → s.port.runState = .running →
    s.port.runRequest = true →
    ∃ t g, exec (.frameMark m) s = .next t ∧ MarkStages.link g false s.toMark m s t ∧
      (let r := t.blk.rot
       let chosen := g.selected.rot
       r = { chosen with entries := r.entries, edits := r.edits, airings := r.airings } ∧
       r.airings.map (fun a => { a with shown := 0, credited := 0, credits := 0 }) =
         chosen.airings.map (fun a => { a with shown := 0, credited := 0, credits := 0 }) ∧
       (∀ e, (r.entry e).map (fun x => { x with meter := 0, onAir := 0 }) =
         (chosen.entry e).map fun x => { x with meter := 0, onAir := 0 }) ∧
       let eligible (e : Nat) : Prop := ∃ x, r.entry e = some x ∧ x.enabled = true ∧
         (r.slot x.image).isReady = true ∧
         (x.category = 0 ∨ ∀ a ∈ r.airings, ∀ y, r.entry a.entry = some y → y.category ≠ x.category)
       ∀ z ∈ t.blk.comp.zones, z.zone.kind = .placement →
         (∃ a ∈ r.airings, a.zone = z.zone.id) ∨
         ∀ k, r.group z.zone.source = some k → ∀ i, i < k.ids.length → ¬eligible (tget 0 k.ids i))

/-! ## Capture and replay -/

/-- A conforming frame on an input with a FILLING bay that it does not fill is numbered and written behind the bay's
frames: the input is CAPTURING, its next number is one higher, its silence timer restarts at 3L, and the frame is its
newest; the other bays stay. A frame that does not conform makes an input that is not OFF MISMATCH and leaves its numbers
and bays (R88, R89, R94). A frame that fills its bay makes it FILLED at the tail of the age list, its pending count and
the claims at that frame joining its kept count, and the next bay is chosen at once: the lowest EMPTY one, else the oldest
FILLED one with kept count 0. Where there is none the input is STARVED, with CAPTURE_STARVED at the next number if its
flag was clear; while it has no bay and none can be chosen, a frame is numbered and discarded; an input with no FILLING
bay that finds one writes the frame there (R95 to R98). At each frame written, every KEPT or HELD clip whose range holds
its number claims the bay, in its claim set and in the bay's pending count, and the live edge of an OPEN clip rises to it;
a discarded frame makes no claim; an OPEN clip closes at its last number; the clips are else as before (R108, R109). Other
inputs keep all but what time does to their silence timers. -/
def Obligations.FrameArrivalIsNumberedAndWritten : Prop :=
  ∀ (dt i : Nat) (f : CameraFrame) (s : State), s.part.tb.synthLocked = true →
    (s.blk.cap.input i).state ≠ .off →
    ∃ t, exec (.frameArrival dt i f) s = .next t ∧
      let x := s.blk.cap.input i
      let y := t.blk.cap.input i
      let conforming := f.width = 1920 ∧ f.height = 1080 ∧ f.progressive = true ∧
        f.rate = (match s.part.tb.rate with | .fps50 => .fps50 | .fps5994 => .fps5994 | .fps60 => .fps60)
      let timer := 3 * s.part.tb.rate.length
      let starvedNotice : Prop := x.starved = false → (∀ r, s.part.tb.syncTimer = some r → dt < r) →
        (∀ c z, s.blk.rep.clip c = some z → z.input = i → z.outPoint = none →
          min (z.inPoint + 599) 4294967295 ≠ x.next) →
        Memory.wf s.port.mem = true → 2 ≤ (s.port.area 8).first →
        ∃ n, s.port.noticeTaken t.port 6 i n ∧
          n = toWord (if x.filling = none then x.next else x.next + 1)
      let clips (bay : Option Nat) : Prop :=
        ∀ c, t.blk.rep.clip c = (s.blk.rep.clip c).map fun z => z.numbered i x.next bay
      (∀ j, j ≠ i → t.blk.cap.input j =
        { s.blk.cap.input j with state := (t.blk.cap.input j).state, silence := (t.blk.cap.input j).silence }) ∧
      (conforming → ∀ k, x.filling = some k → x.next < 4294967295 → clips (some k)) ∧
      (conforming → x.filling = none → x.bayChosen = none → x.next < 4294967295 → clips none) ∧
      (conforming → ∀ k, x.filling = none → x.bayChosen = some k → 2 ≤ x.baySize → x.next < 4294967295 →
        y = { x with state := .capturing, starved := false, next := x.next + 1, live := some f.picture
                     silence := some timer, ages := x.ages.erase k, bays := y.bays } ∧
        y.bay k = { state := .filling, first := x.next, pending := s.blk.claimsMade i x.next k, kept := 0
                    damaged := [], frames := [f.picture] } ∧
        (∀ j, j ≠ k → y.bay j = x.bay j) ∧ clips (some k)) ∧
      (conforming → ∀ k, x.filling = some k → (x.bay k).frames.length + 1 < x.baySize →
        x.next < 4294967295 →
        y.bay k = { x.bay k with pending := (x.bay k).pending + s.blk.claimsMade i x.next k
                                 damaged := (x.bay k).damaged.filter (· != (x.bay k).frames.length)
                                 frames := (x.bay k).frames ++ [f.picture] } ∧
        y.state = .capturing ∧ y.next = x.next + 1 ∧ y.live = some f.picture ∧
        y.silence = some timer ∧ y.baySize = x.baySize ∧ y.ages = x.ages ∧
        (y.bay k).frames = (x.bay k).frames ++ [f.picture] ∧ (y.bay k).first = (x.bay k).first ∧
        (y.bay k).state = .filling ∧ ∀ j, j ≠ k → y.bay j = x.bay j) ∧
      (conforming → ∀ k, x.filling = some k → (x.bay k).frames.length + 1 = x.baySize →
        x.next < 4294967295 →
        let full : Bay :=
          { state := .filled, first := (x.bay k).first, pending := 0
            kept := (x.bay k).kept + ((x.bay k).pending + s.blk.claimsMade i x.next k)
            damaged := (x.bay k).damaged.filter (· != (x.bay k).frames.length)
            frames := (x.bay k).frames ++ [f.picture] }
        let bay (j : Nat) : Bay := if j = k then full else x.bay j
        let chosen : Option Nat :=
          match (List.range x.bays.length).find? fun j => (bay j).state == .empty with
          | some j => some j
          | none => (x.ages ++ [k]).find? fun j => (bay j).kept == 0
        (∀ j, chosen = some j →
          y = { x with state := .capturing, next := x.next + 1, live := some f.picture
                       silence := some timer, ages := (x.ages ++ [k]).erase j, bays := y.bays } ∧
          y.bay j = { state := .filling, first := x.next + 1, pending := 0, kept := 0, damaged := []
                      frames := [] } ∧ ∀ n, n ≠ j → y.bay n = bay n) ∧
        (chosen = none →
          y = { x with state := .starved, starved := true, next := x.next + 1, live := some f.picture
                       silence := some timer, ages := x.ages ++ [k], bays := y.bays } ∧
          (∀ n, y.bay n = bay n) ∧ starvedNotice)) ∧
      (conforming → x.filling = none → x.next < 4294967295 →
        (∀ j, j < x.bays.length → (x.bay j).state ≠ .empty) → (∀ j ∈ x.ages, (x.bay j).kept ≠ 0) →
        y = { x with state := .starved, starved := true, next := x.next + 1, live := some f.picture
                     silence := some timer } ∧ starvedNotice) ∧
      (¬conforming → y.state = .mismatch ∧ y.next = x.next ∧ y.bays = x.bays ∧ y.ages = x.ages ∧
        y.silence = some timer ∧ t.blk.rep = s.blk.rep) ∧
      t.blk.rep.headA = s.blk.rep.headA ∧ t.blk.rep.headB = s.blk.rep.headB ∧
      t.part.sec = s.part.sec ∧ t.port.showTick = s.port.showTick ∧
      t.blk = { s.blk with port := t.port, cap := t.blk.cap, rep := t.blk.rep }

/-- A conforming arrival on a STARVED input that finds a bay to choose resumes capture: the bay is FILLING from this
frame's number on and holds it, the starvation flag is clear and the input is CAPTURING. Where the flag was set
CAPTURE_RESUMED gives the input and that number, and CLIP_CLOSED follows for each OPEN clip that closes at it (R95, R97,
R109). The KEPT and HELD clips whose range holds the number claim the bay, in its pending count, and live edges rise to it
(R108). The row is the conforming arrival that brings it about, log entry 14; the order of the two notices is log entry
25. -/
def Obligations.CaptureResumesInTheChosenBay : Prop :=
  ∀ (dt i k : Nat) (p : Picture) (s : State), s.part.tb.synthLocked = true →
    (s.blk.cap.input i).state = .starved → (s.blk.cap.input i).filling = none →
    (∀ r, (s.blk.cap.input i).silence = some r → dt < r) →
    (s.blk.cap.input i).chooseBay = some k → 2 ≤ (s.blk.cap.input i).baySize →
    (s.blk.cap.input i).next < 4294967295 →
    ∃ t, exec (.captureResume dt i p) s = .next t ∧
      let x := s.blk.cap.input i
      let y := t.blk.cap.input i
      y.state = .capturing ∧ y.starved = false ∧ y.next = x.next + 1 ∧ y.live = some p ∧
      (y.bay k).state = .filling ∧ (y.bay k).first = x.next ∧ (y.bay k).frames = [p] ∧
      y.ages = x.ages.erase k ∧ (∀ j, j ≠ k → y.bay j = x.bay j) ∧
      (y.bay k).pending = s.blk.claimsMade i x.next k ∧ (y.bay k).kept = 0 ∧
      (∀ c, t.blk.rep.clip c = (s.blk.rep.clip c).map fun z => z.numbered i x.next (some k)) ∧
      (s.port.laid → (∀ r, s.part.tb.syncTimer = some r → dt < r) →
        Port.through ((if x.starved then [noticed 7 i (toWord x.next)] else []) ++
          s.blk.clipsClosed i x.next) s.port t.port) ∧
      t.blk = { s.blk with port := t.port, cap := t.blk.cap, rep := t.blk.rep }

/-- The frame given number 4,294,967,295 exhausts an input's numbers: the input goes OFF with its numbers used up and
INPUT_ENDED, and the clips on it keep no bay, their claims emptied without releases since the ring is gone (R91, R92,
R114). An OPEN clip closes when its input numbers its last frame, number I + 599 or 4,294,967,295 if that comes first: its
out-point is that number, it has no live edge, and CLIP_CLOSED gives both (R109). The arrival's own CAPTURE_RESUMED or
CAPTURE_STARVED comes before them (R96, R97). The row is the conforming arrival that brings it about, log entry 14; the
order of the notices is log entry 25. That the frame with the last number is followed by no bay choice, so that no
CAPTURE_STARVED comes with it where it fills its bay, is the model's reading of R92, R95 and R96, log entry 24. -/
def Obligations.LastNumbersEndInputsAndClips : Prop :=
  (∀ (dt i : Nat) (p : Picture) (s : State), s.part.tb.synthLocked = true →
     (s.blk.cap.input i).state ≠ .off → (s.blk.cap.input i).next = 4294967295 →
     ∃ t, exec (.numbersExhausted dt i p) s = .next t ∧
       (t.blk.cap.input i).state = .off ∧ (t.blk.cap.input i).next = 4294967296 ∧
       (t.blk.cap.input i).bays = [] ∧
       (∀ c x, t.blk.rep.clip c = some x → x.input = i → x.claims = []) ∧
       (s.port.laid → (∀ r, s.part.tb.syncTimer = some r → dt < r) →
         Port.through (s.blk.bayNoticed i ++ s.blk.clipsClosed i 4294967295 ++ [noticed 8 i 4294967295])
           s.port t.port) ∧
       t.blk = { s.blk with port := t.port, cap := t.blk.cap, rep := t.blk.rep }) ∧
  (∀ (dt c : Nat) (p : Picture) (s : State) (x : Clip), s.part.tb.synthLocked = true →
     s.blk.rep.clip c = some x → x.outPoint = none → (s.blk.cap.input x.input).state ≠ .off →
     (s.blk.cap.input x.input).next = min (x.inPoint + 599) 4294967295 →
     ∃ t, exec (.openClipClose dt c p) s = .next t ∧
       (∃ y, t.blk.rep.clip c = some y ∧ y.outPoint = some (min (x.inPoint + 599) 4294967295) ∧
         y.edge = none ∧ y.inPoint = x.inPoint ∧ y.state = x.state ∧ y.keep = x.keep) ∧
       (let z := s.blk.cap.input x.input
        s.port.laid → (∀ r, s.part.tb.syncTimer = some r → dt < r) →
        (z.next < 4294967295 → 2 ≤ z.baySize ∧
          ∀ k, z.filling = some k → (z.bay k).frames.length + 1 < z.baySize) →
        Port.through (s.blk.bayNoticed x.input ++ s.blk.clipsClosed x.input z.next ++
          if z.next = 4294967295 then [noticed 8 x.input 4294967295] else []) s.port t.port) ∧
       t.blk.rep.headA = s.blk.rep.headA ∧ t.blk.rep.headB = s.blk.rep.headB ∧
       t.blk = { s.blk with port := t.port, cap := t.blk.cap, rep := t.blk.rep })

/-- Loss of signal, by the silence timer or by the receiver, makes an input that is not OFF SEEKING with its timer
stopped; its numbers, its bays and its newest frame stay (R88, R89). -/
def Obligations.LossOfSignalSeeks : Prop :=
  ∀ (i : Nat) (cause : SignalLoss) (s : State), s.part.tb.synthLocked = true →
    s.part.tb.reference = true → (s.blk.cap.input i).state ≠ .off →
    (cause = .timer → (s.blk.cap.input i).silence ≠ none) →
    ∃ t, exec (.lossOfSignal i cause) s = .next t ∧
      t.blk.cap.input i = { s.blk.cap.input i with state := .seeking, silence := none } ∧
      t.part.sec = s.part.sec ∧ t.blk = { s.blk with port := t.port, cap := t.blk.cap }

/-- SET_INPUT ON allocates an OFF input a ring of 64 EMPTY bays of B frames and makes it SEEKING, its timer at 3L, with
the free frame slots left as result. SET_INPUT OFF gives the ring back: the input keeps its next number, which is the result,
and nothing else, and the clips on it keep no bay; on an input already OFF nothing moves. Other inputs, other clips and the
heads stay. Where the numbers are exhausted the result of OFF is not stated: a free value, log entry 4. A card that fails
moves nothing but its slot: BAD_FIELD with result 0, 1 or 2 for the input, the action or B, and for ON of an OFF input with
result 3 where its numbers are exhausted, NO_ROOM with the free frame slots where they are too few. ON of an input that is not
OFF goes DONE OK with its state where B is its bay size, else it is refused IN_USE with that size (R90, R91, R114).
Which refusal a card takes that meets two, of the input, the action and B or of exhausted numbers and NO_ROOM, is the model's
choice, log entry 46. The first number of an EMPTY bay and the bay size, ring name and newest frame of an input turned OFF are
the model's choice, log entry 47. -/
def Obligations.SetInputAllocatesAndFrees : Prop :=
  (∀ (slot : Nat) (post : Word) (q : InputCue) (s : State), s.ready .replay → q.input ≤ 3 →
     s.blk.cap.inputs.length = 4 →
     (q.action = 1 → 4 ≤ q.bay → q.bay ≤ 40 → (s.blk.cap.input q.input).state = .off →
       (s.blk.cap.input q.input).next ≤ 4294967295 → 64 * q.bay ≤ s.blk.cap.freeSlots →
       ∃ t, exec (.setInput slot post q) s = .next t ∧
         (let y := t.blk.cap.input q.input
          y.state = .seeking ∧ y.baySize = q.bay ∧ y.bays = List.replicate 64 .empty ∧ y.ages = [] ∧
          y.next = (s.blk.cap.input q.input).next ∧ y.starved = false ∧
          y.silence = some (3 * s.part.tb.rate.length)) ∧
         (∀ j, j ≠ q.input → t.blk.cap.input j = s.blk.cap.input j) ∧
         s.port.slotMoved t.port .replay slot 4 0 (toWord (s.blk.cap.freeSlots - 64 * q.bay)) ∧
         t = s.onPart (·.onBlk fun b => { b with port := t.port, cap := t.blk.cap })) ∧
     (q.action = 0 →
       ∃ t, exec (.setInput slot post q) s = .next t ∧
         let x := s.blk.cap.input q.input
         (x.state = .off → t.blk.cap = s.blk.cap ∧ t.blk.rep = s.blk.rep) ∧
         (x.state ≠ .off →
           t.blk.cap.input q.input =
             { state := .off, baySize := 0, bays := [], ages := [], next := x.next, starved := false
               silence := none, live := none, ring := 0 } ∧
           (∀ j, j ≠ q.input → t.blk.cap.input j = s.blk.cap.input j) ∧
           (∀ c, t.blk.rep.clip c = (s.blk.rep.clip c).map fun y =>
             if y.input = q.input then { y with claims := [] } else y) ∧
           t.blk.rep.headA = s.blk.rep.headA ∧ t.blk.rep.headB = s.blk.rep.headB) ∧
         (x.next ≤ 4294967295 → s.port.slotMoved t.port .replay slot 4 0 (toWord x.next)) ∧
         (4294967295 < x.next → ∃ r, ({ s.port with unstated := t.port.unstated } : Port).slotMoved t.port
           .replay slot 4 0 r) ∧
         t = s.onPart (·.onBlk fun b => { b with port := t.port, cap := t.blk.cap, rep := t.blk.rep }))) ∧
  ∀ (slot : Nat) (post : Word) (q : InputCue) (s : State), s.ready .replay →
    let x := s.blk.cap.input q.input
    let moved (state outcome result : Word) : Prop :=
      ∃ t, exec (.setInput slot post q) s = .next t ∧ s.onlyMoved t .replay slot state outcome result
    (3 < q.input → moved 5 19 0) ∧ (q.input ≤ 3 → 1 < q.action → moved 5 19 1) ∧
    (q.input ≤ 3 → q.action = 1 → q.bay < 4 ∨ 40 < q.bay → moved 5 19 2) ∧
    (q.input ≤ 3 → q.action = 1 → 4 ≤ q.bay → q.bay ≤ 40 →
      (x.state = .off → 4294967295 < x.next → moved 5 19 3) ∧
      (x.state = .off → x.next ≤ 4294967295 → s.blk.cap.freeSlots < 64 * q.bay →
        moved 5 20 (toWord s.blk.cap.freeSlots)) ∧
      (x.state ≠ .off → q.bay = x.baySize → moved 4 0 (match x.state with
        | .off => 0 | .seeking => 1 | .mismatch => 2 | .capturing => 3 | .starved => 4)) ∧
      (x.state ≠ .off → q.bay ≠ x.baySize → moved 5 21 (toWord x.baySize)))

/-- A MARK_CLIP card that passes its checks makes the lowest FREE clip KEPT, from the larger of its in-point and the
earliest number the input can still supply to its out-point, or OPEN; a keep of 0 is 36,000 frames. The clip numbers the
card's slot, which goes ACTIVE with outcome CLAMPED where the in-point was raised; the other clips and the heads stay. It
claims each FILLING or FILLED bay of its input that holds a number of its range, whose pending or kept count is one
higher; every other bay and input stays. An OPEN clip has as its live edge the newest present frame, where that is at or
above its in-point, and else none (R107, R108). An OPEN mark is taken here where its input has not yet numbered its last
frame. A card that fails is refused by its first failing check and moves nothing but its slot: BAD_FIELD with result 0 for
a code or the keep, 1 for an in-point above the out-point, 2 for a range below X or an input with its numbers exhausted
and no frame present, NO_ROOM with no clip FREE (R105, R106). -/
def Obligations.MarkClipKeepsAClip : Prop :=
  (∀ (slot : Nat) (post : Word) (q : MarkCue) (s : State) (c : Nat), s.ready .replay →
     q.input ≤ 3 → q.range ≤ 1 → q.keep ≤ 2160000 →
     (q.range = 0 → q.inPoint ≤ q.outPoint ∧ (s.blk.cap.input q.input).earliest ≤ q.outPoint) →
     (s.blk.cap.input q.input).next ≤ 4294967295 →
     c < s.blk.rep.clips.length → s.blk.rep.clip c = none →
     (∀ d, d < c → s.blk.rep.clip d ≠ none) →
     (q.range = 1 → (s.blk.cap.input q.input).next ≤
       max q.inPoint (s.blk.cap.input q.input).earliest + 599) →
     ∃ t, exec (.markClip slot post q) s = .next t ∧
       let y := s.blk.cap.input q.input
       let z := t.blk.cap.input q.input
       let lowest := y.earliest
       let claimed (k : Nat) : Prop := (y.bay k).state ≠ .empty ∧
         ∃ n, (y.bay k).first ≤ n ∧ n < (y.bay k).first + (y.bay k).frames.length ∧
           max q.inPoint lowest ≤ n ∧ (q.range = 0 → n ≤ q.outPoint)
       (∃ x, t.blk.rep.clip c = some x ∧ x.state = .kept ∧ x.input = q.input ∧
         x.inPoint = max q.inPoint lowest ∧
         x.outPoint = (if q.range = 0 then some q.outPoint else none) ∧
         x.keep = (if q.keep = 0 then 36000 else q.keep) ∧ x.slot = slot ∧ x.post = post ∧
         x.clamped = decide (q.inPoint < lowest) ∧
         (q.range = 0 → x.edge = none) ∧
         (q.range = 1 → ∀ n, x.edge = some n ↔ max q.inPoint lowest ≤ n ∧ y.present n = true ∧
           ∀ m, y.present m = true → m ≤ n) ∧
         x.claims.Nodup ∧ ∀ k, k ∈ x.claims ↔ claimed k) ∧
       (∀ k, claimed k → z.bay k = match (y.bay k).state with
         | .filled => { y.bay k with kept := (y.bay k).kept + 1 }
         | _ => { y.bay k with pending := (y.bay k).pending + 1 }) ∧
       (∀ k, ¬claimed k → z.bay k = y.bay k) ∧ z = { y with bays := z.bays } ∧
       (∀ i, i ≠ q.input → t.blk.cap.input i = s.blk.cap.input i) ∧ t.blk.cap.rings = s.blk.cap.rings ∧
       (∀ d, d ≠ c → t.blk.rep.clip d = s.blk.rep.clip d) ∧
       t.blk.rep.headA = s.blk.rep.headA ∧ t.blk.rep.headB = s.blk.rep.headB ∧
       memWord t.port.mem (s.port.slotAddr .replay slot) = 3 ∧
       memWord t.port.mem (s.port.slotAddr .replay slot + 12) =
         (if q.inPoint < lowest then 1 else 0) ∧
       memWord t.port.mem (s.port.slotAddr .replay slot + 24) = toWord c ∧
       bytesKept s.port.mem t.port.mem [s.port.slotAddr .replay slot,
         s.port.slotAddr .replay slot + 12, s.port.slotAddr .replay slot + 24] ∧
       t.port = { s.port with mem := t.port.mem } ∧
       t = s.onPart (·.onBlk fun b =>
         { b with port := t.port, cap := t.blk.cap, rep := t.blk.rep })) ∧
  ∀ (slot : Nat) (post : Word) (q : MarkCue) (s : State), s.ready .replay →
    let x := s.blk.cap.input q.input
    let coded : Prop := q.input ≤ 3 ∧ q.range ≤ 1 ∧ q.keep ≤ 2160000
    let ordered : Prop := q.range = 0 → q.inPoint ≤ q.outPoint
    let supplied : Prop := (q.range = 0 → x.earliest ≤ q.outPoint) ∧
      (4294967295 < x.next → x.oldestPresent ≠ none)
    let refused (outcome result : Word) : Prop :=
      ∃ t, exec (.markClip slot post q) s = .next t ∧ s.onlyMoved t .replay slot 5 outcome result
    (¬coded → refused 19 0) ∧ (coded → ¬ordered → refused 19 1) ∧
    (coded → ordered → ¬supplied → refused 19 2) ∧
    (coded → ordered → supplied → (∀ c, c < s.blk.rep.clips.length → s.blk.rep.clip c ≠ none) →
      refused 20 0)

/-- A KEPT clip whose keep runs out is freed, its MARK_CLIP card DONE with the outcome and clip number of its take, or is
LAPSING with cause 0 while a head uses it; other clips and the heads stay. Freed, it releases its claims on the bays and
gives CLIP_LAPSED with cause 0 (R98, R110, R113). That the keep of a LAPSING clip stays as it stood is the model's choice,
log entry 47. The row taken by itself is that step of the mark, log entry 13. -/
def Obligations.ClipExpiryFreesOrLapses : Prop :=
  ∀ (c : Nat) (s : State) (x : Clip), s.ready .replay → s.blk.rep.clip c = some x →
    x.state = .kept → x.keep ≤ 1 →
    ∃ t, exec (.clipExpiry c) s = .next t ∧
      (s.blk.rep.userHeads c = 0 → t.blk.rep.clip c = none ∧
        s.port.slotReads t.port .replay x.slot 4 (if x.clamped then 1 else 0) s.port.showTick
          (toWord c) ∧ s.blk.clipFreed t.blk c 0 x) ∧
      (s.blk.rep.userHeads c ≠ 0 →
        t.blk.rep.clip c = some { x with state := .lapsing, cause := 0 } ∧ t.port = s.port) ∧
      (∀ d, d ≠ c → t.blk.rep.clip d = s.blk.rep.clip d) ∧
      t.blk.rep.headA = s.blk.rep.headA ∧ t.blk.rep.headB = s.blk.rep.headB ∧
      bytesKept s.port.mem t.port.mem
        (s.port.slotWords .replay x.slot ++ s.port.noticeWords) ∧
      t = s.onPart (·.onBlk fun b =>
        { b with port := t.port, cap := t.blk.cap, rep := t.blk.rep })

/-- KEEP_CLIP on the clip its card names by number and mark post number: HOLD makes it HELD with no keep; EXTEND adds to
the keep of a KEPT clip, lowered to 2,160,000, and makes a HELD clip KEPT with the card's frames (R111). DROP_CLIP on such
a clip frees it, its claims released, CLIP_LAPSED with cause 1 given and its MARK_CLIP card DONE before the card's own
slot, or makes it LAPSING with cause 1 while heads use it, with the number of heads that use it as result (R98, R112,
R113). A clip number above 31, an action code or frames outside their encoding are refused BAD_FIELD with result 0. On a
clip that is FREE or of another post number KEEP_CLIP is refused BAD_FIELD with result 3 and DROP_CLIP goes DONE OK with
result 3; on a LAPSING one KEEP_CLIP is refused BAD_FIELD with result 4 and DROP_CLIP goes DONE OK with its user heads.
None of these moves more than the card's slot; that 0 comes before 3, and 3 before 4, is log entry 46. The keep of 0 of a
HELD clip and the keep left in a LAPSING one are the model's choice, log entry 47. -/
def Obligations.KeepAndDropClip : Prop :=
  (∀ (slot : Nat) (post : Word) (s : State) (c : Nat) (x : Clip), s.ready .replay → c ≤ 31 →
    s.blk.rep.clip c = some x → x.state ≠ .lapsing →
    (∀ q : KeepCue, q.clip = c → q.post = x.post → q.action ≤ 1 →
      (q.action = 0 → 1 ≤ q.frames ∧ q.frames ≤ 2160000) →
      let sum := x.keep + q.frames
      let after : ClipState × Nat × Nat × Nat :=
        if q.action = 1 then (.held, 0, 0, 0)
        else if x.state = .kept then
          (.kept, min sum 2160000, (if sum ≤ 2160000 then 0 else 1), min sum 2160000)
        else (.kept, q.frames, 0, q.frames)
      ∃ t, exec (.keepClip slot post q) s = .next t ∧
        t.blk.rep.clip c = some { x with state := after.1, keep := after.2.1 } ∧
        (∀ d, d ≠ c → t.blk.rep.clip d = s.blk.rep.clip d) ∧
        s.port.slotMoved t.port .replay slot 4 (toWord after.2.2.1) (toWord after.2.2.2) ∧
        t = s.onPart (·.onBlk fun b =>
          { b with port := t.port, rep := { b.rep with clips := t.blk.rep.clips } })) ∧
    ∃ t, exec (.dropClip slot post ⟨c, x.post⟩) s = .next t ∧
      (s.blk.rep.userHeads c = 0 → t.blk.rep.clip c = none) ∧
      (s.blk.rep.userHeads c ≠ 0 →
        t.blk.rep.clip c = some { x with state := .lapsing, cause := 1 }) ∧
      (∀ d, d ≠ c → t.blk.rep.clip d = s.blk.rep.clip d) ∧
      s.port.slotReads t.port .replay slot 4 0 s.port.showTick (toWord (s.blk.rep.userHeads c)) ∧
      (s.blk.rep.userHeads c = 0 → ∃ m, s.blk.clipFreed m c 1 x ∧
        (s.port.laid → m.port.slotMoved t.port .replay slot 4 0 0) ∧ t.blk = { m with port := t.port }) ∧
      (s.blk.rep.userHeads c ≠ 0 → t.blk.cap = s.blk.cap ∧
        s.port.slotMoved t.port .replay slot 4 0 (toWord (s.blk.rep.userHeads c))) ∧
      t = s.onPart (·.onBlk fun b =>
        { b with port := t.port, cap := t.blk.cap,
                 rep := { b.rep with clips := t.blk.rep.clips } })) ∧
  ∀ (slot : Nat) (post : Word) (q : KeepCue) (s : State), s.ready .replay →
    let coded : Prop := q.clip ≤ 31 ∧ q.action ≤ 1 ∧ (q.action = 0 → 1 ≤ q.frames ∧ q.frames ≤ 2160000)
    let answers (i : Instr) (state outcome result : Word) : Prop :=
      ∃ t, exec i s = .next t ∧ s.onlyMoved t .replay slot state outcome result
    let keep := Instr.keepClip slot post q
    let drop := Instr.dropClip slot post ⟨q.clip, q.post⟩
    (¬coded → answers keep 5 19 0) ∧ (31 < q.clip → answers drop 5 19 0) ∧
    ((∀ x, s.blk.rep.clip q.clip = some x → x.post ≠ q.post) →
      (coded → answers keep 5 19 3) ∧ (q.clip ≤ 31 → answers drop 4 0 3)) ∧
    ∀ x, s.blk.rep.clip q.clip = some x → x.post = q.post → x.state = .lapsing →
      (coded → answers keep 5 19 4) ∧ (q.clip ≤ 31 → answers drop 4 0 (toWord (s.blk.rep.userHeads q.clip)))

/-- CUE_HEAD on a clip named by number and mark post number that is not LAPSING makes the head CUED at the start frame, or
at the clip's in-point, with the card's blend; rate and loop stay, the other head stays, and the slot goes DONE OK with
the frame as result. A start frame is taken from the in-point to the out-point, or to the live edge. A LAPSING clip whose
last user head so leaves it is freed with its lapse cause; in every other case no clip, claim or bay moves and the Port
moves the card's slot alone (R113). A card that fails is refused BAD_FIELD and moves nothing but its slot: with result 0
for a code, 3 for a clip that is FREE or of another post number, 4 for a LAPSING clip, 2 for a start frame outside the
clip (R117). Which of these a card takes that meets two is the model's choice of that order, log entry 46. -/
def Obligations.CueHeadCuesTheClip : Prop :=
  (∀ (slot : Nat) (post : Word) (q : CueHeadCue) (s : State) (x : Clip), s.ready .replay →
     q.head ≤ 1 → q.clip ≤ 31 → q.blend ≤ 1 → q.start ≤ 1 → s.blk.rep.clip q.clip = some x →
     q.post = x.post → x.state ≠ .lapsing →
     (q.start = 1 → x.inPoint ≤ q.frame ∧
       q.frame ≤ (match x.outPoint with | some o => o | none => x.edge.getD x.inPoint)) →
     let h := s.blk.rep.head q.head
     let f := if q.start = 1 then q.frame else x.inPoint
     ∃ t, exec (.cueHead slot post q) s = .next t ∧
       t.blk.rep.head q.head = { h with state := .cued, clip := some q.clip, position := f * 256
                                        blend := decide (q.blend = 1) } ∧
       t.blk.rep.head (1 - q.head) = s.blk.rep.head (1 - q.head) ∧
       s.port.slotReads t.port .replay slot 4 0 s.port.showTick (toWord f) ∧
       ((∀ d z, h.clip = some d → s.blk.rep.clip d = some z → z.state = .lapsing →
           (s.blk.rep.head (1 - q.head)).uses d = true) →
         s.port.slotMoved t.port .replay slot 4 0 (toWord f) ∧
         t.blk.rep.clips = s.blk.rep.clips ∧ t.blk.cap = s.blk.cap) ∧
       (∀ d z, h.clip = some d → s.blk.rep.clip d = some z → z.state = .lapsing →
         (s.blk.rep.head (1 - q.head)).uses d = false →
         ∃ m, (s.blk.onRep (·.setHead q.head (t.blk.rep.head q.head))).clipFreed m d z.cause z ∧
           (s.port.laid → m.port.slotMoved t.port .replay slot 4 0 (toWord f)) ∧
           t.blk = { m with port := t.port }) ∧
       t = s.onPart (·.onBlk fun b =>
         { b with port := t.port, cap := t.blk.cap, rep := t.blk.rep })) ∧
  ∀ (slot : Nat) (post : Word) (q : CueHeadCue) (s : State), s.ready .replay →
    let coded : Prop := q.head ≤ 1 ∧ q.clip ≤ 31 ∧ q.blend ≤ 1 ∧ q.start ≤ 1
    let refused (result : Word) : Prop :=
      ∃ t, exec (.cueHead slot post q) s = .next t ∧ s.onlyMoved t .replay slot 5 19 result
    (¬coded → refused 0) ∧
    (coded → (∀ x, s.blk.rep.clip q.clip = some x → x.post ≠ q.post) → refused 3) ∧
    (∀ x, coded → s.blk.rep.clip q.clip = some x → x.post = q.post → x.state = .lapsing → refused 4) ∧
    ∀ x, coded → s.blk.rep.clip q.clip = some x → x.post = q.post → x.state ≠ .lapsing → q.start = 1 →
      (q.frame < x.inPoint ∨ (match x.outPoint with | some o => o | none => x.edge.getD x.inPoint) < q.frame) →
      refused 2

/-- PLAY and SET_RATE on a head that is not IDLE take the rate, raised to −512 or lowered to +512, with outcome CLAMPED
where it was changed and the rate taken as result; PLAY also makes the head PLAYING and sets its loop flag. PAUSE makes a
PLAYING or AT_LIVE head PAUSED at its position and leaves a CUED, PAUSED or ENDED head, with the frame of the position as
result. STOP_HEAD makes a head IDLE with result 0; a LAPSING clip whose last user head it was is freed with its lapse
cause, and in every other case no clip, claim or bay moves and the Port moves the card's slot alone (R113, R118, R119). An
IDLE head's position is the model's choice of 0, log entry 6. At a mark a PLAYING or AT_LIVE head advances by its rate:
past an end of a fixed clip it wraps where it loops and is ENDED at that end with HEAD_ENDED where it does not; on an OPEN
clip it is ENDED at the in-point, AT_LIVE at the live edge with HEAD_AT_LIVE, or held there while its rate keeps it there
(R120 to R122). Its output is its frame where present, blended with the next where the blend applies, else the held
picture: with FRAME_MISSING once for each absent frame. An uncorrectable read of the frame gives the held picture, and of
the next frame the frame unblended; either is reported by FRAME_DAMAGED, the damage mark, and the error location where its
slot word is 0 (R101, R102, R123 to R125). A RUNNING frame mark advances both heads before its REPLAY cards act and makes
their output behind all its other work; where it takes no REPLAY card it moves a head by that advance alone (R116). A code
of head or loop outside its encoding is refused BAD_FIELD with result 0, and PLAY, SET_RATE and PAUSE on an IDLE head with
result 1, and the card moves nothing but its slot; that 0 comes before 1 is log entry 46. That the mark names the frames
whose reads fail, and not the reads, is the model's choice, log entry 44. -/
def Obligations.HeadCardsPlayPauseAndStop : Prop :=
  (∀ (slot : Nat) (post : Word) (head : Nat) (rate : Int) (s : State), s.ready .replay → head ≤ 1 →
     (s.blk.rep.head head).state ≠ .idle →
     let h := s.blk.rep.head head
     let taken := max (-512) (min 512 rate)
     let outcome : Word := if taken = rate then 0 else 1
     (∀ loop, loop ≤ 1 → ∃ t, exec (.play slot post ⟨head, loop, rate⟩) s = .next t ∧
       t.blk.rep.head head = { h with state := .playing, rate := taken, loop := decide (loop = 1) } ∧
       t.blk.rep.head (1 - head) = s.blk.rep.head (1 - head) ∧
       t.blk.rep.clips = s.blk.rep.clips ∧
       s.port.slotMoved t.port .replay slot 4 outcome (BitVec.ofInt 32 taken) ∧
       t = s.onPart (·.onBlk fun b => { b with port := t.port, rep := t.blk.rep })) ∧
     ∃ t, exec (.setRate slot post ⟨head, rate⟩) s = .next t ∧
       t.blk.rep.head head = { h with rate := taken } ∧
       t.blk.rep.head (1 - head) = s.blk.rep.head (1 - head) ∧
       t.blk.rep.clips = s.blk.rep.clips ∧
       s.port.slotMoved t.port .replay slot 4 outcome (BitVec.ofInt 32 taken) ∧
       t = s.onPart (·.onBlk fun b => { b with port := t.port, rep := t.blk.rep })) ∧
  (∀ (slot : Nat) (post : Word) (head : Nat) (s : State), s.ready .replay → head ≤ 1 →
     let h := s.blk.rep.head head
     (h.state ≠ .idle → ∃ t, exec (.pause slot post head) s = .next t ∧
       t.blk.rep.head head =
         { h with state := if h.state = .playing ∨ h.state = .atLive then .paused else h.state } ∧
       t.blk.rep.head (1 - head) = s.blk.rep.head (1 - head) ∧
       t.blk.rep.clips = s.blk.rep.clips ∧
       s.port.slotMoved t.port .replay slot 4 0 (toWord (h.position / 256)) ∧
       t = s.onPart (·.onBlk fun b => { b with port := t.port, rep := t.blk.rep })) ∧
     ∃ t, exec (.stopHead slot post head) s = .next t ∧
       t.blk.rep.head head = .idle ∧
       t.blk.rep.head (1 - head) = s.blk.rep.head (1 - head) ∧
       s.port.slotReads t.port .replay slot 4 0 s.port.showTick 0 ∧
       ((∀ d z, h.clip = some d → s.blk.rep.clip d = some z → z.state = .lapsing →
           (s.blk.rep.head (1 - head)).uses d = true) →
         s.port.slotMoved t.port .replay slot 4 0 0 ∧
         t.blk.rep.clips = s.blk.rep.clips ∧ t.blk.cap = s.blk.cap) ∧
       (∀ d z, h.clip = some d → s.blk.rep.clip d = some z → z.state = .lapsing →
         (s.blk.rep.head (1 - head)).uses d = false →
         ∃ m, (s.blk.onRep (·.setHead head .idle)).clipFreed m d z.cause z ∧
           (s.port.laid → m.port.slotMoved t.port .replay slot 4 0 0) ∧ t.blk = { m with port := t.port }) ∧
       t = s.onPart (·.onBlk fun b =>
         { b with port := t.port, cap := t.blk.cap, rep := t.blk.rep })) ∧
  (∀ (slot : Nat) (post : Word) (q : PlayCue) (s : State), s.ready .replay →
     let h := s.blk.rep.head q.head
     let refused (i : Instr) (result : Word) : Prop :=
       ∃ t, exec i s = .next t ∧ s.onlyMoved t .replay slot 5 19 result
     (1 < q.head ∨ 1 < q.loop → refused (.play slot post q) 0) ∧
     (1 < q.head → refused (.setRate slot post ⟨q.head, q.rate⟩) 0 ∧ refused (.pause slot post q.head) 0 ∧
       refused (.stopHead slot post q.head) 0) ∧
     (q.head ≤ 1 → h.state = .idle → (q.loop ≤ 1 → refused (.play slot post q) 1) ∧
       refused (.setRate slot post ⟨q.head, q.rate⟩) 1 ∧ refused (.pause slot post q.head) 1)) ∧
  (∀ (m : MarkInput) (s : State), s.part.tb.synthLocked = true → s.port.runState = .running →
     s.port.runRequest = true →
     ∃ t g, exec (.frameMark m) s = .next t ∧ MarkStages.link g false s.toMark m s t ∧ t.blk.rep = g.output.rep ∧
       (g.cards.replay = [] → ∀ i, i ≤ 1 → t.blk.rep.head i =
         { (s.blk.advanceHead i).rep.head i with output := (t.blk.rep.head i).output
                                                 heldPicture := (t.blk.rep.head i).heldPicture
                                                 reported := (t.blk.rep.head i).reported })) ∧
  (∀ (b : Blocks) (i c : Nat) (x : Clip), i ≤ 1 → (b.rep.head i).clip = some c → b.rep.clip c = some x →
     let h := b.rep.head i
     let t := b.advanceHead i
     let p : Int := h.position + h.rate
     let lo := x.inPoint
     let goes (k : Head) : Prop := t = b.onRep (·.setHead i k)
     let noting (k : Head) (kind frame : Nat) : Prop :=
       t = { b with port := t.port, rep := b.rep.setHead i k } ∧
       (Memory.wf b.port.mem = true → 2 ≤ (b.port.area 8).first →
         b.port.noticeTaken t.port kind i (toWord frame))
     let ended (frame : Nat) : Prop := noting { h with state := .ended, position := frame * 256 } 11 frame
     (h.state ≠ .playing → h.state ≠ .atLive → t = b) ∧
     (h.state = .playing ∨ h.state = .atLive → ∀ o, x.outPoint = some o →
       let wrapped : Nat := lo * 256 + ((p - lo * 256) % ((o + 1 - lo) * 256 : Nat)).toNat
       if (((o + 1) * 256 : Nat) : Int) ≤ p then
         if h.loop then goes { h with state := .playing, position := wrapped } else ended o
       else if p < ((lo * 256 : Nat) : Int) then
         if h.loop then goes { h with state := .playing, position := wrapped } else ended lo
       else goes { h with state := .playing, position := p.toNat }) ∧
     (x.outPoint = none →
       let edge := x.edge.getD lo
       (h.state = .playing →
         if p < ((lo * 256 : Nat) : Int) then ended lo
         else if ((edge * 256 : Nat) : Int) < p then
           noting { h with state := .atLive, position := edge * 256 } 12 edge
         else goes { h with position := p.toNat }) ∧
       (h.state = .atLive →
         if 256 ≤ h.rate ∨ ((edge * 256 : Nat) : Int) ≤ p then goes { h with position := edge * 256 }
         else if p < ((lo * 256 : Nat) : Int) then ended lo
         else goes { h with state := .playing, position := p.toNat }))) ∧
  ∀ (bad : List (Nat × Nat)) (b : Blocks) (i : Nat), i ≤ 1 →
    let h := b.rep.head i
    let t := b.outputHead bad i
    let f := h.position / 256
    let phi := h.position % 256
    let goes (k : Head) : Prop := t = b.onRep (·.setHead i k)
    let noting (kind : Nat) : Prop := Memory.wf b.port.mem = true → 2 ≤ (b.port.area 8).first →
      b.port.noticeTaken t.port kind i (toWord f)
    let damaging (input n : Nat) : Prop :=
      (t.cap.input input).damagedFrame n = true ∧ t = { b with port := t.port, cap := t.cap, rep := t.rep } ∧
      (Memory.wf b.port.mem = true → 2 ≤ (b.port.area 8).first →
        (memWord b.port.mem 4176 = 0 → memWord t.port.mem 4176 ≠ 0 ∧
          memWord t.port.mem 4180 = toWord input ∧ memWord t.port.mem 4184 = toWord n) ∧
        ∃ m, (memWord b.port.mem 4176 ≠ 0 → m = b.port.mem) ∧
          bytesKept b.port.mem m [4176, 4180, 4184] ∧
          ({ b.port with mem := m } : Port).noticeTaken t.port 14 i (toWord n))
    (h.state = .idle → goes { h with output := none }) ∧
    ∀ c x, h.state ≠ .idle → h.clip = some c → b.rep.clip c = some x →
      let y := b.cap.input x.input
      let top := match x.outPoint with | some o => o | none => x.edge.getD 0
      (∀ pic, y.present f = true → (x.input, f) ∉ bad → y.picture f = some pic →
        (h.blend = false ∨ phi = 0 ∨ top ≤ f ∨ y.present (f + 1) = false →
          goes { h with output := some pic, heldPicture := some pic }) ∧
        ∀ next, h.blend = true → phi ≠ 0 → f < top → y.present (f + 1) = true → (x.input, f + 1) ∉ bad →
          y.picture (f + 1) = some next →
          goes { h with output := some (.blend pic next phi), heldPicture := some (.blend pic next phi) }) ∧
      (y.present f = false →
        t.rep = b.rep.setHead i { h with output := h.heldPicture
                                         reported := if y.damagedFrame f then h.reported else some f } ∧
        t.cap = b.cap ∧
        (y.damagedFrame f = true ∨ h.reported = some f → t.port = b.port) ∧
        (y.damagedFrame f = false → h.reported ≠ some f → noting 13)) ∧
      (y.present f = true → (x.input, f) ∈ bad →
        t.rep = b.rep.setHead i { h with output := h.heldPicture } ∧ damaging x.input f) ∧
      ∀ pic, y.present f = true → (x.input, f) ∉ bad → y.picture f = some pic → h.blend = true → phi ≠ 0 →
        f < top → y.present (f + 1) = true → (x.input, f + 1) ∈ bad →
        t.rep = b.rep.setHead i { h with output := some pic, heldPicture := some pic } ∧
        damaging x.input (f + 1)

/-! ## Clocks, horn, score and the console line -/

/-- A valid CLOCK word is adopted by a CONSOLE clock by the table of R132, with the latency compensation and the top of
the range, and not by a LOCAL clock, whose state and value are unchanged. Either way it sets the silence count to 0, makes
the line HEARD and clears the discard count; the other clock and the score stay (R130 to R133). While RUNNING, behind the
notice of a sync loss in the time dt, CONSOLE_BACK comes first where the line was LOST, with the silence; then CLOCK_LIMIT,
CLOCK_REVIVED or CLOCK_EXPIRED as the table has them, of value 1, v' and 1; and, in CONFIG too, an expiry whose horn finds the
line released latches HORN (R9, R144, R148, R191). That the row stands for the arrival of a whole valid word is the model's
reading, log entry 14; the order of notices and latch is log entry 25. -/
def Obligations.ClockWordIsAdoptedByAConsoleClock : Prop :=
  ∀ (dt : Nat) (i : ClockId) (run : Bool) (v : BitVec 24) (s : State), s.part.tb.synthLocked = true →
    ∃ t, exec (.clockWord dt i run v) s = .next t ∧
      let c := s.part.clk.clock i
      let d := t.part.clk.clock i
      let top := if c.up then 11999999 else 5999999
      let raw := if run then (if c.up then v.toNat + c.comp else v.toNat - c.comp) else v.toNat
      let v' := min raw top
      let expires := c.localSource = false ∧ c.up = false ∧ run = true ∧ v' = 0 ∧ c.state ≠ .expired
      (c.localSource = true → d = c) ∧
      (c.localSource = false → c.up = true →
        d = { c with state := if run = true ∧ v' < 11999999 then .running else .stopped
                     value := v' }) ∧
      (c.localSource = false → c.up = false → c.state = .expired → run = true → v' = 0 → d = c) ∧
      (c.localSource = false → c.up = false → ¬(c.state = .expired ∧ run = true ∧ v' = 0) →
        d = { c with state := if run = false then .stopped
                       else if v' = 0 then .expired else .running
                     value := v' }) ∧
      (expires → c.hornOn = true → t.part.clk.horn = max s.part.clk.horn c.hornLength) ∧
      (¬(expires ∧ c.hornOn = true) → t.part.clk.horn = s.part.clk.horn) ∧
      t.part.clk.heard = true ∧ t.part.clk.silence = 0 ∧ t.part.clk.discards = 0 ∧
      t.part.clk.word = none ∧ (∀ j, j ≠ i → t.part.clk.clock j = s.part.clk.clock j) ∧
      t.part.clk.score = s.part.clk.score ∧ t.part.sec = s.part.sec ∧
      (s.port.laidWhenRunning →
        let id := match i with | .game => 0 | .aux => 1
        Port.through
          (s.part.tb.syncLost dt ++ (if s.part.clk.heard then [] else [noticed 19 1 (toWord s.part.clk.silence)]) ++
            if c.localSource then []
            else if c.up then (if run = true ∧ v' = 11999999 then [noticed 17 id 1] else [])
            else if c.state = .expired then (if v' = 0 then [] else [noticed 16 id (toWord v')])
            else if run = true ∧ v' = 0 then
              noticed 15 id 1 ::
                if c.hornOn = true ∧ s.part.clk.horn = 0 ∧ 0 < c.hornLength then [hornLatched] else []
            else []) s.port t.port) ∧
      t.blk = { s.blk with port := t.port, cap := t.blk.cap } ∧ t.port.showTick = s.port.showTick

/-- A valid HORN word requests the horn for the length it gives, whatever the settings of the clocks: the count becomes
the larger, and a request of length above 0 that finds the line released latches HORN; a length of 0 requests nothing. A
valid PERIOD word sets the period of the score record and does not flash the score (R134, R144, R191). Each acts as a
valid word: the line is HEARD, its silence and discards 0, with CONSOLE_BACK first where it was LOST, behind the notice of a
sync loss in the time dt (R9, R129 to R131, R148).
That the row is the arrival of a whole valid word, after which the receiver is HUNTING, is the model's reading, log entry
14. -/
def Obligations.HornAndPeriodWordsAct : Prop :=
  ∀ (dt : Nat) (s : State), s.part.tb.synthLocked = true →
    let heard (t : State) : Prop := t.part.clk.heard = true ∧ t.part.clk.silence = 0 ∧
      t.part.clk.discards = 0 ∧ t.part.clk.word = none ∧ t.part.clk.game = s.part.clk.game ∧
      t.part.clk.aux = s.part.clk.aux ∧ t.part.sec = s.part.sec ∧
      t.blk = { s.blk with port := t.port, cap := t.blk.cap } ∧ t.port.showTick = s.port.showTick
    let back (kind : Nat) : List PortChange :=
      if s.part.clk.heard then [] else [noticed 19 kind (toWord s.part.clk.silence)]
    (∀ n : BitVec 16, ∃ t, exec (.hornWord dt n) s = .next t ∧ heard t ∧
      t.part.clk.horn = max s.part.clk.horn n.toNat ∧ t.part.clk.score = s.part.clk.score ∧
      t.port.latches = (if s.part.clk.horn = 0 ∧ 0 < n.toNat then { s.port.latches with horn := true }
        else s.port.latches) ∧
      (s.port.laidWhenRunning →
        Port.through (s.part.tb.syncLost dt ++ back 2 ++ if s.part.clk.horn = 0 ∧ 0 < n.toNat then [hornLatched] else [])
          s.port t.port)) ∧
    ∀ n : Fin 9, ∃ t, exec (.periodWord dt n) s = .next t ∧ heard t ∧
      t.part.clk.score = { s.part.clk.score with period := n.val + 1 } ∧
      t.part.clk.horn = s.part.clk.horn ∧ t.port.latches = s.port.latches ∧
      (s.port.laidWhenRunning → Port.through (s.part.tb.syncLost dt ++ back 3) s.port t.port)

/-- The console receiver: while HUNTING a byte of 126 begins a word and any other is dropped, not counted; while IN_WORD a
byte that neither discards nor completes the word is appended; a framing error or a length above 8 discards the word, and
so does a gap of more than 4 ms, whose ending byte is examined as in HUNTING. Every discard raises the discard count by 1,
saturating at its top, and the clocks, the horn, the score and the line state stay (R129). That WORD_DISCARD is the very
byte at whose reception the word is discarded is the model's reading, log entry 14; the gap's row and the time dt a byte
carries are its choice, log entry 15, and so is the gap's measure, log entry 39; that a faulty byte of 126 begins no word
while HUNTING, or where it ends a gap, is its reading, log entry 42. -/
def Obligations.ConsoleBytesMakeWords : Prop :=
  ∀ (dt : Nat) (b : Byte) (framingOk : Bool) (s : State), s.part.tb.synthLocked = true →
    let same (t : State) : Prop := t.part.clk.game = s.part.clk.game ∧
      t.part.clk.aux = s.part.clk.aux ∧ t.part.clk.score = s.part.clk.score ∧
      t.part.clk.horn = s.part.clk.horn ∧ t.part.clk.heard = s.part.clk.heard ∧
      t.part.clk.silence = s.part.clk.silence ∧ t.part.sec = s.part.sec ∧
      t.blk = { s.blk with port := t.port, cap := t.blk.cap } ∧ t.port.showTick = s.port.showTick
    let start : Option (List Byte) := if framingOk = true ∧ b = 126 then some [126] else none
    let u := s.part.clk
    let raised := min (u.discards + 1) 4294967295
    (u.word = none → ∃ t, exec (.consoleByte dt b framingOk) s = .next t ∧ same t ∧
      t.part.clk.word = start ∧ t.part.clk.discards = u.discards) ∧
    (∀ bs, u.word = some bs → u.gap + dt ≤ 108000 → framingOk = true → (bs.length = 2 → b.toNat ≤ 8) →
      (bs.length < 3 ∨ bs.length + 1 ≠ 4 + (tget 0 (bs ++ [b]) 2).toNat) →
      ∃ t, exec (.consoleByte dt b framingOk) s = .next t ∧ same t ∧
        t.part.clk.word = some (bs ++ [b]) ∧ t.part.clk.discards = u.discards) ∧
    (∀ bs, u.word = some bs → u.gap + dt ≤ 108000 → framingOk = false ∨ (bs.length = 2 ∧ 8 < b.toNat) →
      ∃ t, exec (.wordDiscard dt b framingOk) s = .next t ∧
        exec (.consoleByte dt b framingOk) s = .next t ∧ same t ∧ t.part.clk.word = none ∧
        t.part.clk.discards = raised) ∧
    (∀ bs, u.word = some bs → s.part.tb.reference = true →
      (∃ t, exec .interByteGap s = .next t ∧ same t ∧ t.part.clk.word = none ∧
        t.part.clk.discards = raised) ∧
      (108000 < u.gap + dt → ∃ t, exec (.consoleByte dt b framingOk) s = .next t ∧ same t ∧
        t.part.clk.word = start ∧ t.part.clk.discards = raised))

/-- The check byte of a word of kind CLOCK, length 5, clock id 0..1 and run flag 0..1 whose bytes 1 to 8 sum to 0 modulo
256 makes the whole word's effect, and a check byte that does not make the sum 0 discards the word (R130). The whole
word's effect is said as the row CLOCK_WORD, which the model reads as the arrival of a whole valid word, log entry 14. -/
def Obligations.TheCheckByteMakesTheClockWord : Prop :=
  ∀ (dt : Nat) (id flag v0 v1 v2 check : Byte) (s : State), s.part.tb.synthLocked = true →
    s.part.clk.word = some [126, 1, 5, id, flag, v0, v1, v2] → s.part.clk.gap + dt ≤ 108000 →
    id.toNat ≤ 1 → flag.toNat ≤ 1 →
    let sum := 1 + 5 + id.toNat + flag.toNat + v0.toNat + v1.toNat + v2.toNat + check.toNat
    (sum % 256 = 0 →
      exec (.consoleByte dt check true) s =
        exec (.clockWord dt (if id = 0 then .game else .aux) (decide (flag = 1)) (v2 ++ v1 ++ v0)) s) ∧
    (sum % 256 ≠ 0 → ∃ t, exec (.consoleByte dt check true) s = .next t ∧ t.part.clk.word = none ∧
      t.part.clk.discards = min (s.part.clk.discards + 1) 4294967295 ∧
      t.part.clk.game = s.part.clk.game ∧ t.part.clk.aux = s.part.clk.aux ∧
      t.part.clk.heard = s.part.clk.heard)

/-- The counts of an ms tick and a frame mark that the table lists by themselves (log entry 13). At 500 ms of silence a
HEARD line is LOST, and every CONSOLE clock that is RUNNING is in HOLDOVER with its value kept. A DOWN clock that counts to
0 is EXPIRED and requests the horn if its horn is on; an UP clock that counts to 11,999,999 is STOPPED there. The horn line
is released at the tick that brings the count from 1 to 0, and a flash count goes from 1 to 0 (R131, R135, R144, R146). While
RUNNING they give CONSOLE_LOST, naming the clocks put into HOLDOVER, with the discard count; CLOCK_EXPIRED of value 0, before
HORN is latched, in CONFIG too, where the horn finds the line released; and CLOCK_LIMIT of value 0. At the mark of entry, the
line LOST, CONSOLE_LOST names the clocks then in HOLDOVER; that the mark of entry gives it is said with the entry's stages
(R148, R191; the order of notice and latch is log entry 25). -/
def Obligations.TheClockUnitsCountsRunOut : Prop :=
  (∀ s : State, s.part.tb.synthLocked = true →
    let u := s.part.clk
    let id (i : ClockId) : Nat := match i with | .game => 0 | .aux => 1
    let held (c : Clock) : Clock :=
      if c.localSource = false ∧ c.state = .running then { c with state := .holdover } else c
    (u.heard = true → 499 ≤ u.silence → ∃ t, exec .consoleSilenceExpiry s = .next t ∧
      t.part.clk = { u with heard := false, silence := min (u.silence + 1) 4294967295
                            game := held u.game, aux := held u.aux } ∧
      (s.port.laidWhenRunning → Port.through
        [noticed 18 ((if u.game.localSource = false ∧ u.game.state = .running then 1 else 0) +
          (if u.aux.localSource = false ∧ u.aux.state = .running then 2 else 0)) (toWord u.discards)]
        s.port t.port) ∧
      t = s.onPart (fun p => { p with clk := t.part.clk, blk := { p.blk with port := t.port } })) ∧
    (∀ i, (u.clock i).up = false → (u.clock i).value ≤ 1 →
      (u.clock i).state = .running ∨ (u.clock i).state = .holdover →
      ∃ t, exec (.clockExpiry i) s = .next t ∧
        t.part.clk = { u.setClock i { u.clock i with state := .expired, value := 0 } with
          horn := if (u.clock i).hornOn then max u.horn (u.clock i).hornLength else u.horn } ∧
        (s.port.laidWhenRunning → Port.through (noticed 15 (id i) 0 ::
          if (u.clock i).hornOn = true ∧ u.horn = 0 ∧ 0 < (u.clock i).hornLength then [hornLatched] else [])
          s.port t.port) ∧
        t = s.onPart (fun p => { p with clk := t.part.clk, blk := { p.blk with port := t.port } })) ∧
    (∀ i, (u.clock i).up = true → 11999999 ≤ (u.clock i).value + 1 →
      (u.clock i).state = .running ∨ (u.clock i).state = .holdover →
      ∃ t, exec (.clockLimitReached i) s = .next t ∧
        t.part.clk = u.setClock i { u.clock i with state := .stopped, value := 11999999 } ∧
        (s.port.laidWhenRunning → Port.through [noticed 17 (id i) 0] s.port t.port) ∧
        t = s.onPart (fun p => { p with clk := t.part.clk, blk := { p.blk with port := t.port } })) ∧
    (u.horn = 1 → exec .hornRelease s =
      .next (s.onPart fun p => { p with clk := { p.clk with horn := 0 } })) ∧
    (u.score.homeFlash = 1 → exec (.flashEnd .home) s =
      .next (s.onPart fun p =>
        { p with clk := { p.clk with score := { p.clk.score with homeFlash := 0 } } })) ∧
    (u.score.guestFlash = 1 → exec (.flashEnd .guest) s =
      .next (s.onPart fun p =>
        { p with clk := { p.clk with score := { p.clk.score with guestFlash := 0 } } }))) ∧
  ∀ (u : ClockUnit) (p : Port), p.laidWhenRunning → (clockEntryNotice (u, p)).1 = u ∧
    Port.through u.entryNoticed p (clockEntryNotice (u, p)).2

/-- A CLOCK_SETUP card that passes its checks sets the clock's source, direction, T, horn, horn length and c, its state and
value follow from what it changed by the table of R138, and the card goes DONE OK with the state code after it. The
other clock, the horn and the score stay (R138). A card with a field outside its encoding is refused BAD_FIELD with the byte
offset of the first such field as result, and moves nothing but its slot. -/
def Obligations.ClockSetupSetsTheClock : Prop :=
  (∀ (slot : Nat) (post : Word) (q : ClockSetupCue) (s : State), s.ready .clock →
    q.clock ≤ 1 → q.source ≤ 1 → q.direction ≤ 1 → q.horn ≤ 1 → 1000 ≤ q.tenths → q.tenths ≤ 600000 →
    500 ≤ q.hornLength → q.hornLength ≤ 3000 → q.comp ≤ 50 →
    let i : ClockId := if q.clock = 0 then .game else .aux
    let c := s.part.clk.clock i
    let toLocal := decide (q.source = 1)
    let up := decide (q.direction = 1)
    let after : ClockState × Nat :=
      if toLocal = false then
        (if c.localSource = false ∧ c.up = up then (c.state, c.value) else (.noTime, 0))
      else if c.up ≠ up then
        (if c.state = .noTime then (.noTime, c.value)
         else (.stopped, min c.value (if up then 11999999 else 5999999)))
      else if c.localSource = false ∧ c.state = .holdover then (.running, c.value)
      else (c.state, c.value)
    ∃ t, exec (.clockSetup slot post q) s = .next t ∧
      t.part.clk = s.part.clk.setClock i
        { localSource := toLocal, up, tenths := q.tenths, hornOn := decide (q.horn = 1)
          hornLength := q.hornLength, comp := q.comp, state := after.1, value := after.2 } ∧
      s.port.slotMoved t.port .clock slot 4 0
        (match after.1 with
         | .noTime => 0 | .stopped => 1 | .running => 2 | .expired => 3 | .holdover => 4) ∧
      t = s.onPart (fun p => { p with clk := t.part.clk, blk := { p.blk with port := t.port } })) ∧
  ∀ (slot : Nat) (post : Word) (q : ClockSetupCue) (s : State), s.ready .clock →
    let fails (offset : Nat) : Prop := match offset with
      | 0 => 1 < q.clock
      | 1 => 1 < q.source
      | 2 => 1 < q.direction
      | 3 => 1 < q.horn
      | 4 => q.tenths < 1000 ∨ 600000 < q.tenths
      | 8 => q.hornLength < 500 ∨ 3000 < q.hornLength
      | 10 => 50 < q.comp
      | _ => False
    ∀ offset, fails offset → (∀ n, n < offset → ¬fails n) →
      ∃ t, exec (.clockSetup slot post q) s = .next t ∧ s.onlyMoved t .clock slot 5 19 (toWord offset)

/-- A CLOCK_SET card is refused BAD_FIELD with result 0 for a clock code above 1 and NOT_LOCAL with the state code on a
CONSOLE clock. On a LOCAL clock the value is taken, lowered to the top of the range, with outcome CLAMPED where it was
lowered and the value taken as result; a RUNNING clock goes on RUNNING unless its value is at its end, and any other is
STOPPED. The horn is not requested, and a clock that stays RUNNING counts on from the value taken at the next ms tick
(R139). -/
def Obligations.ClockSetTakesTheValue : Prop :=
  ∀ (slot : Nat) (post : Word) (q : ClockSetCue) (s : State), s.ready .clock →
    let i : ClockId := if q.clock = 0 then .game else .aux
    let c := s.part.clk.clock i
    let v := min q.value (if c.up then 11999999 else 5999999)
    let code : Word := match c.state with
      | .noTime => 0 | .stopped => 1 | .running => 2 | .expired => 3 | .holdover => 4
    ∃ t, exec (.clockSet slot post q) s = .next t ∧
      (1 < q.clock → s.onlyMoved t .clock slot 5 19 0) ∧
      (q.clock ≤ 1 → c.localSource = false → s.onlyMoved t .clock slot 5 22 code) ∧
      (q.clock ≤ 1 → c.localSource = true →
        t.part.clk = s.part.clk.setClock i
          { c with value := v
                   state := if c.state = .running ∧ v ≠ (if c.up then 11999999 else 0) then .running
                     else .stopped } ∧
        s.port.slotMoved t.port .clock slot 4 (if q.value = v then 0 else 1) (toWord v) ∧
        t = s.onPart (fun p => { p with clk := t.part.clk, blk := { p.blk with port := t.port } }) ∧
        ((t.part.clk.clock i).state = .running → ∀ b, ∃ u, exec (.msTick b) t = .next u ∧
          (u.part.clk.clock i).value = if c.up then v + 1 else v - 1))

/-- CLOCK_RUN and CLOCK_STOP are refused BAD_FIELD with result 0 for a clock code above 1 and NOT_LOCAL with the state code
on a CONSOLE clock, and CLOCK_RUN is refused BAD_FIELD with result 1 on a LOCAL clock in NO_TIME. CLOCK_RUN makes a STOPPED
clock RUNNING unless it is DOWN at 0 or UP at 11,999,999, CLOCK_STOP makes a RUNNING clock STOPPED with its value, and each
leaves a clock in another state; the card goes DONE OK with the state code after it, and nothing else moves. A RUNNING clock
counts at the next ms tick, whose phase the card leaves alone (R140). -/
def Obligations.ClockRunAndStopMoveTheClock : Prop :=
  ∀ (slot : Nat) (post : Word) (n : Nat) (s : State), s.ready .clock →
    let i : ClockId := if n = 0 then .game else .aux
    let c := s.part.clk.clock i
    let code (k : ClockState) : Word := match k with
      | .noTime => 0 | .stopped => 1 | .running => 2 | .expired => 3 | .holdover => 4
    let ran : Clock :=
      if c.state = .stopped ∧ c.value ≠ (if c.up then 11999999 else 0) then { c with state := .running }
      else c
    let halted : Clock := if c.state = .running then { c with state := .stopped } else c
    (∃ t, exec (.clockRun slot post n) s = .next t ∧
      (1 < n → s.onlyMoved t .clock slot 5 19 0) ∧
      (n ≤ 1 → c.localSource = false → s.onlyMoved t .clock slot 5 22 (code c.state)) ∧
      (n ≤ 1 → c.localSource = true → c.state = .noTime → s.onlyMoved t .clock slot 5 19 1) ∧
      (n ≤ 1 → c.localSource = true → c.state ≠ .noTime →
        t.part.clk = s.part.clk.setClock i ran ∧
        s.port.slotMoved t.port .clock slot 4 0 (code ran.state) ∧
        t = s.onPart (fun p => { p with clk := t.part.clk, blk := { p.blk with port := t.port } }) ∧
        (ran.state = .running → ∀ b, ∃ u, exec (.msTick b) t = .next u ∧
          (u.part.clk.clock i).value = if c.up then min 11999999 (c.value + 1) else c.value - 1))) ∧
    ∃ t, exec (.clockStop slot post n) s = .next t ∧
      (1 < n → s.onlyMoved t .clock slot 5 19 0) ∧
      (n ≤ 1 → c.localSource = false → s.onlyMoved t .clock slot 5 22 (code c.state)) ∧
      (n ≤ 1 → c.localSource = true →
        t.part.clk = s.part.clk.setClock i halted ∧
        s.port.slotMoved t.port .clock slot 4 0 (code halted.state) ∧
        t = s.onPart (fun p => { p with clk := t.part.clk, blk := { p.blk with port := t.port } }))

/-- A SCORE card is refused BAD_FIELD with result 5 for a possession code above 2. Otherwise every field of the score record
takes the card's value, home and guest lowered to 999, counters to 99 and the period brought into 1..9; a home or guest
value that changes starts its flash at 30. The card goes DONE with outcome CLAMPED where a field was clamped and the number
of fields clamped as result; the clocks and the horn stay (R145, R146). -/
def Obligations.ScoreCardSetsTheRecord : Prop :=
  ∀ (slot : Nat) (post : Word) (q : ScoreCue) (s : State), s.ready .clock →
    let old := s.part.clk.score
    let home := min q.home 999
    let guest := min q.guest 999
    let period := max 1 (min q.period 9)
    let n := [decide (q.home ≠ home), decide (q.guest ≠ guest), decide (q.period ≠ period),
      decide (99 < q.c0), decide (99 < q.c1), decide (99 < q.c2), decide (99 < q.c3)].count true
    ∃ t, exec (.score slot post q) s = .next t ∧
      (2 < q.possession → s.onlyMoved t .clock slot 5 19 5) ∧
      (q.possession ≤ 2 →
        t.part.clk = { s.part.clk with score :=
          { home, guest, period, possession := q.possession, c0 := min q.c0 99, c1 := min q.c1 99
            c2 := min q.c2 99, c3 := min q.c3 99
            homeFlash := if home = old.home then old.homeFlash else 30
            guestFlash := if guest = old.guest then old.guestFlash else 30 } } ∧
        s.port.slotMoved t.port .clock slot 4 (if n = 0 then 0 else 1) (toWord n) ∧
        t = s.onPart (fun p => { p with clk := t.part.clk, blk := { p.blk with port := t.port } }))

/-! ## Messages -/

/-- A MESSAGE card that passes its checks, whose expiry has not come and that finds fewer than 48 cards held joins the
queue behind the cards of its class and the higher ones and before the lower, WAITING, with its repeats to come and its
speed brought into 16..1,024. Its slot stays TAKEN with the outcome so far and W, the sum of its text's advances; nothing
else changes (R152, R153). With 48 cards held, the last WAITING card in queue order, the newest of the lowest class
WAITING, is evicted where its class is lower: it leaves the queue, DONE EVICTED with its passes completed as result, and
the offered card joins; otherwise the offered card is REFUSED QUEUE_FULL with result 48 (R154). A card that fails a check
is refused BAD_FIELD with the byte offset of the first failing field, else BAD_ENTRY with the entry where a SPONSORED
card's is UNSET, else BAD_FIELD with result 16 where W is above 32,767; one whose expiry has come goes DONE EXPIRED with
result 0. Such a card moves nothing but its slot (R152). -/
def Obligations.MessageJoinsTheQueue : Prop :=
  (∀ (slot : Nat) (post : Word) (q : MessageCue) (s : State), s.ready .message →
     q.cls ≤ 2 → q.mode ≤ 1 → (q.mode = 1 → 30 ≤ q.hold ∧ q.hold ≤ 3600) → 1 ≤ q.repeats →
     q.repeats ≤ 8 → (q.cls ≠ 0 → q.mask % 16 ≠ 0) →
     (q.cls = 1 → q.linked ≤ 127 ∧ s.blk.rot.entry q.linked ≠ none) → 1 ≤ q.length → q.length ≤ 120 →
     s.port.stringWidth (q.text.take q.length) ≤ 32767 →
     (q.expiry = 0 ∨ 2147483648 ≤ (s.port.showTick - q.expiry).toNat) →
     s.blk.lanes.queue.Pairwise (fun a b => a.cls.rank ≤ b.cls.rank) →
     let joined (t : State) (queue : List MsgCard) : Prop :=
       (∃ c : MsgCard, t.blk.lanes.queue =
           (queue.filter fun d => decide (d.cls.rank ≤ q.cls)) ++ [c] ++
           (queue.filter fun d => decide (q.cls < d.cls.rank)) ∧
         c.slot = slot ∧ c.post = post ∧ c.cls.rank = q.cls ∧ c.holdMode = decide (q.mode = 1) ∧
         c.speed = max 16 (min q.speed 1024) ∧ c.holdFrames = q.hold ∧ c.repeats = q.repeats ∧
         c.remaining = q.repeats ∧ c.completed = 0 ∧ c.expiry = q.expiry ∧ c.mask = q.mask % 16 ∧
         c.linked = q.linked ∧ c.linkIntact = true ∧ c.text = q.text.take q.length ∧
         c.width = s.port.stringWidth c.text ∧ c.onAir = false) ∧
       memWord t.port.mem (s.port.slotAddr .message slot + 12) =
         (if 16 ≤ q.speed ∧ q.speed ≤ 1024 then 0 else 1) ∧
       memWord t.port.mem (s.port.slotAddr .message slot + 24) =
         toWord (s.port.stringWidth (q.text.take q.length))
     (s.blk.lanes.queue.length < 48 →
       ∃ t, exec (.message slot post q) s = .next t ∧ joined t s.blk.lanes.queue ∧
         bytesKept s.port.mem t.port.mem
           [s.port.slotAddr .message slot + 12, s.port.slotAddr .message slot + 24] ∧
         t = s.onPart (·.onBlk fun b =>
           { b with port := { b.port with mem := t.port.mem }
                    lanes := { b.lanes with queue := t.blk.lanes.queue } })) ∧
     (48 ≤ s.blk.lanes.queue.length →
       let last := (s.blk.lanes.queue.filter fun d => !d.onAir).getLast?
       (∀ d, last = some d → q.cls < d.cls.rank → d.slot ≠ slot →
         ∃ t, exec (.message slot post q) s = .next t ∧
           joined t (s.blk.lanes.queue.filter fun e => e.slot != d.slot) ∧
           s.port.slotReads t.port .message d.slot 4 3 s.port.showTick (toWord d.completed) ∧
           s.port.deskDone t.port .message d.slot ∧
           bytesKept s.port.mem t.port.mem (s.port.slotWords .message d.slot ++
             [s.port.slotAddr .message slot + 12, s.port.slotAddr .message slot + 24]) ∧
           t = s.onPart (·.onBlk fun b => { b with port := t.port
                                                   lanes := { b.lanes with queue := t.blk.lanes.queue } })) ∧
       ((∀ d, last = some d → d.cls.rank ≤ q.cls) →
         ∃ t, exec (.message slot post q) s = .next t ∧ s.onlyMoved t .message slot 5 23 48))) ∧
  ∀ (slot : Nat) (post : Word) (q : MessageCue) (s : State), s.ready .message →
    let checks : List (Nat × Bool) :=
      [(0, decide (2 < q.cls)), (1, decide (1 < q.mode)),
       (4, decide (q.mode = 1 ∧ (q.hold < 30 ∨ 3600 < q.hold))),
       (6, decide (q.repeats = 0 ∨ 8 < q.repeats)), (7, decide (q.cls ≠ 0 ∧ q.mask % 16 = 0)),
       (12, decide (q.cls = 1 ∧ 127 < q.linked)), (14, decide (q.length = 0 ∨ 120 < q.length))]
    let unset : Prop := q.cls = 1 ∧ s.blk.rot.entry q.linked = none
    let width := s.port.stringWidth (q.text.take q.length)
    let moved (state outcome result : Word) : Prop :=
      ∃ t, exec (.message slot post q) s = .next t ∧ s.onlyMoved t .message slot state outcome result
    (∀ k, checks.find? (·.2) = some k → moved 5 19 (toWord k.1)) ∧
    (checks.find? (·.2) = none →
      (unset → moved 5 24 (toWord q.linked)) ∧ (¬unset → 32767 < width → moved 5 19 16) ∧
      (¬unset → width ≤ 32767 → q.expiry ≠ 0 → (s.port.showTick - q.expiry).toNat < 2147483648 →
        moved 4 2 0))

/-- While the urgent state is OFF a shown lane that carries no pass takes the first WAITING card in queue order, not
URGENT, whose mask names it. A pass of that card begins: HOLD for its hold frames where its mode is HOLD and its text fits
the lane, else a CRAWL of ceil((W + L) × 16 / v) frames. The slot goes ACTIVE at the card's first pass, and its outcome is
CLAMPED where a HOLD card must crawl; other passes and cards stay (R157, R158). The row taken by itself is that step of the
mark, log entry 13. -/
def Obligations.FreeLaneTakesTheFirstCard : Prop :=
  ∀ (k w : Nat) (s : State) (pre post : List MsgCard) (c : MsgCard), s.ready .message →
    s.blk.lanes.urgent = none → (∀ p ∈ s.blk.lanes.passes, ∀ x ∈ p.parts, x.lane ≠ k) →
    s.blk.lanes.laneWidth k = some w → s.blk.lanes.queue = pre ++ c :: post →
    c.onAir = false → c.cls ≠ .urgent → c.mask.testBit k = true →
    (∀ d ∈ pre, d.onAir = true ∨ d.cls = .urgent ∨ d.mask.testBit k = false) →
    let crawl : Bool := c.holdMode && decide (w < c.width)
    let slot := s.port.slotAddr .message c.slot
    ∃ t, exec (.laneAssignment k) s = .next t ∧
      (∃ p : Pass, t.blk.lanes.passes = s.blk.lanes.passes ++ [p] ∧ p.slot = c.slot ∧
        p.number = c.repeats - c.remaining + 1 ∧ p.index = 0 ∧ p.start = s.port.showTick ∧
        p.onAir = 0 ∧ p.credited = 0 ∧ p.credits = 0 ∧
        p.parts = [if c.holdMode = true ∧ c.width ≤ w then ⟨k, true, w, c.holdFrames⟩
          else ⟨k, false, w, ((c.width + w) * 16 + (c.speed - 1)) / c.speed⟩]) ∧
      t.blk.lanes.queue = (s.blk.lanes.queue.map fun d => if d.slot = c.slot then
        { c with onAir := true, started := true, clamped := c.clamped || crawl } else d) ∧
      t.blk.lanes.shown = s.blk.lanes.shown ∧ t.blk.lanes.urgent = none ∧
      (c.started = false → memWord t.port.mem slot = 3) ∧
      (crawl = true → memWord t.port.mem (slot + 12) = 1) ∧
      bytesKept s.port.mem t.port.mem
        ((if c.started then [] else [slot]) ++ if crawl then [slot + 12] else []) ∧
      t = s.onPart (·.onBlk fun b =>
        { b with port := { b.port with mem := t.port.mem }, lanes := t.blk.lanes })

/-- With no URGENT card held, the pass of a card that is not SPONSORED ends COMPLETE when its last frame has been drawn:
at its last repeat the card leaves the queue and goes DONE with its outcome so far and its passes completed as result,
else it is WAITING again in its place with one repeat fewer. A WAITING card whose expiry has come leaves the queue and
goes DONE EXPIRED with its passes completed as result. Other cards stay (R160, R161). The pass of a SPONSORED card ends so
too, and its MESSAGE_AIRING record is handed to the log: the lane, the pass number, the entry or 65,535 where the link is
cut, the slot, the pass's start and this show tick, its frames and credits, the post number (R79, R80, R166). Where the
last URGENT card held leaves the queue, by its last pass or its expiry, the urgent state turns OFF: every yielded flag is
cleared, and URGENT_OFF gives the show ticks since the state turned ON (R28, R164). The rows taken by themselves are those
steps of the mark, log entry 13. -/
def Obligations.PassesCompleteAndCardsExpire : Prop :=
  (∀ (s : State) (c : MsgCard), s.ready .message → s.blk.lanes.urgent = none →
     (∀ d ∈ s.blk.lanes.queue, d.cls ≠ .urgent) →
     (∀ (lane : Nat) (p : Pass), s.blk.lanes.passOn lane = some p → s.blk.lanes.card p.slot = some c →
       c.cls ≠ .sponsored → p.length ≤ p.index + 1 →
       (∀ d ∈ s.blk.lanes.queue, d.expiry = 0 ∨ 2147483648 ≤ (s.port.showTick - d.expiry).toNat) →
       ∃ t, exec (.passComplete lane) s = .next t ∧
         t.blk.lanes.passes = (s.blk.lanes.passes.filter fun r => r.slot != c.slot) ∧
         (c.remaining ≤ 1 →
           t.blk.lanes.queue = (s.blk.lanes.queue.filter fun d => d.slot != c.slot) ∧
           s.port.slotMoved t.port .message c.slot 4 (if c.clamped then 1 else 0)
             (toWord (c.completed + 1))) ∧
         (2 ≤ c.remaining →
           t.blk.lanes.queue = (s.blk.lanes.queue.map fun d => if d.slot = c.slot then
             { c with onAir := false, remaining := c.remaining - 1, completed := c.completed + 1 }
             else d) ∧ t.port = s.port) ∧
         t = s.onPart (·.onBlk fun b =>
           { b with port := t.port, measures := t.blk.measures
                    lanes := { b.lanes with queue := t.blk.lanes.queue
                                            passes := t.blk.lanes.passes } })) ∧
     (∀ (lane : Nat) (p : Pass) (x : LanePart), s.blk.lanes.passOn lane = some p → p.parts = [x] →
       s.blk.lanes.card p.slot = some c → c.cls = .sponsored → p.length ≤ p.index + 1 →
       (∀ d ∈ s.blk.lanes.queue, d.expiry = 0 ∨ 2147483648 ≤ (s.port.showTick - d.expiry).toNat) →
       2 ≤ (s.port.area 7).first → 2 ≤ (s.port.area 8).first →
       ∃ t logged, exec (.passComplete lane) s = .next t ∧
         s.port.recordTaken logged
           { kind := 2, endCode := 0, place := lane, group := p.number
             entry := if c.linkIntact then c.linked else 65535, slot := c.slot, start := p.start
             stop := s.port.showTick, shown := p.onAir, credited := p.credited, credits := p.credits
             number := c.post } ∧
         t.blk.lanes.passes = (s.blk.lanes.passes.filter fun r => r.slot != c.slot) ∧
         (c.remaining ≤ 1 →
           t.blk.lanes.queue = (s.blk.lanes.queue.filter fun d => d.slot != c.slot) ∧
           logged.slotMoved t.port .message c.slot 4 (if c.clamped then 1 else 0)
             (toWord (c.completed + 1))) ∧
         (2 ≤ c.remaining →
           t.blk.lanes.queue = (s.blk.lanes.queue.map fun d => if d.slot = c.slot then
             { c with onAir := false, remaining := c.remaining - 1, completed := c.completed + 1 }
             else d) ∧ t.port = logged) ∧
         t = s.onPart (·.onBlk fun b =>
           { b with port := t.port, measures := t.blk.measures
                    lanes := { b.lanes with queue := t.blk.lanes.queue
                                            passes := t.blk.lanes.passes } })) ∧
     (s.blk.lanes.card c.slot = some c → c.onAir = false → c.expiry ≠ 0 →
       (s.port.showTick - c.expiry).toNat < 2147483648 →
       ∃ t, exec (.messageExpiry c.slot) s = .next t ∧
         t.blk.lanes.queue = (s.blk.lanes.queue.filter fun d => d.slot != c.slot) ∧
         s.port.slotMoved t.port .message c.slot 4 2 (toWord c.completed) ∧
         t = s.onPart (·.onBlk fun b =>
           { b with port := t.port, measures := t.blk.measures
                    lanes := { b.lanes with queue := t.blk.lanes.queue } }))) ∧
  ∀ (s : State) (c : MsgCard) (tick : Word), s.ready .message → s.blk.lanes.urgent = some tick →
    s.blk.lanes.card c.slot = some c → c.cls = .urgent →
    (∀ d ∈ s.blk.lanes.queue, d.slot ≠ c.slot → d.cls ≠ .urgent) → 2 ≤ (s.port.area 8).first →
    let ends (t : State) (outcome result : Word) : Prop :=
      t.blk.lanes.queue = (s.blk.lanes.queue.filter fun d => d.slot != c.slot) ∧
      t.blk.lanes.urgent = none ∧
      t.blk.comp = { s.blk.comp with
        urgentYield := false
        active := s.blk.comp.active.map fun a =>
          { a with zones := a.zones.map fun z => { z with yielded := false } } } ∧
      (∃ moved, s.port.slotMoved moved .message c.slot 4 outcome result ∧
        moved.noticeTaken t.port 21 0 (s.port.showTick - tick)) ∧
      t = s.onPart (·.onBlk fun b =>
        { b with port := t.port, measures := t.blk.measures, comp := t.blk.comp
                 lanes := { b.lanes with queue := t.blk.lanes.queue, passes := t.blk.lanes.passes
                                         urgent := none } })
    (∀ (lane : Nat) (p : Pass), s.blk.lanes.passOn lane = some p → p.slot = c.slot →
      p.length ≤ p.index + 1 → c.remaining ≤ 1 →
      (∀ d ∈ s.blk.lanes.queue, d.expiry = 0 ∨ 2147483648 ≤ (s.port.showTick - d.expiry).toNat) →
      ∃ t, exec (.passComplete lane) s = .next t ∧
        ends t (if c.clamped then 1 else 0) (toWord (c.completed + 1)) ∧
        t.blk.lanes.passes = (s.blk.lanes.passes.filter fun r => r.slot != c.slot)) ∧
    (c.onAir = false → c.expiry ≠ 0 → (s.port.showTick - c.expiry).toNat < 2147483648 →
      ∃ t, exec (.messageExpiry c.slot) s = .next t ∧ ends t 2 (toWord c.completed) ∧
        t.blk.lanes.passes = s.blk.lanes.passes)

/-- With no URGENT card on air and a lane shown, the first WAITING card of the queue, being URGENT, takes every shown
lane: every pass on air ends and one pass of that card begins on all shown lanes, by rising number. The urgent state is ON
from this mark's show tick where it was OFF, and urgent yield is begun then: every PLACEMENT zone of the active plan that
yields is yielded, a fade of such a zone ending SHOWN or HIDDEN at once. The canvas plans otherwise, the image bank, the
inputs, the heads and the clocks stay (R28, R162, R163, R164). By rising lane each preempted SPONSORED pass hands its
PREEMPTED record to the log, and each preempted card is WAITING in its place with its repeats unchanged, or leaves the
queue DONE EXPIRED where its expiry has come; the URGENT card's slot then goes ACTIVE at its first pass, CLAMPED where a
HOLD must crawl; and where the state turned ON, URGENT_ON gives its slot and post number (R79, R158, R161, R166). The row
taken by itself is that step of the mark, log entry 13; the order of the Port's changes is log entry 25. -/
def Obligations.UrgentCardTakesEveryLane : Prop :=
  ∀ (s : State) (pre post : List MsgCard) (c : MsgCard), s.part.live = true →
    s.blk.lanes.queue = pre ++ c :: post → (∀ d ∈ pre, d.onAir = true) → c.onAir = false →
    c.cls = .urgent → (∀ d ∈ s.blk.lanes.queue, d.cls = .urgent → d.onAir = false) →
    (∃ k, k < 4 ∧ (s.blk.lanes.laneWidth k).isSome = true) →
    (∀ p ∈ s.blk.lanes.passes, p.slot ≠ c.slot ∧ ∃ d ∈ s.blk.lanes.queue, d.slot = p.slot) →
    ∃ t, exec .urgentTakeover s = .next t ∧
      (∃ p : Pass, t.blk.lanes.passes = [p] ∧ p.slot = c.slot ∧ p.index = 0 ∧
        p.start = s.port.showTick ∧ p.onAir = 0 ∧
        p.parts.map (·.lane) =
          (List.range 4).filter fun k => (s.blk.lanes.laneWidth k).isSome) ∧
      (∃ d ∈ t.blk.lanes.queue, d.slot = c.slot ∧ d.onAir = true ∧ d.remaining = c.remaining ∧
        d.completed = c.completed) ∧
      (s.blk.lanes.urgent = none → t.blk.lanes.urgent = some s.port.showTick ∧
        t.blk.comp = { s.blk.comp with
          urgentYield := true
          active := s.blk.comp.active.map fun a => { a with zones := a.zones.map fun z =>
            if z.zone.kind = .placement ∧ z.zone.yields = true then
              { z with yielded := true, fresh := false
                       vis := match z.vis with
                         | .fadingIn _ _ => .shown
                         | .fadingOut _ _ => .hidden
                         | v => v }
            else z } }) ∧
      (∀ tick, s.blk.lanes.urgent = some tick → t.blk.lanes.urgent = some tick ∧
        t.blk.comp = s.blk.comp) ∧
      ((s.blk.lanes.queue.map (·.slot)).Nodup → (s.blk.lanes.passes.map (·.slot)).Nodup →
        let stopped (d : MsgCard) : Bool := s.blk.lanes.passes.any fun p => p.slot == d.slot
        let expired (d : MsgCard) : Bool :=
          d.expiry != 0 && decide ((s.port.showTick - d.expiry).toNat < 2147483648)
        let crawl : Bool := c.holdMode && (List.range 4).any fun k =>
          match s.blk.lanes.laneWidth k with | none => false | some w => decide (w < c.width)
        let slot := s.port.slotAddr .message c.slot
        t.blk.lanes.queue = (s.blk.lanes.queue.filter fun d => !(stopped d && expired d)).map (fun d =>
          if d.slot = c.slot then { c with onAir := true, started := true, clamped := c.clamped || crawl }
          else if stopped d then { d with onAir := false } else d) ∧
        (s.port.laid → ∃ passes m k, List.Perm passes s.blk.lanes.passes ∧
          passes.Pairwise (fun p q => p.lane ≤ q.lane) ∧
          Port.through (passes.flatMap fun p => match s.blk.lanes.card p.slot with
            | none => []
            | some d => d.passLogged 1 p ++
              if expired d then [slotMoves .message d.slot 4 2 (toWord d.completed)] else []) s.port m ∧
          (c.started = false → memWord k.mem slot = 3) ∧ (crawl = true → memWord k.mem (slot + 12) = 1) ∧
          bytesKept m.mem k.mem
            ((if c.started then [] else [slot]) ++ if crawl then [slot + 12] else []) ∧
          k = { m with mem := k.mem } ∧
          Port.through (if s.blk.lanes.urgent = none then [noticed 20 c.slot c.post] else []) k t.port)) ∧
      t.blk.lanes.shown = s.blk.lanes.shown ∧ t.port.showTick = s.port.showTick ∧
      t = s.onPart (·.onBlk fun b =>
        { b with port := t.port, measures := t.blk.measures, lanes := t.blk.lanes
                 comp := t.blk.comp })
end

