-- ==== Sys2Proof/Laws/Memory.lean ====
section
/-! SUPPORT. Laws of Show Memory: every write keeps the canonical form, a read after a write gives what was
written, and every other byte is left alone. -/

namespace Sys2Proof.Machine

/-- Every listed address lies at or above a bound. -/
def listedFrom (lo : Nat) (m : List Host.Cell) : Prop := ∀ c ∈ m, lo ≤ c.1

/-- The canonical form of a list with a first cell. -/
theorem wf_cons_iff (a : Nat) (b : Byte) (r : List Host.Cell) :
    Memory.wf ((a, b) :: r) = true ↔
      b ≠ unlistedByte ∧ listedFrom (a + 1) r ∧ Memory.wf r = true := by
  induction r generalizing a b with
  | nil => simp [Memory.wf, listedFrom]
  | cons c r ih =>
    obtain ⟨a', b'⟩ := c
    have h := ih a' b'
    simp only [Memory.wf, Bool.and_eq_true, bne_iff_ne, decide_eq_true_eq, listedFrom,
      List.mem_cons, forall_eq_or_imp]
    constructor
    · rintro ⟨⟨h1, h2⟩, h3⟩
      have h4 := h.mp h3
      exact ⟨h1, ⟨h2, fun c hc => by have := h4.2.1 c hc; omega⟩, h3⟩
    · rintro ⟨h1, ⟨h2, _⟩, h3⟩
      exact ⟨⟨h1, h2⟩, h3⟩

/-- The empty memory is in canonical form. -/
@[simp] theorem wf_nil : Memory.wf [] = true := rfl

/-- An address below every listed one reads as an unlisted address does. -/
theorem memRead_below (m : List Host.Cell) (a : Nat) (h : listedFrom (a + 1) m) :
    memRead m a = unlistedByte := by
  cases m with
  | nil => rfl
  | cons c r =>
    have := h c (by simp)
    simp only [memRead]
    rw [if_pos (by omega)]

/-- A write below a bound's reach keeps the listed addresses above it. -/
theorem listedFrom_memWrite (m : List Host.Cell) (lo a : Nat) (v : Byte) (h : listedFrom lo m)
    (ha : lo ≤ a) : listedFrom lo (memWrite m a v) := by
  induction m with
  | nil =>
    simp only [memWrite]
    split
    · exact h
    · intro c hc; simp at hc; subst hc; exact ha
  | cons c r ih =>
    obtain ⟨k, b⟩ := c
    have hk : lo ≤ k := h (k, b) (by simp)
    have hr : listedFrom lo r := fun c hc => h c (by simp [hc])
    simp only [memWrite]
    split
    · split
      · exact h
      · intro c hc
        rcases List.mem_cons.mp hc with rfl | hc
        · exact ha
        · exact h c hc
    · split
      · split
        · exact hr
        · intro c hc
          rcases List.mem_cons.mp hc with rfl | hc
          · exact ha
          · exact hr c hc
      · intro c hc
        rcases List.mem_cons.mp hc with rfl | hc
        · exact hk
        · exact ih hr c hc

/-- A write keeps the canonical form. -/
theorem wf_memWrite (m : List Host.Cell) (a : Nat) (v : Byte) (h : Memory.wf m = true) :
    Memory.wf (memWrite m a v) = true := by
  induction m with
  | nil =>
    simp only [memWrite]
    split
    · rfl
    · simpa [Memory.wf] using ‹¬v = unlistedByte›
  | cons c r ih =>
    obtain ⟨k, b⟩ := c
    obtain ⟨h1, h2, h3⟩ := (wf_cons_iff k b r).mp h
    simp only [memWrite]
    split
    · split
      · exact h
      · refine (wf_cons_iff _ _ _).mpr ⟨‹_›, ?_, h⟩
        intro c hc
        rcases List.mem_cons.mp hc with rfl | hc
        · omega
        · have := h2 c hc; omega
    · split
      · split
        · exact h3
        · refine (wf_cons_iff _ _ _).mpr ⟨‹_›, ?_, h3⟩
          intro c hc
          have := h2 c hc; omega
      · exact (wf_cons_iff _ _ _).mpr ⟨h1, listedFrom_memWrite r _ a v h2 (by omega), ih h3⟩

/-- Reading the byte written gives what was written. -/
theorem memRead_memWrite_self (m : List Host.Cell) (a : Nat) (v : Byte) (h : Memory.wf m = true) :
    memRead (memWrite m a v) a = v := by
  induction m with
  | nil =>
    simp only [memWrite]
    split
    · simp [memRead, *]
    · simp [memRead]
  | cons c r ih =>
    obtain ⟨k, b⟩ := c
    obtain ⟨_, h2, h3⟩ := (wf_cons_iff k b r).mp h
    simp only [memWrite]
    split
    · split
      · simp [memRead, *]
      · simp [memRead]
    · split
      · split
        · subst_vars; exact memRead_below r _ h2
        · simp [memRead]
      · simp only [memRead]
        rw [if_neg ‹_›, if_neg ‹_›]
        exact ih h3

/-- A write leaves every other byte alone. -/
theorem memRead_memWrite_ne (m : List Host.Cell) (a b : Nat) (v : Byte) (h : Memory.wf m = true)
    (hab : b ≠ a) : memRead (memWrite m a v) b = memRead m b := by
  induction m with
  | nil =>
    simp only [memWrite]
    split
    · rfl
    · simp only [memRead, if_neg hab]
      split <;> rfl
  | cons c r ih =>
    obtain ⟨k, x⟩ := c
    obtain ⟨_, h2, h3⟩ := (wf_cons_iff k x r).mp h
    simp only [memWrite]
    split
    · split
      · rfl
      · simp only [memRead, if_neg hab]
        split
        · rw [if_pos (by omega)]
        · rfl
    · split
      · subst_vars
        split
        · simp only [memRead, if_neg hab]
          split
          · exact memRead_below r b fun c hc => by have := h2 c hc; omega
          · rfl
        · simp only [memRead, if_neg hab]
      · simp only [memRead]
        split
        · rfl
        · split
          · rfl
          · exact ih h3

/-- A read after a write, in one line. -/
theorem memRead_memWrite (m : List Host.Cell) (a b : Nat) (v : Byte) (h : Memory.wf m = true) :
    memRead (memWrite m a v) b = if b = a then v else memRead m b := by
  split
  · subst_vars; exact memRead_memWrite_self m _ v h
  · exact memRead_memWrite_ne m a b v h ‹_›

/-! ## Halves, words and runs of bytes -/

/-- A word write keeps the canonical form. -/
theorem wf_memWriteWord (m : List Host.Cell) (a : Nat) (w : Word) (h : Memory.wf m = true) :
    Memory.wf (memWriteWord m a w) = true := by
  simp only [memWriteWord]
  exact wf_memWrite _ _ _ (wf_memWrite _ _ _ (wf_memWrite _ _ _ (wf_memWrite _ _ _ h)))

/-- A half write keeps the canonical form. -/
theorem wf_memWriteHalf (m : List Host.Cell) (a n : Nat) (h : Memory.wf m = true) :
    Memory.wf (memWriteHalf m a n) = true := by
  simp only [memWriteHalf]
  exact wf_memWrite _ _ _ (wf_memWrite _ _ _ h)

/-- A write of bytes keeps the canonical form. -/
theorem wf_memWriteBytes (m : List Host.Cell) (a : Nat) (bs : List Byte) (h : Memory.wf m = true) :
    Memory.wf (memWriteBytes m a bs) = true := by
  induction bs generalizing m a with
  | nil => exact h
  | cons b bs ih => exact ih _ _ (wf_memWrite _ _ _ h)

/-- Contents taken at power-on are put into the canonical form. -/
theorem wf_memOfCells (cs : List Host.Cell) : Memory.wf (memOfCells cs) = true := by
  unfold memOfCells
  generalize hm : ([] : List Host.Cell) = m
  have h : Memory.wf m = true := by subst hm; rfl
  clear hm
  induction cs generalizing m with
  | nil => exact h
  | cons c cs ih =>
    simp only [List.foldl_cons]
    apply ih
    split
    · exact wf_memWrite _ _ _ h
    · exact h

/-- A byte after a word write: one of the four bytes of the word, or what it was. -/
theorem memRead_memWriteWord (m : List Host.Cell) (a b : Nat) (w : Word) (h : Memory.wf m = true) :
    memRead (memWriteWord m a w) b =
      if b = a + 3 then wordByte w 3 else if b = a + 2 then wordByte w 2
      else if b = a + 1 then wordByte w 1 else if b = a then wordByte w 0 else memRead m b := by
  have h1 := wf_memWrite m a (wordByte w 0) h
  have h2 := wf_memWrite _ (a + 1) (wordByte w 1) h1
  have h3 := wf_memWrite _ (a + 2) (wordByte w 2) h2
  simp only [memWriteWord, memRead_memWrite _ _ _ _ h3, memRead_memWrite _ _ _ _ h2,
    memRead_memWrite _ _ _ _ h1, memRead_memWrite _ _ _ _ h]

/-- A word write leaves the bytes outside its word alone. -/
theorem memRead_memWriteWord_ne (m : List Host.Cell) (a b : Nat) (w : Word) (h : Memory.wf m = true)
    (hb : b < a ∨ a + 4 ≤ b) : memRead (memWriteWord m a w) b = memRead m b := by
  rw [memRead_memWriteWord m a b w h, if_neg (by omega), if_neg (by omega), if_neg (by omega),
    if_neg (by omega)]

/-- Two memories that agree on the four bytes of a word agree on the word. -/
theorem memWord_congr {m n : List Host.Cell} {a : Nat} (h : ∀ o, o < 4 → memRead m (a + o) = memRead n (a + o)) :
    memWord m a = memWord n a := by
  have h0 : memRead m a = memRead n a := h 0 (by omega)
  unfold memWord
  rw [h0, h 1 (by omega), h 2 (by omega), h 3 (by omega)]

/-- The four bytes of a word give it back. -/
theorem word_of_bytes (w : Word) :
    toWord ((wordByte w 0).toNat + 256 * (wordByte w 1).toNat + 65536 * (wordByte w 2).toNat +
      16777216 * (wordByte w 3).toNat) = w := by
  have hw := w.isLt
  apply BitVec.eq_of_toNat_eq
  simp only [wordByte, toWord, BitVec.toNat_ofNat]
  omega

/-- Reading the word written gives what was written. -/
theorem memWord_memWriteWord_self (m : List Host.Cell) (a : Nat) (w : Word) (h : Memory.wf m = true) :
    memWord (memWriteWord m a w) a = w := by
  simp only [memWord, memRead_memWriteWord m a _ w h]
  simpa using word_of_bytes w

/-- A word write leaves a word that shares no byte with it alone. -/
theorem memWord_memWriteWord_ne (m : List Host.Cell) (a b : Nat) (w : Word) (h : Memory.wf m = true)
    (hb : b + 4 ≤ a ∨ a + 4 ≤ b) : memWord (memWriteWord m a w) b = memWord m b := by
  unfold memWord
  rw [memRead_memWriteWord_ne m a b w h (by omega), memRead_memWriteWord_ne m a (b + 1) w h (by omega),
    memRead_memWriteWord_ne m a (b + 2) w h (by omega),
    memRead_memWriteWord_ne m a (b + 3) w h (by omega)]

end Sys2Proof.Machine
end

