-- ==== Sys2Proof/Laws/State.lean ====
section
/-! SUPPORT. What each update of the state leaves in each field: one lemma a field and update, so that no later
proof unfolds an update. -/

namespace Sys2Proof.Machine

/-! ## The state and the part -/

@[simp] theorem State.onPart_part (s : State) (f : Part → Part) : (s.onPart f).part = f s.part := rfl
@[simp] theorem State.onPart_pending (s : State) (f : Part → Part) : (s.onPart f).pending = s.pending := rfl

@[simp] theorem Part.onPort_tb (s : Part) (f : Port → Port) : (s.onPort f).tb = s.tb := rfl
@[simp] theorem Part.onPort_sec (s : Part) (f : Port → Port) : (s.onPort f).sec = s.sec := rfl
@[simp] theorem Part.onPort_clk (s : Part) (f : Port → Port) : (s.onPort f).clk = s.clk := rfl
@[simp] theorem Part.onPort_blk (s : Part) (f : Port → Port) : (s.onPort f).blk = s.blk.onPort f := rfl

@[simp] theorem Part.onBlk_tb (s : Part) (f : Blocks → Blocks) : (s.onBlk f).tb = s.tb := rfl
@[simp] theorem Part.onBlk_sec (s : Part) (f : Blocks → Blocks) : (s.onBlk f).sec = s.sec := rfl
@[simp] theorem Part.onBlk_clk (s : Part) (f : Blocks → Blocks) : (s.onBlk f).clk = s.clk := rfl
@[simp] theorem Part.onBlk_blk (s : Part) (f : Blocks → Blocks) : (s.onBlk f).blk = f s.blk := rfl

@[simp] theorem Part.onClock_tb (s : Part) (f : ClockPort → ClockPort) : (s.onClock f).tb = s.tb := rfl
@[simp] theorem Part.onClock_sec (s : Part) (f : ClockPort → ClockPort) : (s.onClock f).sec = s.sec := rfl
@[simp] theorem Part.onClock_clk (s : Part) (f : ClockPort → ClockPort) :
    (s.onClock f).clk = (f (s.clk, s.blk.port)).1 := rfl
@[simp] theorem Part.onClock_blk (s : Part) (f : ClockPort → ClockPort) :
    (s.onClock f).blk = { s.blk with port := (f (s.clk, s.blk.port)).2 } := rfl

@[simp] theorem Part.withTimebase_tb (s : Part) (x : TimebasePort) : (s.withTimebase x).tb = x.1 := rfl
@[simp] theorem Part.withTimebase_sec (s : Part) (x : TimebasePort) : (s.withTimebase x).sec = s.sec := rfl
@[simp] theorem Part.withTimebase_clk (s : Part) (x : TimebasePort) : (s.withTimebase x).clk = s.clk := rfl
@[simp] theorem Part.withTimebase_blk (s : Part) (x : TimebasePort) :
    (s.withTimebase x).blk = { s.blk with port := x.2 } := rfl

/-! ## The blocks -/

@[simp] theorem Blocks.onPort_port (b : Blocks) (f : Port → Port) : (b.onPort f).port = f b.port := rfl
@[simp] theorem Blocks.onPort_comp (b : Blocks) (f : Port → Port) : (b.onPort f).comp = b.comp := rfl
@[simp] theorem Blocks.onPort_measures (b : Blocks) (f : Port → Port) :
    (b.onPort f).measures = b.measures := rfl
@[simp] theorem Blocks.onPort_rot (b : Blocks) (f : Port → Port) : (b.onPort f).rot = b.rot := rfl
@[simp] theorem Blocks.onPort_cap (b : Blocks) (f : Port → Port) : (b.onPort f).cap = b.cap := rfl
@[simp] theorem Blocks.onPort_rep (b : Blocks) (f : Port → Port) : (b.onPort f).rep = b.rep := rfl
@[simp] theorem Blocks.onPort_lanes (b : Blocks) (f : Port → Port) : (b.onPort f).lanes = b.lanes := rfl

@[simp] theorem Blocks.onRot_port (b : Blocks) (f : Rotator → Rotator) : (b.onRot f).port = b.port := rfl
@[simp] theorem Blocks.onRot_comp (b : Blocks) (f : Rotator → Rotator) : (b.onRot f).comp = b.comp := rfl
@[simp] theorem Blocks.onRot_measures (b : Blocks) (f : Rotator → Rotator) :
    (b.onRot f).measures = b.measures := rfl
@[simp] theorem Blocks.onRot_rot (b : Blocks) (f : Rotator → Rotator) : (b.onRot f).rot = f b.rot := rfl
@[simp] theorem Blocks.onRot_cap (b : Blocks) (f : Rotator → Rotator) : (b.onRot f).cap = b.cap := rfl
@[simp] theorem Blocks.onRot_rep (b : Blocks) (f : Rotator → Rotator) : (b.onRot f).rep = b.rep := rfl
@[simp] theorem Blocks.onRot_lanes (b : Blocks) (f : Rotator → Rotator) : (b.onRot f).lanes = b.lanes := rfl

@[simp] theorem Blocks.onRep_port (b : Blocks) (f : Replay → Replay) : (b.onRep f).port = b.port := rfl
@[simp] theorem Blocks.onRep_comp (b : Blocks) (f : Replay → Replay) : (b.onRep f).comp = b.comp := rfl
@[simp] theorem Blocks.onRep_measures (b : Blocks) (f : Replay → Replay) :
    (b.onRep f).measures = b.measures := rfl
@[simp] theorem Blocks.onRep_rot (b : Blocks) (f : Replay → Replay) : (b.onRep f).rot = b.rot := rfl
@[simp] theorem Blocks.onRep_cap (b : Blocks) (f : Replay → Replay) : (b.onRep f).cap = b.cap := rfl
@[simp] theorem Blocks.onRep_rep (b : Blocks) (f : Replay → Replay) : (b.onRep f).rep = f b.rep := rfl
@[simp] theorem Blocks.onRep_lanes (b : Blocks) (f : Replay → Replay) : (b.onRep f).lanes = b.lanes := rfl

@[simp] theorem Blocks.onComp_port (b : Blocks) (f : Compositor → Compositor) :
    (b.onComp f).port = b.port := rfl
@[simp] theorem Blocks.onComp_comp (b : Blocks) (f : Compositor → Compositor) :
    (b.onComp f).comp = f b.comp := rfl
@[simp] theorem Blocks.onComp_measures (b : Blocks) (f : Compositor → Compositor) :
    (b.onComp f).measures = b.measures := rfl
@[simp] theorem Blocks.onComp_rot (b : Blocks) (f : Compositor → Compositor) : (b.onComp f).rot = b.rot := rfl
@[simp] theorem Blocks.onComp_cap (b : Blocks) (f : Compositor → Compositor) : (b.onComp f).cap = b.cap := rfl
@[simp] theorem Blocks.onComp_rep (b : Blocks) (f : Compositor → Compositor) : (b.onComp f).rep = b.rep := rfl
@[simp] theorem Blocks.onComp_lanes (b : Blocks) (f : Compositor → Compositor) :
    (b.onComp f).lanes = b.lanes := rfl

@[simp] theorem Blocks.onLanes_port (b : Blocks) (f : Lanes → Lanes) : (b.onLanes f).port = b.port := rfl
@[simp] theorem Blocks.onLanes_comp (b : Blocks) (f : Lanes → Lanes) : (b.onLanes f).comp = b.comp := rfl
@[simp] theorem Blocks.onLanes_measures (b : Blocks) (f : Lanes → Lanes) :
    (b.onLanes f).measures = b.measures := rfl
@[simp] theorem Blocks.onLanes_rot (b : Blocks) (f : Lanes → Lanes) : (b.onLanes f).rot = b.rot := rfl
@[simp] theorem Blocks.onLanes_cap (b : Blocks) (f : Lanes → Lanes) : (b.onLanes f).cap = b.cap := rfl
@[simp] theorem Blocks.onLanes_rep (b : Blocks) (f : Lanes → Lanes) : (b.onLanes f).rep = b.rep := rfl
@[simp] theorem Blocks.onLanes_lanes (b : Blocks) (f : Lanes → Lanes) : (b.onLanes f).lanes = f b.lanes := rfl

@[simp] theorem Blocks.onInput_port (b : Blocks) (i : Nat) (f : Input → Input) :
    (b.onInput i f).port = b.port := rfl
@[simp] theorem Blocks.onInput_comp (b : Blocks) (i : Nat) (f : Input → Input) :
    (b.onInput i f).comp = b.comp := rfl
@[simp] theorem Blocks.onInput_measures (b : Blocks) (i : Nat) (f : Input → Input) :
    (b.onInput i f).measures = b.measures := rfl
@[simp] theorem Blocks.onInput_rot (b : Blocks) (i : Nat) (f : Input → Input) :
    (b.onInput i f).rot = b.rot := rfl
@[simp] theorem Blocks.onInput_cap (b : Blocks) (i : Nat) (f : Input → Input) :
    (b.onInput i f).cap = b.cap.setInput i (f (b.cap.input i)) := rfl
@[simp] theorem Blocks.onInput_rep (b : Blocks) (i : Nat) (f : Input → Input) :
    (b.onInput i f).rep = b.rep := rfl
@[simp] theorem Blocks.onInput_lanes (b : Blocks) (i : Nat) (f : Input → Input) :
    (b.onInput i f).lanes = b.lanes := rfl

@[simp] theorem Blocks.measure_port (b : Blocks) (states : List SectionState) :
    (b.measure states).port = b.port := rfl
@[simp] theorem Blocks.measure_comp (b : Blocks) (states : List SectionState) :
    (b.measure states).comp = b.comp := rfl
@[simp] theorem Blocks.measure_rot (b : Blocks) (states : List SectionState) :
    (b.measure states).rot = b.rot := rfl
@[simp] theorem Blocks.measure_cap (b : Blocks) (states : List SectionState) :
    (b.measure states).cap = b.cap := rfl
@[simp] theorem Blocks.measure_rep (b : Blocks) (states : List SectionState) :
    (b.measure states).rep = b.rep := rfl
@[simp] theorem Blocks.measure_lanes (b : Blocks) (states : List SectionState) :
    (b.measure states).lanes = b.lanes := rfl

/-! ## The Port -/

@[simp] theorem Port.poke_mem (p : Port) (a : Nat) (w : Word) :
    (p.poke a w).mem = memWriteWord p.mem a w := rfl
@[simp] theorem Port.poke_runState (p : Port) (a : Nat) (w : Word) : (p.poke a w).runState = p.runState := rfl
@[simp] theorem Port.poke_runRequest (p : Port) (a : Nat) (w : Word) :
    (p.poke a w).runRequest = p.runRequest := rfl
@[simp] theorem Port.poke_showTick (p : Port) (a : Nat) (w : Word) : (p.poke a w).showTick = p.showTick := rfl
@[simp] theorem Port.poke_areas (p : Port) (a : Nat) (w : Word) : (p.poke a w).areas = p.areas := rfl
@[simp] theorem Port.poke_sizes (p : Port) (a : Nat) (w : Word) : (p.poke a w).sizes = p.sizes := rfl
@[simp] theorem Port.poke_thresholds (p : Port) (a : Nat) (w : Word) :
    (p.poke a w).thresholds = p.thresholds := rfl
@[simp] theorem Port.poke_result (p : Port) (a : Nat) (w : Word) : (p.poke a w).result = p.result := rfl
@[simp] theorem Port.poke_resultArea (p : Port) (a : Nat) (w : Word) :
    (p.poke a w).resultArea = p.resultArea := rfl
@[simp] theorem Port.poke_partLocks (p : Port) (a : Nat) (w : Word) :
    (p.poke a w).partLocks = p.partLocks := rfl
@[simp] theorem Port.poke_loadLocks (p : Port) (a : Nat) (w : Word) :
    (p.poke a w).loadLocks = p.loadLocks := rfl
@[simp] theorem Port.poke_faultPage (p : Port) (a : Nat) (w : Word) :
    (p.poke a w).faultPage = p.faultPage := rfl
@[simp] theorem Port.poke_latches (p : Port) (a : Nat) (w : Word) : (p.poke a w).latches = p.latches := rfl
@[simp] theorem Port.poke_noticeWaiting (p : Port) (a : Nat) (w : Word) :
    (p.poke a w).noticeWaiting = p.noticeWaiting := rfl
@[simp] theorem Port.poke_logWaiting (p : Port) (a : Nat) (w : Word) :
    (p.poke a w).logWaiting = p.logWaiting := rfl
@[simp] theorem Port.poke_mask (p : Port) (a : Nat) (w : Word) : (p.poke a w).mask = p.mask := rfl
@[simp] theorem Port.poke_irq (p : Port) (a : Nat) (w : Word) : (p.poke a w).irq = p.irq := rfl
@[simp] theorem Port.poke_messages (p : Port) (a : Nat) (w : Word) : (p.poke a w).messages = p.messages := rfl
@[simp] theorem Port.poke_desks (p : Port) (a : Nat) (w : Word) : (p.poke a w).desks = p.desks := rfl
@[simp] theorem Port.poke_logWrite (p : Port) (a : Nat) (w : Word) : (p.poke a w).logWrite = p.logWrite := rfl
@[simp] theorem Port.poke_logFull (p : Port) (a : Nat) (w : Word) : (p.poke a w).logFull = p.logFull := rfl
@[simp] theorem Port.poke_noticeWrite (p : Port) (a : Nat) (w : Word) :
    (p.poke a w).noticeWrite = p.noticeWrite := rfl
@[simp] theorem Port.poke_overrun (p : Port) (a : Nat) (w : Word) : (p.poke a w).overrun = p.overrun := rfl
@[simp] theorem Port.poke_countsInForce (p : Port) (a : Nat) (w : Word) :
    (p.poke a w).countsInForce = p.countsInForce := rfl
@[simp] theorem Port.poke_unstated (p : Port) (a : Nat) (w : Word) : (p.poke a w).unstated = p.unstated := rfl

@[simp] theorem Port.pokePart_mem (p : Port) (o : Nat) (w : Word) :
    (p.pokePart o w).mem = memWriteWord p.mem (partPage + o) w := rfl
@[simp] theorem Port.pokePart_runState (p : Port) (o : Nat) (w : Word) :
    (p.pokePart o w).runState = p.runState := rfl
@[simp] theorem Port.pokePart_runRequest (p : Port) (o : Nat) (w : Word) :
    (p.pokePart o w).runRequest = p.runRequest := rfl
@[simp] theorem Port.pokePart_showTick (p : Port) (o : Nat) (w : Word) :
    (p.pokePart o w).showTick = p.showTick := rfl
@[simp] theorem Port.pokePart_areas (p : Port) (o : Nat) (w : Word) : (p.pokePart o w).areas = p.areas := rfl
@[simp] theorem Port.pokePart_sizes (p : Port) (o : Nat) (w : Word) : (p.pokePart o w).sizes = p.sizes := rfl
@[simp] theorem Port.pokePart_thresholds (p : Port) (o : Nat) (w : Word) :
    (p.pokePart o w).thresholds = p.thresholds := rfl
@[simp] theorem Port.pokePart_result (p : Port) (o : Nat) (w : Word) :
    (p.pokePart o w).result = p.result := rfl
@[simp] theorem Port.pokePart_resultArea (p : Port) (o : Nat) (w : Word) :
    (p.pokePart o w).resultArea = p.resultArea := rfl
@[simp] theorem Port.pokePart_partLocks (p : Port) (o : Nat) (w : Word) :
    (p.pokePart o w).partLocks = p.partLocks := rfl
@[simp] theorem Port.pokePart_loadLocks (p : Port) (o : Nat) (w : Word) :
    (p.pokePart o w).loadLocks = p.loadLocks := rfl
@[simp] theorem Port.pokePart_faultPage (p : Port) (o : Nat) (w : Word) :
    (p.pokePart o w).faultPage = p.faultPage := rfl
@[simp] theorem Port.pokePart_latches (p : Port) (o : Nat) (w : Word) :
    (p.pokePart o w).latches = p.latches := rfl
@[simp] theorem Port.pokePart_noticeWaiting (p : Port) (o : Nat) (w : Word) :
    (p.pokePart o w).noticeWaiting = p.noticeWaiting := rfl
@[simp] theorem Port.pokePart_logWaiting (p : Port) (o : Nat) (w : Word) :
    (p.pokePart o w).logWaiting = p.logWaiting := rfl
@[simp] theorem Port.pokePart_mask (p : Port) (o : Nat) (w : Word) : (p.pokePart o w).mask = p.mask := rfl
@[simp] theorem Port.pokePart_irq (p : Port) (o : Nat) (w : Word) : (p.pokePart o w).irq = p.irq := rfl
@[simp] theorem Port.pokePart_messages (p : Port) (o : Nat) (w : Word) :
    (p.pokePart o w).messages = p.messages := rfl
@[simp] theorem Port.pokePart_desks (p : Port) (o : Nat) (w : Word) : (p.pokePart o w).desks = p.desks := rfl
@[simp] theorem Port.pokePart_logWrite (p : Port) (o : Nat) (w : Word) :
    (p.pokePart o w).logWrite = p.logWrite := rfl
@[simp] theorem Port.pokePart_logFull (p : Port) (o : Nat) (w : Word) :
    (p.pokePart o w).logFull = p.logFull := rfl
@[simp] theorem Port.pokePart_noticeWrite (p : Port) (o : Nat) (w : Word) :
    (p.pokePart o w).noticeWrite = p.noticeWrite := rfl
@[simp] theorem Port.pokePart_overrun (p : Port) (o : Nat) (w : Word) :
    (p.pokePart o w).overrun = p.overrun := rfl
@[simp] theorem Port.pokePart_countsInForce (p : Port) (o : Nat) (w : Word) :
    (p.pokePart o w).countsInForce = p.countsInForce := rfl
@[simp] theorem Port.pokePart_unstated (p : Port) (o : Nat) (w : Word) :
    (p.pokePart o w).unstated = p.unstated := rfl

@[simp] theorem Port.setDesk_mem (p : Port) (d : Desk) (x : DeskState) : (p.setDesk d x).mem = p.mem := rfl
@[simp] theorem Port.setDesk_runState (p : Port) (d : Desk) (x : DeskState) :
    (p.setDesk d x).runState = p.runState := rfl
@[simp] theorem Port.setDesk_runRequest (p : Port) (d : Desk) (x : DeskState) :
    (p.setDesk d x).runRequest = p.runRequest := rfl
@[simp] theorem Port.setDesk_showTick (p : Port) (d : Desk) (x : DeskState) :
    (p.setDesk d x).showTick = p.showTick := rfl
@[simp] theorem Port.setDesk_areas (p : Port) (d : Desk) (x : DeskState) :
    (p.setDesk d x).areas = p.areas := rfl
@[simp] theorem Port.setDesk_sizes (p : Port) (d : Desk) (x : DeskState) :
    (p.setDesk d x).sizes = p.sizes := rfl
@[simp] theorem Port.setDesk_thresholds (p : Port) (d : Desk) (x : DeskState) :
    (p.setDesk d x).thresholds = p.thresholds := rfl
@[simp] theorem Port.setDesk_result (p : Port) (d : Desk) (x : DeskState) :
    (p.setDesk d x).result = p.result := rfl
@[simp] theorem Port.setDesk_resultArea (p : Port) (d : Desk) (x : DeskState) :
    (p.setDesk d x).resultArea = p.resultArea := rfl
@[simp] theorem Port.setDesk_partLocks (p : Port) (d : Desk) (x : DeskState) :
    (p.setDesk d x).partLocks = p.partLocks := rfl
@[simp] theorem Port.setDesk_loadLocks (p : Port) (d : Desk) (x : DeskState) :
    (p.setDesk d x).loadLocks = p.loadLocks := rfl
@[simp] theorem Port.setDesk_faultPage (p : Port) (d : Desk) (x : DeskState) :
    (p.setDesk d x).faultPage = p.faultPage := rfl
@[simp] theorem Port.setDesk_latches (p : Port) (d : Desk) (x : DeskState) :
    (p.setDesk d x).latches = p.latches := rfl
@[simp] theorem Port.setDesk_noticeWaiting (p : Port) (d : Desk) (x : DeskState) :
    (p.setDesk d x).noticeWaiting = p.noticeWaiting := rfl
@[simp] theorem Port.setDesk_logWaiting (p : Port) (d : Desk) (x : DeskState) :
    (p.setDesk d x).logWaiting = p.logWaiting := rfl
@[simp] theorem Port.setDesk_mask (p : Port) (d : Desk) (x : DeskState) : (p.setDesk d x).mask = p.mask := rfl
@[simp] theorem Port.setDesk_irq (p : Port) (d : Desk) (x : DeskState) : (p.setDesk d x).irq = p.irq := rfl
@[simp] theorem Port.setDesk_messages (p : Port) (d : Desk) (x : DeskState) :
    (p.setDesk d x).messages = p.messages := rfl
@[simp] theorem Port.setDesk_desks (p : Port) (d : Desk) (x : DeskState) :
    (p.setDesk d x).desks = p.desks.set d x := rfl
@[simp] theorem Port.setDesk_logWrite (p : Port) (d : Desk) (x : DeskState) :
    (p.setDesk d x).logWrite = p.logWrite := rfl
@[simp] theorem Port.setDesk_logFull (p : Port) (d : Desk) (x : DeskState) :
    (p.setDesk d x).logFull = p.logFull := rfl
@[simp] theorem Port.setDesk_noticeWrite (p : Port) (d : Desk) (x : DeskState) :
    (p.setDesk d x).noticeWrite = p.noticeWrite := rfl
@[simp] theorem Port.setDesk_overrun (p : Port) (d : Desk) (x : DeskState) :
    (p.setDesk d x).overrun = p.overrun := rfl
@[simp] theorem Port.setDesk_countsInForce (p : Port) (d : Desk) (x : DeskState) :
    (p.setDesk d x).countsInForce = p.countsInForce := rfl
@[simp] theorem Port.setDesk_unstated (p : Port) (d : Desk) (x : DeskState) :
    (p.setDesk d x).unstated = p.unstated := rfl

@[simp] theorem Port.settle_mem (p : Port) : p.settle.mem = p.mem := by unfold Port.settle; split <;> rfl
@[simp] theorem Port.settle_runState (p : Port) :
    p.settle.runState = p.runState := by unfold Port.settle; split <;> rfl
@[simp] theorem Port.settle_runRequest (p : Port) :
    p.settle.runRequest = p.runRequest := by unfold Port.settle; split <;> rfl
@[simp] theorem Port.settle_showTick (p : Port) :
    p.settle.showTick = p.showTick := by unfold Port.settle; split <;> rfl
@[simp] theorem Port.settle_areas (p : Port) :
    p.settle.areas = p.areas := by unfold Port.settle; split <;> rfl
@[simp] theorem Port.settle_sizes (p : Port) :
    p.settle.sizes = p.sizes := by unfold Port.settle; split <;> rfl
@[simp] theorem Port.settle_thresholds (p : Port) :
    p.settle.thresholds = p.thresholds := by unfold Port.settle; split <;> rfl
@[simp] theorem Port.settle_result (p : Port) :
    p.settle.result = p.result := by unfold Port.settle; split <;> rfl
@[simp] theorem Port.settle_resultArea (p : Port) :
    p.settle.resultArea = p.resultArea := by unfold Port.settle; split <;> rfl
@[simp] theorem Port.settle_partLocks (p : Port) :
    p.settle.partLocks = p.partLocks := by unfold Port.settle; split <;> rfl
@[simp] theorem Port.settle_loadLocks (p : Port) :
    p.settle.loadLocks = p.loadLocks := by unfold Port.settle; split <;> rfl
@[simp] theorem Port.settle_faultPage (p : Port) :
    p.settle.faultPage = p.faultPage := by unfold Port.settle; split <;> rfl
@[simp] theorem Port.settle_latches (p : Port) :
    p.settle.latches = p.latches := by unfold Port.settle; split <;> rfl
@[simp] theorem Port.settle_noticeWaiting (p : Port) :
    p.settle.noticeWaiting = p.noticeWaiting := by unfold Port.settle; split <;> rfl
@[simp] theorem Port.settle_logWaiting (p : Port) :
    p.settle.logWaiting = p.logWaiting := by unfold Port.settle; split <;> rfl
@[simp] theorem Port.settle_mask (p : Port) : p.settle.mask = p.mask := by unfold Port.settle; split <;> rfl
@[simp] theorem Port.settle_desks (p : Port) :
    p.settle.desks = p.desks := by unfold Port.settle; split <;> rfl
@[simp] theorem Port.settle_logWrite (p : Port) :
    p.settle.logWrite = p.logWrite := by unfold Port.settle; split <;> rfl
@[simp] theorem Port.settle_logFull (p : Port) :
    p.settle.logFull = p.logFull := by unfold Port.settle; split <;> rfl
@[simp] theorem Port.settle_noticeWrite (p : Port) :
    p.settle.noticeWrite = p.noticeWrite := by unfold Port.settle; split <;> rfl
@[simp] theorem Port.settle_overrun (p : Port) :
    p.settle.overrun = p.overrun := by unfold Port.settle; split <;> rfl
@[simp] theorem Port.settle_countsInForce (p : Port) :
    p.settle.countsInForce = p.countsInForce := by unfold Port.settle; split <;> rfl
@[simp] theorem Port.settle_unstated (p : Port) :
    p.settle.unstated = p.unstated := by unfold Port.settle; split <;> rfl

/-- Settling leaves CAUSE as it is. -/
@[simp] theorem Port.settle_cause (p : Port) : p.settle.cause = p.cause := by
  unfold Port.settle; split <;> rfl

/-- Settling leaves the common set as it is. -/
@[simp] theorem Port.settle_common (p : Port) : p.settle.common = p.common := by
  unfold Port.settle; split <;> rfl

/-- After settling the interrupt is the common set (R192). -/
@[simp] theorem Port.settle_irq (p : Port) : p.settle.irq = p.common := by
  unfold Port.settle
  split
  · exact (‹p.common = p.irq›).symm
  · rfl

@[simp] theorem Port.setLatches_mem (p : Port) (l : Latches) :
    (p.setLatches l).mem = p.mem := by simp [Port.setLatches]
@[simp] theorem Port.setLatches_runState (p : Port) (l : Latches) :
    (p.setLatches l).runState = p.runState := by simp [Port.setLatches]
@[simp] theorem Port.setLatches_runRequest (p : Port) (l : Latches) :
    (p.setLatches l).runRequest = p.runRequest := by simp [Port.setLatches]
@[simp] theorem Port.setLatches_showTick (p : Port) (l : Latches) :
    (p.setLatches l).showTick = p.showTick := by simp [Port.setLatches]
@[simp] theorem Port.setLatches_areas (p : Port) (l : Latches) :
    (p.setLatches l).areas = p.areas := by simp [Port.setLatches]
@[simp] theorem Port.setLatches_sizes (p : Port) (l : Latches) :
    (p.setLatches l).sizes = p.sizes := by simp [Port.setLatches]
@[simp] theorem Port.setLatches_thresholds (p : Port) (l : Latches) :
    (p.setLatches l).thresholds = p.thresholds := by simp [Port.setLatches]
@[simp] theorem Port.setLatches_result (p : Port) (l : Latches) :
    (p.setLatches l).result = p.result := by simp [Port.setLatches]
@[simp] theorem Port.setLatches_resultArea (p : Port) (l : Latches) :
    (p.setLatches l).resultArea = p.resultArea := by simp [Port.setLatches]
@[simp] theorem Port.setLatches_partLocks (p : Port) (l : Latches) :
    (p.setLatches l).partLocks = p.partLocks := by simp [Port.setLatches]
@[simp] theorem Port.setLatches_loadLocks (p : Port) (l : Latches) :
    (p.setLatches l).loadLocks = p.loadLocks := by simp [Port.setLatches]
@[simp] theorem Port.setLatches_faultPage (p : Port) (l : Latches) :
    (p.setLatches l).faultPage = p.faultPage := by simp [Port.setLatches]
@[simp] theorem Port.setLatches_latches (p : Port) (l : Latches) :
    (p.setLatches l).latches = l := by simp [Port.setLatches]
@[simp] theorem Port.setLatches_noticeWaiting (p : Port) (l : Latches) :
    (p.setLatches l).noticeWaiting = p.noticeWaiting := by simp [Port.setLatches]
@[simp] theorem Port.setLatches_logWaiting (p : Port) (l : Latches) :
    (p.setLatches l).logWaiting = p.logWaiting := by simp [Port.setLatches]
@[simp] theorem Port.setLatches_mask (p : Port) (l : Latches) :
    (p.setLatches l).mask = p.mask := by simp [Port.setLatches]
@[simp] theorem Port.setLatches_desks (p : Port) (l : Latches) :
    (p.setLatches l).desks = p.desks := by simp [Port.setLatches]
@[simp] theorem Port.setLatches_logWrite (p : Port) (l : Latches) :
    (p.setLatches l).logWrite = p.logWrite := by simp [Port.setLatches]
@[simp] theorem Port.setLatches_logFull (p : Port) (l : Latches) :
    (p.setLatches l).logFull = p.logFull := by simp [Port.setLatches]
@[simp] theorem Port.setLatches_noticeWrite (p : Port) (l : Latches) :
    (p.setLatches l).noticeWrite = p.noticeWrite := by simp [Port.setLatches]
@[simp] theorem Port.setLatches_overrun (p : Port) (l : Latches) :
    (p.setLatches l).overrun = p.overrun := by simp [Port.setLatches]
@[simp] theorem Port.setLatches_countsInForce (p : Port) (l : Latches) :
    (p.setLatches l).countsInForce = p.countsInForce := by simp [Port.setLatches]
@[simp] theorem Port.setLatches_unstated (p : Port) (l : Latches) :
    (p.setLatches l).unstated = p.unstated := by simp [Port.setLatches]

/-! ## Desks -/

/-- The desk set is read back. -/
@[simp] theorem Desks.get_set_self (ds : Desks) (d : Desk) (x : DeskState) : (ds.set d x).get d = x := by
  cases d <;> rfl

/-- Every other desk is left alone. -/
theorem Desks.get_set_ne (ds : Desks) (d e : Desk) (x : DeskState) (h : e ≠ d) :
    (ds.set d x).get e = ds.get e := by
  cases d <;> cases e <;> first | rfl | exact absurd rfl h

/-! ## Tables of the blocks -/

/-- The clock set is read back. -/
@[simp] theorem ClockUnit.clock_setClock_self (u : ClockUnit) (i : ClockId) (c : Clock) :
    (u.setClock i c).clock i = c := by
  cases i <;> rfl

/-- The other clock is left alone. -/
theorem ClockUnit.clock_setClock_ne (u : ClockUnit) (i j : ClockId) (c : Clock) (h : j ≠ i) :
    (u.setClock i c).clock j = u.clock j := by
  cases i <;> cases j <;> first | rfl | exact absurd rfl h

@[simp] theorem ClockUnit.setClock_word (u : ClockUnit) (i : ClockId) (c : Clock) :
    (u.setClock i c).word = u.word := by cases i <;> rfl
@[simp] theorem ClockUnit.setClock_gap (u : ClockUnit) (i : ClockId) (c : Clock) :
    (u.setClock i c).gap = u.gap := by cases i <;> rfl
@[simp] theorem ClockUnit.setClock_heard (u : ClockUnit) (i : ClockId) (c : Clock) :
    (u.setClock i c).heard = u.heard := by cases i <;> rfl
@[simp] theorem ClockUnit.setClock_silence (u : ClockUnit) (i : ClockId) (c : Clock) :
    (u.setClock i c).silence = u.silence := by cases i <;> rfl
@[simp] theorem ClockUnit.setClock_discards (u : ClockUnit) (i : ClockId) (c : Clock) :
    (u.setClock i c).discards = u.discards := by cases i <;> rfl
@[simp] theorem ClockUnit.setClock_horn (u : ClockUnit) (i : ClockId) (c : Clock) :
    (u.setClock i c).horn = u.horn := by cases i <;> rfl
@[simp] theorem ClockUnit.setClock_score (u : ClockUnit) (i : ClockId) (c : Clock) :
    (u.setClock i c).score = u.score := by cases i <;> rfl
@[simp] theorem ClockUnit.setClock_edit (u : ClockUnit) (i : ClockId) (c : Clock) :
    (u.setClock i c).edit = u.edit := by cases i <;> rfl

end Sys2Proof.Machine
end

