-- ==== Sys2Proof/Laws/Port.lean ====
section
/-! SUPPORT. What the shared operations of the Port can do. A property of the Port that survives each of the
small changes named in `Port.Closed` survives every slot move, notice, log record and pickup. -/

namespace Sys2Proof.Machine

/-- A property of the Port that the part's own small changes keep: a byte written, desk states, latches, the
conditions, the write counts and flags, the load locks and the model's draw of free values. -/
structure Port.Closed (P : Port → Prop) : Prop where
  write : ∀ (p : Port) (m : List Host.Cell) (a : Nat) (v : Byte),
    P { p with mem := m } → P { p with mem := memWrite m a v }
  desks : ∀ p ds, P p → P { p with desks := ds }
  setLatches : ∀ p l, P p → P (p.setLatches l)
  evalConditions : ∀ p, P p → P p.evalConditions
  noticeWrite : ∀ p n, P p → P { p with noticeWrite := n }
  logWrite : ∀ p n, P p → P { p with logWrite := n }
  overrun : ∀ p x, P p → P { p with overrun := x }
  logFull : ∀ p x, P p → P { p with logFull := x }
  unstated : ∀ p n, P p → P { p with unstated := n }
  loadLocks : ∀ p l, P p → P { p with loadLocks := l }

namespace Port.Closed

variable {P : Port → Prop} (h : Port.Closed P)
include h

theorem word (p : Port) (m : List Host.Cell) (a : Nat) (w : Word) (hp : P { p with mem := m }) :
    P { p with mem := memWriteWord m a w } :=
  h.write p _ _ _ (h.write p _ _ _ (h.write p _ _ _ (h.write p _ _ _ hp)))

theorem half (p : Port) (m : List Host.Cell) (a n : Nat) (hp : P { p with mem := m }) :
    P { p with mem := memWriteHalf m a n } :=
  h.write p _ _ _ (h.write p _ _ _ hp)

theorem bytes (p : Port) (m : List Host.Cell) (a : Nat) (bs : List Byte) (hp : P { p with mem := m }) :
    P { p with mem := memWriteBytes m a bs } := by
  induction bs generalizing m a with
  | nil => exact hp
  | cons b bs ih => exact ih _ _ (h.write p m a b hp)

theorem poke (p : Port) (a : Nat) (w : Word) (hp : P p) : P (p.poke a w) := h.word p p.mem a w hp

theorem pokePart (p : Port) (o : Nat) (w : Word) (hp : P p) : P (p.pokePart o w) := h.poke _ _ _ hp

theorem setDesk (p : Port) (d : Desk) (x : DeskState) (hp : P p) : P (p.setDesk d x) := h.desks _ _ hp

theorem latchDeskDone (p : Port) (hp : P p) : P p.latchDeskDone := h.setLatches _ _ hp

theorem latchHorn (p : Port) (hp : P p) : P p.latchHorn := h.setLatches _ _ hp

theorem raiseDone (p : Port) (d : Desk) (hp : P p) : P (p.raiseDone d) :=
  h.latchDeskDone _ (h.pokePart _ _ _ (h.setDesk _ _ _ hp))

theorem unhold (p : Port) (d : Desk) (i : Nat) (hp : P p) : P (p.unhold d i) := h.setDesk _ _ _ hp

theorem provisional (p : Port) (d : Desk) (i : Nat) (o : CardOutcome) (r : Word) (hp : P p) :
    P (p.provisional d i o r) := h.poke _ _ _ (h.poke _ _ _ hp)

theorem activate (p : Port) (d : Desk) (i : Nat) (hp : P p) : P (p.activate d i) := h.poke _ _ _ hp

theorem moveOut (p : Port) (d : Desk) (i : Nat) (st : Word) (o : CardOutcome) (tick r : Word)
    (hp : P p) : P (p.moveOut d i st o tick r) :=
  h.raiseDone _ _ (h.unhold _ _ _ (h.poke _ _ _ (h.poke _ _ _ (h.poke _ _ _ (h.poke _ _ _ hp)))))

theorem complete (p : Port) (d : Desk) (i : Nat) (o : CardOutcome) (r : Word) (hp : P p) :
    P (p.complete d i o r) := h.moveOut _ _ _ _ _ _ _ hp

theorem refuse (p : Port) (d : Desk) (i : Nat) (o : CardOutcome) (r : Word) (hp : P p) :
    P (p.refuse d i o r) := h.moveOut _ _ _ _ _ _ _ hp

theorem drawUnstated (p : Port) (hp : P p) : P p.drawUnstated.2 := h.unstated _ _ hp

theorem testOverrun (p : Port) (hp : P p) : P p.testOverrun := by
  unfold Port.testOverrun
  split
  · exact h.pokePart _ _ _ (h.overrun _ _ hp)
  · exact hp

theorem writeNotice (p : Port) (k : NoticeKind) (subject : Nat) (value : Word) (hp : P p) :
    P (p.writeNotice k subject value) :=
  h.evalConditions _ (h.pokePart _ _ _ (h.noticeWrite _ _ (h.poke _ _ _ (h.poke _ _ _
    (h.half p _ _ _ (h.half p _ _ _ hp))))))

theorem notice (p : Port) (k : NoticeKind) (subject : Nat) (value : Word) (hp : P p) :
    P (p.notice k subject value) := by
  have ht := h.testOverrun p hp
  unfold Port.notice
  split
  · dsimp only
    split
    · exact h.writeNotice _ _ _ _ ht
    · split
      · exact ht
      · exact h.pokePart _ _ _ (h.overrun _ _ ht)
  · exact hp

theorem testLogFull (p : Port) (hp : P p) : P p.testLogFull := by
  unfold Port.testLogFull
  split
  · exact h.pokePart _ _ _ (h.logFull _ _ hp)
  · exact hp

theorem writeLog (p : Port) (r : LogRecord) (hp : P p) : P (p.writeLog r) :=
  h.evalConditions _ (h.pokePart _ _ _ (h.logWrite _ _ (h.poke _ _ _ (h.poke _ _ _ (h.poke _ _ _
    (h.poke _ _ _ (h.poke _ _ _ (h.poke _ _ _ (h.half p _ _ _ (h.half p _ _ _ (h.bytes p p.mem _ _ hp)))))))))))

theorem log (p : Port) (r : LogRecord) (hp : P p) : P (p.log r) := by
  have ht := h.testLogFull p hp
  unfold Port.log
  dsimp only
  split
  · exact h.writeLog _ _ ht
  · split
    · exact ht
    · exact h.notice _ _ _ _ (h.pokePart _ _ _ (h.logFull _ _ ht))

theorem recordError (p : Port) (slot : Word) (i n : Nat) (hp : P p) : P (p.recordError slot i n) := by
  unfold Port.recordError
  split
  · exact h.pokePart _ _ _ (h.pokePart _ _ _ (h.pokePart _ _ _ hp))
  · exact hp

/-- A change applied over a list keeps the property where each application does. -/
theorem fold {α : Type} (f : Port → α → Port) (hf : ∀ p x, P p → P (f p x)) (l : List α) (p : Port)
    (hp : P p) : P (l.foldl f p) := by
  have _ := h
  induction l generalizing p with
  | nil => exact hp
  | cons x l ih => exact ih _ (hf _ _ hp)

/-! ## The Desk Reader -/

theorem refusePosted (p : Port) (d : Desk) (i : Nat) (o : CardOutcome) (r : Word) (hp : P p) :
    P (p.refusePosted d i o r) := h.refuse _ _ _ _ _ (h.poke _ _ _ hp)

theorem judgePosted (last : Word) (newer : List Posted) (d : Desk) (p : Port) (x : Posted) (hp : P p) :
    P (p.judgePosted last newer d x) := by
  unfold Port.judgePosted
  split
  · split
    · split
      · exact hp
      · exact h.refusePosted _ _ _ _ _ hp
    · exact hp
  · exact h.refusePosted _ _ _ _ _ hp

theorem markTaken (p : Port) (d : Desk) (i : Nat) (hp : P p) : P (p.markTaken d i) :=
  h.setDesk _ _ _ (h.poke _ _ _ (h.poke _ _ _ hp))

theorem setSeen (p : Port) (d : Desk) (n : Word) (hp : P p) : P (p.setSeen d n) :=
  h.pokePart _ _ _ (h.setDesk _ _ _ hp)

theorem takeOne {α : Type} (parse : Word → List Host.Cell → Nat → Option α) (d : Desk)
    (acc : Port × List (Taken α)) (x : Posted) (hp : P acc.1) : P (takeOne parse d acc x).1 := by
  have hl : P (acc.1.setLast d x.post) := h.setDesk _ _ _ hp
  unfold Machine.takeOne
  dsimp only
  split
  · exact h.refusePosted _ _ _ _ _ hl
  · exact h.markTaken _ _ _ hl

theorem takeAll {α : Type} (parse : Word → List Host.Cell → Nat → Option α) (d : Desk)
    (l : List Posted) (acc : Port × List (Taken α)) (hp : P acc.1) :
    P (l.foldl (Machine.takeOne parse d) acc).1 := by
  induction l generalizing acc with
  | nil => exact hp
  | cons x l ih => exact ih _ (h.takeOne parse d acc x hp)

theorem scanDesk {α : Type} (parse : Word → List Host.Cell → Nat → Option α) (d : Desk) (p : Port)
    (hp : P p) : P (scanDesk parse d p).1 := by
  unfold Machine.scanDesk
  dsimp only
  split
  · exact h.setSeen _ _ _ (h.takeAll _ _ _ _ (h.fold _ (fun p x => h.judgePosted _ _ _ p x) _ _ hp))
  · exact h.setDesk _ _ _ (h.takeAll _ _ _ _ (h.fold _ (fun p x => h.judgePosted _ _ _ p x) _ _ hp))

theorem pickup {α : Type} (parse : Word → List Host.Cell → Nat → Option α) (d : Desk) (stalled : Bool)
    (p : Port) (hp : P p) : P (pickup parse d stalled p).1 := by
  unfold Machine.pickup
  split
  · exact hp
  · exact h.scanDesk _ _ _ hp

end Port.Closed

end Sys2Proof.Machine
end

