-- ==== Sys2Proof/Laws/Boards.lean ====
section
/-! SUPPORT. What the blocks can do to the Port at a mark or by a command: a property that survives the small
changes of `Port.Closed` survives every operation of the Rotator, the Capture and Replay Units, the Lanes and
the Compositor. -/

namespace Sys2Proof.Machine
namespace Port.Closed

variable {P : Port → Prop} (h : Port.Closed P)
include h

/-- Changes of the blocks applied over a list. -/
theorem foldBlocks {α : Type} (f : Blocks → α → Blocks) (hf : ∀ b x, P b.port → P (f b x).port)
    (l : List α) (b : Blocks) (hp : P b.port) : P (l.foldl f b).port := by
  have _ := h
  induction l generalizing b with
  | nil => exact hp
  | cons x l ih => exact ih _ (hf _ _ hp)

/-! ## Rotator -/

theorem writeMeter (b : Blocks) (e : Nat) (bytes : List Byte) (hp : P b.port) :
    P (b.writeMeter e bytes).port :=
  h.poke _ _ _ (h.bytes (b.port.poke _ _) _ _ _ (h.poke _ _ _ hp))

theorem putEntry (b : Blocks) (e : Nat) (x : Entry) (hp : P b.port) : P (b.putEntry e x).port :=
  h.writeMeter _ _ _ hp

theorem endAirings (b : Blocks) (test : Airing → Bool) (reason : AiringEnd) (hp : P b.port) :
    P (b.endAirings test reason).port :=
  h.fold _ (fun p _ => h.log p _) _ _ hp

theorem endDue (b : Blocks) (reason : AiringEnd) (zone : Nat) (hp : P b.port) :
    P (b.endDue reason zone).port := h.endAirings _ _ _ hp

theorem dwellWork (b : Blocks) (hp : P b.port) : P b.dwellWork.port :=
  h.foldBlocks _ (fun _ _ hb => h.endDue _ _ _ (h.endDue _ _ _ hb)) _ _ hp

theorem setEntryOp (slot : Nat) (q : EntryCue) (b : Blocks) (hp : P b.port) :
    P (setEntryOp slot q b).port := by
  unfold Machine.setEntryOp
  dsimp only
  split
  · exact h.refuse _ _ _ _ _ hp
  · split
    · exact h.complete _ _ _ _ _ (h.putEntry _ _ _ (h.endAirings _ _ _ hp))
    · exact h.complete _ _ _ _ _ (h.putEntry _ _ _ (h.endAirings _ _ _ hp))

theorem dropEntryOp (slot entry : Nat) (b : Blocks) (hp : P b.port) :
    P (dropEntryOp slot entry b).port := by
  unfold Machine.dropEntryOp
  split
  · exact h.refuse _ _ _ _ _ hp
  · split
    · exact h.complete _ _ _ _ _ hp
    · exact h.complete _ _ _ _ _ (h.writeMeter (Blocks.onRot _ _) _ _ (h.endAirings _ _ _ hp))

theorem setGroupOp (slot : Nat) (q : GroupCue) (b : Blocks) (hp : P b.port) :
    P (setGroupOp slot q b).port := by
  unfold Machine.setGroupOp
  split
  · exact h.refuse _ _ _ _ _ hp
  · split
    · exact h.refuse _ _ _ _ _ hp
    · exact h.complete _ _ _ _ _ hp

theorem loadImageOp (slot : Nat) (q : LoadCue) (b : Blocks) (hp : P b.port) :
    P (loadImageOp slot q b).port := by
  unfold Machine.loadImageOp
  split
  · exact h.refuse _ _ _ _ _ hp
  · exact h.activate _ _ _ (h.provisional _ _ _ _ _ (h.loadLocks _ _ hp))

theorem completeLoad (b : Blocks) (hp : P b.port) : P b.completeLoad.port := by
  unfold Blocks.completeLoad
  split
  · exact hp
  · exact h.complete _ _ _ _ _ (h.loadLocks _ _ hp)

theorem copyFrame (b : Blocks) (hp : P b.port) : P b.copyFrame.port := by
  unfold Blocks.copyFrame
  split
  · exact hp
  · split
    · exact h.completeLoad _ hp
    · exact hp

theorem finishLoad (b : Blocks) (hp : P b.port) : P b.finishLoad.port := by
  unfold Blocks.finishLoad
  split
  · exact hp
  · split
    · exact h.completeLoad _ hp
    · exact hp

theorem openAiring (b : Blocks) (z : Zone) (g : Group) (i : Nat) (hp : P b.port) :
    P (b.openAiring z g i).port := by
  unfold Blocks.openAiring
  dsimp only
  split
  · exact hp
  · exact h.putEntry _ _ _ hp

theorem select (b : Blocks) (z : Zone) (hp : P b.port) : P (b.select z).port := by
  unfold Blocks.select
  split
  · exact hp
  · split
    · exact hp
    · exact h.openAiring _ _ _ _ hp

theorem selectionPass (b : Blocks) (hp : P b.port) : P b.selectionPass.port :=
  h.foldBlocks _ (fun b z => h.select b z) _ _ hp

theorem creditEntry (n c : Nat → Nat) (b : Blocks) (e : Nat) (hp : P b.port) :
    P (b.creditEntry n c e).port := by
  unfold Blocks.creditEntry
  split
  · exact hp
  · dsimp only
    split
    · exact hp
    · split
      · exact h.notice _ _ _ _ (h.putEntry _ _ _ hp)
      · exact h.putEntry _ _ _ hp

theorem creditFrame (b : Blocks) (l : List (Nat × Nat)) (hp : P b.port) : P (b.creditFrame l).port :=
  h.foldBlocks _ (fun b e => h.creditEntry _ _ b e) _ _ hp

theorem stopRotator (b : Blocks) (hp : P b.port) : P b.stopRotator.port :=
  h.fold _ (fun p _ => h.complete p _ _ _ _) _ _ (h.endAirings _ _ _ hp)

/-! ## Capture Unit -/

theorem closeClip (b : Blocks) (c n : Nat) (hp : P b.port) : P (b.closeClip c n).port := by
  unfold Blocks.closeClip
  split
  · exact hp
  · exact h.notice _ _ _ _ hp

theorem closeClips (b : Blocks) (i n : Nat) (hp : P b.port) : P (b.closeClips i n).port :=
  h.foldBlocks _ (fun b c => h.closeClip b c n) _ _ hp

theorem starve (b : Blocks) (i n : Nat) (hp : P b.port) : P (b.starve i n).port := by
  unfold Blocks.starve
  dsimp only
  split
  · exact hp
  · exact h.notice _ _ _ _ hp

theorem fillBay (b : Blocks) (i k : Nat) (hp : P b.port) : P (b.fillBay i k).port := by
  unfold Blocks.fillBay
  dsimp only
  split
  · exact hp
  · exact h.starve _ _ _ hp

theorem storeFrame (b : Blocks) (i k : Nat) (p : Picture) (hp : P b.port) :
    P (b.storeFrame i k p).port := by
  unfold Blocks.storeFrame
  dsimp only
  split
  · exact h.fillBay _ _ _ (h.closeClips _ _ _ hp)
  · exact h.closeClips _ _ _ hp

theorem discardFrame (b : Blocks) (i : Nat) (p : Picture) (hp : P b.port) :
    P (b.discardFrame i p).port := h.closeClips _ _ _ (h.starve b i _ hp)

theorem resume (b : Blocks) (i k : Nat) (hp : P b.port) : P (b.resume i k).port := by
  unfold Blocks.resume
  dsimp only
  split
  · exact h.notice _ _ _ _ hp
  · exact hp

theorem numberFrame (b : Blocks) (i : Nat) (p : Picture) (hp : P b.port) :
    P (b.numberFrame i p).port := by
  unfold Blocks.numberFrame
  split
  · exact h.storeFrame _ _ _ _ hp
  · split
    · exact h.storeFrame _ _ _ _ (h.resume _ _ _ hp)
    · exact h.discardFrame _ _ _ hp

theorem conformingArrival (b : Blocks) (i : Nat) (p : Picture) (hp : P b.port) :
    P (b.conformingArrival i p).port := by
  unfold Blocks.conformingArrival
  dsimp only
  split
  · exact h.notice _ _ _ _ (h.numberFrame _ _ _ hp)
  · exact h.numberFrame _ _ _ hp

theorem arrive (b : Blocks) (i timer : Nat) (conforming : Bool) (p : Picture) (hp : P b.port) :
    P (b.arrive i timer conforming p).port := by
  unfold Blocks.arrive
  dsimp only
  split
  · exact hp
  · split
    · exact h.conformingArrival _ _ _ hp
    · exact hp

theorem completeOff (p : Port) (slot next : Nat) (hp : P p) : P (p.completeOff slot next) := by
  unfold Port.completeOff
  split
  · exact h.complete _ _ _ _ _ (h.drawUnstated _ hp)
  · exact h.complete _ _ _ _ _ hp

theorem setInputOp (timer slot : Nat) (q : InputCue) (b : Blocks) (hp : P b.port) :
    P (setInputOp timer slot q b).port := by
  unfold Machine.setInputOp
  split
  · exact h.refuse _ _ _ _ _ hp
  split
  · exact h.refuse _ _ _ _ _ hp
  split
  · unfold Machine.setInputOff
    dsimp only
    split <;> exact h.completeOff _ _ _ hp
  split
  · exact h.refuse _ _ _ _ _ hp
  unfold Machine.setInputOn
  dsimp only
  split
  · split
    · exact h.refuse _ _ _ _ _ hp
    · split
      · exact h.refuse _ _ _ _ _ hp
      · exact h.complete _ _ _ _ _ hp
  · split
    · exact h.complete _ _ _ _ _ hp
    · exact h.refuse _ _ _ _ _ hp

theorem damage (b : Blocks) (i n : Nat) (hp : P b.port) : P (b.damage i n).port := by
  unfold Blocks.damage
  dsimp only
  split
  · exact hp
  · exact h.recordError _ _ _ _ hp

/-! ## Replay Unit -/

theorem freeClip (b : Blocks) (c cause : Nat) (hp : P b.port) : P (b.freeClip c cause).port := by
  unfold Blocks.freeClip
  split
  · exact hp
  · exact h.complete _ _ _ _ _ (h.notice _ _ _ _ hp)

theorem freeIfLeft (b : Blocks) (c : Nat) (hp : P b.port) : P (b.freeIfLeft c).port := by
  unfold Blocks.freeIfLeft
  split
  · exact hp
  · split
    · exact h.freeClip _ _ _ hp
    · exact hp

theorem releaseClip (b : Blocks) (c cause : Nat) (hp : P b.port) : P (b.releaseClip c cause).port := by
  unfold Blocks.releaseClip
  split
  · exact hp
  · split
    · exact h.freeClip _ _ _ hp
    · exact hp

theorem keepTick (b : Blocks) (c : Nat) (hp : P b.port) : P (b.keepTick c).port := by
  unfold Blocks.keepTick
  split
  · exact hp
  · split
    · split
      · exact h.releaseClip _ _ _ hp
      · exact hp
    · exact hp

theorem keepWork (b : Blocks) (hp : P b.port) : P b.keepWork.port :=
  h.foldBlocks _ (fun b c => h.keepTick b c) _ _ hp

theorem expireClip (c : Nat) (b : Blocks) (hp : P b.port) : P (b.expireClip c).port := by
  unfold Blocks.expireClip
  split
  · exact hp
  · split
    · exact h.releaseClip _ _ _ hp
    · exact hp

theorem markClipOp (slot : Nat) (post : Word) (q : MarkCue) (b : Blocks) (hp : P b.port) :
    P (markClipOp slot post q b).port := by
  unfold Machine.markClipOp
  split
  · exact h.refuse _ _ _ _ _ hp
  · dsimp only
    split
    · exact h.activate _ _ _ (h.provisional _ _ _ _ _ hp)
    · split
      · exact h.closeClip _ _ _ (h.activate _ _ _ (h.provisional _ _ _ _ _ hp))
      · exact h.activate _ _ _ (h.provisional _ _ _ _ _ hp)

theorem keepClipOp (slot : Nat) (q : KeepCue) (b : Blocks) (hp : P b.port) :
    P (keepClipOp slot q b).port := by
  unfold Machine.keepClipOp
  split
  · exact h.refuse _ _ _ _ _ hp
  · split
    · exact h.refuse _ _ _ _ _ hp
    · split
      · exact h.refuse _ _ _ _ _ hp
      · exact h.complete _ _ _ _ _ hp

theorem dropClipOp (slot : Nat) (q : DropClipCue) (b : Blocks) (hp : P b.port) :
    P (dropClipOp slot q b).port := by
  unfold Machine.dropClipOp
  split
  · exact h.refuse _ _ _ _ _ hp
  · split
    · exact h.complete _ _ _ _ _ hp
    · dsimp only
      split
      · exact h.complete _ _ _ _ _ hp
      · exact h.complete _ _ _ _ _ (h.releaseClip _ _ _ hp)

theorem cueHeadOp (slot : Nat) (q : CueHeadCue) (b : Blocks) (hp : P b.port) :
    P (cueHeadOp slot q b).port := by
  unfold Machine.cueHeadOp
  split
  · exact h.refuse _ _ _ _ _ hp
  · dsimp only
    split
    · exact h.complete _ _ _ _ _ (h.freeIfLeft (Blocks.onRep _ _) _ hp)
    · exact h.complete _ _ _ _ _ hp

theorem playOp (slot : Nat) (q : PlayCue) (b : Blocks) (hp : P b.port) : P (playOp slot q b).port := by
  unfold Machine.playOp
  split
  · exact h.refuse _ _ _ _ _ hp
  · dsimp only
    split
    · exact h.refuse _ _ _ _ _ hp
    · exact h.complete _ _ _ _ _ hp

theorem setRateOp (slot : Nat) (q : RateCue) (b : Blocks) (hp : P b.port) :
    P (setRateOp slot q b).port := by
  unfold Machine.setRateOp
  split
  · exact h.refuse _ _ _ _ _ hp
  · dsimp only
    split
    · exact h.refuse _ _ _ _ _ hp
    · exact h.complete _ _ _ _ _ hp

theorem pauseOp (slot head : Nat) (b : Blocks) (hp : P b.port) : P (pauseOp slot head b).port := by
  unfold Machine.pauseOp
  split
  · exact h.refuse _ _ _ _ _ hp
  · dsimp only
    split
    · exact h.refuse _ _ _ _ _ hp
    · exact h.complete _ _ _ _ _ hp

theorem stopHeadOp (slot head : Nat) (b : Blocks) (hp : P b.port) : P (stopHeadOp slot head b).port := by
  unfold Machine.stopHeadOp
  split
  · exact h.refuse _ _ _ _ _ hp
  · dsimp only
    split
    · exact h.complete _ _ _ _ _ (h.freeIfLeft (Blocks.onRep _ _) _ hp)
    · exact h.complete _ _ _ _ _ hp

theorem advanceHead (b : Blocks) (i : Nat) (hp : P b.port) : P (b.advanceHead i).port := by
  unfold Blocks.advanceHead
  dsimp only
  split
  · split
    · exact hp
    · split
      · exact hp
      · exact h.notice _ _ _ _ hp
  · exact hp

theorem advanceHeads (b : Blocks) (hp : P b.port) : P b.advanceHeads.port :=
  h.advanceHead _ _ (h.advanceHead _ _ hp)

theorem readFrame (b : Blocks) (bad : List (Nat × Nat)) (head i n : Nat) (hp : P b.port) :
    P (b.readFrame bad head i n).2.port := by
  unfold Blocks.readFrame
  split
  · exact hp
  · split
    · exact h.notice _ _ _ _ (h.damage _ _ _ hp)
    · exact hp

theorem blended (b : Blocks) (bad : List (Nat × Nat)) (head : Nat) (x : Head) (y : Clip) (pic : Picture)
    (hp : P b.port) : P (b.blended bad head x y pic).2.port := by
  unfold Blocks.blended
  dsimp only
  split
  · have hr := h.readFrame b bad head y.input (x.position / 256 + 1) hp
    split
    · rename_i heq; rw [heq] at hr; exact hr
    · rename_i heq; rw [heq] at hr; exact hr
  · exact hp

theorem missFrame (b : Blocks) (i : Nat) (x : Clip) (hp : P b.port) : P (b.missFrame i x).port := by
  unfold Blocks.missFrame
  dsimp only
  split
  · exact hp
  · exact h.notice _ _ _ _ hp

theorem outputHead (bad : List (Nat × Nat)) (b : Blocks) (i : Nat) (hp : P b.port) :
    P (b.outputHead bad i).port := by
  unfold Blocks.outputHead
  dsimp only
  split
  · exact hp
  · rename_i x _
    split
    · exact hp
    · split
      · have hr := h.readFrame b bad i x.input ((b.rep.head i).position / 256) hp
        split
        · rename_i heq; rw [heq] at hr; exact hr
        · rename_i heq; rw [heq] at hr; exact h.blended _ _ _ _ _ _ hr
      · exact h.missFrame _ _ _ hp

theorem outputHeads (bad : List (Nat × Nat)) (headBFirst : Bool) (b : Blocks) (hp : P b.port) :
    P (b.outputHeads bad headBFirst).port := by
  unfold Blocks.outputHeads
  split
  · exact h.outputHead _ _ _ (h.outputHead _ _ _ hp)
  · exact h.outputHead _ _ _ (h.outputHead _ _ _ hp)

theorem stopReplay (b : Blocks) (hp : P b.port) : P b.stopReplay.port := by
  refine h.fold _ (fun p c hc => ?_) _ _ hp
  unfold Port.stopClip
  split
  · exact hc
  · exact h.complete _ _ _ _ _ hc

/-! ## Message Lanes -/

theorem finishCard (b : Blocks) (c : MsgCard) (o : CardOutcome) (hp : P b.port) :
    P (b.finishCard c o).port := h.complete _ _ _ _ _ hp

theorem hold (b : Blocks) (c : MsgCard) (hp : P b.port) : P (b.hold c).port :=
  h.provisional _ _ _ _ _ hp

theorem offer (b : Blocks) (c : MsgCard) (hp : P b.port) : P (b.offer c).port := by
  unfold Blocks.offer
  split
  · exact h.hold _ _ hp
  · split
    · split
      · exact h.hold _ _ (h.finishCard _ _ _ hp)
      · exact h.refuse _ _ _ _ _ hp
    · exact h.refuse _ _ _ _ _ hp

theorem messageOp (slot : Nat) (post : Word) (q : MessageCue) (b : Blocks) (hp : P b.port) :
    P (messageOp slot post q b).port := by
  unfold Machine.messageOp
  split
  · exact h.refuse _ _ _ _ _ hp
  · split
    · exact h.refuse _ _ _ _ _ hp
    · dsimp only
      split
      · exact h.refuse _ _ _ _ _ hp
      · split
        · exact h.complete _ _ _ _ _ hp
        · exact h.offer _ _ hp

theorem beginCard (p : Port) (c : MsgCard) (lanes : List (Nat × Nat)) (hp : P p) :
    P (p.beginCard c lanes) := by
  unfold Port.beginCard
  dsimp only
  split
  · split
    · exact h.poke _ _ _ hp
    · exact hp
  · split
    · exact h.activate _ _ _ (h.poke _ _ _ hp)
    · exact h.activate _ _ _ hp

theorem beginPass (b : Blocks) (c : MsgCard) (lanes : List (Nat × Nat)) (hp : P b.port) :
    P (b.beginPass c lanes).port := h.beginCard _ _ _ hp

theorem endPass (b : Blocks) (c : MsgCard) (p : Pass) (e : PassEnd) (hp : P b.port) :
    P (b.endPass c p e).port := by
  unfold Blocks.endPass
  dsimp only
  split
  · exact h.log _ _ hp
  · exact hp

theorem completePass (b : Blocks) (c : MsgCard) (p : Pass) (hp : P b.port) :
    P (b.completePass c p).port := by
  unfold Blocks.completePass
  dsimp only
  split
  · exact h.finishCard _ _ _ (h.endPass _ _ _ _ hp)
  · exact h.endPass _ _ _ _ hp

theorem applyJudgement (b : Blocks) (j : Option PassEnd × Pass) (hp : P b.port) :
    P (b.applyJudgement j).port := by
  unfold Blocks.applyJudgement
  split
  · exact hp
  · split
    · exact hp
    · exact h.completePass _ _ _ hp
    · exact h.endPass _ _ _ _ hp

theorem advancePasses (b : Blocks) (hp : P b.port) : P b.advancePasses.port :=
  h.foldBlocks _ (fun b _ => h.applyJudgement b _) _ _ hp

theorem expireCard (b : Blocks) (slot : Nat) (hp : P b.port) : P (b.expireCard slot).port := by
  unfold Blocks.expireCard
  split
  · exact hp
  · split
    · exact h.finishCard _ _ _ hp
    · exact hp

theorem expireCards (b : Blocks) (hp : P b.port) : P b.expireCards.port :=
  h.foldBlocks _ (fun b s => h.expireCard b s) _ _ hp

theorem preempt (b : Blocks) (p : Pass) (hp : P b.port) : P (b.preempt p).port := by
  unfold Blocks.preempt
  split
  · exact hp
  · exact h.expireCard _ _ (h.endPass _ _ _ _ hp)

theorem takeLanes (b : Blocks) (c : MsgCard) (hp : P b.port) : P (b.takeLanes c).port :=
  h.beginPass _ _ _ (h.foldBlocks _ (fun b p => h.preempt b p) _ _ hp)

theorem urgentOn (b : Blocks) (c : MsgCard) (hp : P b.port) : P (b.urgentOn c).port := by
  unfold Blocks.urgentOn
  split
  · exact hp
  · exact h.notice _ _ _ _ hp

theorem urgentOff (b : Blocks) (hp : P b.port) : P b.urgentOff.port := by
  unfold Blocks.urgentOff
  split
  · exact hp
  · split
    · exact hp
    · exact h.notice _ _ _ _ hp

theorem urgentStage (b : Blocks) (hp : P b.port) : P b.urgentStage.port := by
  unfold Blocks.urgentStage
  split
  · exact h.urgentOn _ _ (h.takeLanes _ _ hp)
  · exact h.urgentOff _ hp

theorem serveLane (b : Blocks) (k : Nat) (hp : P b.port) : P (b.serveLane k).port := by
  unfold Blocks.serveLane
  split
  · exact hp
  · split
    · exact h.beginPass _ _ _ hp
    · exact hp

theorem serveLanes (b : Blocks) (hp : P b.port) : P b.serveLanes.port :=
  h.foldBlocks _ (fun b k => h.serveLane b k) _ _ hp

theorem lanesWork (cards : Blocks → Blocks) (hc : ∀ b, P b.port → P (cards b).port) (b : Blocks)
    (hp : P b.port) : P (b.lanesWork cards).port :=
  h.serveLanes _ (h.urgentStage _ (h.expireCards _ (hc _ (h.advancePasses _ hp))))

theorem loseLanes (b : Blocks) (hp : P b.port) : P b.loseLanes.port :=
  h.foldBlocks _ (fun _ _ hb => h.applyJudgement _ _ hb) _ _ hp

theorem stopLanes (b : Blocks) (hp : P b.port) : P b.stopLanes.port := by
  refine h.foldBlocks _ (fun b c => h.finishCard b c _) _ _ (h.foldBlocks _ (fun b p hb => ?_) _ _ hp)
  split
  · exact hb
  · exact h.endPass _ _ _ _ hb

/-! ## Compositor -/

theorem supersede (b : Blocks) (hp : P b.port) : P b.supersede.port := by
  unfold Blocks.supersede
  split
  · exact hp
  · exact h.refuse _ _ _ _ _ hp

theorem postPlanOp (slot : Nat) (post : Word) (q : PlanCue) (b : Blocks) (hp : P b.port) :
    P (postPlanOp slot post q b).port := by
  unfold Machine.postPlanOp
  split
  · exact h.refuse _ _ _ _ _ hp
  · exact h.supersede _ hp

theorem applyCue (b : Blocks) (slot : Nat) (cut : Bool) (e : Option (ZoneRun × Nat)) (hp : P b.port) :
    P (b.applyCue slot cut e).port := by
  unfold Blocks.applyCue
  split
  · exact h.complete _ _ _ _ _ hp
  · exact h.complete _ _ _ _ _ hp

theorem showZoneOp (slot : Nat) (q : ZoneCue) (b : Blocks) (hp : P b.port) :
    P (showZoneOp slot q b).port := by
  unfold Machine.showZoneOp
  split
  · exact h.refuse _ _ _ _ _ hp
  · split
    · exact h.refuse _ _ _ _ _ (h.drawUnstated _ hp)
    · exact h.applyCue _ _ _ _ hp

theorem hideZoneOp (slot : Nat) (q : ZoneCue) (b : Blocks) (hp : P b.port) :
    P (hideZoneOp slot q b).port := by
  unfold Machine.hideZoneOp
  split
  · exact h.refuse _ _ _ _ _ hp
  · exact h.applyCue _ _ _ _ hp

theorem adoptPlan (b : Blocks) (s : StagedPlan) (hp : P b.port) : P (b.adoptPlan s).port :=
  h.notice _ _ _ _ (h.complete _ _ _ _ _ (h.endAirings _ _ _ hp))

theorem adopt (b : Blocks) (hp : P b.port) : P b.adopt.port := by
  unfold Blocks.adopt
  split
  · exact hp
  · split
    · exact h.adoptPlan _ _ hp
    · exact hp

theorem adoptAlone (b : Blocks) (hp : P b.port) : P b.adoptAlone.port := by
  unfold Blocks.adoptAlone
  dsimp only
  split
  · exact h.loseLanes _ (h.adopt _ hp)
  · exact hp

theorem stopPlans (b : Blocks) (hp : P b.port) : P b.stopPlans.port := by
  unfold Blocks.stopPlans
  dsimp only
  split
  · exact hp
  · exact h.complete _ _ _ _ _ hp

theorem passEnds (lane : Nat) (b : Blocks) (hp : P b.port) : P (b.passEnds lane).port := by
  unfold Blocks.passEnds
  split
  · exact hp
  · split
    · exact h.urgentStage _ (h.expireCards _ (h.applyJudgement _ _ hp))
    · exact hp

theorem messageExpires (slot : Nat) (b : Blocks) (hp : P b.port) : P (b.messageExpires slot).port := by
  unfold Blocks.messageExpires
  split
  · exact hp
  · split
    · exact h.urgentStage _ (h.expireCard _ _ hp)
    · exact hp

theorem takeover (b : Blocks) (hp : P b.port) : P b.takeover.port := by
  unfold Blocks.takeover
  split
  · exact hp
  · exact h.urgentOn _ _ (h.takeLanes _ _ hp)

end Port.Closed
end Sys2Proof.Machine
end

