-- ==== Sys2Proof/Laws/Marks.lean ====
section
/-! SUPPORT. What the Clock Unit, the Timebase, the sections and the frame mark can do to the Port, for a
property that survives the small changes of `Port.Closed`; and what a mark does to the other parts of the
state. -/

namespace Sys2Proof.Machine

/-! ## The work of a mark in the making -/

@[simp] theorem Work.onBlk_blk (w : Work) (f : Blocks → Blocks) : (w.onBlk f).blk = f w.blk := rfl
@[simp] theorem Work.onBlk_sec (w : Work) (f : Blocks → Blocks) : (w.onBlk f).sec = w.sec := rfl
@[simp] theorem Work.onBlk_clk (w : Work) (f : Blocks → Blocks) : (w.onBlk f).clk = w.clk := rfl
@[simp] theorem Work.withSections_sec (w : Work) (x : SectionsPort) : (w.withSections x).sec = x.1 := rfl
@[simp] theorem Work.withSections_clk (w : Work) (x : SectionsPort) : (w.withSections x).clk = w.clk := rfl
@[simp] theorem Work.withSections_blk (w : Work) (x : SectionsPort) :
    (w.withSections x).blk = { w.blk with port := x.2 } := rfl
@[simp] theorem Work.withClock_sec (w : Work) (x : ClockPort) : (w.withClock x).sec = w.sec := rfl
@[simp] theorem Work.withClock_clk (w : Work) (x : ClockPort) : (w.withClock x).clk = x.1 := rfl
@[simp] theorem Work.withClock_blk (w : Work) (x : ClockPort) :
    (w.withClock x).blk = { w.blk with port := x.2 } := rfl

namespace Port.Closed

variable {P : Port → Prop} (h : Port.Closed P)
include h

/-! ## Clock Unit -/

theorem requestHorn (n : Nat) (x : ClockPort) (hp : P x.2) : P (requestHorn n x).2 := by
  unfold Machine.requestHorn
  dsimp only
  split
  · exact h.latchHorn _ hp
  · exact hp

theorem expireClock (i : ClockId) (v : Word) (x : ClockPort) (hp : P x.2) : P (expireClock i v x).2 := by
  unfold Machine.expireClock
  dsimp only
  split
  · exact h.requestHorn _ (_, _) (h.notice _ _ _ _ hp)
  · exact h.notice _ _ _ _ hp

theorem limitClock (i : ClockId) (v : Word) (x : ClockPort) (hp : P x.2) : P (limitClock i v x).2 :=
  h.notice _ _ _ _ hp

theorem countClock (i : ClockId) (x : ClockPort) (hp : P x.2) : P (countClock i x).2 := by
  unfold Machine.countClock
  dsimp only
  split
  · split
    · split
      · exact h.limitClock _ _ _ hp
      · exact hp
    · split
      · exact h.expireClock _ _ _ hp
      · exact hp
  · exact hp

theorem loseLine (x : ClockPort) (hp : P x.2) : P (loseLine x).2 := h.notice _ _ _ _ hp

theorem silenceTick (x : ClockPort) (hp : P x.2) : P (silenceTick x).2 := by
  unfold Machine.silenceTick
  dsimp only
  split
  · exact h.loseLine (_, _) hp
  · exact hp

theorem clockTick (silenceFirst : Bool) (x : ClockPort) (hp : P x.2) :
    P (clockTick silenceFirst x).2 := by
  unfold Machine.clockTick
  dsimp only
  split
  · exact h.countClock _ _ (h.countClock _ _ (h.silenceTick (_, _) hp))
  · exact h.silenceTick _ (h.countClock _ _ (h.countClock _ (_, _) hp))

theorem hearWord (kind : Nat) (x : ClockPort) (hp : P x.2) : P (hearWord kind x).2 := by
  unfold Machine.hearWord
  dsimp only
  split
  · exact hp
  · exact h.notice _ _ _ _ hp

theorem adoptWord (i : ClockId) (run : Bool) (v : Nat) (x : ClockPort) (hp : P x.2) :
    P (adoptWord i run v x).2 := by
  unfold Machine.adoptWord
  dsimp only
  split
  · split
    · split
      · exact h.limitClock _ _ _ hp
      · exact hp
    · exact hp
  · split
    · split
      · split <;> exact hp
      · exact h.notice _ _ _ _ hp
    · split
      · split
        · exact h.expireClock _ _ _ hp
        · exact hp
      · exact hp

theorem clockWordOp (i : ClockId) (run : Bool) (v : Nat) (x : ClockPort) (hp : P x.2) :
    P (clockWordOp i run v x).2 := by
  unfold Machine.clockWordOp Machine.clearDiscards
  dsimp only
  split
  · exact h.hearWord _ _ hp
  · exact h.adoptWord _ _ _ _ (h.hearWord _ _ hp)

theorem hornWordOp (n : Nat) (x : ClockPort) (hp : P x.2) : P (hornWordOp n x).2 :=
  h.requestHorn _ _ (h.hearWord _ _ hp)

theorem periodWordOp (n : Nat) (x : ClockPort) (hp : P x.2) : P (periodWordOp n x).2 :=
  h.hearWord _ _ hp

theorem judgeWord (bs : List Byte) (x : ClockPort) (hp : P x.2) : P (judgeWord bs x).2 := by
  unfold Machine.judgeWord
  dsimp only
  split
  · exact hp
  · split
    · exact h.clockWordOp _ _ _ _ hp
    · split
      · exact h.hornWordOp _ _ hp
      · split
        · exact h.periodWordOp _ _ hp
        · exact hp

theorem receiveByte (b : Byte) (ok : Bool) (x : ClockPort) (hp : P x.2) : P (receiveByte b ok x).2 := by
  unfold Machine.receiveByte
  split
  · split <;> exact hp
  · split
    · exact hp
    · dsimp only
      split
      · exact hp
      · split
        · exact h.judgeWord _ (_, _) hp
        · exact hp

theorem clockSetupOp (slot : Nat) (q : ClockSetupCue) (x : ClockPort) (hp : P x.2) :
    P (clockSetupOp slot q x).2 := by
  unfold Machine.clockSetupOp
  split
  · exact h.refuse _ _ _ _ _ hp
  · exact h.complete _ _ _ _ _ hp

theorem clockSetOp (slot : Nat) (q : ClockSetCue) (x : ClockPort) (hp : P x.2) :
    P (clockSetOp slot q x).2 := by
  unfold Machine.clockSetOp
  split
  · exact h.refuse _ _ _ _ _ hp
  · dsimp only
    split
    · exact h.refuse _ _ _ _ _ hp
    · exact h.complete _ _ _ _ _ hp

theorem clockRunOp (slot clock : Nat) (x : ClockPort) (hp : P x.2) : P (clockRunOp slot clock x).2 := by
  unfold Machine.clockRunOp
  split
  · exact h.refuse _ _ _ _ _ hp
  · dsimp only
    split
    · exact h.refuse _ _ _ _ _ hp
    · split
      · exact h.refuse _ _ _ _ _ hp
      · exact h.complete _ _ _ _ _ hp

theorem clockStopOp (slot clock : Nat) (x : ClockPort) (hp : P x.2) : P (clockStopOp slot clock x).2 := by
  unfold Machine.clockStopOp
  split
  · exact h.refuse _ _ _ _ _ hp
  · dsimp only
    split
    · exact h.refuse _ _ _ _ _ hp
    · exact h.complete _ _ _ _ _ hp

theorem scoreOp (slot : Nat) (q : ScoreCue) (x : ClockPort) (hp : P x.2) : P (scoreOp slot q x).2 := by
  unfold Machine.scoreOp
  split
  · exact h.refuse _ _ _ _ _ hp
  · exact h.complete _ _ _ _ _ hp

theorem applyClock (x : ClockPort) (t : Taken ClockCard) (hp : P x.2) : P (applyClock x t).2 := by
  unfold Machine.applyClock
  split
  · exact h.clockSetupOp _ _ _ hp
  · exact h.clockSetOp _ _ _ hp
  · exact h.clockRunOp _ _ _ hp
  · exact h.clockStopOp _ _ _ hp
  · exact h.scoreOp _ _ _ hp

theorem applyClocks (l : List (Taken ClockCard)) (x : ClockPort) (hp : P x.2) :
    P (l.foldl Machine.applyClock x).2 := by
  induction l generalizing x with
  | nil => exact hp
  | cons t l ih => exact ih _ (h.applyClock x t hp)

theorem writeClockRecord (u : ClockUnit) (p : Port) (hp : P p) : P (writeClockRecord (u, p)).2 :=
  h.poke _ _ _ (h.bytes (p.poke _ _) _ _ _ (h.bytes (p.poke _ _) _ _ _
    (h.bytes (p.poke _ _) _ _ _ (h.poke _ _ _ hp))))

theorem clockEntryNotice (x : ClockPort) (hp : P x.2) : P (clockEntryNotice x).2 := by
  unfold Machine.clockEntryNotice
  split
  · exact hp
  · exact h.notice _ _ _ _ hp

/-! ## Timebase -/

theorem acceptPulse (x : TimebasePort) (hp : P x.2) : P (acceptPulse x).2 := by
  unfold Machine.acceptPulse
  dsimp only
  split
  · exact hp
  · exact hp
  · split
    · exact h.notice _ _ _ _ hp
    · exact hp
  · split
    · exact hp
    · exact h.notice _ _ _ _ hp

theorem examinePulse (x : TimebasePort) (hp : P x.2) : P (examinePulse x).2 := by
  unfold Machine.examinePulse
  dsimp only
  split
  · exact h.acceptPulse _ hp
  · exact hp

theorem elapseSync (dt : Nat) (x : TimebasePort) (hp : P x.2) : P (elapseSync dt x).2 := by
  unfold Machine.elapseSync
  split
  · exact hp
  · split
    · unfold Machine.loseSync
      dsimp only
      split
      · exact h.notice _ _ _ _ hp
      · exact hp
    · exact hp

theorem elapse (dt : Nat) (s : Part) (hp : P s.blk.port) : P (s.elapse dt).blk.port := by
  unfold Part.elapse
  split
  · exact hp
  · dsimp only
    split
    · exact h.elapseSync _ (_, _) hp
    · exact h.elapseSync _ (_, _) hp

theorem genlockEntryNotice (t : Timebase) (p : Port) (hp : P p) : P (genlockEntryNotice t p) := by
  unfold Machine.genlockEntryNotice
  split
  · exact hp
  · split <;> exact h.notice _ _ _ _ hp

theorem relockNotice (t : Timebase) (p : Port) (hp : P p) : P (relockNotice t p) := by
  unfold Machine.relockNotice
  split
  · exact h.notice _ _ _ _ hp
  · exact hp

/-! ## Sections -/

theorem sectionNotice (c : Sections) (entry : Bool) (p : Port) (i : Nat) (hp : P p) :
    P (sectionNotice c entry p i) := by
  unfold Machine.sectionNotice
  dsimp only
  split
  · split
    · exact hp
    · exact h.notice _ _ _ _ hp
  · split
    · exact h.notice _ _ _ _ hp
    · split
      · exact h.notice _ _ _ _ hp
      · exact hp

theorem settleSections (entry : Bool) (x : SectionsPort) (hp : P x.2) : P (settleSections entry x).2 :=
  h.fold _ (fun p i => h.sectionNotice _ _ p i) _ _ hp

theorem setSectionOp (slot : Nat) (q : SectionCue) (x : SectionsPort) (hp : P x.2) :
    P (setSectionOp slot q x).1.2 := by
  unfold Machine.setSectionOp
  split
  · exact h.refuse _ _ _ _ _ hp
  · exact hp

theorem finishSection (c : Sections) (p : Port) (k : Nat × Nat) (hp : P p) : P (finishSection c p k) :=
  h.complete _ _ _ _ _ hp

theorem settleStates (s : Part) (hp : P s.blk.port) : P s.settleStates.blk.port := by
  have hs := h.settleSections false (s.sec, s.blk.port) hp
  simp only [Part.settleStates, Blocks.measure_port]
  exact hs

theorem setSection (slot : Nat) (q : SectionCue) (s : Part) (hp : P s.blk.port) :
    P (s.setSection slot q).blk.port := by
  have hs := h.setSectionOp slot q (s.sec, s.blk.port) hp
  unfold Part.setSection
  dsimp only
  split
  · exact hs
  · exact h.finishSection _ _ _ (h.settleStates _ hs)

/-! ## The show work of a mark -/

theorem applyPlan (w : Work) (t : Taken PlanCard) (hp : P w.blk.port) : P (w.applyPlan t).blk.port := by
  unfold Work.applyPlan
  split
  · exact h.postPlanOp _ _ _ _ hp
  · exact h.showZoneOp _ _ _ hp
  · exact h.hideZoneOp _ _ _ hp
  · exact h.setSectionOp _ _ (_, _) hp

theorem applyPlans (l : List (Taken PlanCard)) (w : Work) (hp : P w.blk.port) :
    P (l.foldl Work.applyPlan w).blk.port := by
  induction l generalizing w with
  | nil => exact hp
  | cons t l ih => exact ih _ (h.applyPlan w t hp)

theorem applyReplay (timer : Nat) (b : Blocks) (t : Taken ReplayCard) (hp : P b.port) :
    P (b.applyReplay timer t).port := by
  unfold Blocks.applyReplay
  split
  · exact h.setInputOp _ _ _ _ hp
  · exact h.markClipOp _ _ _ _ hp
  · exact h.keepClipOp _ _ _ hp
  · exact h.dropClipOp _ _ _ hp
  · exact h.cueHeadOp _ _ _ hp
  · exact h.playOp _ _ _ hp
  · exact h.pauseOp _ _ _ hp
  · exact h.setRateOp _ _ _ hp
  · exact h.stopHeadOp _ _ _ hp

theorem applyRotation (b : Blocks) (t : Taken RotationCard) (hp : P b.port) :
    P (b.applyRotation t).port := by
  unfold Blocks.applyRotation
  split
  · exact h.setGroupOp _ _ _ hp
  · exact h.setEntryOp _ _ _ hp
  · exact h.dropEntryOp _ _ _ hp
  · exact h.loadImageOp _ _ _ hp

theorem task (timer : Nat) (c : Cards) (w : Work) (k : MarkTask) (hp : P w.blk.port) :
    P (w.task timer c k).blk.port := by
  cases k <;> simp only [Work.task, Work.onBlk_blk, Work.withClock_blk]
  · exact h.keepWork _ hp
  · exact h.adopt _ (h.applyPlans _ _ hp)
  · exact h.foldBlocks _ (fun b t => h.applyReplay timer b t) _ _ hp
  · exact h.foldBlocks _ (fun b t => h.applyRotation b t) _ _ hp
  · exact h.applyClocks _ (w.clk, w.blk.port) hp
  · exact h.lanesWork _ (fun b hb => h.foldBlocks _ (fun b t => h.messageOp _ _ _ b) _ _ hb) _ hp
  · exact h.dwellWork _ hp

theorem tasks (timer : Nat) (c : Cards) (l : List MarkTask) (w : Work) (hp : P w.blk.port) :
    P (l.foldl (Work.task timer c) w).blk.port := by
  induction l generalizing w with
  | nil => exact hp
  | cons k l ih => exact ih _ (h.task timer c w k hp)

theorem pickupAll (b : Blocks) (hp : P b.port) : P b.pickupAll.1.port := by
  simp only [Blocks.pickupAll]
  exact h.pickup _ _ _ _ (h.pickup _ _ _ _ (h.pickup _ _ _ _ (h.pickup _ _ _ _ (h.pickup _ _ _ _ hp))))

theorem beforeCards (b : Blocks) (hp : P b.port) : P b.beforeCards.port := by
  have hc := h.copyFrame b hp
  unfold Blocks.beforeCards
  exact h.advanceHeads _ (by simpa only [Blocks.onComp_port] using hc)

theorem settle (entry : Bool) (w : Work) (hp : P w.blk.port) : P (w.settle entry).blk.port := by
  have hs := h.settleSections entry (w.sec, w.blk.port) hp
  simp only [Work.settle, Work.onBlk_blk, Blocks.onPort_port, Work.withSections_blk]
  exact h.fold _ (fun p k => h.finishSection _ p k) _ _ hs

theorem afterCards (i : MarkInput) (states : List SectionState) (b : Blocks) (hp : P b.port) :
    P (b.afterCards i states).port := by
  have h1 : P ((b.onComp Compositor.stepFades).measure states).port := by
    simpa only [Blocks.measure_port, Blocks.onComp_port] using hp
  have h2 := h.outputHeads i.uncorrectable i.headBFirst _ (h.selectionPass _ h1)
  unfold Blocks.afterCards Blocks.credit
  refine h.creditFrame _ _ ?_
  unfold Blocks.countPasses
  simpa only [Blocks.onLanes_port] using h2

theorem openMark (entry : Bool) (s : Part) (hp : P s.blk.port) : P (s.openMark entry).blk.port := by
  unfold Part.openMark
  split
  · exact h.clockEntryNotice (s.clk, _) (h.genlockEntryNotice _ _ hp)
  · exact h.relockNotice _ _ hp

theorem startMark (b : Blocks) (hp : P b.port) : P b.startMark.port :=
  h.testOverrun _ (h.testLogFull _ hp)

theorem showWork (i : MarkInput) (entry : Bool) (s : Part) (hp : P s.blk.port) :
    P (s.showWork i entry).blk.port := by
  have h1 := h.pickupAll _ (h.startMark _ (h.openMark entry s hp))
  have h2 := h.beforeCards _ h1
  simp only [Part.showWork, Work.withClock_blk, Work.onBlk_blk, Work.onBlk_clk]
  generalize hw : List.foldl (Work.task _ _) _ _ = w
  have h3 : P w.blk.port := by
    rw [← hw]
    exact h.tasks _ _ _ _ h2
  have h4 := h.settle entry w h3
  have h5 := h.afterCards i (w.settle entry).sec.states _ h4
  exact h.writeClockRecord _ _ h5

theorem idleWork (s : Part) (hp : P s.blk.port) : P s.idleWork.blk.port := by
  have hs := h.settleSections false (s.sec, s.blk.port) hp
  simp only [Part.idleWork]
  exact hs

theorem writePartPage (p : Port) (hp : P p) : P p.writePartPage :=
  h.pokePart _ _ _ (h.pokePart _ _ _ (h.pokePart _ _ _ hp))

theorem closeMark (s : Part) (hp : P s.blk.port) : P s.closeMark.blk.port := by
  simp only [Part.closeMark, Blocks.onPort_port, Blocks.compose]
  exact h.writePartPage _ hp

/-- The owners' show stops, up to the change of run state. -/
theorem stopOwners (b : Blocks) (hp : P b.port) :
    P (({ b.stopRotator.stopReplay with cap := b.stopRotator.stopReplay.cap.stop } :
      Blocks).stopLanes.stopPlans).port := by
  have hs := h.stopReplay _ (h.stopRotator b hp)
  refine h.stopPlans _ (h.stopLanes _ ?_)
  exact hs

end Port.Closed

/-! ## What a mark leaves of the Timebase -/

/-- The show work leaves the Timebase alone. -/
@[simp] theorem Part.showWork_tb (i : MarkInput) (entry : Bool) (s : Part) :
    (s.showWork i entry).tb = s.tb := by
  simp only [Part.showWork, Part.openMark]
  split <;> rfl

/-- A RUN request sampled leaves the Timebase alone. -/
@[simp] theorem Part.sampleRun_tb (i : MarkInput) (s : Part) : (s.sampleRun i).tb = s.tb := by
  simp only [Part.sampleRun]
  split
  · split
    · simp
    · rfl
  · split
    · split
      · simp
      · rfl
    · rfl

/-- The Timebase after a mark: the frame's length and genlock by R2 and R4, and no relock pending. -/
theorem Part.mark_tb (first : Bool) (i : MarkInput) (s : Part) :
    (s.mark first i).tb =
      { (if first then s.tb.firstFrame else s.tb.nextFrame) with relocking := false } := by
  simp [Part.mark, Part.closeMark]

/-! ## Three closed properties -/

/-- The interrupt follows the common set through every small change (R192). -/
theorem closed_irqSound : Port.Closed fun p => p.irq = p.common where
  write _ _ _ _ hp := hp
  desks _ _ hp := hp
  setLatches _ _ _ := by simp [Port.setLatches]
  evalConditions _ _ := by simp [Port.evalConditions]
  noticeWrite _ _ hp := hp
  logWrite _ _ hp := hp
  overrun _ _ hp := hp
  logFull _ _ hp := hp
  unstated _ _ hp := hp
  loadLocks _ _ hp := hp

/-- Show Memory stays in its canonical form through every small change. -/
theorem closed_wf : Port.Closed fun p => Memory.wf p.mem = true where
  write _ _ _ _ hp := wf_memWrite _ _ _ hp
  desks _ _ hp := hp
  setLatches _ _ hp := by simpa using hp
  evalConditions _ hp := by simpa [Port.evalConditions] using hp
  noticeWrite _ _ hp := hp
  logWrite _ _ hp := hp
  overrun _ _ hp := hp
  logFull _ _ hp := hp
  unstated _ _ hp := hp
  loadLocks _ _ hp := hp

/-- The registers and the layout that no small change touches: run state and request, show tick, areas, sizes
and thresholds in force, layout result, part locks, fault page and CAUSE_MASK. -/
def Port.sameFixed (q p : Port) : Prop :=
  p.runState = q.runState ∧ p.runRequest = q.runRequest ∧ p.showTick = q.showTick ∧ p.areas = q.areas ∧
  p.sizes = q.sizes ∧ p.thresholds = q.thresholds ∧ p.result = q.result ∧ p.resultArea = q.resultArea ∧
  p.partLocks = q.partLocks ∧ p.faultPage = q.faultPage ∧ p.mask = q.mask ∧
  p.countsInForce = q.countsInForce

/-- No small change touches them. -/
theorem closed_sameFixed (q : Port) : Port.Closed (Port.sameFixed q) where
  write _ _ _ _ hp := hp
  desks _ _ hp := hp
  setLatches _ _ hp := by simpa [Port.sameFixed] using hp
  evalConditions _ hp := by simpa [Port.sameFixed, Port.evalConditions] using hp
  noticeWrite _ _ hp := hp
  logWrite _ _ hp := hp
  overrun _ _ hp := hp
  logFull _ _ hp := hp
  unstated _ _ hp := hp
  loadLocks _ _ hp := hp

end Sys2Proof.Machine
end

