-- ==== Sys2Proof/Laws/Elapse.lean ====
section
/-! SUPPORT. What the passing of reference periods leaves alone, and what a notice leaves alone (R2, R5, R88, R129,
R189). -/

namespace Sys2Proof.Machine

/-- The sections do not move with time. -/
@[simp] theorem Part.elapse_sec (dt : Nat) (s : Part) : (s.elapse dt).sec = s.sec := by
  unfold Part.elapse; split
  · rfl
  · dsimp only; split <;> rfl

/-- Of the blocks, time moves the Port and the Capture Unit alone. -/
theorem Part.elapse_blk (dt : Nat) (s : Part) :
    (s.elapse dt).blk = { s.blk with port := (s.elapse dt).blk.port, cap := (s.elapse dt).blk.cap } := by
  unfold Part.elapse; split
  · rfl
  · dsimp only; split <;> rfl

/-- Time moves the word in progress of the Clock Unit, and its discard count. -/
theorem elapseGap_eq (dt : Nat) (u : ClockUnit) :
    elapseGap dt u = { u with word := (elapseGap dt u).word, gap := (elapseGap dt u).gap
                              discards := (elapseGap dt u).discards } := by
  unfold elapseGap discardWord; split
  · rfl
  · split
    · split <;> rfl
    · rfl

/-- Time moves the word in progress of the Clock Unit, and its discard count. -/
theorem Part.elapse_clk (dt : Nat) (s : Part) :
    (s.elapse dt).clk = { s.clk with word := (s.elapse dt).clk.word, gap := (s.elapse dt).clk.gap
                                     discards := (s.elapse dt).clk.discards } := by
  unfold Part.elapse; split
  · rfl
  · dsimp only; split
    · exact elapseGap_eq _ _
    · rfl

/-- The sync-loss timer does not move the synthesiser. -/
@[simp] theorem elapseSync_synthLocked (dt : Nat) (x : TimebasePort) :
    (elapseSync dt x).1.synthLocked = x.1.synthLocked := by
  unfold elapseSync loseSync; dsimp only; split
  · rfl
  · split
    · split <;> rfl
    · rfl

/-- Time does not move the synthesiser. -/
@[simp] theorem Part.elapse_synthLocked (dt : Nat) (s : Part) :
    (s.elapse dt).tb.synthLocked = s.tb.synthLocked := by
  have h2 : (s.referencePresent.tb.advance dt).synthLocked = s.tb.synthLocked := by
    unfold Timebase.advance Part.referencePresent; dsimp only; split <;> rfl
  unfold Part.elapse; split
  · rfl
  · dsimp only
    split <;> (show (elapseSync dt _).1.synthLocked = _) <;> (rw [elapseSync_synthLocked]; exact h2)

/-- Time with a word in progress whose gap stays within 4 ms leaves the word and the discard count. -/
theorem Part.elapse_word (dt : Nat) (s : Part) (h : s.clk.word = none ∨ s.clk.gap + dt ≤ 108000) :
    (s.elapse dt).clk.word = s.clk.word ∧ (s.elapse dt).clk.discards = s.clk.discards := by
  have hg : (elapseGap dt s.clk).word = s.clk.word ∧ (elapseGap dt s.clk).discards = s.clk.discards := by
    unfold elapseGap
    cases hw : s.clk.word with
    | none => simp [hw]
    | some bs =>
      have : ¬Config.gapPeriods < s.clk.gap + dt := by
        rcases h with h | h
        · simp [hw] at h
        · unfold Config.gapPeriods; omega
      simp [this]
  unfold Part.elapse; split
  · simp
  · dsimp only; split
    · exact hg
    · simp [Part.withTimebase, Part.referencePresent]

/-- Time with the reference present in which the gap of a word in progress passes 4 ms discards the word. -/
theorem Part.elapse_gap (dt : Nat) (s : Part) (bs : List Byte) (hw : s.clk.word = some bs)
    (hr : s.tb.reference = true) (hl : s.tb.synthLocked = true) (h : 108000 < s.clk.gap + dt) :
    (s.elapse dt).clk.word = none ∧
      (s.elapse dt).clk.discards = capAt Config.countTop (s.clk.discards + 1) := by
  have h2 : (s.referencePresent.tb.advance dt).synthLocked = true := by
    unfold Timebase.advance Part.referencePresent; dsimp only; split <;> simp_all
  have hg : (elapseGap dt s.clk) =
      { s.clk with word := none, gap := 0, discards := capAt Config.countTop (s.clk.discards + 1) } := by
    unfold elapseGap discardWord; simp only [hw]; exact if_pos h
  unfold Part.elapse
  rw [if_neg (by simp [hr])]
  dsimp only
  rw [if_pos (by show (elapseSync dt _).1.synthLocked = _; rw [elapseSync_synthLocked]; exact h2)]
  show (elapseGap dt s.clk).word = none ∧ (elapseGap dt s.clk).discards = _
  rw [hg]; exact ⟨rfl, rfl⟩

/-- In CONFIG no notice is taken (R189). -/
theorem Port.notice_config (p : Port) (k : NoticeKind) (n : Nat) (v : Word) (h : p.runState = .config) :
    p.notice k n v = p := by
  unfold Port.notice Port.running; rw [h]; rfl

/-- Evaluating the conditions leaves the latches. -/
@[simp] theorem Port.evalConditions_latches (p : Port) : p.evalConditions.latches = p.latches := by
  unfold Port.evalConditions Port.settle; split <;> rfl

/-- A notice leaves the latches. -/
@[simp] theorem Port.notice_latches (p : Port) (k : NoticeKind) (n : Nat) (v : Word) :
    (p.notice k n v).latches = p.latches := by
  unfold Port.notice Port.writeNotice Port.testOverrun
  dsimp only
  repeat' split
  all_goals simp [Port.pokePart, Port.poke]

/-- Time leaves the latches. -/
@[simp] theorem Part.elapse_latches (dt : Nat) (s : Part) :
    (s.elapse dt).blk.port.latches = s.blk.port.latches := by
  have h : ∀ x : TimebasePort, (elapseSync dt x).2.latches = x.2.latches := by
    intro x; unfold elapseSync loseSync; dsimp only
    repeat' split
    all_goals simp
  unfold Part.elapse; split
  · rfl
  · dsimp only; split <;> exact h _

/-- Time leaves what the layout, the run state, the show tick and the locks are. -/
theorem Part.elapse_sameFixed (dt : Nat) (s : Part) : Port.sameFixed s.blk.port (s.elapse dt).blk.port :=
  (closed_sameFixed _).elapse dt s (by simp [Port.sameFixed])

/-- What comes in time at a LOCKED synthesiser comes after the time. -/
theorem Part.afterTime_locked (dt : Nat) (f : Part → Part) (s : Part) (h : s.tb.synthLocked = true) :
    s.afterTime dt f = f (s.elapse dt) := by
  unfold Part.afterTime; rw [if_pos (by simpa using h)]

/-- At an UNLOCKED synthesiser the time alone passes. -/
theorem Part.afterTime_unlocked (dt : Nat) (f : Part → Part) (s : Part) (h : s.tb.synthLocked = false) :
    s.afterTime dt f = s.elapse dt := by
  unfold Part.afterTime; rw [if_neg (by simp [h])]

/-- Time in which the sync-loss timer does not run out leaves the Port alone. -/
theorem Part.elapse_port (dt : Nat) (s : Part) (h : ∀ r, s.tb.syncTimer = some r → dt < r) :
    (s.elapse dt).blk.port = s.blk.port := by
  have ht : (s.referencePresent.tb.advance dt).syncTimer = s.tb.syncTimer := by
    unfold Timebase.advance Part.referencePresent; dsimp only; split <;> rfl
  have hp : (elapseSync dt (s.referencePresent.tb.advance dt, s.referencePresent.blk.port)).2 = s.blk.port := by
    unfold elapseSync
    dsimp only
    rw [ht]
    split
    · rfl
    · rw [if_neg (by have := h _ ‹_›; omega)]; rfl
  unfold Part.elapse; split
  · rfl
  · dsimp only; split <;> exact hp

end Sys2Proof.Machine
end

