-- ==== Sys2Proof/Laws/Slots.lean ====
section
/-! SUPPORT. What a move of a desk slot to DONE or REFUSED does, said once (R175). -/

namespace Sys2Proof.Machine

/-- The conditions are set and settled as a record update of the Port. -/
theorem Port.settle_eq (p : Port) :
    p.settle = { p with irq := p.settle.irq, messages := p.settle.messages } := by
  unfold Port.settle; split <;> rfl

/-- The interrupt settled over a change that left it alone follows CAUSE and CAUSE_MASK (R192). -/
theorem Port.settle_follows {p q : Port} (hi : q.irq = p.irq) (hm : q.messages = p.messages) :
    p.interruptFollows q.settle := by
  refine ⟨by simp, ?_⟩
  rw [Port.settle_irq]
  unfold Port.settle
  rw [← hi, ← hm]
  split <;> simp_all

/-- Latches set over a change that left the interrupt alone: the interrupt follows (R192). -/
theorem Port.setLatches_follows {p q : Port} (l : Latches) (hi : q.irq = p.irq) (hm : q.messages = p.messages) :
    p.interruptFollows (q.setLatches l) := Port.settle_follows (q := { q with latches := l }) hi hm

/-- Latching DESK_DONE as a record update of the Port. -/
theorem Port.latchDeskDone_eq (p : Port) :
    p.latchDeskDone =
      { p with latches := { p.latches with deskDone := true }
               irq := p.latchDeskDone.irq, messages := p.latchDeskDone.messages } := by
  unfold Port.latchDeskDone Port.setLatches
  exact Port.settle_eq _

/-- The memory after a move of a slot: the four head words, then the done count. -/
theorem Port.moveOut_mem (p : Port) (d : Desk) (i : Nat) (st : Word) (o : CardOutcome) (tick r : Word) :
    (p.moveOut d i st o tick r).mem =
      memWriteWord (memWriteWord (memWriteWord (memWriteWord (memWriteWord p.mem
        (p.slotAddr d i + 12) (toWord o.code)) (p.slotAddr d i + 20) tick) (p.slotAddr d i + 24) r)
        (p.slotAddr d i) st) (partPage + (36 + 4 * deskIndex d)) ((p.desks.get d).done + 1) := by
  simp [Port.moveOut, Port.raiseDone, Port.unhold, Port.latchDeskDone]

/-- The desks after a move of a slot. -/
theorem Port.moveOut_desks (p : Port) (d : Desk) (i : Nat) (st : Word) (o : CardOutcome) (tick r : Word) :
    (p.moveOut d i st o tick r).desks = p.desks.set d
      { p.desks.get d with done := (p.desks.get d).done + 1
                           held := (p.desks.get d).held.filter (· != i) } := by
  simp only [Port.moveOut, Port.raiseDone, Port.unhold, Port.latchDeskDone, Port.setLatches_desks,
    Port.pokePart_desks, Port.setDesk_desks, Port.poke_desks, Desks.get_set_self]
  cases d <;> rfl

/-- The latches after a move of a slot. -/
theorem Port.moveOut_latches (p : Port) (d : Desk) (i : Nat) (st : Word) (o : CardOutcome)
    (tick r : Word) : (p.moveOut d i st o tick r).latches = { p.latches with deskDone := true } := by
  simp [Port.moveOut, Port.raiseDone, Port.unhold, Port.latchDeskDone]

/-- Two Ports that agree in all but memory, desks, latches and the interrupt. -/
theorem Port.eq_of_fields (p q : Port)
    (_ : q.runState = p.runState) (_ : q.runRequest = p.runRequest) (_ : q.showTick = p.showTick) (_
    : q.areas = p.areas) (_ : q.sizes = p.sizes) (_ : q.thresholds = p.thresholds) (_ : q.result =
    p.result) (_ : q.resultArea = p.resultArea) (_ : q.partLocks = p.partLocks) (_ : q.loadLocks =
    p.loadLocks) (_ : q.faultPage = p.faultPage) (_ : q.noticeWaiting = p.noticeWaiting) (_ :
    q.logWaiting = p.logWaiting) (_ : q.mask = p.mask) (_ : q.logWrite = p.logWrite) (_ : q.logFull
    = p.logFull) (_ : q.noticeWrite = p.noticeWrite) (_ : q.overrun = p.overrun) (_ :
    q.countsInForce = p.countsInForce) (_ : q.unstated = p.unstated) :
    q = { p with mem := q.mem, desks := q.desks, latches := q.latches, irq := q.irq,
                 messages := q.messages } := by
  cases p; cases q; simp only at *; subst_vars; rfl

/-- A move of a slot changes memory, the desk's state, the latches and the interrupt, and nothing else. -/
theorem Port.moveOut_eq (p : Port) (d : Desk) (i : Nat) (st : Word) (o : CardOutcome) (tick r : Word) :
    p.moveOut d i st o tick r =
      { p with mem := (p.moveOut d i st o tick r).mem, desks := (p.moveOut d i st o tick r).desks
               latches := (p.moveOut d i st o tick r).latches
               irq := (p.moveOut d i st o tick r).irq
               messages := (p.moveOut d i st o tick r).messages } := by
  apply Port.eq_of_fields <;>
    simp [Port.moveOut, Port.raiseDone, Port.unhold, Port.latchDeskDone]

/-- After a move of a slot the interrupt follows (R192). -/
theorem Port.moveOut_follows (p : Port) (d : Desk) (i : Nat) (st : Word) (o : CardOutcome) (tick r : Word) :
    p.interruptFollows (p.moveOut d i st o tick r) := by
  unfold Port.moveOut Port.raiseDone Port.latchDeskDone
  exact Port.setLatches_follows _ (by simp [Port.unhold]) (by simp [Port.unhold])

/-- The areas after a move of a slot. -/
@[simp] theorem Port.moveOut_area (p : Port) (d : Desk) (i : Nat) (st : Word) (o : CardOutcome)
    (tick r : Word) (k : Nat) : (p.moveOut d i st o tick r).area k = p.area k := by
  rw [Port.moveOut_eq]; rfl

/-- A slot's head words after its move, read back (R175). -/
theorem Port.moveOut_slotReads (p : Port) (d : Desk) (i : Nat) (st : Word) (o : CardOutcome)
    (tick r : Word) (hw : Memory.wf p.mem = true) (hf : 2 ≤ (p.area (deskIndex d)).first) :
    p.slotReads (p.moveOut d i st o tick r) d i st (toWord o.code) tick r := by
  have w1 := wf_memWriteWord p.mem (p.slotAddr d i + 12) (toWord o.code) hw
  have w2 := wf_memWriteWord _ (p.slotAddr d i + 20) tick w1
  have w3 := wf_memWriteWord _ (p.slotAddr d i + 24) r w2
  have w4 := wf_memWriteWord _ (p.slotAddr d i) st w3
  have ha : 8192 ≤ p.slotAddr d i := by
    unfold Port.slotAddr Port.areaBase Config.pageBytes; omega
  have hd : deskIndex d ≤ 4 := by cases d <;> simp [deskIndex]
  have hp : partPage + (36 + 4 * deskIndex d) + 4 ≤ p.slotAddr d i := by unfold partPage; omega
  unfold Port.slotReads
  rw [Port.moveOut_mem]
  refine ⟨?_, ?_, ?_, ?_⟩
  · rw [memWord_memWriteWord_ne _ _ _ _ w4 (by omega), memWord_memWriteWord_self _ _ _ w3]
  · rw [memWord_memWriteWord_ne _ _ _ _ w4 (by omega), memWord_memWriteWord_ne _ _ _ _ w3 (by omega),
      memWord_memWriteWord_ne _ _ _ _ w2 (by omega), memWord_memWriteWord_ne _ _ _ _ w1 (by omega),
      memWord_memWriteWord_self _ _ _ hw]
  · rw [memWord_memWriteWord_ne _ _ _ _ w4 (by omega), memWord_memWriteWord_ne _ _ _ _ w3 (by omega),
      memWord_memWriteWord_ne _ _ _ _ w2 (by omega), memWord_memWriteWord_self _ _ _ w1]
  · rw [memWord_memWriteWord_ne _ _ _ _ w4 (by omega), memWord_memWriteWord_ne _ _ _ _ w3 (by omega),
      memWord_memWriteWord_self _ _ _ w2]

/-- The desk's done count in the part page after a move of one of its slots (R175). -/
theorem Port.moveOut_done (p : Port) (d : Desk) (i : Nat) (st : Word) (o : CardOutcome) (tick r : Word)
    (hw : Memory.wf p.mem = true) :
    memWord (p.moveOut d i st o tick r).mem (partPage + 36 + 4 * deskIndex d) =
      (p.desks.get d).done + 1 := by
  rw [Port.moveOut_mem, Nat.add_assoc]
  exact memWord_memWriteWord_self _ _ _ (wf_memWriteWord _ _ _ (wf_memWriteWord _ _ _
    (wf_memWriteWord _ _ _ (wf_memWriteWord _ _ _ hw))))

/-- A move of a slot leaves every byte outside its words alone (R175). -/
theorem Port.moveOut_bytesKept (p : Port) (d : Desk) (i : Nat) (st : Word) (o : CardOutcome)
    (tick r : Word) (hw : Memory.wf p.mem = true) :
    bytesKept p.mem (p.moveOut d i st o tick r).mem (p.slotWords d i) := by
  have w1 := wf_memWriteWord p.mem (p.slotAddr d i + 12) (toWord o.code) hw
  have w2 := wf_memWriteWord _ (p.slotAddr d i + 20) tick w1
  have w3 := wf_memWriteWord _ (p.slotAddr d i + 24) r w2
  have w4 := wf_memWriteWord _ (p.slotAddr d i) st w3
  intro a ha
  simp only [Port.slotWords, List.mem_cons, List.not_mem_nil, or_false, forall_eq_or_imp,
    forall_eq] at ha
  obtain ⟨h1, h2, h3, h4, h5⟩ := ha
  rw [Port.moveOut_mem, memRead_memWriteWord_ne _ _ _ _ w4 (by omega),
    memRead_memWriteWord_ne _ _ _ _ w3 h1, memRead_memWriteWord_ne _ _ _ _ w2 h4,
    memRead_memWriteWord_ne _ _ _ _ w1 h3, memRead_memWriteWord_ne _ _ _ _ hw h2]

/-- All that a move of a slot to DONE at the show tick in force does (R175). -/
theorem Port.complete_slotMoved (p : Port) (d : Desk) (i : Nat) (o : CardOutcome) (r : Word)
    (hw : Memory.wf p.mem = true) (hf : 2 ≤ (p.area (deskIndex d)).first) :
    p.slotMoved (p.complete d i o r) d i 4 (toWord o.code) r :=
  ⟨p.moveOut_slotReads d i _ o _ r hw hf, p.moveOut_done d i _ o _ r hw,
    p.moveOut_bytesKept d i _ o _ r hw,
    ⟨p.moveOut_desks d i _ o _ r, p.moveOut_latches d i _ o _ r, p.moveOut_follows d i _ o _ r⟩,
    p.moveOut_eq d i _ o _ r⟩

/-- All that a move of a slot to REFUSED at the show tick in force does (R175). -/
theorem Port.refuse_slotMoved (p : Port) (d : Desk) (i : Nat) (o : CardOutcome) (r : Word)
    (hw : Memory.wf p.mem = true) (hf : 2 ≤ (p.area (deskIndex d)).first) :
    p.slotMoved (p.refuse d i o r) d i 5 (toWord o.code) r :=
  ⟨p.moveOut_slotReads d i _ o _ r hw hf, p.moveOut_done d i _ o _ r hw,
    p.moveOut_bytesKept d i _ o _ r hw,
    ⟨p.moveOut_desks d i _ o _ r, p.moveOut_latches d i _ o _ r, p.moveOut_follows d i _ o _ r⟩,
    p.moveOut_eq d i _ o _ r⟩

/-- A card whose owner's step only moves its slot moves only the slot, on a live part. -/
theorem State.card_onlyMoved {s : State} {d : Desk} {slot : Nat} {st oc r : Word}
    {f : Part → Blocks → Blocks} {p : Port}
    (hl : s.part.live = true) (hf : f s.part s.blk = { s.blk with port := p })
    (hp : s.port.slotMoved p d slot st oc r) :
    s.onlyMoved (s.onPart fun x => x.card (f x)) d slot st oc r := by
  have e : (s.onPart fun x => x.card (f x)) = s.onPart (·.onPort fun _ => p) := by
    unfold State.onPart Part.card Part.whenLive
    dsimp only
    rw [if_pos hl]
    exact congrArg (fun b => ({ s with part := { s.part with blk := b } } : State)) hf
  rw [e]
  exact ⟨hp, rfl⟩

/-- A refused card moves only its slot (R175). -/
theorem State.refused_onlyMoved (s : State) (d : Desk) (slot : Nat) (o : CardOutcome) (r : Word)
    (f : Part → Blocks → Blocks) (h : s.ready d)
    (hf : f s.part s.blk = s.blk.onPort (·.refuse d slot o r)) :
    s.onlyMoved (s.onPart fun x => x.card (f x)) d slot 5 (toWord o.code) r :=
  State.card_onlyMoved (p := s.port.refuse d slot o r) h.1 hf
    (Port.refuse_slotMoved _ _ _ _ _ h.2.1 h.2.2)

/-- A card that completes with no other effect moves only its slot (R175). -/
theorem State.completed_onlyMoved (s : State) (d : Desk) (slot : Nat) (o : CardOutcome) (r : Word)
    (f : Part → Blocks → Blocks) (h : s.ready d)
    (hf : f s.part s.blk = s.blk.onPort (·.complete d slot o r)) :
    s.onlyMoved (s.onPart fun x => x.card (f x)) d slot 4 (toWord o.code) r :=
  State.card_onlyMoved (p := s.port.complete d slot o r) h.1 hf
    (Port.complete_slotMoved _ _ _ _ _ h.2.1 h.2.2)

end Sys2Proof.Machine
end

