-- ==== Sys2Proof/Laws/Records.lean ====
section
/-! SUPPORT. What a notice and a log record do, said once (R79, R80, R189, R190). -/

namespace Sys2Proof.Machine

/-- A byte beyond a half is left alone by its write. -/
theorem memRead_memWriteHalf_ne (m : List Host.Cell) (a b n : Nat) (h : Memory.wf m = true)
    (hb : b < a ∨ a + 2 ≤ b) : memRead (memWriteHalf m a n) b = memRead m b := by
  unfold memWriteHalf
  rw [memRead_memWrite_ne _ _ _ _ (wf_memWrite _ _ _ h) (by omega), memRead_memWrite_ne _ _ _ _ h (by omega)]

/-- A half reads as it was written. -/
theorem memHalf_memWriteHalf_self (m : List Host.Cell) (a n : Nat) (h : Memory.wf m = true) :
    memHalf (memWriteHalf m a n) a = n % 65536 := by
  unfold memHalf memWriteHalf
  rw [memRead_memWrite_ne _ _ _ _ (wf_memWrite _ _ _ h) (by omega), memRead_memWrite_self _ _ _ h,
    memRead_memWrite_self _ _ _ (wf_memWrite _ _ _ h)]
  simp only [wordByte, toWord, BitVec.toNat_ofNat]
  omega

/-- A word beyond a half is left alone by its write. -/
theorem memWord_memWriteHalf_ne (m : List Host.Cell) (a b n : Nat) (h : Memory.wf m = true)
    (hb : b + 4 ≤ a ∨ a + 2 ≤ b) : memWord (memWriteHalf m a n) b = memWord m b := by
  unfold memWord
  rw [memRead_memWriteHalf_ne _ _ _ _ h (by omega), memRead_memWriteHalf_ne _ _ _ _ h (by omega),
    memRead_memWriteHalf_ne _ _ _ _ h (by omega), memRead_memWriteHalf_ne _ _ _ _ h (by omega)]

/-- A half beyond a half is left alone by its write. -/
theorem memHalf_memWriteHalf_ne (m : List Host.Cell) (a b n : Nat) (h : Memory.wf m = true)
    (hb : b + 2 ≤ a ∨ a + 2 ≤ b) : memHalf (memWriteHalf m a n) b = memHalf m b := by
  unfold memHalf
  rw [memRead_memWriteHalf_ne _ _ _ _ h (by omega), memRead_memWriteHalf_ne _ _ _ _ h (by omega)]

/-- A half beyond a word is left alone by its write. -/
theorem memHalf_memWriteWord_ne (m : List Host.Cell) (a b : Nat) (w : Word) (h : Memory.wf m = true)
    (hb : b + 2 ≤ a ∨ a + 4 ≤ b) : memHalf (memWriteWord m a w) b = memHalf m b := by
  unfold memHalf
  rw [memRead_memWriteWord_ne _ _ _ _ h (by omega), memRead_memWriteWord_ne _ _ _ _ h (by omega)]

/-- The conditions set and settled, as a record update of the Port. -/
theorem Port.evalConditions_eq (p : Port) :
    p.evalConditions = { p with noticeWaiting := p.evalConditions.noticeWaiting
                                logWaiting := p.evalConditions.logWaiting
                                irq := p.evalConditions.irq
                                messages := p.evalConditions.messages } := by
  unfold Port.evalConditions Port.settle; split <;> rfl

/-- An evaluation leaves both conditions as the counts have them (R191). -/
theorem Port.evalConditions_conditions (p : Port) : p.evalConditions.conditionsFollow := by
  unfold Port.conditionsFollow Port.evalConditions Port.noticeUsed Port.logUsed Port.noticeMark Port.logMark
  simp

/-- After an evaluation over a change that left the interrupt alone, the interrupt follows (R192). -/
theorem Port.evalConditions_follows {p q : Port} (hi : q.irq = p.irq) (hm : q.messages = p.messages) :
    p.interruptFollows q.evalConditions := Port.settle_follows hi hm

/-- The test of the overrun flag: it is cleared, with its word, where the area is empty (R190). -/
theorem Port.testOverrun_eq (p : Port) :
    p.testOverrun = { p with overrun := p.overrun && p.noticeUsed != 0, mem := p.testOverrun.mem } := by
  unfold Port.testOverrun
  split
  · simp_all [Port.pokePart, Port.poke]
  · have : p.overrun = (p.overrun && p.noticeUsed != 0) := by
      cases ho : p.overrun <;> simp_all
    rw [← this]

/-- The memory after the test of the overrun flag. -/
theorem Port.testOverrun_mem (p : Port) :
    p.testOverrun.mem = if p.overrun && p.noticeUsed == 0 then memWriteWord p.mem (partPage + 68) 0 else p.mem := by
  unfold Port.testOverrun
  split <;> simp [Port.pokePart, Port.poke]

/-- The test of the overrun flag leaves how full the area is. -/
theorem Port.testOverrun_used (p : Port) (hw : Memory.wf p.mem = true) :
    p.testOverrun.noticeUsed = p.noticeUsed := by
  unfold Port.noticeUsed Port.noticeMark
  rw [Port.testOverrun_mem]
  have h : p.testOverrun.noticeWrite = p.noticeWrite := by rw [Port.testOverrun_eq]
  rw [h]
  split
  · rw [memWord_memWriteWord_ne _ _ _ _ hw (by unfold partPage; omega)]
  · rfl

/-- All that a notice written where there is room does (R189). -/
theorem Port.writeNotice_eq (p : Port) (k : NoticeKind) (n : Nat) (v : Word) :
    p.writeNotice k n v =
      { p with mem := (p.writeNotice k n v).mem, noticeWrite := p.noticeWrite + 1
               noticeWaiting := (p.writeNotice k n v).noticeWaiting
               logWaiting := (p.writeNotice k n v).logWaiting
               irq := (p.writeNotice k n v).irq, messages := (p.writeNotice k n v).messages } := by
  unfold Port.writeNotice
  dsimp only
  rw [Port.evalConditions_eq]
  simp [Port.pokePart, Port.poke]

/-- The memory after a notice is written. -/
theorem Port.writeNotice_mem (p : Port) (k : NoticeKind) (n : Nat) (v : Word) :
    (p.writeNotice k n v).mem =
      memWriteWord (memWriteWord (memWriteWord (memWriteHalf (memWriteHalf p.mem
        (p.areaBase 8 + 16 * (p.noticeWrite.toNat % 256)) k.code)
        (p.areaBase 8 + 16 * (p.noticeWrite.toNat % 256) + 2) n)
        (p.areaBase 8 + 16 * (p.noticeWrite.toNat % 256) + 4) v)
        (p.areaBase 8 + 16 * (p.noticeWrite.toNat % 256) + 8) p.showTick)
        (partPage + 64) (p.noticeWrite + 1) := by
  unfold Port.writeNotice
  dsimp only
  rw [Port.evalConditions_eq]
  rfl

/-- A notice written evaluates the conditions, and the interrupt follows (R191, R192). -/
theorem Port.writeNotice_follows {p q : Port} (k : NoticeKind) (n : Nat) (v : Word) (hi : q.irq = p.irq)
    (hm : q.messages = p.messages) :
    (q.writeNotice k n v).conditionsFollow ∧ p.interruptFollows (q.writeNotice k n v) := by
  unfold Port.writeNotice
  refine ⟨Port.evalConditions_conditions _, Port.evalConditions_follows ?_ ?_⟩
  · simpa using hi
  · simpa using hm

/-- Every notice code is a small number. -/
theorem NoticeKind.code_lt (k : NoticeKind) : k.code < 65536 := by cases k <;> decide

/-- All that a notice does to the Port (R189, R190). -/
theorem Port.notice_noticeTaken (p : Port) (k : NoticeKind) (n : Nat) (v : Word)
    (hw : Memory.wf p.mem = true) (hf : 2 ≤ (p.area 8).first) :
    p.noticeTaken (p.notice k n v) k.code n v := by
  have hb : 8192 ≤ p.areaBase 8 := by unfold Port.areaBase Config.pageBytes; omega
  have ht := p.testOverrun_eq
  have hu := p.testOverrun_used hw
  have hm := p.testOverrun_mem
  have htb : p.testOverrun.areaBase 8 = p.areaBase 8 := by rw [ht]; rfl
  have htn : p.testOverrun.noticeWrite = p.noticeWrite := by rw [ht]
  have hts : p.testOverrun.showTick = p.showTick := by rw [ht]
  have hwt : Memory.wf p.testOverrun.mem = true := by
    rw [hm]; split
    · exact wf_memWriteWord _ _ _ hw
    · exact hw
  unfold Port.noticeTaken
  refine ⟨fun hc => Port.notice_config p k n v hc, ?_, ?_, ?_⟩
  · intro hr hn
    have hq : p.notice k n v = p.testOverrun.writeNotice k n v := by
      unfold Port.notice
      rw [if_pos (show p.running = true by simp [Port.running, hr])]; dsimp only
      rw [if_pos (by rw [hu]; exact hn)]
    rw [hq]
    have hmem := p.testOverrun.writeNotice_mem k n v
    rw [htb, htn, hts] at hmem
    have hp : partPage = 4096 := rfl
    generalize hA : p.areaBase 8 + 16 * (p.noticeWrite.toNat % 256) = A at *
    have hA8 : 8192 ≤ A := by omega
    have w1 := wf_memWriteHalf p.testOverrun.mem A k.code hwt
    have w2 := wf_memWriteHalf _ (A + 2) n w1
    have w3 := wf_memWriteWord _ (A + 4) v w2
    have w4 := wf_memWriteWord _ (A + 8) p.showTick w3
    have hti : p.testOverrun.irq = p.irq := by rw [ht]
    have htm : p.testOverrun.messages = p.messages := by rw [ht]
    refine ⟨?_, ?_, ?_, ?_, ?_, ?_, ?_, ?_, ?_, ?_, ?_⟩
    · rw [hmem, memHalf_memWriteWord_ne _ _ _ _ w4 (by omega), memHalf_memWriteWord_ne _ _ _ _ w3 (by omega),
        memHalf_memWriteWord_ne _ _ _ _ w2 (by omega), memHalf_memWriteHalf_ne _ _ _ _ w1 (by omega),
        memHalf_memWriteHalf_self _ _ _ hwt]
      have := k.code_lt; omega
    · rw [hmem, memHalf_memWriteWord_ne _ _ _ _ w4 (by omega), memHalf_memWriteWord_ne _ _ _ _ w3 (by omega),
        memHalf_memWriteWord_ne _ _ _ _ w2 (by omega), memHalf_memWriteHalf_self _ _ _ w1]
    · rw [hmem, memWord_memWriteWord_ne _ _ _ _ w4 (by omega), memWord_memWriteWord_ne _ _ _ _ w3 (by omega),
        memWord_memWriteWord_self _ _ _ w2]
    · rw [hmem, memWord_memWriteWord_ne _ _ _ _ w4 (by omega), memWord_memWriteWord_self _ _ _ w3]
    · rw [Port.writeNotice_eq, htn]
    · rw [hmem, memWord_memWriteWord_self _ _ _ w4]
    · rw [Port.writeNotice_eq]; show p.testOverrun.overrun = _; rw [ht]
    · intro ho h0
      rw [hmem, memWord_memWriteWord_ne _ _ _ _ w4 (by omega), memWord_memWriteWord_ne _ _ _ _ w3 (by omega),
        memWord_memWriteWord_ne _ _ _ _ w2 (by omega), memWord_memWriteHalf_ne _ _ _ _ w1 (by omega),
        memWord_memWriteHalf_ne _ _ _ _ hwt (by omega), hm, if_pos (by simp [ho, h0]),
        memWord_memWriteWord_self _ _ _ hw]
    · exact (Port.writeNotice_follows k n v hti htm).1
    · exact (Port.writeNotice_follows k n v hti htm).2
    · intro b hbw
      unfold Port.noticeWords at hbw
      dsimp only at hbw
      rw [hA] at hbw
      simp only [List.mem_cons, List.not_mem_nil, or_false, forall_eq_or_imp, forall_eq] at hbw
      obtain ⟨h1, h2, h3, h4, h5⟩ := hbw
      rw [hmem, memRead_memWriteWord_ne _ _ _ _ w4 (by omega), memRead_memWriteWord_ne _ _ _ _ w3 (by omega),
        memRead_memWriteWord_ne _ _ _ _ w2 (by omega), memRead_memWriteHalf_ne _ _ _ _ w1 (by omega),
        memRead_memWriteHalf_ne _ _ _ _ hwt (by omega), hm]
      split
      · exact memRead_memWriteWord_ne _ _ _ _ hw (by omega)
      · rfl
  · intro hr hn
    have hne : p.noticeUsed ≠ 0 := by omega
    have hid : p.testOverrun = p := by
      unfold Port.testOverrun
      rw [if_neg (by simp [hne])]
    have hq : p.notice k n v = if p.overrun then p else ({ p with overrun := true }).pokePart 68 1 := by
      unfold Port.notice
      rw [if_pos (show p.running = true by simp [Port.running, hr])]; dsimp only
      rw [hid, if_neg (by omega)]
    rw [hq]
    cases ho : p.overrun
    · rw [if_neg (by simp)]
      refine ⟨fun _ => memWord_memWriteWord_self _ _ _ hw, by simp, ?_, rfl⟩
      intro b hbw
      exact memRead_memWriteWord_ne _ _ _ _ hw (by simpa using hbw)
    · rw [if_pos rfl]
      exact ⟨by simp, fun _ => rfl, fun b _ => rfl, by rw [← ho]⟩
  · unfold Port.notice
    split
    · dsimp only
      split
      · rw [Port.writeNotice_eq, ht]
      · split
        · rw [ht]
        · rw [ht]; rfl
    · rfl

/-- The test of the log-full flag: it is cleared, with its word, where there is room (R80). -/
theorem Port.testLogFull_eq (p : Port) :
    p.testLogFull = { p with logFull := p.logFull && !decide (p.logUsed < 4096), mem := p.testLogFull.mem } := by
  unfold Port.testLogFull
  split
  · simp_all [Port.pokePart, Port.poke]
  · have : p.logFull = (p.logFull && !decide (p.logUsed < 4096)) := by
      cases ho : p.logFull <;> simp_all
    rw [← this]

/-- The memory after the test of the log-full flag. -/
theorem Port.testLogFull_mem (p : Port) :
    p.testLogFull.mem =
      if p.logFull && decide (p.logUsed < 4096) then memWriteWord p.mem (partPage + 60) 0 else p.mem := by
  unfold Port.testLogFull
  split <;> simp [Port.pokePart, Port.poke]

/-- The test of the log-full flag leaves how full the log is. -/
theorem Port.testLogFull_used (p : Port) (hw : Memory.wf p.mem = true) : p.testLogFull.logUsed = p.logUsed := by
  unfold Port.logUsed Port.logMark
  rw [Port.testLogFull_mem]
  have h : p.testLogFull.logWrite = p.logWrite := by rw [Port.testLogFull_eq]
  rw [h]
  split
  · rw [memWord_memWriteWord_ne _ _ _ _ hw (by unfold partPage; omega)]
  · rfl

/-- A record written where there is room, as a record update of the Port (R79). -/
theorem Port.writeLog_eq (p : Port) (r : LogRecord) :
    p.writeLog r =
      { p with mem := (p.writeLog r).mem, logWrite := p.logWrite + 1
               noticeWaiting := (p.writeLog r).noticeWaiting, logWaiting := (p.writeLog r).logWaiting
               irq := (p.writeLog r).irq, messages := (p.writeLog r).messages } := by
  unfold Port.writeLog
  dsimp only
  rw [Port.evalConditions_eq]
  simp [Port.pokePart, Port.poke]

/-- A record written evaluates the conditions, and the interrupt follows (R191, R192). -/
theorem Port.writeLog_follows {p q : Port} (r : LogRecord) (hi : q.irq = p.irq) (hm : q.messages = p.messages) :
    (q.writeLog r).conditionsFollow ∧ p.interruptFollows (q.writeLog r) := by
  unfold Port.writeLog
  refine ⟨Port.evalConditions_conditions _, Port.evalConditions_follows ?_ ?_⟩
  · simpa using hi
  · simpa using hm

/-- The first eight bytes of a record at an address. -/
def recordFront (m : List Host.Cell) (a : Nat) (r : LogRecord) : List Host.Cell :=
  memWriteHalf (memWriteHalf (memWriteBytes m a
    [BitVec.ofNat 8 r.kind, BitVec.ofNat 8 r.endCode, BitVec.ofNat 8 r.place, BitVec.ofNat 8 r.group])
    (a + 4) r.entry) (a + 6) r.slot

/-- The six words of a record from byte 8 on. -/
def recordBack (m : List Host.Cell) (a : Nat) (r : LogRecord) : List Host.Cell :=
  memWriteWord (memWriteWord (memWriteWord (memWriteWord (memWriteWord (memWriteWord m
    (a + 8) r.start) (a + 12) r.stop) (a + 16) (toWord r.shown)) (a + 20) (toWord r.credited))
    (a + 24) (toWord r.credits)) (a + 28) r.number

/-- The memory after a record is written. -/
theorem Port.writeLog_mem (p : Port) (r : LogRecord) :
    (p.writeLog r).mem =
      let a := p.areaBase 7 + 32 * (p.logWrite.toNat % 4096)
      memWriteWord (recordBack (recordFront p.mem a r) a r) (partPage + 56) (p.logWrite + 1) := by
  unfold Port.writeLog
  dsimp only
  rw [Port.evalConditions_eq]
  simp only [Port.pokePart, Port.poke, recordFront, recordBack]

/-- The front of a record, read back, and what it leaves. -/
theorem recordFront_reads (m : List Host.Cell) (a : Nat) (r : LogRecord) (hw : Memory.wf m = true) :
    Memory.wf (recordFront m a r) = true ∧
    (memRead (recordFront m a r) a).toNat = r.kind % 256 ∧
    (memRead (recordFront m a r) (a + 1)).toNat = r.endCode % 256 ∧
    (memRead (recordFront m a r) (a + 2)).toNat = r.place % 256 ∧
    (memRead (recordFront m a r) (a + 3)).toNat = r.group % 256 ∧
    memHalf (recordFront m a r) (a + 4) = r.entry % 65536 ∧
    memHalf (recordFront m a r) (a + 6) = r.slot % 65536 ∧
    ∀ b, b < a ∨ a + 8 ≤ b → memRead (recordFront m a r) b = memRead m b := by
  have w0 := wf_memWriteBytes m a
    [BitVec.ofNat 8 r.kind, BitVec.ofNat 8 r.endCode, BitVec.ofNat 8 r.place, BitVec.ofNat 8 r.group] hw
  have w1 := wf_memWriteHalf _ (a + 4) r.entry w0
  have f1 := wf_memWrite m a (BitVec.ofNat 8 r.kind) hw
  have f2 := wf_memWrite _ (a + 1) (BitVec.ofNat 8 r.endCode) f1
  have f3 := wf_memWrite _ (a + 2) (BitVec.ofNat 8 r.place) f2
  unfold recordFront
  refine ⟨wf_memWriteHalf _ _ _ w1, ?_, ?_, ?_, ?_, ?_, ?_, ?_⟩
  · rw [memRead_memWriteHalf_ne _ _ _ _ w1 (by omega), memRead_memWriteHalf_ne _ _ _ _ w0 (by omega)]
    simp only [memWriteBytes]
    rw [memRead_memWrite_ne _ _ _ _ f3 (by omega), memRead_memWrite_ne _ _ _ _ f2 (by omega),
      memRead_memWrite_ne _ _ _ _ f1 (by omega), memRead_memWrite_self _ _ _ hw]; simp
  · rw [memRead_memWriteHalf_ne _ _ _ _ w1 (by omega), memRead_memWriteHalf_ne _ _ _ _ w0 (by omega)]
    simp only [memWriteBytes]
    rw [memRead_memWrite_ne _ _ _ _ f3 (by omega), memRead_memWrite_ne _ _ _ _ f2 (by omega),
      memRead_memWrite_self _ _ _ f1]; simp
  · rw [memRead_memWriteHalf_ne _ _ _ _ w1 (by omega), memRead_memWriteHalf_ne _ _ _ _ w0 (by omega)]
    simp only [memWriteBytes]
    rw [memRead_memWrite_ne _ _ _ _ f3 (by omega), memRead_memWrite_self _ _ _ f2]; simp
  · rw [memRead_memWriteHalf_ne _ _ _ _ w1 (by omega), memRead_memWriteHalf_ne _ _ _ _ w0 (by omega)]
    simp only [memWriteBytes]
    rw [memRead_memWrite_self _ _ _ f3]; simp
  · rw [memHalf_memWriteHalf_ne _ _ _ _ w1 (by omega), memHalf_memWriteHalf_self _ _ _ w0]
  · rw [memHalf_memWriteHalf_self _ _ _ w1]
  · intro b hb
    rw [memRead_memWriteHalf_ne _ _ _ _ w1 (by omega), memRead_memWriteHalf_ne _ _ _ _ w0 (by omega)]
    simp only [memWriteBytes]
    rw [memRead_memWrite_ne _ _ _ _ f3 (by omega), memRead_memWrite_ne _ _ _ _ f2 (by omega),
      memRead_memWrite_ne _ _ _ _ f1 (by omega), memRead_memWrite_ne _ _ _ _ hw (by omega)]

/-- The back of a record, read back, and what it leaves. -/
theorem recordBack_reads (m : List Host.Cell) (a : Nat) (r : LogRecord) (hw : Memory.wf m = true) :
    Memory.wf (recordBack m a r) = true ∧
    memWord (recordBack m a r) (a + 8) = r.start ∧ memWord (recordBack m a r) (a + 12) = r.stop ∧
    memWord (recordBack m a r) (a + 16) = toWord r.shown ∧
    memWord (recordBack m a r) (a + 20) = toWord r.credited ∧
    memWord (recordBack m a r) (a + 24) = toWord r.credits ∧
    memWord (recordBack m a r) (a + 28) = r.number ∧
    ∀ b, b < a + 8 ∨ a + 32 ≤ b → memRead (recordBack m a r) b = memRead m b := by
  have w1 := wf_memWriteWord m (a + 8) r.start hw
  have w2 := wf_memWriteWord _ (a + 12) r.stop w1
  have w3 := wf_memWriteWord _ (a + 16) (toWord r.shown) w2
  have w4 := wf_memWriteWord _ (a + 20) (toWord r.credited) w3
  have w5 := wf_memWriteWord _ (a + 24) (toWord r.credits) w4
  unfold recordBack
  refine ⟨wf_memWriteWord _ _ _ w5, ?_, ?_, ?_, ?_, ?_, ?_, ?_⟩
  · rw [memWord_memWriteWord_ne _ _ _ _ w5 (by omega), memWord_memWriteWord_ne _ _ _ _ w4 (by omega),
      memWord_memWriteWord_ne _ _ _ _ w3 (by omega), memWord_memWriteWord_ne _ _ _ _ w2 (by omega),
      memWord_memWriteWord_ne _ _ _ _ w1 (by omega), memWord_memWriteWord_self _ _ _ hw]
  · rw [memWord_memWriteWord_ne _ _ _ _ w5 (by omega), memWord_memWriteWord_ne _ _ _ _ w4 (by omega),
      memWord_memWriteWord_ne _ _ _ _ w3 (by omega), memWord_memWriteWord_ne _ _ _ _ w2 (by omega),
      memWord_memWriteWord_self _ _ _ w1]
  · rw [memWord_memWriteWord_ne _ _ _ _ w5 (by omega), memWord_memWriteWord_ne _ _ _ _ w4 (by omega),
      memWord_memWriteWord_ne _ _ _ _ w3 (by omega), memWord_memWriteWord_self _ _ _ w2]
  · rw [memWord_memWriteWord_ne _ _ _ _ w5 (by omega), memWord_memWriteWord_ne _ _ _ _ w4 (by omega),
      memWord_memWriteWord_self _ _ _ w3]
  · rw [memWord_memWriteWord_ne _ _ _ _ w5 (by omega), memWord_memWriteWord_self _ _ _ w4]
  · rw [memWord_memWriteWord_self _ _ _ w5]
  · intro b hb
    rw [memRead_memWriteWord_ne _ _ _ _ w5 (by omega), memRead_memWriteWord_ne _ _ _ _ w4 (by omega),
      memRead_memWriteWord_ne _ _ _ _ w3 (by omega), memRead_memWriteWord_ne _ _ _ _ w2 (by omega),
      memRead_memWriteWord_ne _ _ _ _ w1 (by omega), memRead_memWriteWord_ne _ _ _ _ hw (by omega)]

/-- All that a record handed to the log does to the Port (R79, R80). -/
theorem Port.log_recordTaken (p : Port) (r : LogRecord) (hw : Memory.wf p.mem = true)
    (hf : 2 ≤ (p.area 7).first) (hn : 2 ≤ (p.area 8).first) : p.recordTaken (p.log r) r := by
  have hb : 8192 ≤ p.areaBase 7 := by unfold Port.areaBase Config.pageBytes; omega
  have ht := p.testLogFull_eq
  have hm := p.testLogFull_mem
  have hu := p.testLogFull_used hw
  have htb : p.testLogFull.areaBase 7 = p.areaBase 7 := by rw [ht]; rfl
  have htn : p.testLogFull.logWrite = p.logWrite := by rw [ht]
  have hwt : Memory.wf p.testLogFull.mem = true := by
    rw [hm]; split
    · exact wf_memWriteWord _ _ _ hw
    · exact hw
  have hp : partPage = 4096 := rfl
  unfold Port.recordTaken
  refine ⟨?_, ?_, ?_⟩
  · intro hl
    have hq : p.log r = p.testLogFull.writeLog r := by
      unfold Port.log; dsimp only; rw [if_pos (by rw [hu]; exact hl)]
    rw [hq]
    have hmem := p.testLogFull.writeLog_mem r
    dsimp only at hmem ⊢
    rw [htb, htn] at hmem
    have hwords : p.recordWords = ((List.range 8).map fun k =>
      p.areaBase 7 + 32 * (p.logWrite.toNat % 4096) + 4 * k) ++ [partPage + 56, partPage + 60] := rfl
    rw [hwords]
    generalize hA : p.areaBase 7 + 32 * (p.logWrite.toNat % 4096) = A at *
    have hA8 : 8192 ≤ A := by omega
    obtain ⟨wF, k0, k1, k2, k3, k4, k6, kF⟩ := recordFront_reads p.testLogFull.mem A r hwt
    obtain ⟨wB, b8, b12, b16, b20, b24, b28, kB⟩ := recordBack_reads _ A r wF
    have rd : ∀ b, 8192 ≤ b → memRead (p.testLogFull.writeLog r).mem b =
        memRead (recordBack (recordFront p.testLogFull.mem A r) A r) b := fun b hb => by
      rw [hmem, memRead_memWriteWord_ne _ _ _ _ wB (by omega)]
    have rw' : ∀ b, 8192 ≤ b → memWord (p.testLogFull.writeLog r).mem b =
        memWord (recordBack (recordFront p.testLogFull.mem A r) A r) b := fun b hb => by
      unfold memWord; rw [rd _ (by omega), rd _ (by omega), rd _ (by omega), rd _ (by omega)]
    have half : ∀ b, 8192 ≤ b → b + 2 ≤ A + 8 → memHalf (p.testLogFull.writeLog r).mem b =
        memHalf (recordFront p.testLogFull.mem A r) b := fun b hb h8 => by
      unfold memHalf; rw [rd _ (by omega), rd _ (by omega), kB _ (by omega), kB _ (by omega)]
    have hti : p.testLogFull.irq = p.irq := by rw [ht]
    have htm : p.testLogFull.messages = p.messages := by rw [ht]
    refine ⟨?_, ?_, ?_, ?_, ?_, ?_, ?_, ?_, ?_, ?_, ?_, ?_, ?_, ?_, ?_, ?_, ?_, ?_, ?_, ?_⟩
    · rw [rd _ (by omega), kB _ (by omega), k0]
    · rw [rd _ (by omega), kB _ (by omega), k1]
    · rw [rd _ (by omega), kB _ (by omega), k2]
    · rw [rd _ (by omega), kB _ (by omega), k3]
    · rw [half _ (by omega) (by omega), k4]
    · rw [half _ (by omega) (by omega), k6]
    · rw [rw' _ (by omega), b8]
    · rw [rw' _ (by omega), b12]
    · rw [rw' _ (by omega), b16]
    · rw [rw' _ (by omega), b20]
    · rw [rw' _ (by omega), b24]
    · rw [rw' _ (by omega), b28]
    · rw [Port.writeLog_eq, htn]
    · rw [hmem, memWord_memWriteWord_self _ _ _ wB]
    · rw [Port.writeLog_eq]; show p.testLogFull.logFull = _; rw [ht]; simp [hl]
    · intro hfull
      have h60 : ∀ b, partPage + 60 ≤ b → b < partPage + 64 →
          memRead (p.testLogFull.writeLog r).mem b = memRead (memWriteWord p.mem (partPage + 60) 0) b := by
        intro b h1 h2
        rw [hmem, memRead_memWriteWord_ne _ _ _ _ wB (by omega), kB _ (by omega), kF _ (by omega), hm,
          if_pos (by simp [hfull, hl])]
      unfold memWord
      rw [h60 _ (by omega) (by omega), h60 _ (by omega) (by omega), h60 _ (by omega) (by omega),
        h60 _ (by omega) (by omega)]
      exact memWord_memWriteWord_self _ _ _ hw
    · exact (Port.writeLog_follows r hti htm).1
    · exact (Port.writeLog_follows r hti htm).2
    · intro b hbw
      have e (k : Nat) (hk : k < 8) := hbw (A + 4 * k) (by
        simp only [List.mem_append, List.mem_map, List.mem_range]; exact .inl ⟨k, hk, rfl⟩)
      have e8 := e 0 (by omega); have e1 := e 1 (by omega); have e2 := e 2 (by omega)
      have e3 := e 3 (by omega); have e4 := e 4 (by omega); have e5 := e 5 (by omega)
      have e6 := e 6 (by omega); have e7 := e 7 (by omega)
      have g1 := hbw (partPage + 56) (by simp)
      have g2 := hbw (partPage + 60) (by simp)
      rw [hmem, memRead_memWriteWord_ne _ _ _ _ wB (by omega), kB _ (by omega), kF _ (by omega), hm]
      split
      · exact memRead_memWriteWord_ne _ _ _ _ hw (by omega)
      · rfl
    · rw [Port.writeLog_eq, ht]
  · intro hl hfull
    have hid : p.testLogFull = p := by
      unfold Port.testLogFull; rw [if_neg (by simp; omega)]
    unfold Port.log; dsimp only
    rw [hid, if_neg (by omega), if_pos hfull]
  · intro hl hfull
    have hid : p.testLogFull = p := by
      unfold Port.testLogFull; rw [if_neg (by simp; omega)]
    have hq : p.log r = ({ p with logFull := true, mem := memWriteWord p.mem (partPage + 60) 1 } :
        Port).notice .logFull 0 p.logWrite := by
      unfold Port.log; dsimp only
      rw [hid, if_neg (by omega), if_neg (by simp [hfull])]
      rfl
    rw [hq]
    exact Port.notice_noticeTaken _ .logFull 0 p.logWrite (wf_memWriteWord _ _ _ hw) hn

end Sys2Proof.Machine
end

