-- ==== Sys2Proof/Laws/Changes.lean ====
section
/-! SUPPORT. Chains of changes of the Port: how they are put together, and what each change of the model's own is
(R66, R79, R175, R189). -/

namespace Sys2Proof.Machine

/-! ## Chains -/

theorem Port.through_nil (p : Port) : Port.through [] p p := rfl

theorem Port.through_one {f : PortChange} {p q : Port} (h : f p q) : Port.through [f] p q := ⟨q, h, rfl⟩

/-- Two chains put together. -/
theorem Port.through_append {fs gs : List PortChange} {p m q : Port} (h : Port.through fs p m)
    (k : Port.through gs m q) : Port.through (fs ++ gs) p q := by
  induction fs generalizing p with
  | nil => subst h; exact k
  | cons f fs ih => obtain ⟨n, a, b⟩ := h; exact ⟨n, a, ih b⟩

/-- A fold each step of which is a chain of changes is a chain, under a property that every step keeps. -/
theorem Port.through_foldl {α : Type} (P : Port → Prop) (f : Port → α → Port) (R : α → List PortChange)
    (hP : ∀ p x, P p → P (f p x)) (hR : ∀ p x, P p → Port.through (R x) p (f p x)) (l : List α) (p : Port)
    (hp : P p) : Port.through (l.flatMap R) p (l.foldl f p) := by
  induction l generalizing p with
  | nil => rfl
  | cons a l ih =>
    rw [List.flatMap_cons]
    exact Port.through_append (hR _ _ hp) (ih _ (hP _ _ hp))

/-- Two properties that every small change keeps, together. -/
theorem Port.Closed.both {P Q : Port → Prop} (h : Port.Closed P) (k : Port.Closed Q) :
    Port.Closed fun p => P p ∧ Q p where
  write p m a v x := ⟨h.write p m a v x.1, k.write p m a v x.2⟩
  desks p ds x := ⟨h.desks p ds x.1, k.desks p ds x.2⟩
  setLatches p l x := ⟨h.setLatches p l x.1, k.setLatches p l x.2⟩
  evalConditions p x := ⟨h.evalConditions p x.1, k.evalConditions p x.2⟩
  noticeWrite p n x := ⟨h.noticeWrite p n x.1, k.noticeWrite p n x.2⟩
  logWrite p n x := ⟨h.logWrite p n x.1, k.logWrite p n x.2⟩
  overrun p y x := ⟨h.overrun p y x.1, k.overrun p y x.2⟩
  logFull p y x := ⟨h.logFull p y x.1, k.logFull p y x.2⟩
  unstated p n x := ⟨h.unstated p n x.1, k.unstated p n x.2⟩
  loadLocks p l x := ⟨h.loadLocks p l x.1, k.loadLocks p l x.2⟩

/-- The Port lies as another does: Show Memory canonical, the registers and the layout the same. -/
def Port.laidAs (q p : Port) : Prop := Memory.wf p.mem = true ∧ Port.sameFixed q p

/-- Every small change of the part keeps it. -/
theorem closed_laidAs (q : Port) : Port.Closed (Port.laidAs q) := closed_wf.both (closed_sameFixed q)

theorem Port.laid.self {p : Port} (h : p.laid) : Port.laidAs p p :=
  ⟨h.1, rfl, rfl, rfl, rfl, rfl, rfl, rfl, rfl, rfl, rfl, rfl, rfl⟩

theorem Port.laidAs.laid {q p : Port} (h : Port.laidAs q p) (hq : q.laid) : p.laid := by
  refine ⟨h.1, fun i hi => ?_⟩
  have := hq.2 i hi
  unfold Port.area at *
  rw [h.2.2.2.2.1]
  exact this

theorem Port.laidAs.showTick {q p : Port} (h : Port.laidAs q p) : p.showTick = q.showTick := h.2.2.2.1

/-! ## The part's own changes -/

theorem Port.notice_noticed (p : Port) (k : NoticeKind) (n : Nat) (v : Word) (h : p.laid) :
    noticed k.code n v p (p.notice k n v) := p.notice_noticeTaken k n v h.1 (h.2 8 (by omega))

theorem Port.complete_slotMoves (p : Port) (d : Desk) (i : Nat) (o : CardOutcome) (r : Word) (h : p.laid) :
    slotMoves d i 4 (toWord o.code) r p (p.complete d i o r) :=
  p.complete_slotMoved d i o r h.1 (h.2 _ (by cases d <;> decide))

theorem Port.refuse_slotMoves (p : Port) (d : Desk) (i : Nat) (o : CardOutcome) (r : Word) (h : p.laid) :
    slotMoves d i 5 (toWord o.code) r p (p.refuse d i o r) :=
  p.refuse_slotMoved d i o r h.1 (h.2 _ (by cases d <;> decide))

theorem Port.log_airingLogged (p : Port) (r : Rotator) (reason : AiringEnd) (a : Airing) (h : p.laid) :
    r.airingLogged reason.code a p (p.log (airingRecord r reason p.showTick a)) :=
  p.log_recordTaken _ h.1 (h.2 7 (by omega)) (h.2 8 (by omega))

theorem Port.log_passLogged (p : Port) (c : MsgCard) (x : Pass) (e : PassEnd) (h : p.laid) :
    Port.through (c.passLogged e.code x) p
      (if c.cls = .sponsored then p.log (passRecord c x e p.showTick) else p) := by
  unfold MsgCard.passLogged
  split
  · exact Port.through_one (p.log_recordTaken _ h.1 (h.2 7 (by omega)) (h.2 8 (by omega)))
  · rfl

theorem Port.latchHorn_hornLatched (p : Port) : hornLatched p p.latchHorn := by
  refine ⟨?_, Port.setLatches_follows _ rfl rfl⟩
  unfold Port.latchHorn Port.setLatches
  exact Port.settle_eq _

/-- The bytes of a list written one after another read as the list. -/
theorem memRead_memWriteBytes (m : List Host.Cell) (a b : Nat) (bs : List Byte) (h : Memory.wf m = true) :
    memRead (memWriteBytes m a bs) b =
      if a ≤ b ∧ b < a + bs.length then bs.getD (b - a) 0 else memRead m b := by
  induction bs generalizing m a with
  | nil => rw [if_neg (by simp)]; rfl
  | cons x bs ih =>
    show memRead (memWriteBytes (memWrite m a x) (a + 1) bs) b = _
    rw [ih _ _ (wf_memWrite _ _ _ h), memRead_memWrite _ _ _ _ h]
    by_cases h1 : b = a
    · subst h1; rw [if_neg (by omega), if_pos rfl, if_pos (by simp)]; simp
    · rw [if_neg h1]
      by_cases h2 : a + 1 ≤ b ∧ b < a + 1 + bs.length
      · rw [if_pos h2, if_pos (by simp; omega)]
        obtain ⟨k, rfl⟩ := Nat.exists_eq_add_of_le h2.1
        rw [show a + 1 + k - (a + 1) = k by omega, show a + 1 + k - a = k + 1 by omega]; rfl
      · rw [if_neg h2, if_neg (by simp; omega)]

/-- Bytes written behind an edit count that is raised before them and after them (R66). -/
def meterMem (m : List Host.Cell) (a : Nat) (k : Word) (bytes : List Byte) : List Host.Cell :=
  memWriteWord (memWriteBytes (memWriteWord m a (k + 1)) (a + 4) bytes) a (k + 2)

/-- Show Memory after the writing of a meter-table entry (R66). -/
theorem Blocks.writeMeter_port (b : Blocks) (e : Nat) (bytes : List Byte) :
    (b.writeMeter e bytes).port = { b.port with
      mem := meterMem b.port.mem (b.port.meterAddr e) (tget 0 b.rot.edits e) bytes } := rfl

/-- What it reads as: the edit count, the bytes, and all else as before. -/
theorem meterMem_reads (m : List Host.Cell) (a : Nat) (k : Word) (bytes : List Byte)
    (h : Memory.wf m = true) :
    memWord (meterMem m a k bytes) a = k + 2 ∧
    (∀ i, i < bytes.length → memRead (meterMem m a k bytes) (a + 4 + i) = bytes.getD i 0) ∧
    ∀ b, b < a ∨ a + 4 + bytes.length ≤ b → memRead (meterMem m a k bytes) b = memRead m b := by
  unfold meterMem
  have h1 := wf_memWriteWord m a (k + 1) h
  have h2 := wf_memWriteBytes _ (a + 4) bytes h1
  refine ⟨memWord_memWriteWord_self _ _ _ h2, fun i hi => ?_, fun b hb => ?_⟩
  · rw [memRead_memWriteWord_ne _ _ _ _ h2 (by omega), memRead_memWriteBytes _ _ _ _ h1,
      if_pos ⟨by omega, by omega⟩, Nat.add_sub_cancel_left]
  · rw [memRead_memWriteWord_ne _ _ _ _ h2 (by omega), memRead_memWriteBytes _ _ _ _ h1, if_neg (by omega),
      memRead_memWriteWord_ne _ _ _ _ h (by omega)]

/-- A word of those bytes. -/
theorem meterMem_word (m : List Host.Cell) (a : Nat) (k : Word) (bytes : List Byte) (h : Memory.wf m = true)
    (i : Nat) (w : Word) (hi : i + 3 < bytes.length)
    (hb : (bytes.drop i).take 4 = [wordByte w 0, wordByte w 1, wordByte w 2, wordByte w 3]) :
    memWord (meterMem m a k bytes) (a + 4 + i) = w := by
  have r := (meterMem_reads m a k bytes h).2.1
  have g (j : Nat) (hj : j < 4) : bytes.getD (i + j) 0 =
      [wordByte w 0, wordByte w 1, wordByte w 2, wordByte w 3].getD j 0 := by
    rw [← hb]; simp [List.getD_eq_getElem?_getD, hj]
  have r0 := r i (by omega)
  have r1 := r (i + 1) (by omega)
  have r2 := r (i + 2) (by omega)
  have r3 := r (i + 3) (by omega)
  rw [show i = i + 0 from rfl, g 0 (by omega)] at r0
  rw [g 1 (by omega)] at r1
  rw [g 2 (by omega)] at r2
  rw [g 3 (by omega)] at r3
  unfold memWord
  rw [Nat.add_assoc _ i 1, Nat.add_assoc _ i 2, Nat.add_assoc _ i 3, r1, r2, r3]
  rw [show memRead (meterMem m a k bytes) (a + 4 + i) = wordByte w 0 from r0]
  exact word_of_bytes w

/-- What the writing of a SET entry to the meter table does (R66). -/
theorem Blocks.writeMeter_set (b : Blocks) (e : Nat) (x : Entry) (h : Memory.wf b.port.mem = true) :
    meterWritten e (tget 0 b.rot.edits e + 2) (some x) b.port (b.writeMeter e (meterBytes x)).port := by
  rw [Blocks.writeMeter_port]
  generalize ha : b.port.meterAddr e = a
  generalize tget 0 b.rot.edits e = k
  obtain ⟨h0, hb, hn⟩ := meterMem_reads b.port.mem a k (meterBytes x) h
  have hw := meterMem_word b.port.mem a k (meterBytes x) h
  have hl : (meterBytes x).length = 24 := rfl
  rw [hl] at hb hn hw
  unfold meterWritten
  dsimp only
  rw [ha]
  refine ⟨h0, ⟨hb 0 (by omega), ?_, ?_, hw 4 _ (by omega) rfl, hw 8 _ (by omega) rfl, hw 12 _ (by omega) rfl,
    hw 16 _ (by omega) rfl, hw 20 _ (by omega) rfl, fun c hc => hn c (by omega)⟩, rfl⟩
  · rw [hb 1 (by omega)]
    exact BitVec.toNat_ofNat _ _
  · have a1 := hb 2 (by omega)
    have a2 := hb 3 (by omega)
    unfold memHalf
    rw [show a + 6 = a + 4 + 2 by omega, show a + 4 + 2 + 1 = a + 4 + 3 by omega, a1, a2]
    show (wordByte (toWord x.image) 0).toNat + 256 * (wordByte (toWord x.image) 1).toNat = _
    simp only [wordByte, toWord, BitVec.toNat_ofNat]
    omega

/-- What the writing of an entry that becomes UNSET does (R65, R66). -/
theorem Blocks.writeMeter_unset (b : Blocks) (e : Nat) (h : Memory.wf b.port.mem = true) :
    meterWritten e (tget 0 b.rot.edits e + 2) none b.port (b.writeMeter e [0]).port := by
  rw [Blocks.writeMeter_port]
  obtain ⟨h0, hb, hn⟩ := meterMem_reads b.port.mem (b.port.meterAddr e) (tget 0 b.rot.edits e) [0] h
  exact ⟨h0, ⟨hb 0 (by decide), fun c hc => hn c (by simp only [List.length_singleton]; omega)⟩, rfl⟩

end Sys2Proof.Machine
end

