-- ==== Sys2Proof/Laws/Entry.lean ====
section
/-! SUPPORT. What each stage of the entry to RUNNING does to the Port, said once: the layout in force, the desks and counts
cleared, the orphan sweep, the locks and the start of the show (R172, R173, R181, R183). -/

namespace Sys2Proof.Machine

/-! ## A record that passes (R172) -/

/-- A record that passes: every area lies within the pages that areas may have and has the pages required of it, and no two
meet. -/
theorem Layout.check_ok (l : Layout) (h : l.check.1 = .ok) :
    (∀ i, i < 11 → (l.area i).outside = false) ∧
    (∀ i j, i < j → j < 11 → (l.area i).meets (l.area j) = false) ∧
    ∀ i, i < 11 → requiredPages i ≤ (l.area i).count := by
  unfold Layout.check at h
  split at h
  · cases h
  · rename_i h1
    split at h
    · cases h
    · rename_i h2
      split at h
      · cases h
      · rename_i h3
        refine ⟨fun i hi => ?_, fun i j hij hj => ?_, fun i hi => ?_⟩
        · have := List.find?_eq_none.mp h1 i (List.mem_range.mpr hi)
          simpa using this
        · unfold Layout.overlap at h2
          rw [List.head?_eq_none_iff, List.flatMap_eq_nil_iff] at h2
          have := h2 i (List.mem_range.mpr (by omega))
          rw [List.filter_eq_nil_iff] at this
          have := this j (List.mem_range.mpr hj)
          simpa [hij] using this
        · have := List.find?_eq_none.mp h3 i (List.mem_range.mpr hi)
          simpa using this

/-- Every area of a record that passes lies clear of the host page and the part page. -/
theorem Layout.check_first (l : Layout) (h : l.check.1 = .ok) (i : Nat) (hi : i < 11) : 2 ≤ (l.area i).first := by
  obtain ⟨h1, -, h3⟩ := l.check_ok h
  have a := h1 i hi
  have b := h3 i hi
  have c : 1 ≤ requiredPages i := by
    unfold requiredPages; split <;> omega
  unfold PageRange.outside at a
  simp only [Bool.and_eq_false_iff, bne_eq_false_iff_eq, Bool.or_eq_false_iff, decide_eq_false_iff_not] at a
  omega

/-- The areas of a desk: its slots lie within its required pages. -/
theorem deskSlots_fit (d : Desk) : 512 * deskSlots d ≤ 4096 * requiredPages (deskIndex d) := by
  cases d <;> decide

/-- Slots of two places under a record that passes lie apart. -/
theorem Layout.slots_apart (l : Layout) (h : l.check.1 = .ok) (p : Port) (hp : p.areas = some l.areas)
    (d e : Desk) (i j : Nat) (hi : i < deskSlots d) (hj : j < deskSlots e) (hne : d ≠ e ∨ i ≠ j) :
    p.slotAddr d i + 512 ≤ p.slotAddr e j ∨ p.slotAddr e j + 512 ≤ p.slotAddr d i := by
  have ha : ∀ k, p.area k = l.area k := fun k => by unfold Port.area Layout.area; rw [hp]; rfl
  unfold Port.slotAddr Port.areaBase Config.pageBytes
  rw [ha, ha]
  by_cases hde : d = e
  · subst hde
    have : i ≠ j := by rcases hne with h | h <;> [exact absurd rfl h; exact h]
    omega
  · obtain ⟨-, h2, h3⟩ := l.check_ok h
    have hd : deskIndex d < 11 := by cases d <;> decide
    have he : deskIndex e < 11 := by cases e <;> decide
    have hn : deskIndex d ≠ deskIndex e := by
      intro hc; apply hde; revert hc; cases d <;> cases e <;> decide
    have fd := deskSlots_fit d
    have fe := deskSlots_fit e
    have cd := h3 _ hd
    have ce := h3 _ he
    have key : ∀ r s : PageRange, r.meets s = false → 0 < r.count → 0 < s.count →
        r.first + r.count ≤ s.first ∨ s.first + s.count ≤ r.first := by
      intro r s hm hr hs
      unfold PageRange.meets at hm
      have e1 : (r.count != 0) = true := by simp; omega
      have e2 : (s.count != 0) = true := by simp; omega
      rw [e1, e2] at hm
      simp only [Bool.and_true, Bool.and_eq_false_iff, decide_eq_false_iff_not] at hm
      omega
    have pd : 0 < (l.area (deskIndex d)).count := by
      have : 1 ≤ requiredPages (deskIndex d) := by cases d <;> decide
      omega
    have pe : 0 < (l.area (deskIndex e)).count := by
      have : 1 ≤ requiredPages (deskIndex e) := by cases e <;> decide
      omega
    rcases Nat.lt_or_gt_of_ne hn with hlt | hlt
    · rcases key _ _ (h2 _ _ hlt he) pd pe with hk | hk <;> omega
    · rcases key _ _ (h2 _ _ hlt hd) pe pd with hk | hk <;> omega

/-! ## Words of zeros -/

/-- Words set to 0 one after another. -/
def zeroWords (ws : List Nat) (m : List Host.Cell) : List Host.Cell := ws.foldl (fun m a => memWriteWord m a 0) m

/-- Words set to 0: each reads 0 where all are aligned, and every byte outside them is left alone. -/
theorem zeroWords_reads (ws : List Nat) (m : List Host.Cell) (h : Memory.wf m = true) :
    Memory.wf (zeroWords ws m) = true ∧ bytesKept m (zeroWords ws m) ws ∧
    ((∀ a ∈ ws, a % 4 = 0) → ∀ a ∈ ws, memWord (zeroWords ws m) a = 0) := by
  induction ws generalizing m with
  | nil => exact ⟨h, fun _ _ => rfl, fun _ a ha => by cases ha⟩
  | cons w ws ih =>
    obtain ⟨i1, i2, i3⟩ := ih (memWriteWord m w 0) (wf_memWriteWord _ _ _ h)
    refine ⟨i1, fun a ha => ?_, fun hd a ha => ?_⟩
    · show memRead (zeroWords ws (memWriteWord m w 0)) a = _
      rw [i2 a fun x hx => ha x (List.mem_cons_of_mem _ hx)]
      exact memRead_memWriteWord_ne _ _ _ _ h (ha w List.mem_cons_self)
    · have hd' : ∀ a ∈ ws, a % 4 = 0 := fun a ha => hd a (List.mem_cons_of_mem _ ha)
      show memWord (zeroWords ws (memWriteWord m w 0)) a = 0
      by_cases hm : a ∈ ws
      · exact i3 hd' a hm
      · have haw : a = w := by rcases List.mem_cons.mp ha with e | e <;> [exact e; exact absurd e hm]
        subst haw
        have k : ∀ o, o < 4 → memRead (zeroWords ws (memWriteWord m a 0)) (a + o) =
            memRead (memWriteWord m a 0) (a + o) := fun o ho => i2 _ fun x hx => by
          have h1 := hd a List.mem_cons_self
          have h2 := hd' x hx
          have h3 : x ≠ a := fun e => hm (e ▸ hx)
          omega
        exact (memWord_congr k).trans (memWord_memWriteWord_self m a 0 h)

/-! ## The stages of the entry (R173) -/

/-- The words that stage 2 writes, in the order in which it writes them. -/
def clearedWords : List Nat := [4112, 4132, 4116, 4136, 4120, 4140, 4124, 4144, 4128, 4148]

/-- Stage 2 as a record update of the Port. -/
theorem Port.clearDesks_eq (p : Port) : p.clearDesks =
    { p with mem := zeroWords clearedWords p.mem, desks := ⟨.init, .init, .init, .init, .init⟩ } := by
  simp only [Port.clearDesks, allDesks, List.foldl_cons, List.foldl_nil, Port.pokePart, Port.poke, partPage, deskIndex,
    zeroWords, clearedWords]

/-- They are the words of the ten counts. -/
theorem mem_clearedWords (a : Nat) : a ∈ clearedWords ↔ a ∈ deskCountWords := by
  have e : deskCountWords = [4112, 4116, 4120, 4124, 4128, 4132, 4136, 4140, 4144, 4148] := by decide
  rw [e]
  simp only [clearedWords, List.mem_cons, List.not_mem_nil, or_false]
  omega

/-- They are aligned. -/
theorem clearedWords_aligned : ∀ a ∈ clearedWords, a % 4 = 0 := by
  simp only [clearedWords, List.forall_mem_cons, List.not_mem_nil, false_implies, implies_true, and_true]

/-- Stage 2 (R173). -/
theorem Port.clearDesks_desksCleared (p : Port) (hw : Memory.wf p.mem = true) : desksCleared p p.clearDesks := by
  obtain ⟨-, h2, h3⟩ := zeroWords_reads clearedWords p.mem hw
  have h4 := h3 clearedWords_aligned
  rw [Port.clearDesks_eq]
  generalize zeroWords clearedWords p.mem = z at *
  exact ⟨fun d => by cases d <;> rfl, fun a ha => h4 a ((mem_clearedWords a).mpr ha),
    fun a ha => h2 a fun w hw' => ha w ((mem_clearedWords w).mp hw'), rfl⟩

/-- An area whose mark stands at its write count holds nothing. -/
theorem usedRecords_self (cap : Nat) (w : Word) : usedRecords cap w w = 0 := by
  unfold usedRecords effectiveRead; simp

/-- Show Memory after stage 3 has written the counts and the flags. -/
def countWords (m : List Host.Cell) (log notice : Word) : List Host.Cell :=
  memWriteWord (memWriteWord (memWriteWord (memWriteWord m 4152 log) 4156 0) 4160 notice) 4164 0

/-- What it reads as. -/
theorem countWords_reads (m : List Host.Cell) (log notice : Word) (h : Memory.wf m = true) :
    memWord (countWords m log notice) 4152 = log ∧ memWord (countWords m log notice) 4156 = 0 ∧
    memWord (countWords m log notice) 4160 = notice ∧ memWord (countWords m log notice) 4164 = 0 ∧
    bytesKept m (countWords m log notice) [4152, 4156, 4160, 4164] := by
  have w1 := wf_memWriteWord m 4152 log h
  have w2 := wf_memWriteWord _ 4156 0 w1
  have w3 := wf_memWriteWord _ 4160 notice w2
  unfold countWords
  refine ⟨?_, ?_, ?_, memWord_memWriteWord_self _ _ _ w3, fun a ha => ?_⟩
  · rw [memWord_memWriteWord_ne _ _ _ _ w3 (by omega), memWord_memWriteWord_ne _ _ _ _ w2 (by omega),
      memWord_memWriteWord_ne _ _ _ _ w1 (by omega), memWord_memWriteWord_self _ _ _ h]
  · rw [memWord_memWriteWord_ne _ _ _ _ w3 (by omega), memWord_memWriteWord_ne _ _ _ _ w2 (by omega),
      memWord_memWriteWord_self _ _ _ w1]
  · rw [memWord_memWriteWord_ne _ _ _ _ w3 (by omega), memWord_memWriteWord_self _ _ _ w2]
  · simp only [List.mem_cons, List.not_mem_nil, or_false, forall_eq_or_imp, forall_eq] at ha
    rw [memRead_memWriteWord_ne _ _ _ _ w3 (by omega), memRead_memWriteWord_ne _ _ _ _ w2 (by omega),
      memRead_memWriteWord_ne _ _ _ _ w1 (by omega), memRead_memWriteWord_ne _ _ _ _ h (by omega)]

/-- Stage 3 as an evaluation of the conditions over a record update of the Port. -/
theorem Port.startCounts_eq (p : Port) : p.startCounts =
    ({ p with mem := countWords p.mem p.logMark p.noticeMark, logWrite := p.logMark, noticeWrite := p.noticeMark
              logFull := false, overrun := false, countsInForce := true } : Port).evalConditions := by
  simp only [Port.startCounts, Port.pokePart, Port.poke, partPage, countWords]

/-- Stage 3 (R173). -/
theorem Port.startCounts_countsStarted (p : Port) (hw : Memory.wf p.mem = true) :
    countsStarted p p.startCounts := by
  obtain ⟨r1, r2, r3, r4, k⟩ := countWords_reads p.mem p.logMark p.noticeMark hw
  rw [Port.startCounts_eq]
  have kept : ∀ a, a + 4 ≤ 4152 → memWord (countWords p.mem p.logMark p.noticeMark) a = memWord p.mem a := fun a ha =>
    memWord_congr fun o ho => k _ (by
      simp only [List.mem_cons, List.not_mem_nil, or_false, forall_eq_or_imp, forall_eq]; omega)
  have h20 := kept 20 (by omega)
  have h24 := kept 24 (by omega)
  generalize countWords p.mem p.logMark p.noticeMark = m at *
  generalize hq : ({ p with mem := m, logWrite := p.logMark, noticeWrite := p.noticeMark, logFull := false
                            overrun := false, countsInForce := true } : Port) = q
  have hf : p.interruptFollows q.evalConditions :=
    Port.evalConditions_follows (by rw [← hq]) (by rw [← hq])
  have e := Port.evalConditions_eq q
  have hn : q.noticeUsed = 0 := by
    unfold Port.noticeUsed Port.noticeMark; rw [← hq]; dsimp only; rw [h24]; exact usedRecords_self _ _
  have hl : q.logUsed = 0 := by
    unfold Port.logUsed Port.logMark; rw [← hq]; dsimp only; rw [h20]; exact usedRecords_self _ _
  have cn : q.evalConditions.noticeWaiting = false := by
    unfold Port.evalConditions; rw [hn]; simp
  have cl : q.evalConditions.logWaiting = false := by
    unfold Port.evalConditions; rw [hl]; simp
  rw [cn, cl] at e
  have hm : q.evalConditions.mem = m := by rw [e, ← hq]
  unfold countsStarted
  rw [hm]
  refine ⟨?_, ?_, r1, r2, r3, r4, k, hf, ?_⟩
  · rw [e, ← hq]; rfl
  · rw [e, ← hq]; rfl
  · conv_lhs => rw [e]
    have x1 : q.evalConditions.logWrite = p.logMark := by rw [e, ← hq]
    have x2 : q.evalConditions.noticeWrite = p.noticeMark := by rw [e, ← hq]
    rw [x1, x2, ← hq]

/-! ## The orphan sweep (R181) -/

/-- Every slot of the five desks, in the order of the sweep. -/
def allSlots : List (Desk × Nat) := allDesks.flatMap fun d => (List.range (deskSlots d)).map fun i => (d, i)

theorem mem_allSlots (x : Desk × Nat) : x ∈ allSlots ↔ x.2 < deskSlots x.1 := by
  obtain ⟨d, i⟩ := x
  unfold allSlots
  simp only [List.mem_flatMap, List.mem_map, List.mem_range, Prod.mk.injEq]
  constructor
  · rintro ⟨_, _, _, h, rfl, rfl⟩; exact h
  · intro h; exact ⟨d, by cases d <;> decide, i, h, rfl, rfl⟩

theorem nodup_allSlots : allSlots.Nodup := by
  unfold allSlots
  rw [List.nodup_flatMap]
  refine ⟨fun d _ => List.Nodup.map (fun a b h => (Prod.mk.inj h).2) List.nodup_range, ?_⟩
  have : allDesks.Pairwise (· ≠ ·) := by decide
  refine this.imp fun {d e} hne => ?_
  intro x h1 h2
  simp only [List.mem_map] at h1 h2
  obtain ⟨_, _, rfl⟩ := h1
  obtain ⟨_, _, h⟩ := h2
  exact hne (Prod.mk.inj h).1.symm

theorem Port.sweep_eq (p : Port) : p.sweep = allSlots.foldl (fun p x => Port.sweepSlot x.1 p x.2) p := by
  unfold Port.sweep allSlots
  simp only [List.foldl_flatMap, List.foldl_map]

/-- The slots of a list that the sweep finds TAKEN or ACTIVE, as a test. -/
def Port.isOrphan (p : Port) (x : Desk × Nat) : Bool :=
  memWord p.mem (p.slotAddr x.1 x.2) == 2 || memWord p.mem (p.slotAddr x.1 x.2) == 3

/-- The numbers of the slots of one desk in a list. -/
def slotsOf (d : Desk) (l : List (Desk × Nat)) : List Nat := (l.filter fun x => x.1 == d).map (·.2)

/-- What the sweep of a list of slots does: all that `orphansSwept` says, of the slots of the list. -/
structure Swept (l : List (Desk × Nat)) (p q : Port) : Prop where
  wf : Memory.wf q.mem = true
  reads : ∀ x ∈ l, p.isOrphan x = true → p.slotReads q x.1 x.2 5 25 0 0
  desks : ∀ d, q.desks.get d = { p.desks.get d with
    done := (p.desks.get d).done + toWord (slotsOf d (l.filter p.isOrphan)).length
    held := (p.desks.get d).held.filter fun i => !(slotsOf d (l.filter p.isOrphan)).contains i }
  done : ∀ d, slotsOf d (l.filter p.isOrphan) ≠ [] →
    memWord q.mem (partPage + 36 + 4 * deskIndex d) = (q.desks.get d).done
  kept : ∀ b, (∀ x ∈ l, p.isOrphan x = true → ∀ w ∈ p.slotWords x.1 x.2, b < w ∨ w + 4 ≤ b) →
    memRead q.mem b = memRead p.mem b
  latched : l.filter p.isOrphan ≠ [] → q.latches = { p.latches with deskDone := true } ∧ q.irq = q.common
  none : l.filter p.isOrphan = [] → q = p
  rest : q = { p with mem := q.mem, desks := q.desks, latches := q.latches, irq := q.irq, messages := q.messages }

/-- The slots of a desk in a list that ends in another slot. -/
theorem slotsOf_append (d : Desk) (l : List (Desk × Nat)) (x : Desk × Nat) :
    slotsOf d (l ++ [x]) = slotsOf d l ++ if x.1 = d then [x.2] else [] := by
  unfold slotsOf
  rw [List.filter_append, List.map_append]
  congr 1
  by_cases h : x.1 = d <;> simp [h]

/-- The words of a slot's move lie apart from another slot of the layout. -/
theorem Layout.slotWords_apart (l : Layout) (h : l.check.1 = .ok) (p : Port) (hp : p.areas = some l.areas)
    {x y : Desk × Nat} (hx : x.2 < deskSlots x.1) (hy : y.2 < deskSlots y.1) (hne : x ≠ y) (o : Nat) (ho : o < 512) :
    ∀ w ∈ p.slotWords y.1 y.2, p.slotAddr x.1 x.2 + o < w ∨ w + 4 ≤ p.slotAddr x.1 x.2 + o := by
  have hap := l.slots_apart h p hp x.1 y.1 x.2 y.2 hx hy (by
    by_contra hc; push Not at hc; exact hne (Prod.ext hc.1 hc.2))
  have hf := l.check_first h (deskIndex x.1) (by cases x.1 <;> decide)
  have ha : 8192 ≤ p.slotAddr x.1 x.2 := by
    have : p.area (deskIndex x.1) = l.area (deskIndex x.1) := by unfold Port.area Layout.area; rw [hp]; rfl
    unfold Port.slotAddr Port.areaBase Config.pageBytes; rw [this]; omega
  have hd : deskIndex y.1 ≤ 4 := by cases y.1 <;> decide
  intro w hw
  simp only [Port.slotWords, List.mem_cons, List.not_mem_nil, or_false, partPage] at hw
  omega

/-- The slot is at an address of the layout in force. -/
theorem Port.slotAddr_congr {p q : Port} (h : q.areas = p.areas) (d : Desk) (i : Nat) :
    q.slotAddr d i = p.slotAddr d i := by
  unfold Port.slotAddr Port.areaBase Port.area; rw [h]

/-- The sweep of a list of slots of a layout that passes, each once. -/
theorem Layout.swept (l : Layout) (h : l.check.1 = .ok) (p : Port) (hp : p.areas = some l.areas)
    (hw : Memory.wf p.mem = true) (xs : List (Desk × Nat)) (hn : xs.Nodup) (hr : ∀ x ∈ xs, x.2 < deskSlots x.1) :
    Swept xs p (xs.foldl (fun p x => Port.sweepSlot x.1 p x.2) p) := by
  induction xs using List.reverseRecOn with
  | nil =>
    exact ⟨hw, by simp, fun d => by simp [slotsOf, toWord], by simp [slotsOf], fun _ _ => rfl, by simp, fun _ => rfl, rfl⟩
  | append_singleton xs x ih =>
    rw [List.nodup_append] at hn
    have hx := hr x (by simp)
    have hxs : ∀ y ∈ xs, y.2 < deskSlots y.1 := fun y hy => hr y (by simp [hy])
    have hne : ∀ y ∈ xs, y ≠ x := fun y hy => hn.2.2 y hy x (by simp)
    have s := ih hn.1 hxs
    rw [List.foldl_append, List.foldl_cons, List.foldl_nil]
    generalize xs.foldl (fun p x => Port.sweepSlot x.1 p x.2) p = q at s ⊢
    have hq : q.areas = p.areas := by rw [s.rest]
    have ha : ∀ d i, q.slotAddr d i = p.slotAddr d i := Port.slotAddr_congr hq
    have hword : memWord q.mem (p.slotAddr x.1 x.2) = memWord p.mem (p.slotAddr x.1 x.2) :=
      memWord_congr fun o ho => s.kept _ fun y hy _ w hw' =>
        l.slotWords_apart h p hp hx (hxs y hy) (hne y hy).symm o (by omega) w hw'
    have hff : (xs ++ [x]).filter p.isOrphan = xs.filter p.isOrphan ++ if p.isOrphan x then [x] else [] := by
      rw [List.filter_append, List.filter_cons, List.filter_nil]
    by_cases ho : p.isOrphan x = true
    · have hm : Port.sweepSlot x.1 q x.2 = q.moveOut x.1 x.2 slotRefused .orphaned 0 0 := by
        unfold Port.sweepSlot
        dsimp only
        rw [ha, hword, if_pos]
        unfold Port.isOrphan at ho
        simpa [slotTaken, slotActive] using ho
      rw [hm]
      rw [if_pos ho] at hff
      have hf2 : 2 ≤ (q.area (deskIndex x.1)).first := by
        have := l.check_first h (deskIndex x.1) (by cases x.1 <;> decide)
        have e : q.area (deskIndex x.1) = l.area (deskIndex x.1) := by
          unfold Port.area Layout.area; rw [hq, hp]; rfl
        rw [e]; exact this
      have r1 := q.moveOut_slotReads x.1 x.2 slotRefused .orphaned 0 0 s.wf hf2
      have r2 := q.moveOut_done x.1 x.2 slotRefused .orphaned 0 0 s.wf
      have r3 := q.moveOut_bytesKept x.1 x.2 slotRefused .orphaned 0 0 s.wf
      have r4 := q.moveOut_desks x.1 x.2 slotRefused .orphaned 0 0
      have r5 := q.moveOut_latches x.1 x.2 slotRefused .orphaned 0 0
      have r6 := q.moveOut_follows x.1 x.2 slotRefused .orphaned 0 0
      have r7 := q.moveOut_eq x.1 x.2 slotRefused .orphaned 0 0
      have r8 : Memory.wf (q.moveOut x.1 x.2 slotRefused .orphaned 0 0).mem = true :=
        closed_wf.moveOut q x.1 x.2 slotRefused .orphaned 0 0 s.wf
      have hsw : q.slotWords x.1 x.2 = p.slotWords x.1 x.2 := by unfold Port.slotWords; rw [ha]
      rw [hsw] at r3
      have hsr : ∀ q' d i a b c e, q.slotReads q' d i a b c e ↔ p.slotReads q' d i a b c e := by
        intros; unfold Port.slotReads; rw [ha]
      generalize q.moveOut x.1 x.2 slotRefused .orphaned 0 0 = t at *
      refine ⟨r8, ?_, ?_, ?_, ?_, ?_, ?_, ?_⟩
      · intro y hy hyo
        rw [List.mem_append, List.mem_singleton] at hy
        rcases hy with hy | rfl
        · have k := s.reads y hy hyo
          have c : ∀ b, b + 4 ≤ 512 → memWord t.mem (p.slotAddr y.1 y.2 + b) = memWord q.mem (p.slotAddr y.1 y.2 + b) :=
            fun b hb => memWord_congr fun o ho => by
              rw [Nat.add_assoc]
              exact r3 _ (l.slotWords_apart h p hp (hxs y hy) hx (hne y hy) (b + o) (by omega))
          unfold Port.slotReads at k ⊢
          rw [← c 12 (by omega), ← c 20 (by omega), ← c 24 (by omega)] at k
          have c0 := c 0 (by omega)
          rw [Nat.add_zero] at c0
          rw [← c0] at k
          exact k
        · exact (hsr _ _ _ _ _ _ _).mp r1
      · intro d
        rw [r4, hff, slotsOf_append]
        by_cases hd : x.1 = d
        · subst hd
          rw [Desks.get_set_self, s.desks, if_pos rfl, List.length_append]
          refine congrArg₂ (fun a b => ({ p.desks.get x.1 with done := a, held := b } : DeskState)) ?_ ?_
          · dsimp only
            rw [List.length_singleton, BitVec.add_assoc]
            congr 1
            unfold toWord
            rw [BitVec.ofNat_add]; rfl
          · dsimp only
            rw [List.filter_filter]
            apply List.filter_congr
            intro i _
            by_cases hi : i = x.2 <;> simp [hi]
        · rw [if_neg hd, List.append_nil, Desks.get_set_ne _ _ _ _ (Ne.symm hd)]
          exact s.desks d
      · intro d hd'
        rw [hff, slotsOf_append] at hd'
        by_cases hd : x.1 = d
        · subst hd
          rw [r2, r4, Desks.get_set_self]
        · rw [if_neg hd, List.append_nil] at hd'
          rw [r4, Desks.get_set_ne _ _ _ _ (Ne.symm hd), ← s.done d hd']
          have ha8 : 8192 ≤ p.slotAddr x.1 x.2 := by
            rw [← ha]; unfold Port.slotAddr Port.areaBase Config.pageBytes; omega
          have hi : deskIndex x.1 ≠ deskIndex d := by
            intro hc; apply hd; revert hc; cases x.1 <;> cases d <;> decide
          have hi4 : deskIndex d ≤ 4 := by cases d <;> decide
          refine memWord_congr fun o ho => r3 _ ?_
          simp only [Port.slotWords, List.mem_cons, List.not_mem_nil, or_false, forall_eq_or_imp, forall_eq, partPage]
          omega
      · intro b hb
        rw [r3 b (hb x (by simp) ho)]
        exact s.kept b fun y hy hyo => hb y (by simp [hy]) hyo
      · intro _
        refine ⟨?_, r6.1⟩
        rw [r5]
        by_cases hz : xs.filter p.isOrphan = []
        · rw [s.none hz]
        · rw [(s.latched hz).1]
      · intro hz; rw [hff] at hz; simp at hz
      · conv_lhs => rw [r7, s.rest]
    · have hm : Port.sweepSlot x.1 q x.2 = q := by
        unfold Port.sweepSlot
        dsimp only
        rw [ha, hword, if_neg]
        unfold Port.isOrphan at ho
        simpa [slotTaken, slotActive] using ho
      rw [hm]
      rw [if_neg ho, List.append_nil] at hff
      refine ⟨s.wf, ?_, by rw [hff]; exact s.desks, by rw [hff]; exact s.done, ?_, by rw [hff]; exact s.latched,
        by rw [hff]; exact s.none, s.rest⟩
      · intro y hy hyo
        rw [List.mem_append, List.mem_singleton] at hy
        rcases hy with hy | rfl
        · exact s.reads y hy hyo
        · exact absurd hyo ho
      · intro b hb
        exact s.kept b fun y hy hyo => hb y (by simp [hy]) hyo

/-- Stage 4 over the areas of a record that passes (R181). -/
theorem Layout.sweep_orphansSwept (l : Layout) (h : l.check.1 = .ok) (p : Port) (hp : p.areas = some l.areas)
    (hw : Memory.wf p.mem = true) : orphansSwept p p.sweep := by
  have s := l.swept h p hp hw allSlots nodup_allSlots fun x hx => (mem_allSlots x).mp hx
  rw [← Port.sweep_eq] at s
  have ho : ∀ d i, p.orphan d i ↔ (d, i) ∈ allSlots ∧ p.isOrphan (d, i) = true := fun d i => by
    rw [mem_allSlots]; unfold Port.orphan Port.isOrphan; simp
  have he : (∃ d i, p.orphan d i) ↔ allSlots.filter p.isOrphan ≠ [] := by
    rw [ne_eq, List.filter_eq_nil_iff]
    push Not
    constructor
    · rintro ⟨d, i, hx⟩; exact ⟨(d, i), (ho d i).mp hx⟩
    · rintro ⟨⟨d, i⟩, hx⟩; exact ⟨d, i, (ho d i).mpr hx⟩
  refine ⟨fun d i hx => s.reads (d, i) ((ho d i).mp hx).1 ((ho d i).mp hx).2, fun d => ?_,
    fun b hb => s.kept b fun x h1 h2 => hb x.1 x.2 ((ho _ _).mpr ⟨h1, h2⟩), fun hx => s.latched (he.mp hx),
    fun hx => s.none (by by_contra hc; exact hx (he.mpr hc)), s.rest⟩
  refine ⟨slotsOf d (allSlots.filter p.isOrphan), ?_, fun i => ?_, s.desks d, s.done d⟩
  · unfold slotsOf
    refine List.Nodup.map_on ?_ ((nodup_allSlots.filter _).filter _)
    intro x hx y hy hxy
    simp only [List.mem_filter, beq_iff_eq] at hx hy
    exact Prod.ext (hx.2.trans hy.2.symm) hxy
  · rw [ho]
    unfold slotsOf
    simp only [List.mem_map, List.mem_filter, beq_iff_eq]
    constructor
    · rintro ⟨⟨e, j⟩, ⟨h1, h2⟩, h3⟩
      cases h2; cases h3; exact h1
    · intro h1; exact ⟨(d, i), ⟨h1, rfl⟩, rfl⟩

/-! ## The whole entry (R173) -/

/-- Show Memory stays canonical through stage 3. -/
theorem Port.startCounts_wf (p : Port) (hw : Memory.wf p.mem = true) : Memory.wf p.startCounts.mem = true := by
  rw [Port.startCounts_eq]
  refine closed_wf.evalConditions _ ?_
  exact wf_memWriteWord _ _ _ (wf_memWriteWord _ _ _ (wf_memWriteWord _ _ _ (wf_memWriteWord _ _ _ hw)))

/-- Show Memory stays canonical through stage 4. -/
theorem Layout.sweep_wf (l : Layout) (h : l.check.1 = .ok) (p : Port) (hp : p.areas = some l.areas)
    (hw : Memory.wf p.mem = true) : Memory.wf p.sweep.mem = true := by
  rw [Port.sweep_eq]
  exact (l.swept h p hp hw allSlots nodup_allSlots fun x hx => (mem_allSlots x).mp hx).wf

/-- Stage 6 (R173). -/
theorem Port.startShow_showStarted (p : Port) (hw : Memory.wf p.mem = true) : showStarted p p.startShow :=
  ⟨memWord_memWriteWord_self _ _ _ hw, fun a ha => memRead_memWriteWord_ne _ _ _ _ hw (ha _ (by simp)), rfl⟩

/-- The stages before the sweep: Show Memory stays canonical, and the areas of the record are in force. -/
theorem Port.counted_facts (p : Port) (l : Layout) (hw : Memory.wf p.mem = true) :
    let q := ((({ p with result := .ok, resultArea := 255 }.putInForce l).clearDesks).startCounts)
    Port.through [layoutInForce l, desksCleared, countsStarted] p q ∧ Memory.wf q.mem = true ∧
      q.areas = some l.areas := by
  have e1 : layoutInForce l p ({ p with result := .ok, resultArea := 255 }.putInForce l) := rfl
  have w1 : Memory.wf ({ p with result := .ok, resultArea := 255 }.putInForce l).mem = true := hw
  have a1 : ({ p with result := .ok, resultArea := 255 }.putInForce l).areas = some l.areas := rfl
  dsimp only
  generalize ({ p with result := .ok, resultArea := 255 }.putInForce l) = p1 at e1 w1 a1 ⊢
  have e2 := p1.clearDesks_desksCleared w1
  have w2 : Memory.wf p1.clearDesks.mem = true := by
    have z := (zeroWords_reads clearedWords p1.mem w1).1
    rw [Port.clearDesks_eq]
    generalize zeroWords clearedWords p1.mem = m at z ⊢
    exact z
  have a2 : p1.clearDesks.areas = some l.areas := by rw [Port.clearDesks_eq]; exact a1
  generalize p1.clearDesks = p2 at e2 w2 a2 ⊢
  have e3 := p2.startCounts_countsStarted w2
  have w3 := p2.startCounts_wf w2
  have a3 : p2.startCounts.areas = some l.areas := by rw [e3.2.2.2.2.2.2.2.2]; exact a2
  exact ⟨⟨p1, e1, p2, e2, _, e3, rfl⟩, w3, a3⟩

/-- The entry to RUNNING goes through its stages, and leaves the Port as every layout that passes has it (R172, R173). -/
theorem Port.enter_through (p : Port) (l : Layout) (h : l.check.1 = .ok) (hw : Memory.wf p.mem = true) :
    Port.through (entryStages l) p (p.enter l) ∧ (p.enter l).laid := by
  obtain ⟨t, w, a⟩ := p.counted_facts l hw
  unfold Port.enter
  generalize (({ p with result := .ok, resultArea := 255 }.putInForce l).clearDesks).startCounts = q at t w a ⊢
  have e4 := l.sweep_orphansSwept h q a w
  have w4 := l.sweep_wf h q a w
  have a4 : q.sweep.areas = some l.areas := by rw [e4.2.2.2.2.2]; exact a
  generalize q.sweep = r at e4 w4 a4 ⊢
  have e6 := r.lockPart.startShow_showStarted w4
  refine ⟨Port.through_append t (gs := [orphansSwept, partLocked, showStarted])
    ⟨r, e4, r.lockPart, rfl, _, e6, rfl⟩, wf_memWriteWord _ _ _ w4, fun i hi => ?_⟩
  have e : r.lockPart.startShow.area i = l.area i := by
    show tget ⟨0, 0⟩ (r.areas.getD []) i = _
    rw [a4]; rfl
  rw [e]
  exact l.check_first h i hi

end Sys2Proof.Machine
end

