-- ==== Sys2Proof/Laws/Notices.lean ====
section
/-! SUPPORT. What the Timebase, the Clock Unit, a section and the part page's words do to the Port at a mark or a tick,
each said once as a chain of changes (R3, R5, R9, R12, R44, R80, R131, R135, R148, R171, R190). -/

namespace Sys2Proof.Machine

/-! ## Notices while RUNNING and in CONFIG -/

/-- A notice is as the claims say, wherever the Port lies as a RUNNING layout has it; in CONFIG it is none. -/
theorem Port.laidWhenRunning.notice {p : Port} (h : p.laidWhenRunning) (k : NoticeKind) (n : Nat) (v : Word) :
    noticed k.code n v p (p.notice k n v) := by
  cases hr : p.runState with
  | running => exact p.notice_noticed k n v (h hr)
  | config =>
    rw [p.notice_config k n v hr]
    have no : p.runState ≠ .running := by rw [hr]; decide
    exact ⟨fun _ => rfl, fun hc => absurd hc no, fun hc => absurd hc no, rfl⟩

/-- Every small change of the part keeps it so. -/
theorem closed_laidWhenRunning : Port.Closed Port.laidWhenRunning where
  write _ _ _ _ hp hr := ⟨wf_memWrite _ _ _ (hp hr).1, (hp hr).2⟩
  desks _ _ hp := hp
  setLatches p l hp := by
    intro hr
    rw [Port.setLatches_runState] at hr
    refine ⟨by rw [Port.setLatches_mem]; exact (hp hr).1, fun i hi => ?_⟩
    unfold Port.area; rw [Port.setLatches_areas]; exact (hp hr).2 i hi
  evalConditions p hp := by
    rw [Port.evalConditions_eq]; exact hp
  noticeWrite _ _ hp := hp
  logWrite _ _ hp := hp
  overrun _ _ hp := hp
  logFull _ _ hp := hp
  unstated _ _ hp := hp
  loadLocks _ _ hp := hp

/-! ## The Timebase -/

/-- The sync-loss timer over some periods gives the notice of a loss, or nothing (R5, R9). -/
theorem elapseSync_through (dt : Nat) (b : Timebase) (p : Port) (h : p.laidWhenRunning)
    (hp : b.reference = true ∨ b.synthLocked = false ∨ 0 < dt) :
    Port.through (b.syncLost dt) p (elapseSync dt (b, p)).2 := by
  unfold Timebase.syncLost elapseSync
  dsimp only
  cases ht : b.syncTimer with
  | none => rw [if_neg (by simp)]; rfl
  | some r =>
    dsimp only
    by_cases hr : r ≤ dt
    · rw [if_pos hr]
      unfold loseSync Genlock.following
      dsimp only
      cases hg : b.genlock
      · rw [if_neg (by simp)]; rfl
      · rw [if_pos ⟨hp, by simp, by simpa using hr⟩]; exact Port.through_one (h.notice .genlockLost 3 0)
      · rw [if_pos ⟨hp, by simp, by simpa using hr⟩]; exact Port.through_one (h.notice .genlockLost 3 0)
      · rw [if_neg (by simp)]; rfl
    · rw [if_neg hr, if_neg (by simpa using fun _ _ => hr)]; rfl

/-- Time at a LOCKED synthesiser gives the notice of a sync loss in it, or nothing (R5, R9). -/
theorem Part.elapse_through (dt : Nat) (s : Part) (h : s.blk.port.laidWhenRunning) (hl : s.tb.synthLocked = true) :
    Port.through (s.tb.syncLost dt) s.blk.port (s.elapse dt).blk.port := by
  unfold Part.elapse
  split
  · rename_i hz
    simp only [Bool.and_eq_true, Bool.not_eq_true', beq_iff_eq] at hz
    unfold Timebase.syncLost
    rw [if_neg (by simp [hz, hl])]; rfl
  · rename_i hz
    simp only [Bool.and_eq_true, Bool.not_eq_true', beq_iff_eq, not_and] at hz
    have hp : s.tb.reference = true ∨ s.tb.synthLocked = false ∨ 0 < dt := by
      cases hr : s.tb.reference
      · have := hz hr; exact .inr (.inr (by omega))
      · exact .inl rfl
    have he : (s.referencePresent.tb.advance dt).syncLost dt = s.tb.syncLost dt := by
      unfold Timebase.advance Part.referencePresent Timebase.syncLost
      dsimp only
      split <;> simp [hp]
    have hk := elapseSync_through dt (s.referencePresent.tb.advance dt) s.blk.port h (.inl (by
      unfold Timebase.advance Part.referencePresent; dsimp only; split <;> rfl))
    rw [he] at hk
    dsimp only
    split <;> exact hk

/-- Time up to a lock of an UNLOCKED synthesiser does so too (R2, R5, R9). -/
theorem Part.elapse_lock_through (dt : Nat) (s : Part) (h : s.blk.port.laidWhenRunning) (hl : s.tb.synthLocked = false) :
    Port.through (s.tb.syncLost dt) s.blk.port (s.referencePresent.elapse dt).blk.port := by
  have he : (s.referencePresent.referencePresent.tb.advance dt).syncLost dt = s.tb.syncLost dt := by
    unfold Timebase.advance Part.referencePresent Timebase.syncLost
    dsimp only
    split <;> simp [hl]
  have hk := elapseSync_through dt (s.referencePresent.referencePresent.tb.advance dt) s.blk.port h (.inl (by
    unfold Timebase.advance Part.referencePresent; dsimp only; split <;> rfl))
  rw [he] at hk
  unfold Part.elapse
  rw [if_neg (by simp [Part.referencePresent])]
  dsimp only
  split <;> exact hk

theorem Genlock.code_subject (b : Timebase) : b.genlock.code = b.genlockSubject := by
  unfold Timebase.genlockSubject; cases b.genlock <;> rfl

/-- The genlock notice of the mark of entry (R9). -/
theorem genlockEntryNotice_through (b : Timebase) (p : Port) (h : p.laidWhenRunning) :
    Port.through b.entryNoticed p (genlockEntryNotice b p) := by
  unfold genlockEntryNotice Timebase.entryNoticed
  cases he : b.genlockEnable
  · rfl
  · simp only [Bool.not_true, Bool.false_eq_true, if_false, if_true]
    by_cases hg : b.genlock = .locked
    · simp only [hg, if_true]; exact Port.through_one (h.notice .genlockLocked 2 _)
    · simp only [hg, if_false, Genlock.code_subject]; exact Port.through_one (h.notice .genlockLost _ 3)

/-- The notice at the first mark after a relock (R3, R9). -/
theorem relockNotice_through (b : Timebase) (p : Port) (h : p.laidWhenRunning) :
    Port.through (if b.relocking = true then [noticed 22 b.genlockSubject 2] else []) p (relockNotice b p) := by
  unfold relockNotice
  split
  · rw [Genlock.code_subject]; exact Port.through_one (h.notice .genlockLost _ 2)
  · rfl

/-! ## The show tick and the tests of the flags -/

/-- The show tick advances (R12). -/
theorem Port.advanceTick_tickAdvanced (p : Port) (hw : Memory.wf p.mem = true) : tickAdvanced p p.advanceTick :=
  ⟨memWord_memWriteWord_self _ _ _ hw, fun a ha => memRead_memWriteWord_ne _ _ _ _ hw (ha _ (by simp)), rfl⟩

/-- The test of one flag of the part page, by what it tests: the word reads 0 where the flag clears, and every other byte
stays. -/
theorem flagTest_reads (m : List Host.Cell) (a : Nat) (c : Bool) (hw : Memory.wf m = true) :
    let n := if c then memWriteWord m a 0 else m
    Memory.wf n = true ∧ (c = true → memWord n a = 0) ∧ bytesKept m n [a] ∧ (c = false → n = m) := by
  cases c
  · exact ⟨hw, by simp, fun _ _ => rfl, fun _ => rfl⟩
  · exact ⟨wf_memWriteWord _ _ _ hw, fun _ => memWord_memWriteWord_self _ _ _ hw,
      fun b hb => memRead_memWriteWord_ne _ _ _ _ hw (hb _ (by simp)), by simp⟩

/-- The tests of both flags at a RUNNING mark (R80, R190). -/
theorem Port.test_flagsTested (p : Port) (hw : Memory.wf p.mem = true) :
    flagsTested p p.testLogFull.testOverrun := by
  have e1 := p.testLogFull_eq
  have m1 := p.testLogFull_mem
  have e2 := p.testLogFull.testOverrun_eq
  have m2 := p.testLogFull.testOverrun_mem
  obtain ⟨w1, z1, k1, s1⟩ := flagTest_reads p.mem (partPage + 60) (p.logFull && decide (p.logUsed < 4096)) hw
  rw [← m1] at w1 z1 k1 s1
  have ho : p.testLogFull.overrun = p.overrun := by rw [e1]
  have hu : p.testLogFull.noticeUsed = p.noticeUsed := by
    have hn : p.testLogFull.noticeWrite = p.noticeWrite := by rw [e1]
    unfold Port.noticeUsed Port.noticeMark
    rw [hn]
    congr 1
    exact memWord_congr fun o _ => k1 _ (by simp only [List.mem_singleton, forall_eq, partPage]; omega)
  rw [ho, hu] at m2 e2
  obtain ⟨-, z2, k2, s2⟩ := flagTest_reads p.testLogFull.mem (partPage + 68) (p.overrun && p.noticeUsed == 0) w1
  rw [← m2] at z2 k2 s2
  have k68 : ∀ b, b < partPage + 68 ∨ partPage + 72 ≤ b →
      memRead p.testLogFull.testOverrun.mem b = memRead p.testLogFull.mem b :=
    fun b hb => k2 b (by simp only [List.mem_singleton, forall_eq]; omega)
  have k60 : ∀ b, b < partPage + 60 ∨ partPage + 64 ≤ b → memRead p.testLogFull.mem b = memRead p.mem b :=
    fun b hb => k1 b (by simp only [List.mem_singleton, forall_eq]; omega)
  refine ⟨fun hc => ?_, fun hc => z2 (by simp [hc]), fun b hb => ?_, fun hc b h1 h2 => ?_, fun hc b h1 h2 => ?_, ?_⟩
  · rw [← z1 (by simp [hc])]
    exact memWord_congr fun o _ => k68 _ (by omega)
  · simp only [List.mem_cons, List.not_mem_nil, or_false, forall_eq_or_imp, forall_eq] at hb
    rw [k68 b (by omega), k60 b (by omega)]
  · rw [k68 b (by omega), s1 (by
      cases h1 : (p.logFull && decide (p.logUsed < 4096)) with
      | false => rfl
      | true => exact absurd (by simpa using h1) hc)]
  · rw [s2 (by
      cases h1 : (p.overrun && p.noticeUsed == 0) with
      | false => rfl
      | true => exact absurd (by simpa using h1) hc), k60 b (by omega)]
  · exact e2.trans (congrArg (fun x : Port =>
      { x with overrun := p.overrun && p.noticeUsed != 0, mem := p.testLogFull.testOverrun.mem }) e1)

/-- The words of the part page written at every mark, read back (R171). -/
theorem Port.writePartPage_reads (p : Port) (hw : Memory.wf p.mem = true) :
    bytesKept p.mem p.writePartPage.mem [4096, 4100, 4104] ∧
    memWord p.writePartPage.mem 4096 = toWord (flagNat p.running) ∧
    memWord p.writePartPage.mem 4100 = toWord p.result.code ∧
    memWord p.writePartPage.mem 4104 = toWord p.resultArea ∧
    p.writePartPage = { p with mem := p.writePartPage.mem } := by
  have w1 := wf_memWriteWord p.mem 4096 (toWord (flagNat p.running)) hw
  have w2 := wf_memWriteWord _ 4100 (toWord p.result.code) w1
  have e : p.writePartPage = { p with
      mem := memWriteWord (memWriteWord (memWriteWord p.mem 4096 (toWord (flagNat p.running))) 4100
        (toWord p.result.code)) 4104 (toWord p.resultArea) } := rfl
  rw [e]
  dsimp only
  refine ⟨fun a ha => ?_, ?_, ?_, ?_, rfl⟩
  · simp only [List.mem_cons, List.not_mem_nil, or_false, forall_eq_or_imp, forall_eq] at ha
    rw [memRead_memWriteWord_ne _ _ _ _ w2 (by omega), memRead_memWriteWord_ne _ _ _ _ w1 (by omega),
      memRead_memWriteWord_ne _ _ _ _ hw (by omega)]
  · rw [memWord_memWriteWord_ne _ _ _ _ w2 (by omega), memWord_memWriteWord_ne _ _ _ _ w1 (by omega),
      memWord_memWriteWord_self _ _ _ hw]
  · rw [memWord_memWriteWord_ne _ _ _ _ w2 (by omega), memWord_memWriteWord_self _ _ _ w1]
  · rw [memWord_memWriteWord_self _ _ _ w2]

/-! ## A section -/

/-- One section's notice at a mark (R44). -/
theorem sectionNotice_through (c : Sections) (entry : Bool) (p : Port) (i : Nat) (h : p.laidWhenRunning) :
    Port.through
      (let segment := toWord (if i < 16 then i else c.backing (i - 16))
        if entry then (if c.stateOf i = .live then [] else [Machine.noticed 2 i segment])
        else if tget .live c.states i = .live ∧ c.stateOf i ≠ .live then [Machine.noticed 2 i segment]
        else if tget .live c.states i ≠ .live ∧ c.stateOf i = .live then [Machine.noticed 3 i segment]
        else []) p (sectionNotice c entry p i) := by
  have e : segmentNumber (c.segmentOf i) = if i < 16 then i else c.backing (i - 16) := by
    unfold segmentNumber Sections.segmentOf
    split
    · simp_all
    · rw [if_neg (by omega)]; omega
  unfold sectionNotice
  rw [e]
  dsimp only
  split
  · split
    · rfl
    · exact Port.through_one (h.notice .sectionDead i _)
  · split
    · exact Port.through_one (h.notice .sectionDead i _)
    · split
      · exact Port.through_one (h.notice .sectionLive i _)
      · rfl

/-! ## The Clock Unit -/

/-- The clocks a CONSOLE_LOST names, as its subject gives them (R148). -/
theorem bothCode_eq (game aux : Bool) : bothCode game aux = (if game = true then 1 else 0) + if aux = true then 2 else 0 := by
  cases game <;> cases aux <;> rfl

/-- The console's notice of the mark of entry (R148). -/
theorem clockEntryNotice_through (u : ClockUnit) (p : Port) (h : p.laidWhenRunning) :
    Port.through u.entryNoticed p (clockEntryNotice (u, p)).2 := by
  have hn := h.notice .consoleLost
    (bothCode (u.game.state == .holdover) (u.aux.state == .holdover)) (toWord u.discards)
  have e := bothCode_eq (u.game.state == .holdover) (u.aux.state == .holdover)
  simp only [beq_iff_eq] at e
  unfold clockEntryNotice ClockUnit.entryNoticed
  dsimp only
  rw [← e]
  cases u.heard
  · exact Port.through_one hn
  · rfl

/-- A horn request latches HORN where it starts the horn, and does nothing else to the Port (R144). -/
theorem requestHorn_through (n : Nat) (x : ClockPort) :
    Port.through (if x.1.horn = 0 ∧ 0 < n then [hornLatched] else []) x.2 (requestHorn n x).2 := by
  unfold requestHorn
  split
  · exact Port.through_one x.2.latchHorn_hornLatched
  · rfl

/-- A count of a clock gives what the clock and the horn it finds say (R135, R144, R148). -/
theorem countClock_through (i : ClockId) (x : ClockPort) (h : x.2.laidWhenRunning) :
    Port.through ((x.1.clock i).countNoticed (clockCode i) x.1.horn) x.2 (countClock i x).2 := by
  unfold countClock Clock.countNoticed Clock.runsOut Clock.counting
  dsimp only
  generalize hc : x.1.clock i = c
  by_cases hr : (c.state == .running || c.state == .holdover) = true
  · rw [if_pos hr, hr, Bool.true_and]
    cases hu : c.up
    · simp only [Bool.false_eq_true, if_false, decide_eq_true_eq]
      by_cases hv : c.value ≤ 1
      · rw [if_pos hv, if_pos hv]
        unfold expireClock
        rw [hc]
        dsimp only
        have hn := h.notice .clockExpired (clockCode i) 0
        cases ho : c.hornOn
        · rw [if_neg (by simp), if_neg (by simp)]
          exact Port.through_one hn
        · rw [if_pos rfl]
          have hq := requestHorn_through c.hornLength
            (x.1.setClock i { c with state := .expired, value := 0 }, x.2.notice .clockExpired (clockCode i) 0)
          rw [ClockUnit.setClock_horn] at hq
          simp only [true_and]
          exact ⟨_, hn, by rw [ho] at hq; exact hq⟩
      · rw [if_neg hv, if_neg hv]; rfl
    · simp only [if_true, decide_eq_true_eq]
      unfold Config.upTop
      by_cases hv : 11999999 ≤ c.value + 1
      · rw [if_pos hv, if_pos hv]; exact Port.through_one (h.notice .clockLimit (clockCode i) 0)
      · rw [if_neg hv, if_neg hv]; rfl
  · rw [if_neg hr]
    rw [if_neg (by simp only [Bool.and_eq_true]; exact fun hh => hr hh.1)]; rfl

/-- What a count of a clock leaves of the Clock Unit: all but that clock, which a silence then finds followed unless it ran
out, and the horn, which its request raises (R131, R135, R144). -/
theorem countClock_unit (i : ClockId) (x : ClockPort) :
    ∃ c : Clock, (countClock i x).1 = { x.1.setClock i c with horn := max x.1.horn (x.1.clock i).asks } ∧
      c.followed = ((x.1.clock i).followed && !(x.1.clock i).runsOut) := by
  have same : x.1.setClock i (x.1.clock i) = x.1 := by cases i <;> rfl
  have zero : ∀ c : Clock, { x.1.setClock i c with horn := max x.1.horn 0 } = x.1.setClock i c := by
    intro c; rw [Nat.max_zero, ← ClockUnit.setClock_horn x.1 i c]
  unfold countClock Clock.asks Clock.runsOut Clock.counting
  dsimp only
  generalize hc : x.1.clock i = c at same ⊢
  by_cases hr : (c.state == .running || c.state == .holdover) = true
  · rw [if_pos hr, hr, Bool.true_and]
    cases hu : c.up
    · simp only [Bool.false_eq_true, if_false, decide_eq_true_eq]
      by_cases hv : c.value ≤ 1
      · rw [if_pos hv]
        unfold expireClock requestHorn
        rw [hc]
        dsimp only
        refine ⟨{ c with state := .expired, value := 0 }, ?_, by simp [Clock.followed, hv]⟩
        cases ho : c.hornOn
        · rw [if_neg (by simp), if_neg (by simp), zero]
        · simp only [if_true, ClockUnit.setClock_horn, hv, and_self]
      · rw [if_neg hv, if_neg (fun hh => hv hh.1)]
        exact ⟨{ c with up := false, value := c.value - 1 }, (zero _).symm, by simp [Clock.followed, hv]⟩
    · simp only [if_true, decide_eq_true_eq, Bool.true_eq_false, false_and, and_false, if_false]
      unfold Config.upTop
      by_cases hv : 11999999 ≤ c.value + 1
      · rw [if_pos hv]
        unfold limitClock
        rw [hc]
        exact ⟨{ c with state := .stopped, value := Config.upTop }, (zero _).symm, by simp [Clock.followed, hv]⟩
      · rw [if_neg hv]
        exact ⟨{ c with up := true, value := c.value + 1 }, (zero _).symm, by simp [Clock.followed, hv]⟩
  · rw [if_neg hr]
    have hf : (c.state == .running || c.state == .holdover) = false := by simpa using hr
    refine ⟨c, ?_, by rw [hf]; simp⟩
    rw [hf, if_neg (by simp), zero, same]

/-- A clock put into HOLDOVER by a silence is counted as it was (R131, R135). -/
theorem Clock.toHoldover_counts (c : Clock) :
    (∀ id horn, c.toHoldover.countNoticed id horn = c.countNoticed id horn) ∧ c.toHoldover.asks = c.asks := by
  unfold Clock.toHoldover
  split
  · rename_i h
    unfold Clock.followed at h
    simp only [Bool.and_eq_true, beq_iff_eq] at h
    unfold Clock.countNoticed Clock.asks Clock.runsOut
    simp [h.2]
  · exact ⟨fun _ _ => rfl, rfl⟩

/-- The silence count of an ms tick gives CONSOLE_LOST where the line becomes LOST (R131, R148). -/
theorem silenceTick_through (x : ClockPort) (h : x.2.laidWhenRunning) {game aux : Bool}
    (hg : x.1.game.followed = game) (ha : x.1.aux.followed = aux) :
    Port.through (if x.1.heard = true ∧ 500 ≤ x.1.silence + 1 then
      [noticed 18 ((if game then 1 else 0) + if aux then 2 else 0) (toWord x.1.discards)]
      else []) x.2 (silenceTick x).2 := by
  subst hg ha
  have hs : (500 ≤ capAt Config.countTop (x.1.silence + 1)) ↔ 500 ≤ x.1.silence + 1 := by
    unfold capAt Config.countTop
    split <;> omega
  have hn := h.notice .consoleLost (bothCode x.1.game.followed x.1.aux.followed) (toWord x.1.discards)
  rw [← bothCode_eq]
  unfold silenceTick loseLine
  dsimp only
  unfold Config.silenceLimit
  by_cases hc : x.1.heard = true ∧ 500 ≤ x.1.silence + 1
  · rw [if_pos hc, if_pos (by simp [hc.1, hs.mpr hc.2])]
    exact Port.through_one hn
  · rw [if_neg hc, if_neg (by simp only [Bool.and_eq_true, decide_eq_true_eq, hs]; exact hc)]
    rfl

/-- What the silence count leaves of the Clock Unit, for the counts after it: the horn, and both clocks but for a HOLDOVER
(R131). -/
theorem silenceTick_unit (x : ClockPort) :
    (silenceTick x).1.horn = x.1.horn ∧
    ∀ i, (silenceTick x).1.clock i = x.1.clock i ∨ (silenceTick x).1.clock i = (x.1.clock i).toHoldover := by
  unfold silenceTick loseLine
  dsimp only
  split
  · exact ⟨rfl, fun i => by cases i <;> exact .inr rfl⟩
  · exact ⟨rfl, fun i => by cases i <;> exact .inl rfl⟩

/-- The counts of both clocks at an ms tick (R135, R144, R148). -/
theorem countClocks_through (x : ClockPort) (h : x.2.laidWhenRunning) :
    Port.through (x.1.game.countNoticed 0 x.1.horn ++ x.1.aux.countNoticed 1 (max x.1.horn x.1.game.asks)) x.2
      (countClock .aux (countClock .game x)).2 := by
  obtain ⟨c, hc, -⟩ := countClock_unit .game x
  have h2 := countClock_through .aux (countClock .game x) (closed_laidWhenRunning.countClock .game x h)
  refine Port.through_append (countClock_through .game x h) ?_
  have e1 : (countClock .game x).1.clock .aux = x.1.aux := by rw [hc]; rfl
  have e2 : (countClock .game x).1.horn = max x.1.horn x.1.game.asks := by rw [hc]; rfl
  rw [e1, e2] at h2
  exact h2

/-- An ms tick of the Clock Unit gives its notices and latches HORN as said (R131, R135, R144, R148). -/
theorem clockTick_through (silenceFirst : Bool) (u : ClockUnit) (p : Port) (h : p.laidWhenRunning) :
    Port.through (u.tickNoticed silenceFirst u.discards) p (clockTick silenceFirst (u, p)).2 := by
  unfold clockTick ClockUnit.tickNoticed
  dsimp only
  cases silenceFirst
  · simp only [Bool.false_eq_true, if_false]
    refine Port.through_append (m := (countClock .aux (countClock .game (hornTick u, p))).2)
      (countClocks_through (hornTick u, p) h) ?_
    have hs := fun game aux => @silenceTick_through (countClock .aux (countClock .game (hornTick u, p)))
      (closed_laidWhenRunning.countClock .aux _ (closed_laidWhenRunning.countClock .game _ h)) game aux
    obtain ⟨c, hc, fc⟩ := countClock_unit .game (hornTick u, p)
    obtain ⟨d, hd, fd⟩ := countClock_unit .aux (countClock .game (hornTick u, p))
    generalize countClock .aux (countClock .game (hornTick u, p)) = z at hs hd ⊢
    have ea : (countClock .game (hornTick u, p)).1.clock .aux = u.aux := by rw [hc]; rfl
    rw [ea] at fd
    have e1 : z.1.heard = u.heard := by rw [hd, hc]; rfl
    have e2 : z.1.silence = u.silence := by rw [hd, hc]; rfl
    have e3 : z.1.discards = u.discards := by rw [hd, hc]; rfl
    have e4 : z.1.game.followed = (u.game.followed && !u.game.runsOut) := by
      have : z.1.game = c := by rw [hd]; show (countClock .game (hornTick u, p)).1.game = c; rw [hc]; rfl
      rw [this]; exact fc
    have e5 : z.1.aux.followed = (u.aux.followed && !u.aux.runsOut) := by
      have : z.1.aux = d := by rw [hd]; rfl
      rw [this]; exact fd
    have hs := hs _ _ e4 e5
    rw [e1, e2, e3] at hs
    simp only [Bool.false_or]
    exact hs
  · simp only [if_true]
    have hs := silenceTick_through (hornTick u, p) h rfl rfl
    obtain ⟨s1, s2⟩ := silenceTick_unit (hornTick u, p)
    have hc := countClocks_through (silenceTick (hornTick u, p)) (closed_laidWhenRunning.silenceTick _ h)
    have g : ∀ i, (∀ id horn, ((silenceTick (hornTick u, p)).1.clock i).countNoticed id horn =
        (u.clock i).countNoticed id horn) ∧ ((silenceTick (hornTick u, p)).1.clock i).asks = (u.clock i).asks := by
      intro i
      have e : (hornTick u).clock i = u.clock i := by cases i <;> rfl
      rcases s2 i with h' | h' <;> rw [h'] <;> (show _ ∧ _) <;> rw [e]
      · exact ⟨fun _ _ => rfl, rfl⟩
      · exact (u.clock i).toHoldover_counts
    have g1 := g .game
    have g2 := g .aux
    unfold ClockUnit.clock at g1 g2
    dsimp only at g1 g2
    rw [g1.1, g2.1, g1.2, s1] at hc
    refine Port.through_append ?_ hc
    simp only [Bool.true_or, Bool.and_true]
    exact hs

end Sys2Proof.Machine
end

