-- ==== Sys2Proof/Laws/Table.lean ====
section
/-! SUPPORT. Laws of numbered tables: what was set is read back, and every other item is left alone. -/

namespace Sys2Proof.Machine

/-- The item set is read back. -/
@[simp] theorem tget_tset_self {α : Type} (d : α) (l : List α) (i : Nat) (x : α) :
    tget d (tset d l i x) i = x := by
  induction i generalizing l with
  | zero => cases l <;> rfl
  | succ i ih => cases l <;> exact ih _

/-- Every other item is left alone. -/
theorem tget_tset_ne {α : Type} (d : α) (l : List α) (i j : Nat) (x : α) (h : j ≠ i) :
    tget d (tset d l i x) j = tget d l j := by
  induction i generalizing l j with
  | zero =>
    cases j with
    | zero => exact absurd rfl h
    | succ j => cases l <;> rfl
  | succ i ih =>
    cases l with
    | nil =>
      cases j with
      | zero => rfl
      | succ j =>
        have := ih [] j (by omega)
        simpa [tget, tset] using this
    | cons a l =>
      cases j with
      | zero => rfl
      | succ j => exact ih l j (by omega)

/-- An item after a set, in one line. -/
theorem tget_tset {α : Type} (d : α) (l : List α) (i j : Nat) (x : α) :
    tget d (tset d l i x) j = if j = i then x else tget d l j := by
  split
  · subst_vars; exact tget_tset_self d l _ x
  · exact tget_tset_ne d l i j x ‹_›

/-- Setting an item within a table keeps its length. -/
theorem length_tset {α : Type} (d : α) (l : List α) (i : Nat) (x : α) (h : i < l.length) :
    (tset d l i x).length = l.length := by
  induction i generalizing l with
  | zero => cases l with
    | nil => simp at h
    | cons a l => rfl
  | succ i ih => cases l with
    | nil => simp at h
    | cons a l => simpa [tset] using ih l (by simpa using h)

/-- Beyond its end a table reads as the default. -/
theorem tget_beyond {α : Type} (d : α) (l : List α) (i : Nat) (h : l.length ≤ i) : tget d l i = d := by
  induction l generalizing i with
  | nil => cases i <;> rfl
  | cons a l ih =>
    cases i with
    | zero => simp at h
    | succ i => exact ih i (by simpa using h)

/-- An item of a mapped table. -/
theorem tget_tmapFrom {α β : Type} (d : α) (e : β) (f : Nat → α → β) (k : Nat) (l : List α) (i : Nat)
    (h : i < l.length) : tget e (tmapFrom f k l) i = f (k + i) (tget d l i) := by
  induction l generalizing k i with
  | nil => simp at h
  | cons a l ih =>
    cases i with
    | zero => rfl
    | succ i =>
      have := ih (k + 1) i (by simpa using h)
      simpa [tmapFrom, tget, Nat.add_comm, Nat.add_left_comm] using this

/-- A mapped table keeps its length. -/
@[simp] theorem length_tmapFrom {α β : Type} (f : Nat → α → β) (k : Nat) (l : List α) :
    (tmapFrom f k l).length = l.length := by
  induction l generalizing k with
  | nil => rfl
  | cons a l ih => simp [tmapFrom, ih]

/-- An item put into a list kept in order is one more item of it. -/
theorem insertBy_perm {α : Type} (key : α → Nat) (x : α) (l : List α) :
    List.Perm (insertBy key x l) (x :: l) := by
  induction l with
  | nil => exact List.Perm.refl _
  | cons a l ih =>
    unfold insertBy
    split
    · exact List.Perm.refl _
    · exact (ih.cons a).trans (List.Perm.swap x a l)

/-- A list in order stays in order. -/
theorem insertBy_sorted {α : Type} (key : α → Nat) (x : α) (l : List α)
    (h : l.Pairwise fun a b => key a ≤ key b) : (insertBy key x l).Pairwise fun a b => key a ≤ key b := by
  induction l with
  | nil => simp [insertBy]
  | cons a l ih =>
    obtain ⟨h1, h2⟩ := List.pairwise_cons.mp h
    unfold insertBy
    split
    · refine List.pairwise_cons.mpr ⟨fun b hb => ?_, h⟩
      rcases List.mem_cons.mp hb with rfl | hb
      · omega
      · have := h1 b hb; omega
    · refine List.pairwise_cons.mpr ⟨fun b hb => ?_, ih h2⟩
      rcases List.mem_cons.mp ((insertBy_perm key x l).mem_iff.mp hb) with rfl | hb
      · omega
      · exact h1 b hb

/-- A sorted list holds the items of the list it sorts, in order. -/
theorem sortBy_perm_sorted {α : Type} (key : α → Nat) (l : List α) :
    List.Perm (sortBy key l) l ∧ (sortBy key l).Pairwise fun a b => key a ≤ key b := by
  have g (l acc : List α) (h : acc.Pairwise fun a b => key a ≤ key b) :
      List.Perm (l.foldl (fun acc x => insertBy key x acc) acc) (l ++ acc) ∧
      (l.foldl (fun acc x => insertBy key x acc) acc).Pairwise fun a b => key a ≤ key b := by
    induction l generalizing acc with
    | nil => exact ⟨List.Perm.refl _, h⟩
    | cons x l ih =>
      obtain ⟨h1, h2⟩ := ih _ (insertBy_sorted key x acc h)
      exact ⟨h1.trans (((insertBy_perm key x acc).append_left l).trans List.perm_middle), h2⟩
  simpa [sortBy] using g l [] List.Pairwise.nil

end Sys2Proof.Machine
end

