-- ==== Sys2Proof/WellFormed.lean ====
section
/-! DEFINITION. Well-formed commands: operands that a card, a bus access or a line can carry. Every field
fits its width; whether the part accepts a field is its owner's rule, not a matter of form. -/

namespace Sys2Proof

/-- A number fits a field of so many bits. -/
def fits (bits n : Nat) : Bool := decide (n < 2 ^ bits)

/-- A signed number fits a 32-bit field. -/
def fitsInt (z : Int) : Bool := decide (-2147483648 ≤ z) && decide (z ≤ 2147483647)

/-- A number below a bound. -/
def below (bound n : Nat) : Bool := decide (n < bound)

/-- A picture whose rows are whole, and whose blend fraction is a fraction (R124). -/
def Picture.wf : Picture → Bool
  | .solid _ => true
  | .raster w ps => w != 0 && ps.length % w == 0
  | .blend a b phi => a.wf && b.wf && below 256 phi

/-- Surroundings of a mark name stored frames by an input and a number (R101). -/
def MarkInput.wf (i : MarkInput) : Bool :=
  i.uncorrectable.all fun x => below 4 x.1 && fits 32 x.2

/-- A zone record's fields (2.2). -/
def ZoneRec.wf (r : ZoneRec) : Bool :=
  fits 8 r.id && fits 8 r.canvas && fits 8 r.rank && fits 8 r.kind && fits 16 r.x && fits 16 r.y &&
  fits 16 r.w && fits 16 r.h && fits 16 r.source && fits 8 r.cover && fits 8 r.vis && fits 8 r.yields &&
  fits 8 r.transition && fits 8 r.fade

/-- A POST_PLAN card carries the records of its count, where that is in range (2.2). -/
def PlanCue.wf (q : PlanCue) : Bool :=
  fits 32 q.count && q.recs.length == (if 16 < q.count then 0 else q.count) && q.recs.all ZoneRec.wf

/-- A zone cue's bytes (10.5). -/
def ZoneCue.wf (q : ZoneCue) : Bool := fits 8 q.zone && fits 8 q.override && fits 8 q.len

/-- A SET_SECTION card's bytes (3.5). -/
def SectionCue.wf (q : SectionCue) : Bool :=
  fits 8 q.canvas && fits 8 q.sect && fits 8 q.action && fits 8 q.segment

/-- A SET_INPUT card's bytes (6.2). -/
def InputCue.wf (q : InputCue) : Bool := fits 8 q.input && fits 8 q.action && fits 8 q.bay

/-- A MARK_CLIP card's fields (7.1). -/
def MarkCue.wf (q : MarkCue) : Bool :=
  fits 8 q.input && fits 8 q.range && fits 32 q.inPoint && fits 32 q.outPoint && fits 32 q.keep

/-- A KEEP_CLIP card's fields (7.1). -/
def KeepCue.wf (q : KeepCue) : Bool := fits 8 q.clip && fits 8 q.action && fits 32 q.frames

/-- A CUE_HEAD card's fields (7.1). -/
def CueHeadCue.wf (q : CueHeadCue) : Bool :=
  fits 8 q.head && fits 8 q.clip && fits 8 q.blend && fits 8 q.start && fits 32 q.frame

/-- A SET_GROUP card carries the ids of its count, where that is in range (5.1). -/
def GroupCue.wf (q : GroupCue) : Bool :=
  fits 8 q.group && fits 8 q.mode && fits 8 q.count &&
  q.ids.length == (if 16 < q.count then 0 else q.count) && q.ids.all (fits 16)

/-- A SET_ENTRY card's fields (5.1). -/
def EntryCue.wf (q : EntryCue) : Bool :=
  fits 16 q.entry && fits 16 q.image && fits 32 q.dwell && fits 32 q.quota && fits 8 q.category &&
  fits 8 q.enabled && fits 8 q.keepMeter

/-- A LOAD_IMAGE card's fields (5.1). -/
def LoadCue.wf (q : LoadCue) : Bool :=
  fits 16 q.image && fits 16 q.width && fits 16 q.height && fits 32 q.first && fits 32 q.pages

/-- A CLOCK_SETUP card's fields (8.5). -/
def ClockSetupCue.wf (q : ClockSetupCue) : Bool :=
  fits 8 q.clock && fits 8 q.source && fits 8 q.direction && fits 8 q.horn && fits 32 q.tenths &&
  fits 16 q.hornLength && fits 8 q.comp

/-- A SCORE card's fields (8.9). -/
def ScoreCue.wf (q : ScoreCue) : Bool :=
  fits 16 q.home && fits 16 q.guest && fits 8 q.period && fits 8 q.possession && fits 8 q.c0 &&
  fits 8 q.c1 && fits 8 q.c2 && fits 8 q.c3

/-- A MESSAGE card carries the codes of its text length, where that is in range (9.2). -/
def MessageCue.wf (q : MessageCue) : Bool :=
  fits 8 q.cls && fits 8 q.mode && fits 16 q.speed && fits 16 q.hold && fits 8 q.repeats &&
  fits 8 q.mask && fits 16 q.linked && fits 8 q.length &&
  q.text.length == (if 120 < q.length then 0 else q.length)

/-- An access to the register window other than a whole aligned write of RUN_CONTROL, CAUSE or CAUSE_MASK
(10.10). -/
def otherAccess (offset width : Nat) : Bool :=
  below 32 offset && !(width == 4 && (offset == 4 || offset == 8 || offset == 12))

/-- Contents of Show Memory lie inside it: 64 MiB (10.1). -/
def cellsWf (cs : List Host.Cell) : Bool := cs.all fun c => below 67108864 c.1

/-- A well-formed command. Slot numbers are those of the card's desk (10.1). -/
def Instr.wf : Instr → Bool
  | .powerOn _ _ _ contents => cellsWf contents
  | .hardReset _ _ _ _ => true
  | .softReset _ => true
  | .run _ => true
  | .causeWrite _ => true
  | .causeMaskWrite _ => true
  | .registerWriteOther offset width _ => otherAccess offset width
  | .hostWrite _ => true
  | .referenceLost _ => true
  | .synthesiserLock _ mark => mark.wf
  | .frameMark mark => mark.wf
  | .msTick _ => true
  | .houseSyncPulse _ _ => true
  | .syncLossExpiry => true
  | .healthReport link _ _ _ => below 8 link
  | .segmentHealthChange segment => below 84 segment
  | .frameArrival _ input frame => below 4 input && frame.picture.wf
  | .captureResume _ input picture => below 4 input && picture.wf
  | .numbersExhausted _ input picture => below 4 input && picture.wf
  | .lossOfSignal input _ => below 4 input
  | .openClipClose _ clip picture => below 32 clip && picture.wf
  | .clipExpiry clip => below 32 clip
  | .clockWord _ _ _ _ => true
  | .hornWord _ _ => true
  | .periodWord _ _ => true
  | .wordDiscard _ _ _ => true
  | .interByteGap => true
  | .consoleSilenceExpiry => true
  | .clockExpiry _ => true
  | .clockLimitReached _ => true
  | .hornRelease => true
  | .flashEnd _ => true
  | .fadeEnd zone => below 16 zone
  | .adoption => true
  | .dwellComplete zone => below 16 zone
  | .holdLimit zone => below 16 zone
  | .loadComplete => true
  | .passComplete lane => below 4 lane
  | .messageExpiry slot => below 64 slot
  | .urgentTakeover => true
  | .laneAssignment lane => below 4 lane
  | .postPlan slot _ cue => below 8 slot && cue.wf
  | .showZone slot _ cue => below 8 slot && cue.wf
  | .hideZone slot _ cue => below 8 slot && cue.wf
  | .setSection slot _ cue => below 8 slot && cue.wf
  | .setInput slot _ cue => below 40 slot && cue.wf
  | .markClip slot _ cue => below 40 slot && cue.wf
  | .keepClip slot _ cue => below 40 slot && cue.wf
  | .dropClip slot _ cue => below 40 slot && fits 8 cue.clip
  | .cueHead slot _ cue => below 40 slot && cue.wf
  | .play slot _ cue => below 40 slot && fits 8 cue.head && fits 8 cue.loop && fitsInt cue.rate
  | .setRate slot _ cue => below 40 slot && fits 8 cue.head && fitsInt cue.rate
  | .pause slot _ head => below 40 slot && fits 8 head
  | .stopHead slot _ head => below 40 slot && fits 8 head
  | .setGroup slot _ cue => below 32 slot && cue.wf
  | .setEntry slot _ cue => below 32 slot && cue.wf
  | .dropEntry slot _ entry => below 32 slot && fits 16 entry
  | .loadImage slot _ cue => below 32 slot && cue.wf
  | .clockSetup slot _ cue => below 16 slot && cue.wf
  | .clockSet slot _ cue => below 16 slot && fits 8 cue.clock && fits 32 cue.value
  | .clockRun slot _ clock => below 16 slot && fits 8 clock
  | .clockStop slot _ clock => below 16 slot && fits 8 clock
  | .score slot _ cue => below 16 slot && cue.wf
  | .message slot _ cue => below 64 slot && cue.wf
  | .consoleByte _ _ _ => true

end Sys2Proof
end

