-- ==== Sys2Proof/Tests/Slice0.lean ====
section
/-! SUPPORT. Tests of single steps, with expected values from the manual's worked cases, witnesses that the
statements' hypotheses can be met, and the smoke test of the well-formedness checks. -/

namespace Sys2Proof.Tests

open Sys2Proof Sys2Proof.Machine

set_option Elab.async false

/-! ## Helpers -/

/-- The state after a command; the state itself where the command does not answer a next state. -/
def after (c : Instr) (s : State) : State :=
  match exec c s with
  | .next t => t
  | _ => s

/-- The areas of a small layout that passes. -/
def areas : List PageRange :=
  [⟨2, 1⟩, ⟨3, 5⟩, ⟨8, 4⟩, ⟨12, 2⟩, ⟨14, 8⟩, ⟨22, 1⟩, ⟨23, 1⟩, ⟨24, 32⟩, ⟨56, 1⟩, ⟨60, 4⟩, ⟨70, 1⟩]

/-- Canvas sizes of the worked cases. -/
def sizes : Sizes := ⟨3840, 2160, 32768, 128⟩

/-- A part in CONFIG whose synthesiser is LOCKED at 50 frames/s. -/
def config : State :=
  State.reset.onPart fun p =>
    { p with tb := { p.tb with reference := true, synthLocked := true, frameLength := 540000 } }

/-- The same part RUNNING under the small layout. -/
def live : State :=
  config.onPart (·.onPort fun p =>
    { p with runState := .running, runRequest := true, areas := some areas, sizes := some sizes
             thresholds := some ⟨500, 900⟩, result := .ok, countsInForce := true })

/-- Changes of one piece of a state. -/
def State.port' (f : Port → Port) (s : State) : State := s.onPart (·.onPort f)
def State.tb' (f : Timebase → Timebase) (s : State) : State := s.onPart fun p => { p with tb := f p.tb }
def State.sec' (f : Sections → Sections) (s : State) : State := s.onPart fun p => { p with sec := f p.sec }
def State.clk' (f : ClockUnit → ClockUnit) (s : State) : State := s.onPart fun p => { p with clk := f p.clk }
def State.blk' (f : Blocks → Blocks) (s : State) : State := s.onPart (·.onBlk f)

/-- A state with a command in front of its queue. -/
def queued (c : Instr) (s : State) : State := { s with pending := [c] }

/-- The surroundings of a mark that settle nothing. -/
def calm : MarkInput := ⟨[], false, []⟩

/-- A picture. -/
def pic : Picture := .solid .black

/-- Every desk of the small layout is ready. -/
theorem live_ready (d : Desk) : live.ready d := by
  cases d <;> (refine ⟨?_, ?_, ?_⟩ <;> decide)

/-- So it is of a state that differs from it in other pieces. -/
theorem ready_of (s : State) (d : Desk) (ht : s.part.tb = live.part.tb) (hp : s.port = live.port) :
    s.ready d := by
  have h := live_ready d
  have hp' : s.part.blk.port = live.part.blk.port := hp
  unfold State.ready Part.live at *
  rw [hp, hp', ht]
  exact h

/-! ## Well-formedness: an ill-formed command for each check -/

/-- A zone record of a plan, of fade 4, for the tests. -/
def zone4 : ZoneRec := ⟨4, 0, 3, 2, 860, 1700, 1200, 200, 1, 0, 0, 1, 1, 4⟩

theorem test_wf_refuses_surroundings :
    ∀ c ∈ ([.powerOn false false false [(67108864, 1)], .registerWriteOther 32 4 0,
      .registerWriteOther 4 4 0, .synthesiserLock 0 ⟨[], false, [(4, 0)]⟩,
      .frameMark ⟨[], false, [(0, 4294967296)]⟩, .healthReport 8 0 .ok true, .segmentHealthChange 84,
      .frameArrival 0 4 ⟨1920, 1080, true, .fps50, pic⟩,
      .frameArrival 0 0 ⟨1920, 1080, true, .fps50, .raster 2 [.black]⟩,
      .captureResume 0 4 pic, .captureResume 0 0 (.raster 0 []), .numbersExhausted 0 4 pic,
      .numbersExhausted 0 0 (.blend pic pic 256), .lossOfSignal 4 .timer, .openClipClose 0 32 pic,
      .openClipClose 0 0 (.blend (.raster 0 []) pic 1), .clipExpiry 32, .fadeEnd 16, .dwellComplete 16,
      .holdLimit 16, .passComplete 4, .messageExpiry 64, .laneAssignment 4] : List Instr),
      c.wf = false := by decide

theorem test_wf_refuses_plan_cards :
    ∀ c ∈ ([.postPlan 8 0 ⟨0, []⟩, .postPlan 0 0 ⟨1, []⟩, .postPlan 0 0 ⟨1, [{ zone4 with id := 256 }]⟩,
      .postPlan 0 0 ⟨1, [{ zone4 with x := 65536 }]⟩, .postPlan 0 0 ⟨4294967296, []⟩,
      .showZone 8 0 ⟨0, 0, 0⟩, .showZone 0 0 ⟨256, 0, 0⟩, .hideZone 0 0 ⟨0, 256, 0⟩,
      .hideZone 0 0 ⟨0, 0, 256⟩, .setSection 8 0 ⟨0, 0, 0, 0⟩, .setSection 0 0 ⟨0, 256, 0, 0⟩,
      .setSection 0 0 ⟨0, 0, 0, 256⟩] : List Instr), c.wf = false := by decide

theorem test_wf_refuses_replay_cards :
    ∀ c ∈ ([.setInput 40 0 ⟨0, 0, 0⟩, .setInput 0 0 ⟨0, 0, 256⟩, .markClip 0 0 ⟨0, 0, 4294967296, 0, 0⟩,
      .keepClip 0 0 ⟨0, 0, 0, 4294967296⟩, .dropClip 0 0 ⟨256, 0⟩, .cueHead 0 0 ⟨0, 0, 0, 256, 0, 0⟩,
      .play 0 0 ⟨0, 0, 2147483648⟩, .setRate 0 0 ⟨0, -2147483649⟩, .pause 0 0 256, .stopHead 40 0 0] :
      List Instr), c.wf = false := by decide

theorem test_wf_refuses_other_cards :
    ∀ c ∈ ([.setGroup 0 0 ⟨0, 0, 2, [1]⟩, .setGroup 0 0 ⟨0, 0, 1, [65536]⟩,
      .setEntry 0 0 ⟨0, 0, 0, 0, 0, 0, 256⟩, .dropEntry 0 0 65536, .loadImage 32 0 ⟨0, 16, 16, 60, 1⟩,
      .loadImage 0 0 ⟨0, 65536, 16, 60, 1⟩, .clockSetup 0 0 ⟨0, 0, 0, 0, 0, 65536, 0⟩,
      .clockSet 0 0 ⟨0, 4294967296⟩, .clockRun 16 0 0, .clockStop 0 0 256,
      .score 0 0 ⟨65536, 0, 0, 0, 0, 0, 0, 0⟩, .message 64 0 ⟨0, 0, 0, 0, 0, 0, 0, 0, 0, []⟩,
      .message 0 0 ⟨0, 0, 0, 0, 0, 0, 0, 0, 1, []⟩] : List Instr), c.wf = false := by decide

/-! ## The machine -/

theorem test_step_takes_the_front :
    step (queued (.run true) State.reset) = .next (after (.run true) State.reset) ∧
    (after (.run true) State.reset).port.runRequest = true := ⟨rfl, rfl⟩

theorem test_idle_step : step State.reset = .next State.reset := rfl

theorem witness_ClocksStaySound : (queued (.clockExpiry .game) live).clocksSound ∧
    ∃ t, step (queued (.clockExpiry .game) live) = .next t := by
  refine ⟨⟨⟨Nat.zero_le _, ?_, ?_, ?_⟩, ⟨Nat.zero_le _, ?_, ?_, ?_⟩⟩, _, rfl⟩ <;> decide

theorem witness_SegmentMapStaysOneToOne :
    (queued (.setSection 0 71 ⟨1, 23, 2, 65⟩) live).part.sec.mapSound ∧
    ∃ t, step (queued (.setSection 0 71 ⟨1, 23, 2, 65⟩) live) = .next t := by
  have h : ∀ r, r < 64 → State.reset.part.sec.backing r = r := by decide +kernel
  refine ⟨⟨by decide, ?_, ?_⟩, _, rfl⟩
  · intro r hr; exact (h r hr).symm ▸ Nat.lt_of_lt_of_le hr (by decide)
  · intro r q hr hq e; exact ((h r hr).symm.trans e).trans (h q hq)

theorem witness_InterruptFollowsCause : (queued (.causeMaskWrite 63) live).port.irqSound ∧
    ∃ t, step (queued (.causeMaskWrite 63) live) = .next t := ⟨rfl, _, rfl⟩

theorem witness_ShowMemoryStaysCanonical : (queued (.hostWrite (.word 5 1)) live).memorySound ∧
    ∃ t, step (queued (.hostWrite (.word 5 1)) live) = .next t := ⟨rfl, _, rfl⟩

theorem witness_RunningKeepsAPassingLayout : (queued (.run false) live).port.layoutSound ∧
    ∃ t, step (queued (.run false) live) = .next t :=
  ⟨fun _ => ⟨⟨areas, sizes, 500, 900⟩, by decide, rfl, rfl, rfl⟩, _, rfl⟩

/-! ## Registers and host accesses -/

/-- DESK_DONE is latched. -/
def latched : State := State.port' (fun p => { p with latches := { p.latches with deskDone := true } }) live

theorem test_mask_over_a_set_member_asserts :
    (after (.causeMaskWrite 4) latched).port.messages = [.assert] := by decide

theorem test_cause_write_clears_and_releases :
    (after (.causeWrite 4) (after (.causeMaskWrite 4) latched)).port.messages = [.assert, .release] := by
  decide

theorem test_other_register_access : after (.registerWriteOther 16 4 9) live = live := by decide +kernel

/-- The fields of IDENT and RUN_CONTROL at 60 frames/s with genlock on, RUNNING under an OK layout (10.10). -/
theorem test_fields_read :
    (readRegister .fps60 true live.port 0 4).extractLsb' 16 7 = 99#7 ∧
    readRegister .fps60 true live.port 4 2 = 0 ∧ readRegister .fps60 true live.port 20 4 = 0 ∧
    readRegister .fps50 false { live.port with faultPage := 16383 } 16 4 = 16383 := by
  refine ⟨?_, rfl, rfl, by decide⟩
  ext i h
  have : i < 7 := h
  interval_cases i <;> simp [readRegister, unlisted, toWord, Rate.code, flagNat]

/-- Page 1 is locked. -/
def lockedPart : State := State.port' (fun p => { p with partLocks := [⟨1, 1⟩] }) live

theorem witness_HostWritesObeyTheLocks :
    (Memory.wf live.port.mem = true ∧ live.port.locked (hostWriteAddr (.word 5 1) / 4096) = false ∧
      hostWriteAddr (.word 5 1) / 4 = 5 ∧ live.port.locked (hostWriteAddr (.byte 27 1) / 4096) = false ∧
      hostWriteAddr (.byte 27 1) / 4 = 6 ∧ live.port.locked (hostWriteAddr (.byte 28 1) / 4096) = false ∧
      hostWriteAddr (.byte 28 1) / 4 = 7) ∧
    (lockedPart.port.locked (hostWriteAddr (.word 1044 0) / 4096) = true ∧
      4 * (1044 : BitVec 24).toNat = 4176 ∧ Memory.wf lockedPart.port.mem = true) ∧
    lockedPart.port.locked (hostWriteAddr (.word 1043 0) / 4096) = true ∧
    lockedPart.port.locked (hostWriteAddr (.byte 4176 0) / 4096) = true := by decide

theorem witness_DroppedWrite : lockedPart.port.latches.pageFault = false ∧
    (after (.hostWrite (.byte 4176 0)) lockedPart).port.latches.pageFault = true ∧
    (after (.hostWrite (.byte 4176 0)) lockedPart).port.locked (hostWriteAddr (.byte 4176 1) / 4096) = true := by
  decide

theorem test_dropped_write_captures_its_page :
    (after (.hostWrite (.byte 4176 0)) lockedPart).port.faultPage = 1 := by decide

theorem test_error_slot_clear_is_no_fault :
    (after (.hostWrite (.word 1044 0)) lockedPart).port.latches.pageFault = false := by decide

/-- 5.8 and 11.1: the effective read marks of the examples. -/
theorem test_effective_read_marks :
    effectiveRead 4096 10000 5 = 5904 ∧ effectiveRead 4096 10000 9000 = 9000 ∧
    effectiveRead 256 1000 744 = 744 ∧ effectiveRead 256 1000 1001 = 1000 := by decide

/-! ## Resets -/

theorem test_soft_reset_keeps_the_show_tick :
    (after (.softReset true) (State.port' (fun p => { p with showTick := 9 }) live)).port.showTick = 9 := by
  decide

theorem test_hard_reset_samples_the_straps :
    (after (.hardReset .perst false true true) live).part.tb.rate = .fps5994 := by decide

theorem test_power_on_clears_the_error_slot :
    memWord (after (.powerOn true true false [(4176, 7), (4180, 7)]) live).port.mem 4176 = 0 := by decide

/-! ## Timebase -/

theorem witness_SynthesiserLockBeginsAFrame : State.reset.part.tb.synthLocked = false := by decide

theorem witness_ReferenceLossStopsTheMarks : State.reset.part.tb.synthLocked = false := by decide

theorem test_reference_loss_releases_the_horn :
    (after (.referenceLost 5) (State.clk' (fun u => { u with horn := 9 }) live)).part.clk.horn = 0 := by decide

theorem test_first_frame_has_length_L :
    (after (.synthesiserLock 0 calm) State.reset).part.tb.frameLength = 540000 := by decide +kernel

/-- The second pulse after the outage has measured a lead of 120,000 (1.4, the worked sequence). -/
def locking : State :=
  State.tb' (fun t => { t with genlockEnable := true, genlock := .locking, correction := 120000
                               syncTimer := some 1620000, sinceMark := 120000, sincePulse := some 0 }) config

theorem witness_FrameMarkSetsTheFrameLength :
    (locking.part.tb.synthLocked = true ∧ locking.part.tb.reference = true ∧
      locking.part.tb.sinceMark ≤ locking.part.tb.frameLength ∧
      ∀ r, locking.part.tb.syncTimer = some r →
        locking.part.tb.frameLength - locking.part.tb.sinceMark < r) ∧
    live.part.tb.syncTimer = none ∧ live.part.tb.genlock = .freeRun := by
  refine ⟨⟨by decide, by decide, by decide, ?_⟩, by decide, by decide⟩
  intro r h
  have : r = 1620000 := by injection h with h; exact h.symm
  subst this; decide

theorem test_frame_mark_in_locking :
    (after (.frameMark calm) locking).part.tb.frameLength = 540540 ∧
    (after (.frameMark calm) locking).part.tb.correction = 119460 := by decide +kernel

/-- House sync returns: HOLDOVER, the first pulse 420,000 periods ago at no mark's moment. -/
def holdover : State :=
  State.tb' (fun t => { t with genlockEnable := true, genlock := .holdover, sincePulse := some 420000
                               syncTimer := some 1620000 }) config

theorem witness_HouseSyncMeasuresThePhaseOrIsLost :
    (holdover.part.tb.genlockEnable = true ∧ holdover.part.tb.reference = true ∧
      holdover.part.tb.synthLocked = true ∧ ∀ r, holdover.part.tb.syncTimer = some r → 120000 < r) ∧
    holdover.part.tb.syncTimer = some 1620000 := by
  refine ⟨⟨by decide, by decide, by decide, ?_⟩, by decide⟩
  intro r h
  have : r = 1620000 := by injection h with h; exact h.symm
  subst this; decide

theorem test_second_pulse_begins_locking :
    (after (.houseSyncPulse true 120000) holdover).part.tb.genlock = .locking ∧
    (after (.houseSyncPulse true 120000) holdover).part.tb.correction = 120000 := by decide

theorem test_pulse_at_the_window_edge :
    (after (.houseSyncPulse true 120270) holdover).part.tb.genlock = .locking ∧
    (after (.houseSyncPulse true 120271) holdover).part.tb.genlock = .holdover := by decide

/-- Genlock is following under a layout, a pulse `back` periods ago and the frame `into` periods old. -/
def following (g : Genlock) (back into : Nat) : State :=
  State.tb' (fun t => { t with genlockEnable := true, genlock := g, lockCount := 6, syncTimer := some 1620000
                               sinceMark := into, sincePulse := some back }) live

/-- The boundary values of R7 and R8, each accepted: e of 27 and 28, and of 135 and 136. -/
theorem witness_HouseSyncAccepted :
    ((following .locking 539973 0).part.tb.genlockEnable = true ∧
      Memory.wf (following .locking 539973 0).port.mem = true ∧
      2 ≤ ((following .locking 539973 0).port.area 8).first ∧
      540000 - 540000 / 2000 ≤ 539973 + 27 ∧ 539973 + 27 ≤ 540000 + 540000 / 2000) ∧
    ∀ g, (following g 539973 0).part.tb.syncTimer = some 1620000 := by
  refine ⟨by decide, ?_⟩; intro g; cases g <;> rfl

theorem test_lock_bounds :
    (after (.houseSyncPulse true 27) (following .locking 539973 0)).part.tb.genlock = .locked ∧
    (after (.houseSyncPulse true 28) (following .locking 539972 0)).part.tb.genlock = .locking ∧
    (after (.houseSyncPulse true 135) (following .locked 539865 0)).part.tb.genlock = .locked ∧
    (after (.houseSyncPulse true 136) (following .locked 539864 0)).part.tb.genlock = .locking := by
  decide +kernel

/-- GENLOCK_LOCKED with the LOCKING count as its value (R9). -/
theorem test_locked_notice :
    memHalf (after (.houseSyncPulse true 27) (following .locking 539973 0)).port.mem (4096 * 56) = 23 ∧
    memWord (after (.houseSyncPulse true 27) (following .locking 539973 0)).port.mem (4096 * 56 + 4) = 6 := by
  decide +kernel

/-- A pulse outside the window leaves the sync-loss timer running. -/
theorem test_refused_pulse_keeps_the_timer :
    (after (.houseSyncPulse true 27) (following .locking 0 0)).part.tb.syncTimer = some 1619973 := by decide

/-- The reference is back and no pulse has come: the timer runs out all the same (R5). -/
theorem test_sync_loss_after_the_reference_returns :
    (after .syncLossExpiry (after (.referenceLost 0) locking)).part.tb.syncTimer = none := by decide

/-- A part with the reference back and the synthesiser not yet LOCKED, a pulse 5 periods ago. -/
def unlocked : State :=
  State.tb' (fun t => { t with synthLocked := false, sincePulse := some 5, syncTimer := some 100 }) live

/-- The periods that arrivals, receivers and console bytes carry run the timer while UNLOCKED too (R5). -/
theorem test_time_passes_while_unlocked :
    [Instr.frameArrival 40 1 ⟨1920, 1080, true, .fps50, pic⟩, .lossOfSignal 1 (.receiver 40), .consoleByte 40 126 true,
      .captureResume 40 1 pic, .wordDiscard 40 0 true].all (fun c =>
        (after c unlocked).part.tb.syncTimer == some 60 && (after c unlocked).part.tb.sincePulse == some 45 &&
        (after c unlocked).part.clk.word == none) = true := by decide +kernel

theorem test_sync_loss :
    (after .syncLossExpiry locking).part.tb.genlock = .holdover ∧
    (after .syncLossExpiry locking).part.tb.correction = 0 := by decide

theorem witness_ConfigMarkShowsBlack : config.part.tb.synthLocked = true ∧
    config.port.runState = .config ∧ config.port.runRequest = false ∧
    Memory.wf config.port.mem = true ∧ (config.blk.cap.input 0).silence = none := by decide

theorem witness_RunningMarkAdvancesTheShowTick : live.part.tb.synthLocked = true ∧
    live.port.runState = .running ∧ live.port.runRequest = true := by decide

theorem witness_ClockRecordAddress : Memory.wf live.port.mem = true ∧ 2 ≤ (live.port.area 6).first := by decide

/-- The CLOCK desk with a card posted in each of some slots: slot, post number, cue kind. -/
def posting (cards : List (Nat × Word × Word)) : Port :=
  { live.port with mem := memWriteWord (cards.foldl (fun m c =>
      memWriteWord (memWriteWord (memWriteWord m (4096 * 12 + 512 * c.1) 1) (4096 * 12 + 512 * c.1 + 4) c.2.1)
        (4096 * 12 + 512 * c.1 + 8) c.2.2) []) 12 7 }

/-- A CLOCK desk card is read from the 480 parameter bytes of its slot alone. -/
theorem clockCardAt_local (kind : Word) (m m' : List Host.Cell) (a : Nat)
    (h : ∀ b, a + 32 ≤ b → b < a + 512 → memRead m b = memRead m' b) :
    clockCardAt kind m a = clockCardAt kind m' a := by
  have e : ∀ o, o < 14 → memRead m (a + 32 + o) = memRead m' (a + 32 + o) := fun o _ =>
    h _ (by omega) (by omega)
  have f : ∀ o k, o < 11 → k < 4 → memRead m (a + 32 + o + k) = memRead m' (a + 32 + o + k) := fun o k _ _ => by
    simpa only [Nat.add_assoc] using e (o + k) (by omega)
  have b : ∀ o, o < 11 → par8 m a o = par8 m' a o := fun o ho => by simp only [par8, e o (by omega)]
  have w : ∀ o, o < 11 → par16 m a o = par16 m' a o := fun o ho => by
    simp only [par16, memHalf, e o (by omega), f o 1 ho (by omega)]
  have d : ∀ o, o < 11 → par32 m a o = par32 m' a o := fun o ho => by
    simp only [par32, parWord, memWord, e o (by omega), f o 1 ho (by omega), f o 2 ho (by omega),
      f o 3 ho (by omega)]
  simp only [clockCardAt, clockSetupCueAt, clockSetCueAt, scoreCueAt, b 0 (by omega), b 1 (by omega),
    b 2 (by omega), b 3 (by omega), b 4 (by omega), b 5 (by omega), b 6 (by omega), b 7 (by omega),
    b 8 (by omega), b 9 (by omega), b 10 (by omega), w 0 (by omega), w 2 (by omega), w 8 (by omega),
    d 4 (by omega)]

/-- A STALE card, two that share a number, and one of no kind of the desk (10.7). -/
def mixed : Port := posting [(0, 0, 51), (1, 5, 51), (2, 5, 51), (3, 4, 9)]

theorem witness_PickupOfADesk : Memory.wf mixed.mem = true ∧ 2 ≤ (mixed.area (deskIndex .clock)).first ∧
    memWord mixed.mem (4 * deskIndex .clock) ≠ (mixed.desks.get .clock).seen ∧
    memWord mixed.mem (mixed.slotAddr .clock 0) = 1 ∧ 3 < deskSlots .clock := by decide +kernel

/-- R177, R178: STALE, DUPLICATE and BAD_KIND refusals, and the card taken. -/
theorem test_pickup :
    ([0, 1, 2, 3].map fun i => (memWord (pickup clockCardAt .clock false mixed).1.mem (4096 * 12 + 512 * i),
      memWord (pickup clockCardAt .clock false mixed).1.mem (4096 * 12 + 512 * i + 12))) =
      [(5, 16), (2, 0), (5, 17), (5, 18)] ∧
    ((pickup clockCardAt .clock false mixed).1.desks.get .clock).seen = 7 := by decide +kernel

/-- Nine cards at one mark, and the post count written back to the seen count: the ninth is taken at the next mark all
the same (R176). -/
theorem test_rescan :
    let nine := posting ((List.range 9).map fun i => (i, toWord (i + 1), 51))
    let p := (pickup clockCardAt .clock false nine).1
    (pickup clockCardAt .clock false nine).2.map (·.slot) = [0, 1, 2, 3, 4, 5, 6, 7] ∧
    (pickup clockCardAt .clock false { p with mem := memWriteWord p.mem 12 0 }).2.map (·.slot) = [8] := by
  decide +kernel

/-- 8.7: the record's edit count, show tick and GAME display string, code 45 twice about a colon in NO_TIME. -/
theorem test_clock_record :
    memWord (after (.frameMark calm) live).port.mem (4096 * 23) = 2 ∧
    memWord (after (.frameMark calm) live).port.mem (4096 * 23 + 4) = 1 ∧
    (memRead (after (.frameMark calm) live).port.mem (4096 * 23 + 88 - 4)).toNat = 1 := by decide +kernel

theorem test_running_mark_advances_the_tick :
    (after (.frameMark calm) live).port.showTick = 1 := by decide +kernel

theorem witness_ShowStopEndsEverything : (after (.run false) live).part.tb.synthLocked = true ∧
    (after (.run false) live).port.runState = .running ∧
    (after (.run false) live).port.runRequest = false := by decide

theorem test_show_stop : (after (.frameMark calm) (after (.run false) live)).port.runState = .config := by
  decide +kernel

/-- The small layout written into the host page. -/
def layoutMem : List Host.Cell :=
  let m := (List.range 11).foldl (fun m a =>
    memWriteWord (memWriteWord m (80 + 8 * a) (toWord (tget ⟨0, 0⟩ areas a).first)) (84 + 8 * a)
      (toWord (tget ⟨0, 0⟩ areas a).count)) []
  memWriteHalf (memWriteHalf (memWriteHalf m 64 3840) 66 2160) 70 128

/-- CONFIG with the RUN request set and the layout in the host page. -/
def entering : State := State.port' (fun p => { p with mem := layoutMem, runRequest := true }) config

theorem witness_EntryAttemptValidatesTheLayout :
    (entering.part.tb.synthLocked = true ∧ entering.port.runState = .config ∧
      entering.port.runRequest = true ∧ (readLayout entering.port.mem).check.1 = .ok) ∧
    ((after (.run true) config).part.tb.synthLocked = true ∧
      (after (.run true) config).port.runState = .config ∧
      (after (.run true) config).port.runRequest = true ∧
      (readLayout (after (.run true) config).port.mem).check.1 ≠ .ok ∧
      Memory.wf (after (.run true) config).port.mem = true) := by decide +kernel

theorem test_entry_locks_the_part_pages :
    (after (.frameMark calm) entering).port.runState = .running ∧
    (after (.frameMark calm) entering).port.locked 1 = true := by decide +kernel

/-- A slot left TAKEN and one left DONE, for the sweep of an entry. -/
def leftovers : Port := { live.port with mem := memWriteWord (memWriteWord [] (4096 * 12 + 512 * 15) 2) 8192 4 }

theorem witness_SweepOfTheSlots :
    (⟨areas, sizes, 500, 900⟩ : Layout).check.1 = .ok ∧ leftovers.areas = some areas ∧
    Memory.wf leftovers.mem = true ∧ 15 < deskSlots .clock ∧
    memWord leftovers.mem (leftovers.slotAddr .clock 15) = 2 := by decide +kernel

theorem test_orphan_sweep :
    memWord leftovers.sweep.mem (4096 * 12 + 512 * 15) = 5 ∧
    memWord leftovers.sweep.mem (4096 * 12 + 512 * 15 + 12) = 25 ∧
    memWord leftovers.sweep.mem 8192 = 4 ∧ (leftovers.sweep.desks.get .clock).done = 1 := by decide +kernel

theorem test_layout_bad : (after (.frameMark calm) (after (.run true) config)).port.latches.layoutBad = true := by
  decide +kernel

/-- The clocks of the tests: GAME DOWN and AUX UP, both LOCAL and RUNNING, near their ends. -/
def nearEnds : State :=
  State.clk' (fun u => { u with
    game := { u.game with localSource := true, state := .running, value := 1 }
    aux := { u.aux with localSource := true, up := true, state := .running, value := 11999998 } }) live

theorem witness_MsTickCountsTheClocks : nearEnds.part.tb.synthLocked = true ∧
    (nearEnds.part.clk.clock .game).state = .running ∧ (nearEnds.part.clk.clock .game).up = false ∧
    (nearEnds.part.clk.clock .game).value ≤ 1 ∧ (nearEnds.part.clk.clock .aux).state = .running ∧
    (nearEnds.part.clk.clock .aux).up = true ∧ 11999999 ≤ (nearEnds.part.clk.clock .aux).value + 1 := by
  decide

theorem test_ms_tick_expires_and_limits :
    (after (.msTick false) nearEnds).part.clk.game.state = .expired ∧
    (after (.msTick false) nearEnds).part.clk.aux.state = .stopped := by decide

/-! ## Sections and exposure -/

theorem test_report_of_ring_segment_23 :
    tget .absent (after (.healthReport 5 7 .fault true) live).part.sec.buffer 39 = .fault := by decide

theorem test_report_positions_at_their_ends :
    tget .absent (after (.healthReport 3 3 .ok true) live).part.sec.buffer 15 = .ok ∧
    tget .absent (after (.healthReport 7 16 .ok true) live).part.sec.buffer 83 = .ok ∧
    after (.healthReport 0 4 .ok true) live = live ∧ after (.healthReport 4 17 .ok true) live = live ∧
    after (.healthReport 0 0 .fault false) live = live := by decide +kernel

/-- Segment 23 of the ribbon has had 29 bad frames (3.6, the worked sequence). -/
def failing : State :=
  State.sec' (fun c => { c with health := tset ⟨true, 0⟩ c.health 39 ⟨true, 29⟩ }) live

theorem witness_HealthTurnsAtTheThirtiethBadFrame :
    (failing.part.tb.synthLocked = true ∧ 39 < failing.part.sec.health.length ∧
      (failing.part.sec.segHealth 39).live = true ∧ 29 ≤ (failing.part.sec.segHealth 39).runCount ∧
      tget .absent failing.part.sec.buffer 39 ≠ .ok) ∧
    (failing.part.sec.segHealth 38).live = true ∧ (failing.part.sec.segHealth 38).runCount < 29 := by decide

theorem test_thirtieth_fault_frame :
    (after (.segmentHealthChange 39) failing).part.sec.stateOf 39 = .dead ∧
    (after (.segmentHealthChange 39) failing).part.sec.segHealth 39 = ⟨false, 0⟩ := by decide +kernel

theorem witness_SetSectionForcesOrMaps : live.ready .plan ∧
    (∀ r, r < 64 → r ≠ 23 → live.part.sec.backing r ≠ 65) := ⟨live_ready _, by decide +kernel⟩

theorem witness_SetSectionRefused : live.ready .plan ∧ live.part.sec.backing 24 = 24 ∧
    live.part.sec.backing 23 ≠ 24 ∧ (∀ u, u < 64 → live.part.sec.backing u = 24 → u = 24) :=
  ⟨live_ready _, by decide +kernel⟩

/-- R42, R43: MAP on MAIN and section 16 of MAIN are refused, and so is a segment that backs section 24. -/
theorem test_set_section_refused :
    [(⟨0, 3, 2, 3⟩ : SectionCue), ⟨0, 16, 0, 0⟩, ⟨1, 64, 0, 0⟩, ⟨1, 0, 2, 68⟩, ⟨1, 23, 2, 24⟩].map (fun q =>
      let m := (after (.setSection 0 71 q) live).port.mem
      (memWord m (8192 + 12), memWord m (8192 + 24))) = [(19, 0), (19, 0), (19, 0), (19, 0), (21, 40)] := by
  decide +kernel

theorem test_map_to_the_spare :
    (after (.setSection 0 71 ⟨1, 23, 2, 65⟩) live).part.sec.backing 23 = 65 ∧
    memWord (after (.setSection 1 72 ⟨1, 24, 2, 65⟩)
      (after (.setSection 0 71 ⟨1, 23, 2, 65⟩) live)).port.mem (8192 + 512 + 24) = 39 := by decide +kernel

/-- A zone SHOWN. -/
def shown (id : Nat) (kind : ZoneKind) (source rank : Nat) (r : Rect) : ZoneRun :=
  { zone := { id, canvas := .main, rect := r, rank, kind, source, sheer := false, startShown := true
              yields := true, fade := none }
    vis := .shown, yielded := false, fresh := false }

/-- The zones of the worked case of 4.4. -/
def zone2 : ZoneRun := shown 2 .placement 1 3 ⟨860, 1700, 1200, 200⟩
def zone6 : ZoneRun := shown 6 .message 0 8 ⟨0, 1860, 3840, 40⟩

theorem test_worked_case_of_4_4 :
    measureZone ⟨500, 900⟩ [zone2, zone6] (fun _ => [⟨0, 1620, 960, 540⟩]) zone2 =
      ⟨2, 240000, 176000, 733, 149⟩ ∧
    measureZone ⟨500, 900⟩ [zone2, zone6] (fun _ => [⟨0, 1620, 960, 540⟩]) zone6 =
      ⟨6, 153600, 115200, 750, 160⟩ := by decide +kernel

theorem witness_BaseWeightRisesWithVisibility : (⟨500, 900⟩ : Thresholds).floor < 900 ∧ 499 ≤ 500 := by decide

theorem test_base_weights :
    [499, 500, 600, 700, 733, 750, 800, 899, 900].map (baseWeight ⟨500, 900⟩) =
      [0, 0, 64, 128, 149, 160, 192, 255, 256] := by decide

/-! ## Plans and zones -/

/-- Zone 4 with transition FADE 4 (2.5, the worked sequence), at a visibility. -/
def fader (v : Visibility) : ZoneRun :=
  { zone := { id := 4, canvas := .main, rect := ⟨0, 0, 16, 16⟩, rank := 3, kind := .live, source := 0
              sheer := false, startShown := false, yields := false, fade := some 4 }
    vis := v, yielded := false, fresh := false }

/-- A RUNNING part whose active plan has the given zones. -/
def withZones (zs : List ZoneRun) : State :=
  State.blk' (fun b => { b with comp := { b.comp with active := some ⟨zs, 7, 90⟩ } }) live

theorem witness_PostPlanStagesAPlan : live.ready .plan ∧ 1 ≤ ([zone4] : List ZoneRec).length ∧
    recFails live.port.sizesInForce zone4 = false ∧
    ([zone4] : List ZoneRec).Pairwise (fun e r => pairFails e r = false) := ⟨live_ready _, by decide⟩

theorem witness_PostPlanRefused : live.ready .plan ∧
    ([zone4, zone4] : List ZoneRec)[1]? = some zone4 ∧
    (∃ e ∈ ([zone4, zone4] : List ZoneRec).take 1, pairFails e zone4 = true) ∧
    recFails live.port.sizesInForce zone4 = false ∧
    recFails live.port.sizesInForce { zone4 with w := 15 } = true := ⟨live_ready _, by decide +kernel⟩

theorem test_post_plan_names_the_first_fault :
    memWord (after (.postPlan 0 71 ⟨2, [zone4, zone4]⟩) live).port.mem (8192 + 24) = 1 ∧
    memWord (after (.postPlan 0 71 ⟨2, [{ zone4 with w := 15 }, zone4]⟩) live).port.mem (8192 + 24) = 0 := by
  decide +kernel

theorem test_post_plan_stages :
    (after (.postPlan 2 71 ⟨1, [zone4]⟩) live).blk.comp.staged = some ⟨[zoneOfRec zone4], 2, 71⟩ := by decide

theorem test_post_plan_of_seventeen_is_refused :
    memWord (after (.postPlan 2 71 ⟨17, []⟩) live).port.mem (8192 + 1024 + 24) = 16 := by decide +kernel

theorem witness_ZoneCardsShowAndHide :
    ((withZones [fader .hidden]).ready .plan ∧ (withZones [fader .hidden]).blk.comp.staged = none ∧
      (withZones [fader .hidden]).blk.comp.zone 4 = some (fader .hidden)) ∧
    (withZones [fader (.fadingOut 2 4)]).blk.comp.zone 4 = some (fader (.fadingOut 2 4)) ∧
    (withZones [fader (.fadingIn 2 4)]).blk.comp.zone 4 = some (fader (.fadingIn 2 4)) ∧
    (withZones [fader .shown]).blk.comp.zone 4 = some (fader .shown) :=
  ⟨⟨ready_of _ _ rfl rfl, rfl, rfl⟩, rfl, rfl, rfl⟩

/-- 2.5: SHOW_ZONE of a HIDDEN zone of FADE 4 has result 4 and draws step 1. -/
theorem test_show_zone_fades_in :
    ((after (.showZone 0 1 ⟨4, 0, 0⟩) (withZones [fader .hidden])).blk.comp.zone 4).map (·.vis) =
      some (.fadingIn 1 4) ∧
    memWord (after (.showZone 0 1 ⟨4, 0, 0⟩) (withZones [fader .hidden])).port.mem 8216 = 4 := by
  decide +kernel

/-- 2.5: reversed at step 2, HIDE_ZONE has result 2, and SHOW_ZONE after it has result 3. -/
theorem test_fade_reversed_twice :
    memWord (after (.hideZone 0 1 ⟨4, 0, 0⟩) (withZones [fader (.fadingIn 2 4)])).port.mem 8216 = 2 ∧
    memWord (after (.showZone 0 1 ⟨4, 0, 0⟩) (withZones [fader (.fadingOut 2 4)])).port.mem 8216 = 3 := by
  decide +kernel

/-- A plan is staged beside a plan of zone 4. -/
def stagedBeside (z : ZoneRun) : State :=
  State.blk' (fun b => { b with comp := { b.comp with staged := some ⟨[zoneOfRec zone4], 2, 71⟩ } }) (withZones [z])

/-- Zone 4 as a HIDDEN STILL zone, with its image slot in some state. -/
def stillZone (x : BankSlot) : State :=
  State.blk' (fun b => b.onRot (·.setSlot 0 x))
    (withZones [{ fader .hidden with zone := { (fader .hidden).zone with kind := .still } }])

/-- A zone cue while a plan is staged, on a yielded zone, with no plan, and on a STILL zone without its image. -/
theorem witness_ZoneCardsInOtherForms :
    ((stagedBeside (fader (.fadingOut 2 4))).ready .plan ∧ (stagedBeside (fader .hidden)).blk.comp.staged ≠ none ∧
      (stagedBeside (fader .shown)).blk.comp.zone 4 = some (fader .shown)) ∧
    ((withZones [{ fader .hidden with yielded := true }]).blk.comp.zone 4).map (·.yielded) = some true ∧
    (live.ready .plan ∧ live.blk.comp.zone 4 = none) ∧
    ∀ x ∈ [BankSlot.empty, .loading 1], (stillZone x).ready .plan ∧
      ((stillZone x).blk.comp.zone 4).map (fun z => (z.zone.kind, z.vis)) = some (.still, .hidden) ∧
      ((stillZone x).blk.rot.slot 0).isReady = false :=
  ⟨⟨ready_of _ _ rfl rfl, by decide, rfl⟩, rfl, ⟨live_ready _, rfl⟩, fun _ _ => by
    refine ⟨ready_of _ _ rfl rfl, rfl, ?_⟩; simp_all [stillZone]; rcases ‹_ ∨ _› with rfl | rfl <;> decide⟩

/-- R18: while a plan is staged a zone goes at once where the card says with outcome CLAMPED and result 0, and a card of no
effect is OK. -/
theorem test_zone_cards_while_a_plan_is_staged :
    [Visibility.hidden, .fadingOut 2 4, .fadingIn 2 4].map (fun v =>
      let t := after (.showZone 0 1 ⟨4, 0, 0⟩) (stagedBeside (fader v))
      ((t.blk.comp.zone 4).map (·.vis), memWord t.port.mem 8204, memWord t.port.mem 8216)) =
      [(some .shown, 1, 0), (some .shown, 1, 0), (some (.fadingIn 2 4), 0, 0)] := by decide +kernel

/-- R24: no such zone and a FADE of 61; a STILL zone without its image stays HIDDEN, with one value drawn. -/
theorem test_zone_cards_refused :
    [after (.hideZone 0 1 ⟨5, 0, 0⟩) (withZones [fader .shown]),
      after (.showZone 0 1 ⟨4, 2, 61⟩) (withZones [fader .hidden])].map (fun t =>
        (memWord t.port.mem 8192, memWord t.port.mem 8204, memWord t.port.mem 8216)) = [(5, 19, 0), (5, 19, 0)] ∧
    [BankSlot.empty, .loading 1].map (fun x =>
      let t := after (.showZone 0 1 ⟨4, 0, 0⟩) (stillZone x)
      ((t.blk.comp.zone 4).map (·.vis), t.port.unstated)) = [(some .hidden, 1), (some .hidden, 1)] := by
  decide +kernel

theorem test_opacities_of_fade_4 :
    [1, 2, 3, 4].map (fun s => (Visibility.fadingIn s 4).alpha) = [51, 102, 153, 204] := by decide

theorem witness_FadeEndSettlesTheZone : (withZones [fader (.fadingIn 4 4)]).part.live = true ∧
    (withZones [fader (.fadingIn 4 4)]).blk.comp.zone 4 = some (fader (.fadingIn 4 4)) ∧
    (withZones [fader (.fadingOut 1 4)]).blk.comp.zone 4 = some (fader (.fadingOut 1 4)) := ⟨rfl, rfl, rfl⟩

theorem test_fade_end :
    ((after (.fadeEnd 4) (withZones [fader (.fadingOut 1 4)])).blk.comp.zone 4).map (·.vis) = some .hidden := by
  decide

/-- An image of one colour in image slot 0, shown by a STILL zone over a black LIVE zone. -/
def stillPart (v : Visibility) : State :=
  State.blk' (fun b => b.onRot (·.setSlot 0 (.ready 16 16 1 (.solid ⟨200, 0, 3⟩)))) (withZones
    [shown 1 .live 0 1 ⟨0, 0, 32, 32⟩, { shown 2 .still 0 2 ⟨0, 0, 16, 16⟩ with vis := v }])

theorem witness_ComposedPixels : (stillPart .shown).port.runState = .running ∧
    (stillPart (.fadingIn 1 4)).blk.comp.zones = [shown 1 .live 0 1 ⟨0, 0, 32, 32⟩] ++
      { shown 2 .still 0 2 ⟨0, 0, 16, 16⟩ with vis := .fadingIn 1 4 } :: [] ∧ 1 < 2 ∧
    (live.blk.comp.zones : List ZoneRun) = [] := by decide

/-- R29: α = 51 of a component 200 over black is floor((200 × 51 + 128) / 256) = 40. -/
theorem test_composed_pixels :
    ((stillPart (.fadingIn 1 4)).blk.compose live.part.clk).comp.mainFrame.pixel 15 15 = ⟨40, 0, 1⟩ ∧
    ((stillPart .shown).blk.compose live.part.clk).comp.mainFrame.pixel 15 15 = ⟨200, 0, 3⟩ ∧
    ((stillPart .shown).blk.compose live.part.clk).comp.mainFrame.pixel 16 15 = .black := by decide +kernel

/-- R159: of a glyph that stands across the width of its text only the columns below the width are drawn. -/
theorem test_text_ends_at_its_width :
    (PlacedGlyph.mk 0 8 3 [255]).inkAt 2 0 = true ∧ (PlacedGlyph.mk 0 8 3 [255]).inkAt 3 0 = false := by decide

/-- A plan of one zone is staged and no plan is active. -/
def staging : State :=
  State.blk' (fun b => { b with comp := { b.comp with staged := some ⟨[zoneOfRec zone4], 2, 71⟩ } }) live

theorem witness_AdoptionMakesTheStagedPlanActive : staging.part.live = true ∧
    staging.blk.comp.staged = some ⟨[zoneOfRec zone4], 2, 71⟩ ∧
    (∀ z ∈ staging.blk.comp.zones, z.vis.fading = false) ∧ staging.blk.comp.active = none ∧
    staging.blk.comp.urgentYield = false := by decide

theorem test_adoption : ((after .adoption staging).blk.comp.active).map (·.post) = some 71 := by decide

/-! ## Rotation -/

/-- The entries of the worked example of 5.5, on image slot 0. -/
def entryA : Entry := ⟨0, 600, 76800, 4, true, -38400, 0, 0⟩
def entryB : Entry := ⟨0, 600, 153600, 7, true, -115200, 0, 0⟩
def entryC : Entry := ⟨0, 600, 76800, 0, true, 1000, 0, 0⟩

/-- A Rotator with those entries at 20, 21 and 22 and image slot 0 READY. -/
def rotator : Rotator :=
  { ((((Rotator.init.setEntry 20 (some entryA)).setEntry 21 (some entryB)).setEntry 22 (some entryC)).setSlot 0
      (.ready 16 16 1 pic)) with airings := [⟨3, 21, 2, true, 600, 5, 600, 600, 9, 1⟩] }

/-- The part with that Rotator. -/
def rotating : State := State.blk' (fun b => { b with rot := rotator }) live

theorem test_selection_of_5_5 : rotator.choose [] ⟨[20, 21, 22], false, some 0⟩ = some 1 ∧
    rotator.choose [7] ⟨[20, 21, 22], false, some 0⟩ = some 0 := by decide +kernel

theorem test_needs_of_5_5 : [entryA, entryB, entryC].map need = [32768, 49152, 0] := by decide

theorem witness_SetGroupReplacesTheList : rotating.ready .rotation ∧ ([20, 21, 22] : List Nat).Nodup ∧
    (∀ e ∈ ([127, 0] : List Nat), e ≤ 127) ∧ ([127, 0] : List Nat).Nodup :=
  ⟨ready_of _ _ rfl rfl, by decide⟩

theorem test_set_group_result_without_cursor :
    memWord (after (.setGroup 0 1 ⟨2, 1, 3, [20, 21, 22]⟩) rotating).port.mem (4096 * 8 + 24) = 16 := by
  decide +kernel

/-- R68: a mode of 2, an id of 128 at position 1, and the id of position 0 again at position 2. -/
theorem test_set_group_refused :
    [(⟨2, 2, 1, [20]⟩ : GroupCue), ⟨2, 1, 2, [20, 128]⟩, ⟨2, 1, 3, [20, 21, 20]⟩].map (fun q =>
      let m := (after (.setGroup 0 1 q) rotating).port.mem
      (memWord m (4096 * 8 + 12), memWord m (4096 * 8 + 24))) = [(19, 16), (19, 1), (19, 2)] := by decide +kernel

/-- R62, R65: a dwell of 59 and an entry of 128. -/
theorem test_entry_cards_refused :
    [after (.setEntry 0 1 ⟨20, 0, 59, 9, 7, 1, 0⟩) rotating, after (.dropEntry 0 1 128) rotating].map (fun t =>
      (t.blk.rot == rotating.blk.rot, memWord t.port.mem (4096 * 8 + 12), memWord t.port.mem (4096 * 8 + 24))) =
      [(true, 19, 0), (true, 19, 0)] := by decide +kernel

theorem witness_SetEntrySetsTheEntry : rotating.ready .rotation ∧ 1 ≤ 1073741824 ∧ 60 ≤ 36000 ∧
    (rotating.blk.rot.airings.filter fun a => a.entry == 20).length = 0 :=
  ⟨ready_of _ _ rfl rfl, by decide⟩

theorem test_set_entry_starts_at_minus_quota :
    ((after (.setEntry 0 1 ⟨127, 511, 60, 1073741824, 31, 1, 0⟩) rotating).blk.rot.entry 127).map (·.meter) =
      some (-1073741824) := by decide +kernel

theorem test_set_entry_ends_the_airing :
    (after (.setEntry 0 1 ⟨21, 0, 600, 9, 7, 1, 0⟩) rotating).blk.rot.airings = [] := by decide +kernel

theorem witness_DropEntryUnsetsTheEntry : rotating.ready .rotation ∧ rotating.blk.rot.entry 127 = none ∧
    rotating.blk.rot.entry 21 ≠ none ∧ (∀ a ∈ rotating.blk.rot.airings, a.entry ≠ 20) :=
  ⟨ready_of _ _ rfl rfl, by decide +kernel⟩

theorem test_drop_entry_counts_airings :
    memWord (after (.dropEntry 0 1 21) rotating).port.mem (4096 * 8 + 24) = 1 := by decide +kernel

theorem witness_ImageLoadsQueueAndComplete :
    (rotating.ready .rotation ∧ (rotating.port.area 9).first ≤ 63 ∧
      63 + 1 ≤ (rotating.port.area 9).first + (rotating.port.area 9).count ∧
      ceilDiv (16 * 16 * 4) 4096 ≤ 1 ∧ (rotating.blk.rot.slot 511).isLoading = false ∧
      rotating.blk.imageOnAir 511 = false ∧
      ceilDiv (16 * 16 * 4) 65536 ≤ rotating.blk.rot.freeBlocks + (rotating.blk.rot.slot 511).blocks) ∧
    (State.blk' (fun b => b.onRot fun r =>
      { r with queue := [⟨0, 511, 16, 16, ⟨63, 1⟩, 1, pic, 1⟩] }) live).ready .rotation :=
  ⟨⟨ready_of _ _ rfl rfl, by decide +kernel⟩, ready_of _ _ rfl rfl⟩

/-- Image slot 510 is LOADING, and the bank has no free block. -/
def fullBank : State :=
  State.blk' (fun b => b.onRot fun r => r.setSlot 510 (.loading 32768)) live

theorem witness_LoadImageRefused : fullBank.ready .rotation ∧
    (fullBank.blk.rot.slot 510).isLoading = true ∧ (fullBank.blk.rot.slot 511).isLoading = false ∧
    fullBank.blk.imageOnAir 511 = false ∧
    fullBank.blk.rot.freeBlocks + (fullBank.blk.rot.slot 511).blocks < ceilDiv (16 * 16 * 4) 65536 :=
  ⟨ready_of _ _ rfl rfl, by decide +kernel⟩

/-- R82: a width of 15, a page below the staging area, a LOADING slot, no room. -/
theorem test_load_image_refused :
    [(⟨511, 15, 16, 63, 1⟩ : LoadCue), ⟨511, 64, 64, 59, 4⟩, ⟨510, 16, 16, 63, 1⟩, ⟨511, 16, 16, 63, 1⟩].map (fun q =>
      let m := (after (.loadImage 0 1 q) fullBank).port.mem
      (memWord m (4096 * 8 + 12), memWord m (4096 * 8 + 24))) = [(19, 0), (19, 4), (21, 0), (20, 0)] := by
  decide +kernel

theorem test_load_image_locks_its_page :
    (after (.loadImage 0 1 ⟨511, 16, 16, 63, 1⟩) live).port.locked 63 = true := by decide +kernel

theorem test_load_complete : (State.blk' (fun b => b.onRot fun r =>
    { r with queue := [⟨0, 511, 16, 16, ⟨63, 1⟩, 1, pic, 1⟩] }) live |> after .loadComplete).blk.rot.slot 511 =
      .ready 16 16 1 pic := by decide +kernel

theorem witness_DwellAndHoldLimitEndTheAiring : rotating.ready .rotation ∧
    rotating.blk.rot.airings.filter (fun a => a.zone == 3 && a.seen && decide (a.dwell ≤ a.credited)) =
      [⟨3, 21, 2, true, 600, 5, 600, 600, 9, 1⟩] ∧ rotating.blk.rot.entry 21 = some entryB ∧
    rotating.port.logUsed < 4096 ∧ 2 ≤ (rotating.port.area 7).first ∧ 2 ≤ (rotating.port.area 8).first :=
  ⟨ready_of _ _ rfl rfl, by decide⟩

/-- The airing of entry 21 in the PLACEMENT zone of 4.4, whose base weight is 149. -/
def crediting : State :=
  State.blk' (fun b => { b with measures := [⟨2, 240000, 176000, 733, 149⟩]
                                rot := { rotator with airings := [⟨2, 21, 1, true, 600, 5, 9, 9, 9, 1⟩] } })
    (withZones [zone2])

theorem witness_CreditOfAFrame : crediting.port.runState = .running ∧ 21 < 128 ∧
    crediting.blk.rot.entry 21 = some entryB ∧ crediting.blk.rot.entry 0 = none := by decide +kernel

/-- R58, R74: the frame weight 149 goes to the airing and to the meter. -/
theorem test_credit :
    (crediting.blk.credit.rot.entry 21).map (fun x => (x.meter, x.onAir)) = some (-115051, 1) ∧
    crediting.blk.credit.rot.airings.map (fun a => (a.shown, a.credited, a.credits)) = [(10, 10, 158)] := by
  decide +kernel

/-- 5.8: kind 1 and end code 1 for HOLD_LIMIT, code 0 for DWELL; the entry and its image slot. -/
theorem test_airing_record :
    memWord (after (.holdLimit 3) (State.blk' (fun b => b.onRot fun r =>
      { r with airings := [⟨3, 21, 2, true, 600, 5, 1800, 599, 9, 1⟩] }) rotating)).port.mem (4096 * 24) =
      0x02030101 ∧
    memWord (after (.dwellComplete 3) rotating).port.mem (4096 * 24) = 0x02030001 ∧
    memWord (after (.dwellComplete 3) rotating).port.mem (4096 * 24 + 4) = 21 := by decide +kernel

theorem test_dwell_complete_writes_a_record :
    (after (.dwellComplete 3) rotating).port.logWrite = 1 := by decide +kernel

theorem test_hold_limit :
    (after (.holdLimit 3) (State.blk' (fun b => b.onRot fun r =>
      { r with airings := [⟨3, 21, 2, true, 600, 5, 1800, 599, 9, 1⟩] }) rotating)).blk.rot.airings = [] := by
  decide +kernel

/-! ## Capture and replay -/

/-- An input whose ring of 64 bays of 4 holds 8,200..8,455, next number 8,456 (7.1, the example). -/
def fullRing : Input :=
  { state := .capturing, baySize := 4
    bays := (List.range 64).map fun k => ⟨.filled, 8200 + 4 * k, 0, 0, [], [pic, pic, pic, pic]⟩
    ages := List.range 64, next := 8456, starved := false, silence := some 1620000, live := some pic
    ring := 0 }

/-- A STARVED input with bay 5 EMPTY. -/
def starvedRing : Input := { fullRing.setBay 5 .empty with state := .starved, starved := true }

/-- A part with the given input 1. -/
def withInput (x : Input) : State := State.blk' (fun b => { b with cap := b.cap.setInput 1 x }) live

/-- The ring with bay 0 FILLING and holding one frame. -/
def fillingRing : Input :=
  (fullRing.setBay 0 ⟨.filling, 8455, 0, 0, [], [pic]⟩)

theorem witness_FrameArrivalIsNumberedAndWritten :
    ((withInput fillingRing).part.tb.synthLocked = true ∧
      ((withInput fillingRing).blk.cap.input 1).state ≠ .off ∧
      ((withInput fillingRing).blk.cap.input 1).filling = some 0 ∧
      (((withInput fillingRing).blk.cap.input 1).bay 0).frames.length + 1 <
        ((withInput fillingRing).blk.cap.input 1).baySize) ∧
    ((withInput fillingRing).blk.cap.input 1).next < 4294967295 := by decide

/-- The ring with bay 0 FILLING, one frame short of its B, and every other bay kept or not. -/
def almostFull (kept : Nat) : Input :=
  { fullRing with bays := ⟨.filling, 8453, 1, 0, [], [pic, pic, pic]⟩ ::
                    (List.range 63).map fun k => ⟨.filled, 8200 + 4 * k, 0, kept, [], [pic, pic, pic, pic]⟩
                  ages := (List.range 63).map (· + 1) }

theorem witness_FrameArrivalFillsABay :
    ((almostFull 0).filling = some 0 ∧ ((almostFull 0).bay 0).frames.length + 1 = (almostFull 0).baySize) ∧
    ((almostFull 1).filling = some 0 ∧ (almostFull 1).starved = false ∧ live.part.tb.syncTimer = none ∧
      (∀ c, c < 32 → live.blk.rep.clip c = none) ∧ 2 ≤ (live.port.area 8).first) ∧
    ({ starvedRing with bays := (almostFull 1).bays.tail, ages := List.range 63 } : Input).filling = none ∧
    (∀ j ∈ List.range 63, (({ starvedRing with bays := (almostFull 1).bays.tail } : Input).bay j).kept ≠ 0) := by
  decide +kernel

/-- R94, R95: the oldest FILLED bay that no clip keeps is taken, and with every bay kept the input is STARVED. -/
theorem test_bay_fills :
    (let y := (after (.frameArrival 5 1 ⟨1920, 1080, true, .fps50, pic⟩) (withInput (almostFull 0))).blk.cap.input 1
     ((y.bay 0).state, (y.bay 0).kept, (y.bay 1).state, (y.bay 1).first)) = (.filled, 1, .filling, 8457) ∧
    (let t := after (.frameArrival 5 1 ⟨1920, 1080, true, .fps50, pic⟩) (withInput (almostFull 1))
     ((t.blk.cap.input 1).state, memHalf t.port.mem (4096 * 56), memWord t.port.mem (4096 * 56 + 4))) =
      (.starved, 6, 8457) := by decide +kernel

theorem test_conforming_frame_is_numbered :
    ((after (.frameArrival 5 1 ⟨1920, 1080, true, .fps50, pic⟩) (withInput fillingRing)).blk.cap.input 1).next
      = 8457 := by decide +kernel

theorem test_other_rate_is_a_mismatch :
    ((after (.frameArrival 5 1 ⟨1920, 1080, true, .fps60, pic⟩) (withInput fillingRing)).blk.cap.input 1).state
      = .mismatch := by decide +kernel

theorem witness_CaptureResumesInTheChosenBay :
    (withInput starvedRing).part.tb.synthLocked = true ∧
    ((withInput starvedRing).blk.cap.input 1).state = .starved ∧
    ((withInput starvedRing).blk.cap.input 1).filling = none ∧
    (∀ r, ((withInput starvedRing).blk.cap.input 1).silence = some r → 5 < r) ∧
    ((withInput starvedRing).blk.cap.input 1).chooseBay = some 5 ∧
    2 ≤ ((withInput starvedRing).blk.cap.input 1).baySize ∧
    ((withInput starvedRing).blk.cap.input 1).next < 4294967295 := by
  refine ⟨by decide, by decide, by decide, ?_, by decide, by decide, by decide⟩
  intro r h
  have : r = 1620000 := by injection h with h; exact h.symm
  subst this; decide

theorem test_capture_resumes :
    ((after (.captureResume 5 1 pic) (withInput starvedRing)).blk.cap.input 1).state = .capturing ∧
    ((after (.captureResume 5 1 pic) (withInput starvedRing)).blk.cap.input 1).starved = false := by
  decide +kernel

/-- A clip on input 1, kept from frame 8,300 on. -/
def clip (out : Option Nat) (state : ClipState) (keep : Nat) : Clip :=
  { state, input := 1, inPoint := 8300, outPoint := out, edge := none, keep, claims := [], slot := 9
    post := 311, clamped := false, cause := 0, ran := false }

/-- Input 1 with clip 2 beside it. -/
def withClip (x : Input) (c : Clip) (h : Head) : State :=
  State.blk' (fun b => { b with rep := { b.rep.setClip 2 (some c) with headA := h } }) (withInput x)

/-- A head that PLAYS clip 2. -/
def playing : Head := { Head.idle with state := .playing, clip := some 2, position := 8300 * 256, rate := 64 }

/-- The clauses of an arrival with no FILLING bay: one can be chosen, or none. -/
theorem witness_FrameArrivalWithoutAFillingBay :
    (withInput starvedRing).part.tb.synthLocked = true ∧ ((withInput starvedRing).blk.cap.input 1).state ≠ .off ∧
    ((withInput starvedRing).blk.cap.input 1).filling = none ∧
    ((withInput starvedRing).blk.cap.input 1).bayChosen = some 5 ∧ 2 ≤ starvedRing.baySize ∧
    starvedRing.next < 4294967295 ∧
    ({ starvedRing with bays := (almostFull 1).bays.tail, ages := List.range 63 } : Input).bayChosen = none := by
  decide +kernel

/-- R108: a frame in an OPEN clip's range is claimed once for its bay, and the clip's live edge rises to it. -/
theorem test_arrival_claims_the_bay :
    let t := after (.frameArrival 5 1 ⟨1920, 1080, true, .fps50, pic⟩) (withClip fillingRing (clip none .kept 900) .idle)
    ((t.blk.cap.input 1).bay 0).pending = 1 ∧
      (t.blk.rep.clip 2).map (fun c => (c.claims, c.edge)) = some ([0], some 8456) := by decide +kernel

theorem witness_LastNumbersEndInputsAndClips :
    ((withInput { fullRing with next := 4294967295 }).part.tb.synthLocked = true ∧
      ((withInput { fullRing with next := 4294967295 }).blk.cap.input 1).state ≠ .off ∧
      ((withInput { fullRing with next := 4294967295 }).blk.cap.input 1).next = 4294967295) ∧
    ((withClip { fullRing with next := 8899 } (clip none .kept 9) .idle).part.tb.synthLocked = true ∧
      (withClip { fullRing with next := 8899 } (clip none .kept 9) .idle).blk.rep.clip 2 =
        some (clip none .kept 9) ∧ (clip none .kept 9).outPoint = none ∧
      ((withClip { fullRing with next := 8899 } (clip none .kept 9) .idle).blk.cap.input 1).state ≠ .off ∧
      ((withClip { fullRing with next := 8899 } (clip none .kept 9) .idle).blk.cap.input 1).next =
        min (8300 + 599) 4294967295) := by decide +kernel

theorem test_numbers_exhausted :
    ((after (.numbersExhausted 5 1 pic) (withInput { fullRing with next := 4294967295 })).blk.cap.input 1).state
      = .off := by decide +kernel

theorem test_open_clip_closes_at_its_600th_frame :
    ((after (.openClipClose 5 2 pic)
      (withClip { fullRing with next := 8899 } (clip none .kept 9) .idle)).blk.rep.clip 2).bind (·.outPoint) =
      some 8899 := by decide +kernel

theorem witness_LossOfSignalSeeks : (withInput fullRing).part.tb.synthLocked = true ∧
    (withInput fullRing).part.tb.reference = true ∧
    ((withInput fullRing).blk.cap.input 1).state ≠ .off ∧
    ((withInput fullRing).blk.cap.input 1).silence ≠ none := by decide

theorem test_loss_of_signal :
    ((after (.lossOfSignal 1 .timer) (withInput fullRing)).blk.cap.input 1).state = .seeking ∧
    ((after (.lossOfSignal 1 (.receiver 3)) (withInput fullRing)).blk.cap.input 1).state = .seeking := by decide

theorem witness_SetInputAllocatesAndFrees : live.ready .replay ∧ live.blk.cap.inputs.length = 4 ∧
    (live.blk.cap.input 3).state = .off ∧ (live.blk.cap.input 3).next ≤ 4294967295 ∧
    64 * 40 ≤ live.blk.cap.freeSlots ∧ 64 * 4 ≤ live.blk.cap.freeSlots :=
  ⟨live_ready _, by decide⟩

theorem test_set_input_leaves_the_free_slots :
    memWord (after (.setInput 0 1 ⟨3, 1, 40⟩) live).port.mem (4096 * 3 + 24) = 2560 := by decide +kernel

theorem witness_SetInputOff : (withInput fullRing).ready .replay ∧ (withInput fullRing).blk.cap.inputs.length = 4 ∧
    ((withInput fullRing).blk.cap.input 1).state ≠ .off ∧ ((withInput fullRing).blk.cap.input 1).next ≤ 4294967295 ∧
    ((withInput (.offAt 4294967296)).blk.cap.input 1).state = .off ∧
    4294967295 < ((withInput (.offAt 4294967296)).blk.cap.input 1).next :=
  ⟨ready_of _ _ rfl rfl, by decide +kernel⟩

/-- Every free frame slot but 40 is allocated. -/
def fullStore : State := withInput { fullRing with baySize := 79 }

theorem witness_SetInputRefused : live.ready .replay ∧ fullStore.ready .replay ∧
    (fullStore.blk.cap.input 0).state = .off ∧ (fullStore.blk.cap.input 0).next ≤ 4294967295 ∧
    fullStore.blk.cap.freeSlots < 64 * 4 ∧ (fullStore.blk.cap.input 1).state ≠ .off ∧
    4294967295 < ((withInput (.offAt 4294967296)).blk.cap.input 1).next ∧
    (withInput (.offAt 4294967296)).ready .replay :=
  ⟨live_ready _, ready_of _ _ rfl rfl, by decide +kernel, by decide +kernel, by decide +kernel, by decide +kernel,
    by decide +kernel, ready_of _ _ rfl rfl⟩

/-- R90: input 4, action 2, B of 3, no room, the present B and another. -/
theorem test_set_input_refused :
    [((⟨4, 1, 4⟩ : InputCue), fullStore), (⟨0, 2, 4⟩, fullStore), (⟨0, 1, 3⟩, fullStore), (⟨0, 1, 4⟩, fullStore),
      (⟨1, 1, 4⟩, withInput fullRing), (⟨1, 1, 5⟩, withInput fullRing)].map (fun x =>
      let m := (after (.setInput 0 1 ⟨x.1.1, x.1.2, x.1.3⟩) x.2).port.mem
      (memWord m (4096 * 3 + 12), memWord m (4096 * 3 + 24))) =
      [(19, 0), (19, 1), (19, 2), (20, 64), (0, 3), (21, 4)] := by decide +kernel

theorem test_set_input_off :
    after (.setInput 0 1 ⟨1, 0, 0⟩) (withClip fullRing { clip (some 8310) .kept 9 with claims := [25] } .idle) =
      after (.setInput 0 1 ⟨1, 0, 0⟩) (withClip fullRing (clip (some 8310) .kept 9) .idle) := by decide +kernel

/-- The result of OFF with the numbers used up is drawn, not chosen (R91). -/
theorem test_set_input_off_when_exhausted :
    (after (.setInput 0 1 ⟨1, 0, 0⟩) (withInput (.offAt 4294967296))).port.unstated = 1 := by decide +kernel

theorem witness_MarkClipKeepsAClip :
    ((withInput fullRing).ready .replay ∧ ((withInput fullRing).blk.cap.input 1).earliest ≤ 8300 ∧
      ((withInput fullRing).blk.cap.input 1).next ≤ 4294967295 ∧
      0 < (withInput fullRing).blk.rep.clips.length ∧ (withInput fullRing).blk.rep.clip 0 = none) ∧
    ((withInput fullRing).blk.cap.input 1).next ≤
      max 8456 ((withInput fullRing).blk.cap.input 1).earliest + 599 :=
  ⟨⟨ready_of _ _ rfl rfl, by decide +kernel⟩, by decide +kernel⟩

/-- Every clip of the table is in use. -/
def fullTable : State :=
  State.blk' (fun b => { b with rep := { b.rep with clips := List.replicate 32 (some (clip (some 8310) .kept 9)) } })
    (withInput fullRing)

/-- R107, R108: the frames 8,300 to 8,305 lie in bays 25 and 26, and the live edge of an OPEN clip is the newest one. -/
theorem test_mark_clip_claims :
    (let t := after (.markClip 0 1 ⟨1, 0, 8300, 8305, 9⟩) (withInput fullRing)
     ([24, 25, 26, 27].map (fun k => ((t.blk.cap.input 1).bay k).kept), (t.blk.rep.clip 0).map (·.edge))) =
      ([0, 1, 1, 0], some none) ∧
    ((after (.markClip 0 1 ⟨1, 1, 8400, 0, 9⟩) (withInput fullRing)).blk.rep.clip 0).map (·.edge) = some (some 8455) := by
  decide +kernel

theorem witness_MarkClipRefused : fullTable.ready .replay ∧
    (∀ c, c < fullTable.blk.rep.clips.length → fullTable.blk.rep.clip c ≠ none) ∧
    (fullTable.blk.cap.input 1).earliest = 8200 ∧ (fullTable.blk.cap.input 1).next ≤ 4294967295 ∧
    4294967295 < ((withInput (.offAt 4294967296)).blk.cap.input 1).next ∧
    ((withInput (.offAt 4294967296)).blk.cap.input 1).oldestPresent = none :=
  ⟨ready_of _ _ rfl rfl, by decide +kernel⟩

/-- R106 and the example of 7.1: input 4, a range turned round, one wholly below X, and a full table. -/
theorem test_mark_clip_refused :
    [(⟨4, 0, 8300, 8310, 9⟩ : MarkCue), ⟨1, 0, 8311, 8310, 9⟩, ⟨1, 0, 8000, 8150, 9⟩, ⟨1, 0, 8300, 8310, 9⟩].map
      (fun q => let m := (after (.markClip 0 1 q) fullTable).port.mem
                (memWord m (4096 * 3 + 12), memWord m (4096 * 3 + 24))) =
      [(19, 0), (19, 1), (19, 2), (20, 0)] := by decide +kernel

/-- 7.1: MARK_CLIP of 8,100..8,300 where X is 8,200 keeps 8,200..8,300. -/
theorem test_mark_clip_of_7_1 :
    ((after (.markClip 9 311 ⟨1, 0, 8100, 8300, 0⟩) (withInput fullRing)).blk.rep.clip 0).map
      (fun c => (c.inPoint, c.outPoint, c.keep)) = some (8200, some 8300, 36000) ∧
    memWord (after (.markClip 9 311 ⟨1, 0, 8100, 8300, 0⟩) (withInput fullRing)).port.mem
      (4096 * 3 + 512 * 9 + 12) = 1 := by decide +kernel

theorem witness_ClipExpiryFreesOrLapses :
    ((withClip fullRing (clip (some 8310) .kept 1) .idle).ready .replay ∧
      (withClip fullRing (clip (some 8310) .kept 1) .idle).blk.rep.clip 2 =
        some (clip (some 8310) .kept 1) ∧
      (withClip fullRing (clip (some 8310) .kept 1) .idle).blk.rep.userHeads 2 = 0) ∧
    (withClip fullRing (clip (some 8310) .kept 1) playing).blk.rep.userHeads 2 ≠ 0 :=
  ⟨⟨ready_of _ _ rfl rfl, by decide⟩, by decide⟩

theorem test_clip_expiry :
    (after (.clipExpiry 2) (withClip fullRing (clip (some 8310) .kept 1) .idle)).blk.rep.clip 2 = none ∧
    ((after (.clipExpiry 2) (withClip fullRing (clip (some 8310) .kept 1) playing)).blk.rep.clip 2).map
      (·.state) = some .lapsing := by decide +kernel

theorem witness_KeepAndDropClip :
    (withClip fullRing (clip (some 8310) .kept 900) playing).ready .replay ∧
    (withClip fullRing (clip (some 8310) .kept 900) playing).blk.rep.clip 2 =
      some (clip (some 8310) .kept 900) ∧ (clip (some 8310) .kept 900).state ≠ .lapsing ∧
    (clip (some 8310) .kept 900).post = 311 ∧ 1 ≤ 2160000 :=
  ⟨ready_of _ _ rfl rfl, by decide⟩

/-- 7.6: DROP_CLIP of a clip that one head uses makes it LAPSING with result 1. -/
theorem test_drop_clip_of_7_6 :
    ((after (.dropClip 0 1 ⟨2, 311⟩) (withClip fullRing (clip (some 8310) .kept 900) playing)).blk.rep.clip
      2).map (fun c => (c.state, c.cause)) = some (.lapsing, 1) ∧
    memWord (after (.dropClip 0 1 ⟨2, 311⟩) (withClip fullRing (clip (some 8310) .kept 900) playing)).port.mem
      (4096 * 3 + 24) = 1 := by decide +kernel

/-- 7.6: KEEP_CLIP on a LAPSING clip is refused BAD_FIELD with result 4; 600 frames are added to a KEPT one. -/
theorem test_keep_clip :
    memWord (after (.keepClip 0 1 ⟨2, 0, 311, 600⟩)
      (withClip fullRing (clip (some 8310) .lapsing 900) playing)).port.mem (4096 * 3 + 24) = 4 ∧
    ((after (.keepClip 0 1 ⟨2, 0, 311, 600⟩)
      (withClip fullRing (clip (some 8310) .kept 900) playing)).blk.rep.clip 2).map (·.keep) = some 1500 := by
  decide +kernel

/-- The forms of a KEEP_CLIP and DROP_CLIP that move only the slot: a FREE clip, another post number, a LAPSING clip. -/
theorem witness_KeepAndDropOfNoEffect :
    (withClip fullRing (clip (some 8310) .lapsing 900) playing).ready .replay ∧
    (withClip fullRing (clip (some 8310) .lapsing 900) playing).blk.rep.clip 3 = none ∧
    (withClip fullRing (clip (some 8310) .lapsing 900) playing).blk.rep.clip 2 = some (clip (some 8310) .lapsing 900) ∧
    (clip (some 8310) .lapsing 900).post ≠ 312 ∧ (clip (some 8310) .lapsing 900).post = 311 :=
  ⟨ready_of _ _ rfl rfl, by decide⟩

/-- R111, R112: state, outcome and result of each. -/
theorem test_keep_and_drop_of_no_effect :
    [Instr.keepClip 0 1 ⟨32, 1, 311, 0⟩, .keepClip 0 1 ⟨2, 0, 311, 0⟩, .keepClip 0 1 ⟨2, 1, 312, 0⟩,
      .keepClip 0 1 ⟨2, 1, 311, 0⟩, .dropClip 0 1 ⟨32, 311⟩, .dropClip 0 1 ⟨3, 311⟩, .dropClip 0 1 ⟨2, 311⟩].map (fun c =>
      let m := (after c (withClip fullRing (clip (some 8310) .lapsing 900) playing)).port.mem
      (memWord m (4096 * 3), memWord m (4096 * 3 + 12), memWord m (4096 * 3 + 24))) =
      [(5, 19, 0), (5, 19, 0), (5, 19, 3), (5, 19, 4), (5, 19, 0), (4, 0, 3), (4, 0, 1)] := by decide +kernel

theorem witness_CueHeadCuesTheClip :
    (withClip fullRing (clip (some 8310) .kept 900) .idle).ready .replay ∧
    (withClip fullRing (clip (some 8310) .kept 900) .idle).blk.rep.clip 2 = some (clip (some 8310) .kept 900) ∧
    (clip (some 8310) .kept 900).inPoint ≤ 8310 ∧ 8310 ≤ 8310 ∧
    ((withClip fullRing (clip (some 8310) .kept 900) .idle).blk.rep.head 1).clip = none :=
  ⟨ready_of _ _ rfl rfl, by decide⟩

/-- Clips 2 (LAPSING, used by both heads) and 3 (KEPT). -/
def bothHeads : State :=
  State.blk' (fun b => { b with rep := { b.rep.setClip 3 (some (clip (some 8310) .kept 9)) with headB := playing } })
    (withClip fullRing (clip (some 8310) .lapsing 900) playing)

/-- A head re-cued from a KEPT clip, and one that leaves a LAPSING clip which the other head uses. -/
theorem witness_NothingIsFreed :
    (withClip fullRing (clip (some 8310) .kept 900) playing).ready .replay ∧ bothHeads.ready .replay ∧
    (withClip fullRing (clip (some 8310) .kept 900) playing).blk.rep.clip 2 = some (clip (some 8310) .kept 900) ∧
    ((withClip fullRing (clip (some 8310) .kept 900) playing).blk.rep.head 0).clip = some 2 ∧
    (bothHeads.blk.rep.head 0).clip = some 2 ∧ (bothHeads.blk.rep.head 1).uses 2 = true ∧
    bothHeads.blk.rep.clip 2 = some (clip (some 8310) .lapsing 900) ∧
    bothHeads.blk.rep.clip 3 = some (clip (some 8310) .kept 9) :=
  ⟨ready_of _ _ rfl rfl, ready_of _ _ rfl rfl, by decide⟩

/-- R113, R117, R119: neither a STOP_HEAD nor a CUE_HEAD away from it frees the LAPSING clip that the other head uses. -/
theorem test_a_used_clip_stays :
    [after (.stopHead 0 1 0) bothHeads, after (.cueHead 0 1 ⟨0, 3, 0, 0, 311, 0⟩) bothHeads].map (fun t =>
      (t.blk.rep.clip 2).map (·.state)) = [some .lapsing, some .lapsing] := by decide +kernel

theorem test_cue_head_at_the_out_point :
    ((after (.cueHead 0 1 ⟨1, 2, 1, 1, 311, 8310⟩)
      (withClip fullRing (clip (some 8310) .kept 900) .idle)).blk.rep.head 1).position = 8310 * 256 := by
  decide +kernel

theorem witness_CueHeadRefused :
    (withClip fullRing (clip (some 8310) .lapsing 900) playing).ready .replay ∧
    (withClip fullRing (clip (some 8310) .lapsing 900) playing).blk.rep.clip 2 =
      some (clip (some 8310) .lapsing 900) ∧
    (withClip fullRing (clip (some 8310) .lapsing 900) playing).blk.rep.clip 3 = none ∧
    8299 < (clip (some 8310) .kept 900).inPoint := ⟨ready_of _ _ rfl rfl, by decide⟩

/-- R117: head 2, a FREE clip, another post number, a LAPSING clip. -/
theorem test_cue_head_refused :
    [(⟨2, 2, 0, 0, 311, 0⟩ : CueHeadCue), ⟨1, 3, 0, 0, 311, 0⟩, ⟨1, 2, 0, 0, 312, 0⟩, ⟨1, 2, 0, 0, 311, 0⟩].map (fun q =>
      let m := (after (.cueHead 0 1 q) (withClip fullRing (clip (some 8310) .lapsing 900) playing)).port.mem
      (memWord m (4096 * 3 + 12), memWord m (4096 * 3 + 24))) = [(19, 0), (19, 3), (19, 3), (19, 4)] := by
  decide +kernel

theorem test_cue_head_past_the_out_point_is_refused :
    ((after (.cueHead 0 1 ⟨1, 2, 1, 1, 311, 8311⟩)
      (withClip fullRing (clip (some 8310) .kept 900) .idle)).blk.rep.head 1).state = .idle := by decide +kernel

theorem witness_HeadCardsPlayPauseAndStop :
    (withClip fullRing (clip (some 8310) .kept 900) playing).ready .replay ∧
    ((withClip fullRing (clip (some 8310) .kept 900) playing).blk.rep.head 0).state ≠ .idle ∧
    ((withClip fullRing (clip (some 8310) .kept 900) playing).blk.rep.head 1).clip = none :=
  ⟨ready_of _ _ rfl rfl, by decide⟩

theorem witness_HeadCardsRefused : live.ready .replay ∧ (live.blk.rep.head 0).state = .idle := ⟨live_ready _, by decide⟩

/-- R118, R119: a head of 2, a loop of 2, and an IDLE head. -/
theorem test_head_cards_refused :
    [Instr.play 0 1 ⟨2, 0, 9⟩, .play 0 1 ⟨0, 2, 9⟩, .play 0 1 ⟨0, 1, 9⟩, .setRate 0 1 ⟨2, 9⟩, .setRate 0 1 ⟨0, 9⟩,
      .pause 0 1 2, .pause 0 1 0, .stopHead 0 1 2].map (fun c =>
      let m := (after c live).port.mem
      (memWord m (4096 * 3 + 12), memWord m (4096 * 3 + 24))) =
      [(19, 0), (19, 0), (19, 1), (19, 0), (19, 1), (19, 0), (19, 1), (19, 0)] := by decide +kernel

theorem test_play_clamps_the_rate :
    ((after (.play 0 1 ⟨0, 1, 513⟩) (withClip fullRing (clip (some 8310) .kept 9) playing)).blk.rep.head 0).rate
      = 512 ∧
    ((after (.setRate 0 1 ⟨0, -513⟩) (withClip fullRing (clip (some 8310) .kept 9) playing)).blk.rep.head 0).rate
      = -512 := by decide +kernel

theorem test_pause_and_stop :
    ((after (.pause 0 1 0) (withClip fullRing (clip (some 8310) .kept 9) playing)).blk.rep.head 0).state =
      .paused ∧
    ((after (.stopHead 0 1 0) (withClip fullRing (clip (some 8310) .kept 9) playing)).blk.rep.head 0).state =
      .idle := by decide +kernel

/-- A head on clip 2 beside a ring that holds frames 8,300 to 8,310. -/
def onClip (out : Option Nat) (h : Head) : Blocks :=
  (withClip fullRing { clip out .kept 9 with edge := some 8310 } h).blk

theorem witness_HeadAdvanceAndOutput :
    (((onClip (some 8310) playing).rep.head 0).clip = some 2 ∧ (onClip (some 8310) playing).rep.clip 2 ≠ none ∧
      Memory.wf (onClip (some 8310) playing).port.mem = true ∧
      2 ≤ ((onClip (some 8310) playing).port.area 8).first) ∧
    (((onClip none { playing with state := .atLive }).rep.head 0).state = .atLive ∧
      ((onClip none playing).rep.clip 2).map (·.outPoint) = some none) ∧
    ((onClip none playing).cap.input 1).present 8300 = true ∧
    ((onClip none playing).cap.input 1).picture 8300 = some pic ∧
    ((onClip none playing).cap.input 1).present 8456 = false ∧
    ((onClip none playing).cap.input 1).damagedFrame 8456 = false := by decide +kernel

/-- R120, R121: one past the end ends the head, and past the live edge it is AT_LIVE. -/
theorem test_heads_meet_their_ends :
    (((onClip (some 8310) { playing with position := 8311 * 256 - 64 }).advanceHead 0).rep.head 0).state = .ended ∧
    (((onClip (some 8310) { playing with position := 8311 * 256 - 65 }).advanceHead 0).rep.head 0).state =
      .playing ∧
    (((onClip none { playing with position := 8310 * 256 - 63 }).advanceHead 0).rep.head 0).state = .atLive ∧
    (((onClip none { playing with position := 8310 * 256 - 64 }).advanceHead 0).rep.head 0).state = .playing := by
  decide +kernel

/-- R123 to R125: a blend, a missing frame and an uncorrectable read. -/
theorem test_head_output :
    (((onClip (some 8310) { playing with blend := true, position := 8300 * 256 + 64 }).outputHead [] 0).rep.head
      0).output = some (.blend pic pic 64) ∧
    memHalf ((onClip (some 8999) { playing with position := 8456 * 256 }).outputHead [] 0).port.mem (4096 * 56) =
      13 ∧
    (((onClip (some 8310) playing).outputHead [(1, 8300)] 0).cap.input 1).damagedFrame 8300 = true := by
  decide +kernel

theorem witness_UncorrectableReads :
    (onClip (some 8310) { playing with blend := true, position := 8300 * 256 + 64 }).rep.head 0 =
      { playing with blend := true, position := 8300 * 256 + 64 } ∧ 8300 < 8310 ∧
    ((onClip (some 8310) playing).cap.input 1).present 8301 = true ∧
    memWord (onClip (some 8310) playing).port.mem 4176 = 0 := by decide +kernel

/-- R124, R125: a frame that cannot be read for a blend is reported, and the frame is shown unblended. -/
theorem test_bad_blend :
    let t := (onClip (some 8310) { playing with blend := true, position := 8300 * 256 + 64 }).outputHead [(1, 8301)] 0
    (t.rep.head 0).output = some pic ∧ (t.cap.input 1).damagedFrame 8301 = true := by decide +kernel

/-- 7.5: the clip 1000..1003 at P = 256,896 and 256,128, its loop wraps. -/
theorem test_loops_of_7_5 :
    wrapPosition 1000 4 257024 = 256000 ∧ wrapPosition 1000 4 255744 = 256768 := by decide

/-! ## Clocks -/

/-- GAME is CONSOLE, DOWN, RUNNING with c = 20 and the horn on (8.10, the worked sequences). -/
def game (state : ClockState) (value : Nat) : State :=
  State.clk' (fun u => { u with heard := true, game := { u.game with comp := 20, state, value } }) live

theorem witness_ClockWordIsAdoptedByAConsoleClock :
    ((game .running 5).part.tb.synthLocked = true ∧ ((game .running 5).part.clk.clock .game).localSource = false ∧
      ((game .running 5).part.clk.clock .game).up = false ∧
      ((game .expired 0).part.clk.clock .game).state = .expired) ∧
    (nearEnds.part.clk.clock .aux).localSource = true := by decide

/-- 8.10: the words at 0, 1,300 and 9,000 ms. -/
theorem test_clock_words_of_8_10 :
    (after (.clockWord 0 .game true 1270#24) (game .running 1300)).part.clk.game.value = 1250 ∧
    (after (.clockWord 0 .game true 0#24) (game .expired 0)).part.clk.horn = 0 ∧
    (after (.clockWord 0 .game false 400#24) (game .expired 0)).part.clk.game.state = .stopped := by decide

/-- 8.10: a word of v' = 0 expires the clock at its arrival and requests the horn. -/
theorem test_clock_word_that_expires :
    (after (.clockWord 0 .game true 20#24) (game .running 50)).part.clk.game.state = .expired ∧
    (after (.clockWord 0 .game true 20#24) (game .running 50)).part.clk.horn = 1500 := by decide

theorem witness_HornAndPeriodWordsAct : live.part.tb.synthLocked = true := by decide

/-- 8.10: a HORN word of 2,000 while 750 remain extends the horn and latches nothing. -/
theorem test_horn_word_extends :
    (after (.hornWord 0 2000#16) (State.clk' (fun u => { u with horn := 750 }) live)).part.clk.horn = 2000 ∧
    (after (.hornWord 0 2000#16) (State.clk' (fun u => { u with horn := 750 }) live)).port.latches.horn = false := by
  decide

theorem test_period_word : (after (.periodWord 0 8) live).part.clk.score.period = 9 := by decide

/-- The console has sent the bytes of the word of 8.3 but its check. -/
def inWord : State := State.clk' (fun u => { u with word := some [126, 1, 5, 0, 1, 145, 130, 11] }) (game .running 9)

/-- The console has sent two bytes, the latter 4 ms before the next moment. -/
def inWord2 : State := State.clk' (fun u => { u with word := some [126, 1], gap := 108000 }) live

theorem witness_ConsoleBytesMakeWords : live.part.clk.word = none ∧
    (inWord2.part.tb.synthLocked = true ∧ inWord2.part.clk.word = some [126, 1] ∧
      inWord2.part.clk.gap + 0 ≤ 108000 ∧ (8 : Byte).toNat ≤ 8 ∧ 8 < (9 : Byte).toNat) ∧
    inWord2.part.tb.reference = true ∧ 108000 < inWord2.part.clk.gap + 1 := by decide

theorem test_length_above_8_discards :
    (after (.wordDiscard 0 9 true) inWord2).part.clk.word = none ∧
    (after (.consoleByte 0 8 true) inWord2).part.clk.word = some [126, 1, 8] := by decide

theorem test_gap_discards :
    (after .interByteGap inWord2).part.clk.discards = 1 ∧
    (after (.consoleByte 1 126 true) inWord2).part.clk.word = some [126] := by decide

theorem witness_TheCheckByteMakesTheClockWord : inWord.part.tb.synthLocked = true ∧
    inWord.part.clk.word = some [126, 1, 5, 0, 1, 145, 130, 11] ∧ inWord.part.clk.gap + 0 ≤ 108000 ∧
    (1 + 5 + 0 + 1 + 145 + 130 + 11 + 219) % 256 = 0 ∧ (1 + 5 + 0 + 1 + 145 + 130 + 11 + 218) % 256 ≠ 0 := by
  decide

/-- 8.3: the check 219 completes the word, and GAME adopts 754,301, shown as 12:35. -/
theorem test_word_of_8_3 :
    (after (.consoleByte 0 219 true) inWord).part.clk.game.value = 754301 ∧
    clockString (after (.consoleByte 0 219 true) inWord).part.clk.game = [49, 50, 58, 51, 53] := by
  decide +kernel

theorem witness_TheClockUnitsCountsRunOut :
    ((State.clk' (fun u => { u with silence := 499 }) (game .running 753801)).part.clk.heard = true ∧
      499 ≤ (State.clk' (fun u => { u with silence := 499 }) (game .running 753801)).part.clk.silence) ∧
    (nearEnds.part.clk.clock .game).up = false ∧ (nearEnds.part.clk.clock .game).value ≤ 1 ∧
    (nearEnds.part.clk.clock .game).state = .running ∧ (nearEnds.part.clk.clock .aux).up = true ∧
    11999999 ≤ (nearEnds.part.clk.clock .aux).value + 1 ∧ (nearEnds.part.clk.clock .aux).state = .running ∧
    (State.clk' (fun u => { u with horn := 1, score := { u.score with homeFlash := 1, guestFlash := 1 } })
      live).part.clk.horn = 1 := by decide

/-- 8.10: at 500 ms of silence GAME is in HOLDOVER with its value kept. -/
theorem test_silence_of_8_10 :
    (after .consoleSilenceExpiry (State.clk' (fun u => { u with silence := 499 })
      (game .running 753801))).part.clk.game.state = .holdover ∧
    (after .consoleSilenceExpiry (State.clk' (fun u => { u with silence := 499 })
      (game .running 753801))).part.clk.game.value = 753801 := by decide

theorem test_clock_expiry : (after (.clockExpiry .game) (game .running 1)).part.clk.horn = 1500 := by decide

theorem test_clock_limit : (after (.clockLimitReached .aux) nearEnds).part.clk.aux.state = .stopped := by decide

theorem test_horn_release :
    (after .hornRelease (State.clk' (fun u => { u with horn := 1 }) live)).part.clk.horn = 0 := by decide

theorem test_flash_end : (after (.flashEnd .guest) (State.clk' (fun u =>
    { u with score := { u.score with guestFlash := 1 } }) live)).part.clk.score.guestFlash = 0 := by decide

/-- The worked values of 8.6, for T = 60,000 and 10,000. -/
theorem test_displays_of_8_6 :
    [5999999, 61001, 59950, 59900, 9999, 1, 0].map
      (fun v => clockString { Clock.init true with state := .stopped, value := v }) =
      [[49, 48, 48, 58, 48, 48], [49, 58, 48, 50], [49, 58, 48, 48], [53, 57, 46, 57], [49, 48, 46, 48],
       [48, 46, 49], [48, 46, 48]] ∧
    clockString { Clock.init true with state := .stopped, up := true, value := 11999999 } =
      [49, 57, 57, 58, 53, 57] ∧
    clockString { Clock.init true with state := .stopped, tenths := 10000, value := 9999 } =
      [48, 58, 49, 48] := by decide +kernel

theorem witness_ClockSetupSetsTheClock : live.ready .clock ∧ 1000 ≤ 1000 ∧ 600000 ≤ 600000 ∧ 500 ≤ 500 ∧
    3000 ≤ 3000 ∧ 50 ≤ 50 ∧ (live.part.clk.clock .game).localSource = false ∧
    (nearEnds.part.clk.clock .aux).localSource = true ∧ nearEnds.ready .clock :=
  ⟨live_ready _, by decide, by decide, by decide, by decide, by decide, by decide, by decide,
    ready_of _ _ rfl rfl⟩

theorem test_clock_setup_to_local_keeps_running :
    (after (.clockSetup 0 1 ⟨0, 1, 0, 1, 1000, 500, 50⟩) (game .holdover 9)).part.clk.game.state = .running ∧
    (after (.clockSetup 0 1 ⟨1, 1, 0, 0, 600000, 3000, 0⟩) nearEnds).part.clk.aux.value = 5999999 := by decide

/-- R138: the byte offset of each field outside its encoding, and of the first of two. -/
theorem test_clock_setup_refused :
    [(⟨2, 2, 0, 1, 1000, 500, 50⟩ : ClockSetupCue), ⟨0, 2, 2, 1, 1000, 500, 50⟩, ⟨0, 1, 2, 1, 1000, 500, 50⟩,
      ⟨0, 1, 0, 2, 1000, 500, 50⟩, ⟨0, 1, 0, 1, 999, 499, 50⟩, ⟨0, 1, 0, 1, 1000, 3001, 51⟩].map (fun q =>
      memWord (after (.clockSetup 0 1 q) live).port.mem (4096 * 12 + 24)) = [0, 1, 2, 3, 4, 8] := by decide +kernel

theorem test_clock_setup_bad_comp :
    memWord (after (.clockSetup 0 1 ⟨0, 1, 0, 1, 1000, 500, 51⟩) live).port.mem (4096 * 12 + 24) = 10 := by
  decide +kernel

theorem witness_ClockSetTakesTheValue : nearEnds.ready .clock ∧
    (nearEnds.part.clk.clock .game).localSource = true ∧ (live.part.clk.clock .aux).localSource = false ∧
    live.ready .clock := ⟨ready_of _ _ rfl rfl, by decide, by decide, live_ready _⟩

/-- R139: a running DOWN clock set to 0 is STOPPED, with no horn. -/
theorem test_clock_set_to_zero :
    (after (.clockSet 0 1 ⟨0, 0⟩) nearEnds).part.clk.game.state = .stopped ∧
    (after (.clockSet 0 1 ⟨0, 0⟩) nearEnds).part.clk.horn = 0 := by decide

/-- R139: a clock that stays RUNNING counts on from the value taken. -/
theorem test_clock_set_counts_on :
    (after (.clockSet 0 1 ⟨0, 100⟩) nearEnds).part.clk.game.state = .running ∧
    (after (.msTick false) (after (.clockSet 0 1 ⟨0, 100⟩) nearEnds)).part.clk.game.value = 99 := by decide +kernel

theorem test_clock_set_clamps :
    memWord (after (.clockSet 0 1 ⟨0, 6000000⟩) nearEnds).port.mem (4096 * 12 + 24) = 5999999 := by
  decide +kernel

theorem witness_ClockRunAndStopMoveTheClock : nearEnds.ready .clock ∧
    (nearEnds.part.clk.clock .game).localSource = true ∧ (nearEnds.part.clk.clock .game).state ≠ .noTime ∧
    (live.part.clk.clock .aux).localSource = false ∧ live.ready .clock :=
  ⟨ready_of _ _ rfl rfl, by decide, by decide, by decide, live_ready _⟩

theorem test_clock_stop_and_run :
    (after (.clockStop 0 1 0) nearEnds).part.clk.game.state = .stopped ∧
    (after (.clockRun 0 2 0) (after (.clockStop 0 1 0) nearEnds)).part.clk.game.state = .running := by decide

theorem test_clock_run_on_a_console_clock :
    memWord (after (.clockRun 0 1 0) (game .running 5)).port.mem (4096 * 12 + 12) = 22 := by decide +kernel

theorem witness_ScoreCardSetsTheRecord : live.ready .clock ∧ 2 < 3 ∧ 2 ≤ 2 := ⟨live_ready _, by decide⟩

theorem test_score_clamps :
    (after (.score 0 1 ⟨1000, 0, 0, 2, 0, 0, 0, 100⟩) live).part.clk.score =
      ⟨999, 0, 1, 2, 0, 0, 0, 99, 30, 0⟩ ∧
    memWord (after (.score 0 1 ⟨1000, 0, 0, 2, 0, 0, 0, 100⟩) live).port.mem (4096 * 12 + 24) = 3 := by
  decide +kernel

/-! ## Messages -/

/-- A held card of a class, post number and mask, its text 900 wide. -/
def card (slot : Nat) (cls : MsgClass) (post : Word) (mask : Nat) : MsgCard :=
  { slot, post, cls, holdMode := false, speed := 64, holdFrames := 30, repeats := 1, remaining := 1
    completed := 0, expiry := 0, mask, linked := 3, linkIntact := true, text := [65], width := 900
    clamped := false, onAir := false, started := false }

/-- A pass of one lane in its last frame. -/
def pass (slot lane : Nat) : Pass :=
  { slot, number := 1, parts := [⟨lane, false, 1200, 525⟩], index := 524, start := 0, onAir := 525
    credited := 0, credits := 0 }

/-- A part whose lanes 0 and 2 are shown, 1,200 wide, with a queue and passes. -/
def lanes (queue : List MsgCard) (passes : List Pass) : State :=
  State.blk' (fun b => { b with lanes :=
    { queue, passes, shown := [some 1200, none, some 1200, none], urgent := none } }) live

/-- A MESSAGE cue of class FAN with two codes. -/
def fanCue : MessageCue := ⟨2, 0, 15, 0, 8, 8, 0, 0, 2, [65, 66]⟩

theorem witness_MessageJoinsTheQueue :
    (lanes [card 0 .urgent 1 0, card 1 .sponsored 2 1] []).ready .message ∧
    (lanes [card 0 .urgent 1 0, card 1 .sponsored 2 1] []).port.stringWidth (fanCue.text.take fanCue.length) ≤
      32767 ∧
    (lanes [card 0 .urgent 1 0, card 1 .sponsored 2 1] []).blk.lanes.queue.length < 48 ∧
    (lanes [card 0 .urgent 1 0, card 1 .sponsored 2 1] []).blk.lanes.queue.Pairwise
      (fun a b => a.cls.rank ≤ b.cls.rank) :=
  ⟨ready_of _ _ rfl rfl, by decide +kernel, by decide +kernel, by decide +kernel⟩

theorem test_message_joins_by_class :
    (after (.message 5 9 { fanCue with cls := 1, mask := 1 }) (State.blk' (fun b =>
      b.onRot (·.setEntry 0 (some entryA))) (lanes [card 0 .urgent 1 0, card 1 .fan 2 1] []))).blk.lanes.queue.map
      (·.slot) = [0, 5, 1] := by decide +kernel

/-- A queue of 48 cards, the last of them FAN and WAITING. -/
def fullQueue : List MsgCard := ((List.range 47).map fun i => card (i + 6) .sponsored 2 1) ++ [card 60 .fan 3 1]

theorem witness_MessageMeetsAFullQueue : (lanes fullQueue []).ready .message ∧
    48 ≤ (lanes fullQueue []).blk.lanes.queue.length ∧
    (lanes fullQueue []).blk.lanes.queue.Pairwise (fun a b => a.cls.rank ≤ b.cls.rank) ∧
    ((lanes fullQueue []).blk.lanes.queue.filter fun d => !d.onAir).getLast? = some (card 60 .fan 3 1) ∧
    (0 : Nat) < MsgClass.fan.rank ∧ MsgClass.fan.rank ≤ fanCue.cls ∧ (card 60 .fan 3 1).slot ≠ 5 :=
  ⟨ready_of _ _ rfl rfl, by decide +kernel⟩

/-- R154: an URGENT card evicts the FAN card, and a FAN card is refused QUEUE_FULL. -/
theorem test_full_queue :
    memWord (after (.message 5 9 { fanCue with cls := 0 }) (lanes fullQueue [])).port.mem
      (4096 * 14 + 512 * 60 + 12) = 3 ∧
    memWord (after (.message 5 9 fanCue) (lanes fullQueue [])).port.mem (4096 * 14 + 512 * 5 + 12) = 23 := by
  decide +kernel

theorem test_message_on_no_lane_is_refused :
    memWord (after (.message 5 9 { fanCue with mask := 16 }) live).port.mem (4096 * 14 + 512 * 5 + 24) = 7 := by
  decide +kernel

theorem witness_MessageRefused : live.ready .message ∧ live.blk.rot.entry 0 = none ∧
    live.port.stringWidth (fanCue.text.take fanCue.length) ≤ 32767 ∧
    (live.port.showTick - 4294967295).toNat < 2147483648 := ⟨live_ready _, by decide +kernel⟩

/-- A MESSAGE card whose text is wider than 32,767 in a font whose blank advance is 1,023. -/
theorem witness_MessageTooWide :
    let s := State.port' (fun p => { p with mem := memWriteWord [] (4096 * 70 + 4) 0x03FF0000 }) live
    s.ready .message ∧ 32767 < s.port.stringWidth ((List.replicate 33 65).take 33) := by
  refine ⟨⟨?_, ?_, ?_⟩, ?_⟩ <;> decide +kernel

/-- R152: the first failing field, an entry that is UNSET, and an expiry that has come. -/
theorem test_message_refused :
    [{ fanCue with cls := 3, mode := 2 }, { fanCue with mode := 1, hold := 29 }, { fanCue with length := 121 },
      { fanCue with cls := 1, linked := 5 }, { fanCue with expiry := 4294967295 }].map (fun q =>
      let m := (after (.message 5 9 q) live).port.mem
      (memWord m (4096 * 14 + 512 * 5), memWord m (4096 * 14 + 512 * 5 + 12),
        memWord m (4096 * 14 + 512 * 5 + 24))) =
      [(5, 19, 0), (5, 19, 4), (5, 19, 14), (5, 24, 5), (4, 2, 0)] := by decide +kernel

/-- 9.4: SPONSORED post 40 names lanes 0 and 2, FAN post 38 names lane 0. -/
def example94 : State := lanes [card 1 .sponsored 40 5, card 2 .fan 38 1] []

theorem witness_FreeLaneTakesTheFirstCard : example94.ready .message ∧ example94.blk.lanes.urgent = none ∧
    (∀ p ∈ example94.blk.lanes.passes, ∀ x ∈ p.parts, x.lane ≠ 0) ∧
    example94.blk.lanes.laneWidth 0 = some 1200 ∧
    example94.blk.lanes.queue = [] ++ card 1 .sponsored 40 5 :: [card 2 .fan 38 1] ∧
    (card 1 .sponsored 40 5).mask.testBit 0 = true :=
  ⟨ready_of _ _ rfl rfl, by decide⟩

/-- 9.4: lane 0 takes post 40 for 525 frames (9.5, v = 64), and lane 2 then finds no card. -/
theorem test_lanes_of_9_4 :
    (after (.laneAssignment 0) example94).blk.lanes.passes.map (fun p => (p.slot, p.length)) = [(1, 525)] ∧
    (after (.laneAssignment 2) (after (.laneAssignment 0) example94)).blk.lanes.passes.length = 1 := by
  decide +kernel

theorem test_crawl_lengths_of_9_5 :
    [64, 90, 16].map (crawlLength 900 1200) = [525, 374, 2100] := by decide

/-- A FAN card on air on lane 0 in its last frame, with a WAITING card whose expiry is at tick 0 minus 1. -/
def ending (remaining : Nat) : State :=
  lanes [{ card 1 .fan 38 1 with onAir := true, started := true, remaining }] [pass 1 0]

/-- A WAITING card whose expiry tick has come at show tick 0. -/
def stale : MsgCard := { card 4 .fan 39 1 with expiry := 4294967295 }

theorem witness_PassesCompleteAndCardsExpire :
    ((ending 1).ready .message ∧ (ending 1).blk.lanes.urgent = none ∧
      (∀ d ∈ (ending 1).blk.lanes.queue, d.cls ≠ .urgent) ∧
      (ending 1).blk.lanes.passOn 0 = some (pass 1 0) ∧ (pass 1 0).length ≤ (pass 1 0).index + 1 ∧
      ((ending 1).blk.lanes.card 1).map (·.remaining) = some 1 ∧
      ((ending 2).blk.lanes.card 1).map (·.remaining) = some 2) ∧
    (lanes [stale] []).blk.lanes.card stale.slot = some stale ∧ stale.expiry ≠ 0 ∧
    ((lanes [stale] []).port.showTick - stale.expiry).toNat < 2147483648 :=
  ⟨⟨ready_of _ _ rfl rfl, by decide +kernel⟩, by decide +kernel⟩

theorem test_pass_complete :
    (after (.passComplete 0) (ending 1)).blk.lanes.queue = [] ∧
    (after (.passComplete 0) (ending 2)).blk.lanes.queue.map (·.onAir) = [false] := by decide +kernel

theorem test_message_expiry :
    memWord (after (.messageExpiry 4) (lanes [stale] [])).port.mem (4096 * 14 + 512 * 4 + 12) = 2 := by
  decide +kernel

/-- A SPONSORED card on air on lane 0 in its last frame. -/
def sponsored : State :=
  lanes [{ card 1 .sponsored 38 1 with onAir := true, started := true }] [pass 1 0]

/-- The last URGENT card held, of a class and expiry, since show tick 0 minus 300. -/
def lastUrgent (onAir : Bool) (expiry : Word) : State :=
  State.blk' (fun b => { b with lanes := { b.lanes with urgent := some 4294966996 } })
    (lanes [{ card 1 .urgent 38 1 with onAir, started := true, expiry }] (if onAir then [pass 1 0] else []))

theorem witness_SponsoredPassEnds : sponsored.ready .message ∧ sponsored.blk.lanes.urgent = none ∧
    sponsored.blk.lanes.passOn 0 = some (pass 1 0) ∧ (pass 1 0).parts = [⟨0, false, 1200, 525⟩] ∧
    sponsored.blk.lanes.card 1 = some { card 1 .sponsored 38 1 with onAir := true, started := true } ∧
    (∀ d ∈ sponsored.blk.lanes.queue, d.cls ≠ .urgent) ∧ 2 ≤ (sponsored.port.area 7).first :=
  ⟨ready_of _ _ rfl rfl, by decide +kernel⟩

theorem witness_LastUrgentCardGoes :
    ((lastUrgent true 0).ready .message ∧ (lastUrgent true 0).blk.lanes.urgent = some 4294966996 ∧
      (lastUrgent true 0).blk.lanes.passOn 0 = some (pass 1 0) ∧
      (∀ d ∈ (lastUrgent true 0).blk.lanes.queue, d.slot ≠ 1 → d.cls ≠ .urgent) ∧
      2 ≤ ((lastUrgent true 0).port.area 8).first) ∧
    ((lastUrgent false 4294967295).ready .message ∧
      (lastUrgent false 4294967295).blk.lanes.queue.map (·.onAir) = [false] ∧
      ((lastUrgent false 4294967295).port.showTick - 4294967295).toNat < 2147483648) :=
  ⟨⟨ready_of _ _ rfl rfl, by decide +kernel⟩, ready_of _ _ rfl rfl, by decide +kernel⟩

/-- R166: kind 2, end code 0, lane 0, pass 1 and entry 3 of the record. -/
theorem test_message_airing_record :
    memWord (after (.passComplete 0) sponsored).port.mem (4096 * 24) = 0x01000002 ∧
    memWord (after (.passComplete 0) sponsored).port.mem (4096 * 24 + 4) = 0x00010003 := by decide +kernel

/-- R164: URGENT_OFF with subject 0 and the 300 frames of the takeover. -/
theorem test_urgent_off :
    [(after (.passComplete 0) (lastUrgent true 0)), after (.messageExpiry 1) (lastUrgent false 4294967295)].map
      (fun t => (t.blk.lanes.urgent, memWord t.port.mem (4096 * 56), memWord t.port.mem (4096 * 56 + 4))) =
      [(none, 21, 300), (none, 21, 300)] := by decide +kernel

/-- R163: an adoption that ceases to show the longer lane of an URGENT pass takes it out of the pass, which then ends with
the frames of the other lane drawn. -/
theorem test_lost_lane_leaves_the_pass :
    let zone : ZoneRec := ⟨6, 0, 8, 5, 0, 1860, 1200, 40, 0, 0, 0, 1, 0, 0⟩
    let s := State.blk' (fun b => { b with
      comp := { b.comp with staged := some ⟨[zoneOfRec zone], 2, 71⟩ }
      lanes := { b.lanes with passes :=
        [{ pass 1 0 with parts := [⟨0, false, 1200, 525⟩, ⟨2, false, 3840, 900⟩] }] } }) (lastUrgent true 0)
    (after .adoption s).blk.lanes.passes.map (fun p => p.parts.map (·.lane)) = [[0]] ∧
    (after (.passComplete 0) (after .adoption s)).blk.lanes.queue = [] := by decide +kernel

/-- An URGENT card waits while a FAN card is on air on lane 0. -/
def takeover : State :=
  lanes [card 3 .urgent 50 0, { card 1 .fan 38 1 with onAir := true, started := true }] [pass 1 0]

theorem witness_UrgentCardTakesEveryLane : takeover.part.live = true ∧
    takeover.blk.lanes.queue = [] ++ card 3 .urgent 50 0 ::
      [{ card 1 .fan 38 1 with onAir := true, started := true }] ∧
    (∀ d ∈ takeover.blk.lanes.queue, d.cls = .urgent → d.onAir = false) ∧
    (takeover.blk.lanes.laneWidth 0).isSome = true ∧
    (∀ p ∈ takeover.blk.lanes.passes, p.slot ≠ 3 ∧ ∃ d ∈ takeover.blk.lanes.queue, d.slot = p.slot) := by
  decide +kernel

theorem witness_UrgentYieldBegins : takeover.blk.lanes.urgent = none := by decide

/-- R28: a PLACEMENT zone that yields is yielded at the takeover, its fade in ended SHOWN. -/
theorem test_urgent_yield :
    ((after .urgentTakeover (State.blk' (fun b => { b with comp := { b.comp with
      active := some ⟨[{ zone2 with vis := .fadingIn 1 4 }, zone6], 7, 90⟩ } }) takeover)).blk.comp.zones.map
      fun z => (z.vis, z.yielded)) = [(.shown, true), (.shown, false)] := by decide +kernel

theorem test_urgent_takeover :
    (after .urgentTakeover takeover).blk.lanes.passes.map (fun p => p.parts.map (·.lane)) = [[0, 2]] ∧
    (after .urgentTakeover takeover).blk.lanes.urgent = some 0 := by decide +kernel

/-! ## Changes of the Port, one after another -/

/-- The small layout lies clear of the first two pages. -/
theorem live_laid : live.port.laid := ⟨rfl, by decide⟩

/-- So it does in a state whose Port is the same. -/
theorem laid_of (s : State) (h : s.port = live.port) : s.port.laid := h ▸ live_laid

/-- The first notices of the area: kind, subject and value. -/
def notices (s : State) (n : Nat) : List (Nat × Nat × Word) :=
  (List.range n).map fun k =>
    let a := 4096 * 56 + 16 * k
    (memHalf s.port.mem a, memHalf s.port.mem (a + 2), memWord s.port.mem (a + 4))

/-- The first records of the log: kind with end code and place, then entry. -/
def records (s : State) (n : Nat) : List (Word × Nat) :=
  (List.range n).map fun k => (memWord s.port.mem (4096 * 24 + 32 * k), memHalf s.port.mem (4096 * 24 + 32 * k + 4))

/-- A show about to stop, with an airing, a load, a clip, a SPONSORED pass and a staged plan. -/
def stopping : State :=
  State.blk' (fun b => { b with
    comp := staging.blk.comp, rot := { rotator with queue := [⟨4, 511, 16, 16, ⟨63, 1⟩, 1, pic, 9⟩] }
    rep := (withClip fullRing (clip none .kept 9) .idle).blk.rep, lanes := sponsored.blk.lanes })
    (after (.run false) live)

theorem witness_ShowStopFinishesEveryCard : stopping.part.tb.synthLocked = true ∧
    stopping.port.runState = .running ∧ stopping.port.runRequest = false ∧ stopping.port.laid ∧
    (stopping.blk.lanes.queue.map (·.slot)).Nodup ∧ stopping.part.tb.syncTimer = none :=
  ⟨by decide, by decide, by decide, ⟨rfl, by decide⟩, by decide, by decide⟩

/-- R76, R166: end codes 5 and 3; R33, R85, R126, R167: DONE STOPPED, with the clip number of a clip. -/
theorem test_show_stop_finishes_every_card :
    let t := after (.frameMark calm) stopping
    records t 2 = [(0x02030501, 21), (0x01000302, 3)] ∧
    [8192 + 512 * 2, 4096 * 3 + 512 * 9, 4096 * 8 + 512 * 4, 4096 * 14 + 512].map (fun a =>
      (memWord t.port.mem a, memWord t.port.mem (a + 12), memWord t.port.mem (a + 24))) =
      [(4, 4, 0), (4, 4, 2), (4, 4, 0), (4, 4, 0)] := by decide +kernel

theorem witness_SectionNotices : failing.port.laid ∧ live.port.laid ∧
    failing.part.sec.stateOf 39 = .live ∧ (39 : Nat) < 80 := ⟨laid_of _ rfl, live_laid, by decide +kernel, by decide⟩

/-- R44: the section that its segment 23 leaves dead, one forced OUT and IN again, and the last section at entry. -/
theorem test_section_notices :
    notices (after (.segmentHealthChange 39) failing) 1 = [(2, 39, 23)] ∧
    notices (after (.setSection 0 72 ⟨1, 23, 0, 0⟩) (after (.setSection 0 71 ⟨1, 23, 1, 0⟩) live)) 2 =
      [(2, 39, 23), (3, 39, 23)] ∧
    notices (State.port' (fun p => (settleSections true
      ({ live.part.sec with forced := tset false live.part.sec.forced 79 true }, p)).2) live) 1 = [(2, 79, 63)] := by
  decide +kernel

/-- Zone 2 of group 1 goes on from the active plan; zone 7 is STILL on an EMPTY image slot; zone 5 has left the plan; and
lane 0, on which a SPONSORED pass is in its frame 100, is shown no more. -/
def adopting : State :=
  State.blk' (fun b => { b with
    comp := { b.comp with active := some ⟨[zone2, shown 5 .placement 3 4 ⟨0, 0, 100, 100⟩, zone6], 1, 70⟩
                          staged := some ⟨[zone2.zone, (shown 7 .still 9 5 ⟨0, 0, 64, 64⟩).zone], 2, 71⟩ }
    rot := { rotator with airings := [⟨5, 21, 3, true, 600, 5, 9, 9, 9, 1⟩, ⟨2, 20, 1, true, 600, 5, 9, 9, 9, 1⟩] }
    lanes := { sponsored.blk.lanes with passes := [{ pass 1 0 with index := 100 }] } }) live

/-- A plan is staged while a zone of the active plan is in a transition. -/
def waitingPlan (v : Visibility) : State :=
  State.blk' (fun b => { b with comp := { b.comp with active := some ⟨[fader v], 1, 70⟩ } }) staging

theorem witness_AdoptionOverAnActivePlan :
    (adopting.part.live = true ∧ adopting.blk.comp.staged.isSome = true ∧ adopting.port.laid ∧
      ∀ z ∈ adopting.blk.comp.zones, z.vis.fading = false) ∧
    ∀ v ∈ [Visibility.fadingIn 3 4, .fadingOut 2 4], (waitingPlan v).part.live = true ∧
      (waitingPlan v).blk.comp.staged = some ⟨[zoneOfRec zone4], 2, 71⟩ ∧ fader v ∈ (waitingPlan v).blk.comp.zones :=
  ⟨⟨by decide, by decide, laid_of _ rfl, by decide⟩, by decide⟩

/-- Cards and passes of the plan above have slots of their own, and each pass has its card. -/
theorem witness_AdoptionKeepsTheCards : (adopting.blk.lanes.queue.map (·.slot)).Nodup ∧
    (adopting.blk.lanes.passes.map (·.slot)).Nodup ∧
    ∀ x ∈ adopting.blk.lanes.passes, ∃ c ∈ adopting.blk.lanes.queue, c.slot = x.slot := by decide +kernel

/-- R155: the pass left without a lane goes, and its card is WAITING with its repeats unchanged. -/
theorem test_lost_card_waits :
    (after .adoption adopting).blk.lanes.passes = [] ∧
    (after .adoption adopting).blk.lanes.queue.map (fun c => (c.onAir, c.remaining)) =
      adopting.blk.lanes.queue.map (fun c => (false, c.remaining)) := by decide +kernel

/-- R20 to R22, R77, R155: the zones, the airings left, the records PLAN_CHANGE and LANE_LOST, the slot with one zone
counted, and the notice. -/
theorem test_adoption_over_an_active_plan :
    let t := after .adoption adopting
    t.blk.comp.zones.map (fun z => (z.zone.id, z.vis)) = [(2, .shown), (7, .hidden)] ∧
    t.blk.rot.airings.map (·.zone) = [2] ∧ records t 2 = [(0x03050201, 21), (0x01000202, 3)] ∧
    (memWord t.port.mem (8192 + 1024), memWord t.port.mem (8192 + 1036), memWord t.port.mem (8192 + 1048)) =
      (4, 1, 1) ∧
    notices t 1 = [(1, 2, 71)] := by decide +kernel

/-- R19: one step before its last a fade holds the plan back, and at its last no more. -/
theorem test_adoption_waits :
    [Visibility.fadingIn 3 4, .fadingOut 2 4, .fadingIn 4 4, .fadingOut 1 4].map (fun v =>
      (after .adoption (waitingPlan v)).blk.comp.staged.isSome) = [true, true, false, false] := by decide +kernel

theorem witness_MeterTable : rotating.port.laid ∧ crediting.port.laid := ⟨laid_of _ rfl, laid_of _ rfl⟩

/-- 5.3: the bytes of entry 127 after its SET_ENTRY, and of entry 21 after its DROP_ENTRY. -/
theorem test_meter_entry :
    (List.range 7).map (fun k => memWord (after (.setEntry 0 1 ⟨127, 511, 60, 1073741824, 31, 1, 0⟩) rotating).port.mem
      (4096 * 22 + 32 * 127 + 4 * k)) = [2, 0x01FF1F01, 0xC0000000, 0x40000000, 0, 0, 60] ∧
    (List.range 2).map (fun k => memWord (after (.dropEntry 0 1 21) rotating).port.mem
      (4096 * 22 + 32 * 21 + 4 * k)) = [2, 0] := by decide +kernel

/-- The credited entry stands at a meter. -/
def creditingAt (meter : Int) : State :=
  State.blk' (fun b => b.onRot (·.setEntry 21 (some { entryB with meter }))) crediting

/-- R78: a weight of 149 brings −149 to 0, which crosses, and −150 to −1, which does not. -/
theorem test_quota_met :
    notices (State.blk' Blocks.credit (creditingAt (-149))) 1 = [(4, 21, 0)] ∧
    notices (State.blk' Blocks.credit (creditingAt (-150))) 1 = [(0, 0, 0)] ∧
    memWord (State.blk' Blocks.credit (creditingAt (-150))).port.mem (4096 * 22 + 32 * 21 + 8) = 0xFFFFFFFF := by
  decide +kernel

/-- Zones 2 of MAIN and 8 of RIBBON select from group 1, of entries 20 and 21 with cursor 0 and nothing on air. -/
def selecting : Blocks :=
  { (withZones [shown 8 .placement 1 9 ⟨0, 0, 64, 64⟩ |> fun z => { z with zone := { z.zone with canvas := .ribbon } },
      zone2]).blk with rot := { (rotator.setGroup 1 (some ⟨[20, 21], false, some 0⟩)) with airings := [] } }

theorem witness_SelectionTakesTheLargestNeed :
    selecting.rot.group 1 = some ⟨[20, 21], false, some 0⟩ ∧
    (selecting.rot.eligible [] 21 = true ∧ (selecting.rot.slot entryB.image).isReady = true) ∧
    selecting.rot.choose [] ⟨[20, 21], false, some 0⟩ = some 1 ∧ selecting.port.laid ∧
    selecting.rot.group 2 = none ∧ (∀ z ∈ selecting.comp.zones, z.zone.rank ≤ 15) :=
  ⟨by decide, by decide +kernel, by decide +kernel, ⟨rfl, by decide⟩, by decide, by decide⟩

/-- R71 to R73: MAIN selects first and takes the larger need; RIBBON, its category out, takes the other; among equal needs
the one behind the cursor is taken first. -/
theorem test_selection_pass :
    selecting.selectionPass.rot.airings.map (fun a => (a.zone, a.entry, a.dwell, a.number)) =
      [(2, 21, 600, 1), (8, 20, 600, 1)] ∧
    [none, some 0, some 1, some 2].map (fun c =>
      (rotator.setEntry 22 (some entryB)).choose [4] ⟨[21, 22, 20], false, c⟩) = [some 0, some 1, some 0, some 0] := by
  decide +kernel

/-- The blocks above as a RUNNING part, with a head PLAYING on a clip. -/
def runningBlocks : State :=
  State.blk' (fun b => { b with comp := selecting.comp, rot := selecting.rot })
    (withClip fullRing (clip (some 8310) .kept 900) playing)

theorem witness_RunningMarkSelectsAndAdvances : runningBlocks.part.tb.synthLocked = true ∧
    runningBlocks.port.runState = .running ∧ runningBlocks.port.runRequest = true ∧ runningBlocks.port.laid :=
  ⟨by decide, by decide, by decide, laid_of _ rfl⟩

/-- R72, R116: the mark's own pass opens both airings, and its advance moves the head by its rate of 64. -/
theorem test_running_mark_selects_and_advances :
    let t := after (.frameMark calm) runningBlocks
    t.blk.rot.airings.map (fun a => (a.zone, a.entry)) = [(2, 21), (8, 20)] ∧
      (t.blk.rep.head 0).position = 8300 * 256 + 64 ∧ (t.blk.rep.head 0).output = some pic := by decide +kernel

theorem witness_CaptureNotices : (withInput starvedRing).port.laid ∧
    (withInput starvedRing).part.tb.syncTimer = none ∧
    (withInput { fullRing with next := 4294967295 }).port.laid ∧
    (withClip { fullRing with next := 8899 } (clip none .kept 9) .idle).port.laid ∧
    ({ fullRing with next := 8899 } : Input).filling = none :=
  ⟨laid_of _ rfl, by decide, laid_of _ rfl, laid_of _ rfl, by decide⟩

/-- R92, R97, R109: CAPTURE_RESUMED, CLIP_CLOSED and INPUT_ENDED, in this order. -/
theorem test_capture_notices :
    notices (after (.captureResume 5 1 pic) (withClip { starvedRing with next := 8899 } (clip none .kept 9) .idle)) 2 =
      [(7, 1, 8899), (9, 2, 8899)] ∧
    notices (after (.numbersExhausted 5 1 pic) (withClip { starvedRing with next := 4294967295 }
      { clip none .kept 9 with inPoint := 4294967000 } .idle)) 3 =
      [(7, 1, 4294967295), (9, 2, 4294967295), (8, 1, 4294967295)] := by decide +kernel

/-- The ring with bay 0 FILLED and kept by two clips and bay 5 FILLING for one; clip 2 claims both. -/
def claiming (state : ClipState) (h : Head) : State :=
  State.blk' (fun b => b.onRep (·.setClip 3 (some { clip (some 8310) .kept 9 with post := 312 })))
    (withClip ((fullRing.setBay 0 ⟨.filled, 8200, 0, 2, [], [pic, pic, pic, pic]⟩).setBay 5 ⟨.filling, 8456, 1, 0, [], []⟩)
      { clip (some 8310) state 1 with claims := [0, 5], cause := 1 } h)

theorem witness_ClipsAreFreed :
    ((claiming .kept .idle).ready .replay ∧ (claiming .kept .idle).port.laid ∧
      (claiming .kept .idle).blk.rep.userHeads 2 = 0) ∧
    (claiming .lapsing playing).ready .replay ∧ ((claiming .lapsing playing).blk.rep.head 0).clip = some 2 ∧
    ((claiming .lapsing playing).blk.rep.clip 2).map (·.state) = some .lapsing ∧
    ((claiming .lapsing playing).blk.rep.head 1).uses 2 = false ∧
    ((claiming .lapsing playing).blk.rep.clip 3).map (fun x => (x.post, x.state)) = some (312, .kept) :=
  ⟨⟨ready_of _ _ rfl rfl, laid_of _ rfl, by decide⟩, ready_of _ _ rfl rfl, by decide, by decide, by decide, by decide⟩

/-- R98, R113: expiry, drop, the cue of another clip and a stop each free clip 2, with its two releases, CLIP_LAPSED of
the cause, and its card DONE with the clip number. -/
theorem test_freed_clip :
    [after (.clipExpiry 2) (claiming .kept .idle), after (.dropClip 0 1 ⟨2, 311⟩) (claiming .kept .idle),
      after (.cueHead 0 1 ⟨0, 3, 0, 0, 312, 0⟩) (claiming .lapsing playing),
      after (.stopHead 0 1 0) (claiming .lapsing playing)].map (fun t =>
        (t.blk.rep.clip 2).isNone && ((t.blk.cap.input 1).bay 0).kept == 1 && ((t.blk.cap.input 1).bay 5).pending == 0 &&
          memWord t.port.mem (4096 * 3 + 512 * 9) == 4 && memWord t.port.mem (4096 * 3 + 512 * 9 + 24) == 2) =
      [true, true, true, true] ∧
    notices (after (.clipExpiry 2) (claiming .kept .idle)) 1 = [(10, 2, 0)] ∧
    notices (after (.dropClip 0 1 ⟨2, 311⟩) (claiming .kept .idle)) 1 = [(10, 2, 1)] ∧
    notices (after (.stopHead 0 1 0) (claiming .lapsing playing)) 1 = [(10, 2, 1)] := by decide +kernel

/-- The line is LOST after 700 ms, with AUX in HOLDOVER. -/
def lost (s : State) : State :=
  State.clk' (fun u => { u with heard := false, silence := 700, discards := 3
                                aux := { u.aux with state := .holdover } }) s

theorem witness_ClockNotices : (lost (game .running 50)).port.laid ∧
    (lost (game .running 50)).part.tb.syncTimer = none ∧ (lost (game .running 50)).part.clk.horn = 0 ∧
    ((lost (game .running 50)).part.clk.clock .game).hornOn = true ∧ nearEnds.port.laid :=
  ⟨laid_of _ rfl, by decide, by decide, by decide, laid_of _ rfl⟩

/-- R132, R148, R191: CONSOLE_BACK and CLOCK_EXPIRED of value 1 with HORN latched, CLOCK_REVIVED, CLOCK_LIMIT of value 1;
and CONSOLE_BACK of a HORN word, which latches HORN too. -/
theorem test_clock_word_notices :
    notices (after (.clockWord 0 .game true 20#24) (lost (game .running 50))) 2 = [(19, 1, 700), (15, 0, 1)] ∧
    (after (.clockWord 0 .game true 20#24) (lost (game .running 50))).port.latches.horn = true ∧
    notices (after (.clockWord 0 .game false 400#24) (game .expired 0)) 1 = [(16, 0, 400)] ∧
    notices (after (.clockWord 0 .game true 11999999#24) (State.clk' (fun u =>
      { u with game := { u.game with up := true } }) (game .running 50))) 1 = [(17, 0, 1)] ∧
    notices (after (.hornWord 0 2000#16) (lost live)) 1 = [(19, 2, 700)] ∧
    (after (.hornWord 0 2000#16) (lost live)).port.latches.horn = true := by decide +kernel

/-- R131, R135, R148: CONSOLE_LOST of GAME, CLOCK_EXPIRED and CLOCK_LIMIT of value 0, and CONSOLE_LOST of AUX at entry. -/
theorem test_clock_count_notices :
    notices (after .consoleSilenceExpiry (State.clk' (fun u => { u with silence := 499 }) (game .running 9))) 1 =
      [(18, 1, 0)] ∧
    notices (after (.clockExpiry .game) (game .running 1)) 1 = [(15, 0, 0)] ∧
    (after (.clockExpiry .game) (game .running 1)).port.latches.horn = true ∧
    notices (after (.clockLimitReached .aux) nearEnds) 1 = [(17, 1, 0)] ∧
    notices (State.port' (fun p => (clockEntryNotice ((lost live).part.clk, p)).2) live) 1 = [(18, 2, 3)] := by
  decide +kernel

/-- An URGENT HOLD card too wide for the lanes waits while a SPONSORED card whose expiry has come is on lane 2 and a FAN
card on lane 0. -/
def preempting : State :=
  lanes [{ card 3 .urgent 50 0 with holdMode := true, width := 1300 },
      { card 4 .sponsored 39 4 with onAir := true, started := true, expiry := 4294967295 },
      { card 1 .fan 38 1 with onAir := true, started := true }] [pass 4 2, pass 1 0]

theorem witness_PreemptedPasses : preempting.part.live = true ∧ preempting.port.laid ∧
    (preempting.blk.lanes.queue.map (·.slot)).Nodup ∧ (preempting.blk.lanes.passes.map (·.slot)).Nodup ∧
    preempting.blk.lanes.urgent = none ∧
    (preempting.port.showTick - 4294967295).toNat < 2147483648 :=
  ⟨by decide, laid_of _ rfl, by decide, by decide, by decide, by decide⟩

/-- R162, R164, R166: the FAN card waits again, the SPONSORED card goes DONE EXPIRED with its record PREEMPTED, and URGENT_ON
gives slot and post number of the URGENT card, which must crawl. -/
theorem test_preempted_passes :
    let t := after .urgentTakeover preempting
    t.blk.lanes.queue.map (fun d => (d.slot, d.onAir, d.clamped)) = [(3, true, true), (1, false, false)] ∧
    records t 2 = [(0x01020102, 3), (0, 0)] ∧ notices t 1 = [(20, 3, 50)] ∧
    [3, 4].map (fun i => (memWord t.port.mem (4096 * 14 + 512 * i), memWord t.port.mem (4096 * 14 + 512 * i + 12))) =
      [(3, 1), (4, 2)] := by decide +kernel

/-! ## What a frame mark and an ms tick do to the Port -/

/-- The reference is lost, so that the next lock is a relock. -/
def relocking (s : State) : State := after (.referenceLost 0) s

/-- A lock in each run state, with and without the RUN request, and a record that passes or fails. -/
theorem witness_LockByRunState :
    (relocking live).part.tb.synthLocked = false ∧ (relocking live).part.tb.relocking = true ∧
    (relocking live).port.laid ∧ (relocking live).port.runState = .running ∧
    (relocking live).port.runRequest = true ∧ (relocking (after (.run false) live)).port.runRequest = false ∧
    (relocking entering).port.runState = .config ∧ (relocking entering).port.runRequest = true ∧
    (readLayout (relocking entering).port.mem).check.1 = .ok ∧
    (readLayout (relocking (after (.run true) config)).port.mem).check.1 ≠ .ok ∧
    (relocking config).port.runRequest = false ∧ Memory.wf (relocking config).port.mem = true :=
  ⟨by decide, by decide, live_laid, by decide, by decide, by decide, by decide, by decide, by decide +kernel,
    by decide +kernel, by decide, by decide⟩

/-- R3, R9: the show tick resumes, and GENLOCK_LOST of value 2 gives the state genlock takes, FREE_RUN with genlock enable off
and LOCKING with house sync present, once; a part that locks for the first time gives none. -/
theorem test_relock :
    (after (.synthesiserLock 0 calm) (relocking live)).port.showTick = 1 ∧
    notices (after (.synthesiserLock 0 calm) (relocking live)) 1 = [(22, 0, 2)] ∧
    notices (after (.frameMark calm) (after (.synthesiserLock 0 calm) (relocking (following .locked 5 9)))) 2 =
      [(22, 1, 2), (0, 0, 0)] ∧
    notices (after (.synthesiserLock 0 calm) unlocked) 1 = [(0, 0, 0)] := by decide +kernel

/-- The entry with genlock on, the line LOST, section 79 forced OUT, slot 15 of the CLOCK desk left TAKEN, counts of an earlier
show, and read marks of 9 and 256. -/
def reentering : State :=
  lost (State.sec' (fun c => { c with forced := tset false c.forced 79 true })
    (State.tb' (fun t => { t with genlockEnable := true, genlock := .holdover })
    (State.port' (fun p => { p with
      mem := memWriteWord (memWriteWord (memWriteWord (memWriteWord p.mem 20 9) 24 256) (4096 * 12 + 512 * 15) 2)
        4136 77
      desks := { p.desks with replay := ⟨5, 77, 6, [1], true⟩ }
      logWrite := 3, noticeWrite := 4, logFull := true, overrun := true }) entering)))

theorem witness_EntryStages : reentering.part.tb.synthLocked = true ∧ reentering.port.runState = .config ∧
    reentering.port.runRequest = true ∧ (readLayout reentering.port.mem).check.1 = .ok ∧
    Memory.wf reentering.port.mem = true ∧ reentering.part.tb.genlockEnable = true ∧
    reentering.part.clk.heard = false := by decide +kernel

/-- R173: the counts of stage 2, the read marks of stage 3 and the swept slot of stage 4, as the mark of entry leaves them, and
its notices, each flag clear; the log stays empty and the notices wait (R191). -/
theorem test_entry_stages :
    let t := after (.frameMark calm) reentering
    t.port.desks.get .replay = ⟨0, 0, 0, [], false⟩ ∧ memWord t.port.mem 4136 = 0 ∧
    memWord t.port.mem 4152 = 9 ∧ t.port.logWrite = 9 ∧ t.port.noticeWrite = 259 ∧ t.port.logFull = false ∧
    t.port.overrun = false ∧ memWord t.port.mem (4096 * 12 + 512 * 15) = 5 ∧
    memWord t.port.mem 4144 = 1 ∧ notices t 3 = [(22, 3, 3), (18, 2, 3), (2, 79, 63)] ∧
    t.port.noticeWaiting = true ∧ t.port.logWaiting = false := by decide +kernel

/-- GAME, DOWN and CONSOLE, runs out at the tick at which the line falls silent, and AUX, UP and CONSOLE, goes on. -/
def falling : State :=
  State.clk' (fun u => { u with silence := 499, aux := { u.aux with up := true, state := .running, value := 5 } })
    (game .running 1)

theorem witness_MsTickNotices : falling.port.laidWhenRunning ∧ falling.part.tb.synthLocked = true ∧
    falling.part.clk.heard = true ∧ 500 ≤ falling.part.clk.silence + 1 ∧
    (falling.part.clk.game.runsOut = true ∧ falling.part.clk.horn = 0 ∧ falling.part.clk.game.asks = 1500) ∧
    falling.part.clk.aux.runsOut = false :=
  ⟨fun _ => laid_of _ rfl, by decide, by decide, by decide, by decide, by decide⟩

/-- R131, R135, R148: CONSOLE_LOST names both clocks where silence comes first and AUX alone where the clocks do. HORN is
latched either way, and the notices wait (R191). A sync loss at the tick gives its notice (R9). -/
theorem test_ms_tick_notices :
    notices (after (.msTick true) falling) 2 = [(18, 3, 0), (15, 0, 0)] ∧
    notices (after (.msTick false) falling) 2 = [(15, 0, 0), (18, 2, 0)] ∧
    (after (.msTick false) falling).port.cause = 33#6 ∧
    notices (after (.msTick true) (State.tb' (fun t => { t with syncTimer := some 27000 }) (following .locked 0 0))) 1 =
      [(22, 3, 0)] := by decide +kernel

/-- A read mark behind a count raises its bit, and one at the count lowers it (R191, R192). -/
theorem test_read_mark_clears_the_condition :
    let t := after (.causeMaskWrite 1) (after (.msTick true) falling)
    t.port.irq = true ∧ (after (.hostWrite (.word 6 2)) t).port.noticeWaiting = false ∧
    (after (.hostWrite (.word 6 2)) t).port.messages = [.assert, .release] := by decide +kernel

end Sys2Proof.Tests
end

section
/-! PROOFS. The resets (O12, O13). -/

namespace Sys2Proof.Machine

/-! ## Tables of one item, mapped tables -/

/-- A table that holds its default everywhere reads as the default. -/
@[simp] theorem tget_replicate {α : Type} (d : α) (n i : Nat) : tget d (List.replicate n d) i = d := by
  induction n generalizing i with
  | zero => rfl
  | succ n ih => cases i <;> [rfl; exact ih _]

/-- An item of a mapped table whose default is the mapped default. -/
theorem tget_map {α β : Type} (f : α → β) (d : α) (l : List α) (i : Nat) :
    tget (f d) (l.map f) i = f (tget d l i) := by
  induction l generalizing i with
  | nil => rfl
  | cons a l ih => cases i <;> [rfl; exact ih _]

/-- An item within a table is the list's. -/
theorem tget_eq_getElem {α : Type} (d : α) (l : List α) (i : Nat) (h : i < l.length) : tget d l i = l[i] := by
  induction l generalizing i with
  | nil => simp at h
  | cons a l ih => cases i <;> [rfl; exact ih _ (by simpa using h)]

/-- A command that changes the part answers the state with the part so changed. -/
theorem State.next_onPart {s : State} {f : Part → Part} {x : Part} (h : f s.part = x) :
    (.next (s.onPart f) : Answer) = .next { s with part := x } := by
  rw [← h]; rfl

/-! ## What each block is after a reset -/

@[simp] theorem Rotator.init_entry (e : Nat) : Rotator.init.entry e = none := tget_replicate none 128 e
@[simp] theorem Rotator.init_group (g : Nat) : Rotator.init.group g = none := tget_replicate none 8 g
@[simp] theorem Rotator.init_slot (i : Nat) : Rotator.init.slot i = .empty := tget_replicate BankSlot.empty 512 i
@[simp] theorem Capture.init_input (n i : Nat) : (Capture.init n).input i = .offAt 0 :=
  tget_replicate (Input.offAt 0) 4 i
@[simp] theorem Replay.init_clip (c : Nat) : Replay.init.clip c = none := tget_replicate none 32 c

@[simp] theorem Replay.init_head (i : Nat) : Replay.init.head i = .idle := by
  unfold Replay.head; split <;> rfl

/-- The default segment map (R37, R45). -/
theorem Sections.init_backing (r : Nat) (h : r < 64) : Sections.init.backing r = r := by
  unfold Sections.backing Sections.init
  dsimp only
  rw [tget_eq_getElem _ _ _ (by simpa using h), List.getElem_range]

/-- Every section is LIVE after a reset (R45). -/
@[simp] theorem Sections.init_stateOf (i : Nat) : Sections.init.stateOf i = .live := by
  unfold Sections.stateOf Sections.segHealth Sections.init
  dsimp only
  rw [tget_replicate, tget_replicate]
  rfl

/-- An image slot once the loads are abandoned: a READY one stays, any other is EMPTY (R85, R86). -/
theorem Rotator.slot_abandon (r s : Rotator) (h : s.bank = r.bank.map BankSlot.abandon) (i : Nat) :
    ((r.slot i).isReady = true → s.slot i = r.slot i) ∧ ((r.slot i).isReady = false → s.slot i = .empty) := by
  have e : s.slot i = (r.slot i).abandon := by
    unfold Rotator.slot
    rw [h]
    exact tget_map BankSlot.abandon .empty r.bank i
  rw [e]
  cases r.slot i <;> simp [BankSlot.isReady, BankSlot.abandon, BankSlot.isLoading]

/-- A reset leaves the interrupt released: no member of CAUSE is under the cleared mask (R187, R192). -/
theorem Port.reset_irq (p : Port) : p.reset.irq = false := by
  have hc : ∀ q : Port, q.mask = 0 → q.common = false := fun q hq => by
    unfold Port.common
    rw [hq]; simp
  exact (Port.settle_irq _).trans (hc _ rfl)

/-- The Port after a reset, but for the interrupt: Show Memory, the show tick, the layout's areas and sizes, the write counts
and both flags stay (R187). -/
theorem Port.reset_eq (p : Port) : p.reset =
    { p with
      runState := .config, runRequest := false, thresholds := none, result := .notValidated
      resultArea := 255, partLocks := [], loadLocks := [], faultPage := 0, latches := .clear
      noticeWaiting := false, logWaiting := false, mask := 0
      desks := ⟨.init, .init, .init, .init, .init⟩, countsInForce := false
      irq := p.reset.irq, messages := p.reset.messages } := Port.settle_eq _

/-- A part whose Port was reset and whose other blocks and sections hold their values at reset is cleared. -/
theorem Part.cleared_of_reset {t : Part} {p : Port}
    (hp : ∃ a z k m, t.blk.port = { p.reset with areas := a, sizes := z, showTick := k, mem := m })
    (hcomp : t.blk.comp.active = none ∧ t.blk.comp.staged = none ∧ t.blk.comp.urgentYield = false)
    (hmeas : t.blk.measures = []) (hrot : ∃ bank, t.blk.rot = { Rotator.init with bank := bank })
    (hcap : ∃ n, t.blk.cap = .init n) (hrep : t.blk.rep = .init) (hlanes : t.blk.lanes = .init)
    (hsec : t.sec = .init) : t.cleared := by
  obtain ⟨a, z, k, m, hp⟩ := hp
  obtain ⟨bank, hrot⟩ := hrot
  obtain ⟨n, hcap⟩ := hcap
  obtain ⟨c1, c2, c3⟩ := hcomp
  rw [Port.reset_eq, Port.reset_irq] at hp
  unfold Part.cleared
  rw [hp, hrot, hcap, hrep, hlanes, hsec]
  exact ⟨rfl, rfl, rfl, rfl, rfl, rfl, rfl, rfl, rfl, rfl, fun d => by cases d <;> rfl, c1, c2, c3, hmeas,
    Rotator.init_entry, Rotator.init_group, rfl, rfl, fun i => by simp [Input.offAt], Replay.init_clip,
    fun i => by simp [Head.idle], rfl, rfl, rfl, Sections.init_backing, fun i _ => Sections.init_stateOf i⟩

/-- Settles O12. -/
theorem softResetClearsAndKeeps : Obligations.SoftResetClearsAndKeeps := by
  intro bit0 s
  have hport : s.part.softReset.blk.port = s.port.reset := rfl
  refine ⟨s.onPart Part.softReset, rfl,
    Part.cleared_of_reset ⟨s.port.reset.areas, s.port.reset.sizes, s.port.reset.showTick, s.port.reset.mem, rfl⟩
      ⟨rfl, rfl, rfl⟩ rfl ⟨_, rfl⟩ ⟨_, rfl⟩ rfl rfl rfl, ?_, ?_, rfl, rfl, ?_, ?_,
    fun i => (Rotator.slot_abandon _ _ rfl i).1, fun i => (Rotator.slot_abandon _ _ rfl i).2⟩
  all_goals
    rw [State.port, State.onPart_part, hport, Port.reset_eq]

/-- Settles O13. -/
theorem hardResetAndPowerOnClear : Obligations.HardResetAndPowerOnClear := by
  constructor
  · intro pin f1 f0 g s
    have hport : (s.part.hardReset (rateOfStraps f1 f0) g).blk.port = s.port.hardReset := rfl
    refine ⟨s.onPart (Part.hardReset (rateOfStraps f1 f0) g), rfl,
      Part.cleared_of_reset ⟨_, _, _, s.port.reset.mem, rfl⟩ ⟨rfl, rfl, rfl⟩ rfl ⟨_, rfl⟩ ⟨_, rfl⟩ rfl rfl rfl,
      ?_, rfl, rfl, rfl, ?_, rfl, rfl, rfl, rfl, rfl, fun i => by cases i <;> exact ⟨rfl, rfl⟩, rfl, rfl,
      Rotator.init_slot⟩
    all_goals
      rw [State.port, State.onPart_part, hport, Port.hardReset, Port.reset_eq]
  · intro f1 f0 g cs s
    have hw := wf_memOfCells cs
    exact ⟨s.onPart (Part.powerOn (rateOfStraps f1 f0) g cs), rfl,
      Part.cleared_of_reset ⟨_, _, _, powerOnMemory cs, rfl⟩ ⟨rfl, rfl, rfl⟩ rfl ⟨_, rfl⟩ ⟨_, rfl⟩ rfl rfl rfl,
      rfl, rfl, rfl, rfl, rfl, Rotator.init_slot, memWord_memWriteWord_self _ _ _ hw,
      fun a ha => memRead_memWriteWord_ne _ _ _ _ hw (ha _ (by simp [errorSlotAddr, partPage]))⟩

end Sys2Proof.Machine
end


section
/-! PROOFS. The passing of reference periods and the loss of the reference (O14). -/

namespace Sys2Proof.Machine

/-! ## What the passing of reference periods does, in one piece -/

/-- The Timebase after some periods that show the reference present, up to what the sync-loss timer's end does: the counters
and the timers have run (R2, R5, R7, R10). -/
def Timebase.ranOn (b : Timebase) (dt : Nat) : Timebase :=
  { b with
    reference := true
    sinceMark := b.sinceMark + if b.synthLocked then dt else 0
    sinceMs := b.sinceMs + if b.synthLocked then dt else 0
    sincePulse := b.sincePulse.map (· + dt)
    syncTimer := b.syncTimer.bind fun r => if r ≤ dt then none else some (r - dt) }

/-- The Timebase after some periods: the counters and timers have run, and where the sync-loss timer ran out in LOCKING or
LOCKED genlock is HOLDOVER with e discarded (R5). -/
def Timebase.elapsed (b : Timebase) (dt : Nat) : Timebase :=
  if b.genlock.following && b.syncTimer.any fun r => decide (r ≤ dt) then
    { b.ranOn dt with genlock := .holdover, correction := 0 }
  else b.ranOn dt

/-- The sync-loss timer over some periods moves the Timebase so. -/
theorem elapseSync_tb (dt : Nat) (b : Timebase) (p : Port) :
    (elapseSync dt ({ b with reference := true }.advance dt, p)).1 = b.elapsed dt := by
  obtain ⟨rate, ge, ref, sl, g, c, st, sp, lc, fl, sm, ms, rl⟩ := b
  unfold elapseSync loseSync Timebase.elapsed Timebase.ranOn Timebase.advance
  cases st with
  | none => cases sl <;> simp
  | some r =>
    by_cases hr : r ≤ dt
    · cases sl <;> cases g <;> simp [hr, Genlock.following]
    · cases sl <;> simp [hr]

/-- Some periods that show the reference present (R2, R5). -/
theorem Part.elapse_tb (dt : Nat) (s : Part) (h : s.tb.reference = true ∨ 0 < dt) :
    (s.elapse dt).tb = s.tb.elapsed dt := by
  unfold Part.elapse
  rw [if_neg (by rcases h with h | h <;> simp [h]; omega)]
  dsimp only
  rw [← elapseSync_tb dt s.tb s.blk.port]
  split <;> rfl

/-- The sync-loss timer over some periods gives GENLOCK_LOST where it runs out in LOCKING or LOCKED (R5, R9). -/
theorem elapseSync_port (dt : Nat) (b : Timebase) (p : Port) :
    (elapseSync dt ({ b with reference := true }.advance dt, p)).2 =
      if b.genlock.following && b.syncTimer.any fun r => decide (r ≤ dt) then p.notice .genlockLost 3 0 else p := by
  obtain ⟨rate, ge, ref, sl, g, c, st, sp, lc, fl, sm, ms, rl⟩ := b
  unfold elapseSync loseSync Timebase.advance
  cases st with
  | none => cases sl <;> simp
  | some r =>
    by_cases hr : r ≤ dt
    · cases sl <;> cases g <;> simp [hr, Genlock.following]
    · cases sl <;> simp [hr]

/-- The Port after some periods that show the reference present (R5, R9). -/
theorem Part.elapse_portOf (dt : Nat) (s : Part) (h : s.tb.reference = true ∨ 0 < dt) :
    (s.elapse dt).blk.port =
      if s.tb.genlock.following && s.tb.syncTimer.any fun r => decide (r ≤ dt) then
        s.blk.port.notice .genlockLost 3 0 else s.blk.port := by
  unfold Part.elapse
  rw [if_neg (by rcases h with h | h <;> simp [h]; omega), ← elapseSync_port dt s.tb s.blk.port]
  dsimp only
  split <;> rfl

/-- No periods without the reference are no time. -/
theorem Part.elapse_absent (s : Part) (h : s.tb.reference = false) : s.elapse 0 = s := by
  unfold Part.elapse
  rw [if_pos (by simp [h])]

/-- Time leaves the strapped rate, genlock enable, the relock pending and the LOCKING count. -/
theorem Part.elapse_tb_kept (dt : Nat) (s : Part) :
    (s.elapse dt).tb.rate = s.tb.rate ∧ (s.elapse dt).tb.genlockEnable = s.tb.genlockEnable ∧
    (s.elapse dt).tb.relocking = s.tb.relocking ∧ (s.elapse dt).tb.lockCount = s.tb.lockCount := by
  by_cases h : s.tb.reference = true ∨ 0 < dt
  · rw [s.elapse_tb dt h]
    unfold Timebase.elapsed Timebase.ranOn
    split <;> exact ⟨rfl, rfl, rfl, rfl⟩
  · obtain ⟨hr, hd⟩ := not_or.mp h
    obtain rfl : dt = 0 := by omega
    rw [s.elapse_absent (by simpa using hr)]
    exact ⟨rfl, rfl, rfl, rfl⟩

/-- A notice leaves the desks. -/
@[simp] theorem Port.notice_desks (p : Port) (k : NoticeKind) (n : Nat) (v : Word) :
    (p.notice k n v).desks = p.desks := by
  unfold Port.notice
  split
  · dsimp only
    split
    · rw [Port.writeNotice_eq, Port.testOverrun_eq]
    · split <;> rw [Port.testOverrun_eq]; rfl
  · rfl

@[simp] theorem elapseSync_desks (dt : Nat) (x : TimebasePort) : (elapseSync dt x).2.desks = x.2.desks := by
  unfold elapseSync loseSync
  dsimp only
  split
  · rfl
  · split
    · split <;> simp
    · rfl

/-- Time leaves the desks. -/
@[simp] theorem Part.elapse_desks (dt : Nat) (s : Part) : (s.elapse dt).blk.port.desks = s.blk.port.desks := by
  unfold Part.elapse
  split
  · rfl
  · dsimp only
    split <;> exact elapseSync_desks _ _

/-- In CONFIG time leaves the Port alone: a sync loss gives no notice (R189). -/
theorem Part.elapse_port_config (dt : Nat) (s : Part) (h : s.blk.port.runState = .config) :
    (s.elapse dt).blk.port = s.blk.port := by
  have hs : ∀ x : TimebasePort, x.2.runState = .config → (elapseSync dt x).2 = x.2 := fun x hx => by
    unfold elapseSync loseSync
    dsimp only
    split
    · rfl
    · split
      · split
        · exact Port.notice_config _ _ _ _ hx
        · rfl
      · rfl
  unfold Part.elapse
  split
  · rfl
  · dsimp only
    split <;> exact hs _ h

/-- An input after some periods: only its state and its silence timer may have moved, and neither where the timer stood
still (R88). -/
theorem Input.elapse_eq (dt : Nat) (x : Input) :
    x.elapse dt = { x with state := (x.elapse dt).state, silence := (x.elapse dt).silence } ∧
    (x.silence = none → x.elapse dt = x) := by
  unfold Input.elapse Input.loseSignal
  split
  · exact ⟨rfl, fun _ => rfl⟩
  · rename_i r h
    refine ⟨?_, fun hn => by simp [hn] at h⟩
    split
    · split <;> rfl
    · rfl

/-- An input of the Capture Unit after some periods. -/
theorem Capture.elapse_input (dt : Nat) (c : Capture) (i : Nat) : (c.elapse dt).input i = (c.input i).elapse dt :=
  tget_map (Input.elapse dt) (.offAt 0) c.inputs i

/-- The inputs after some periods, at a LOCKED synthesiser or an UNLOCKED one. -/
theorem Part.elapse_inputs (dt : Nat) (s : Part) :
    (s.elapse dt).blk.cap.rings = s.blk.cap.rings ∧
    ∀ i, (s.elapse dt).blk.cap.input i = s.blk.cap.input i ∨
      (s.elapse dt).blk.cap.input i = (s.blk.cap.input i).elapse dt := by
  unfold Part.elapse
  split
  · exact ⟨rfl, fun _ => .inl rfl⟩
  · dsimp only
    split
    · exact ⟨rfl, fun i => .inr (Capture.elapse_input dt _ i)⟩
    · exact ⟨rfl, fun _ => .inl rfl⟩

/-- The receiver where no word is in progress stands still over some periods (R129). -/
theorem Part.elapse_hunting (dt : Nat) (s : Part) (h : s.clk.word = none) :
    (s.elapse dt).clk.word = none ∧ (s.elapse dt).clk.gap = s.clk.gap ∧
      (s.elapse dt).clk.discards = s.clk.discards := by
  have hg : elapseGap dt s.clk = s.clk := by unfold elapseGap; rw [h]
  unfold Part.elapse
  split
  · exact ⟨h, rfl, rfl⟩
  · dsimp only
    split
    · show (elapseGap dt s.clk).word = none ∧ (elapseGap dt s.clk).gap = _ ∧ (elapseGap dt s.clk).discards = _
      rw [hg]; exact ⟨h, rfl, rfl⟩
    · exact ⟨h, rfl, rfl⟩

/-! ## A notice leaves all but the notice area and the part page -/

/-- Two memories agree outside the part page and the notice area of a Port. -/
def Port.agreesOutside (p q : Port) : Prop :=
  ∀ a, a < partPage ∨ partPage + 4096 ≤ a → a < p.areaBase 8 ∨ p.areaBase 8 + 4096 ≤ a →
    memRead q.mem a = memRead p.mem a

/-- A notice writes within the notice area and the part page (R189, R190). -/
theorem Port.notice_agreesOutside (p : Port) (k : NoticeKind) (n : Nat) (v : Word) (h : p.laid) :
    p.agreesOutside (p.notice k n v) := by
  obtain ⟨hc, hroom, hfull, -⟩ := p.notice_noticed k n v h
  intro a h1 h2
  cases hr : p.runState with
  | config => rw [hc hr]
  | running =>
    by_cases hu : p.noticeUsed < 256
    · obtain ⟨-, -, -, -, -, -, -, -, -, -, kept⟩ := hroom hr hu
      have hm := Nat.mod_lt p.noticeWrite.toNat (show 0 < 256 by omega)
      refine kept a ?_
      simp only [Port.noticeWords, List.mem_cons, List.not_mem_nil, or_false, forall_eq_or_imp, forall_eq]
      omega
    · obtain ⟨-, -, kept, -⟩ := hfull hr (by omega)
      refine kept a ?_
      simp only [List.mem_singleton, forall_eq]
      omega

/-- Time writes within the notice area and the part page. -/
theorem Part.elapse_agreesOutside (dt : Nat) (s : Part) (h : s.blk.port.laid) :
    s.blk.port.agreesOutside (s.elapse dt).blk.port := by
  have hs : ∀ x : TimebasePort, x.2.laid → x.2.agreesOutside (elapseSync dt x).2 := fun x hx => by
    unfold elapseSync loseSync
    dsimp only
    split
    · exact fun _ _ _ => rfl
    · split
      · split
        · exact Port.notice_agreesOutside _ _ _ _ hx
        · exact fun _ _ _ => rfl
      · exact fun _ _ _ => rfl
  unfold Part.elapse
  split
  · exact fun _ _ _ => rfl
  · dsimp only
    split <;> exact hs (_, s.blk.port) h

/-! ## The loss of the reference (R2, R3) -/

/-- What the loss of the reference leaves of the Clock Unit: no word in progress and no horn, the clocks and the score as they
stood (R129, R144). -/
theorem clockReferenceLost_eq (u : ClockUnit) : clockReferenceLost u =
    { u with word := none, gap := (clockReferenceLost u).gap, discards := (clockReferenceLost u).discards, horn := 0 } := by
  unfold clockReferenceLost discardWord
  split
  · rename_i h
    rw [← h]
  · rfl

/-- Settles O14, from what time and the loss each leave of the part. -/
theorem referenceLossStopsTheMarks : Obligations.ReferenceLossStopsTheMarks := by
  refine ⟨fun dt s => ?_, fun s hl => ⟨fun m => ?_, fun b => ?_⟩⟩
  · obtain ⟨hrate, -, hrelock, -⟩ := s.part.elapse_tb_kept dt
    obtain ⟨hrun, -, htick, -⟩ := s.part.elapse_sameFixed dt
    have hclk := s.part.elapse_clk dt
    have hgame : (s.part.elapse dt).clk.game = s.part.clk.game := by rw [hclk]
    have haux : (s.part.elapse dt).clk.aux = s.part.clk.aux := by rw [hclk]
    have hscore : (s.part.elapse dt).clk.score = s.part.clk.score := by rw [hclk]
    have hlost := clockReferenceLost_eq (s.part.elapse dt).clk
    refine ⟨s.onPart fun p => (p.elapse dt).loseReference, rfl, rfl, rfl, rfl, rfl, rfl, hrate, ?_, rfl,
      congrArg ClockUnit.word hlost, (congrArg ClockUnit.game hlost).trans hgame,
      (congrArg ClockUnit.aux hlost).trans haux,
      (congrArg ClockUnit.score hlost).trans hscore,
      s.part.elapse_sec dt, s.part.elapse_blk dt, htick, hrun⟩
    · show ((s.part.elapse dt).tb.relocking || (s.part.elapse dt).tb.synthLocked) = _
      rw [hrelock, Part.elapse_synthLocked]
  · show Host.Outcome.next { s with part := s.part.frameMark m } = _
    rw [Part.frameMark, if_neg (by simp [hl])]
  · show Host.Outcome.next { s with part := s.part.msTick b } = _
    rw [Part.msTick, if_neg (by simp [hl])]

end Sys2Proof.Machine
end


section
/-! PROOFS. Frame lengths and house sync (O16, O21). -/

namespace Sys2Proof.Machine

/-! ## The length of a frame (R4, R7, R8) -/

/-- A clamp as the smaller of the top and the larger of the bottom and the number. -/
theorem clampInt_eq (lo hi z : Int) (h : lo ≤ hi) : clampInt lo hi z = max lo (min hi z) := by
  unfold clampInt
  split
  · omega
  · split <;> omega

/-- The correction of one frame: none in FREE_RUN and HOLDOVER, and within −S..+S (R4). -/
theorem Timebase.step_cases (b : Timebase) :
    (b.genlock = .freeRun ∨ b.genlock = .holdover → b.step = 0) ∧
    (b.genlock = .locking ∨ b.genlock = .locked →
      b.step = max (-(b.rate.limit : Int)) (min b.rate.limit b.correction)) ∧
    0 ≤ (b.rate.length : Int) + b.step := by
  have hc := clampInt_eq (-(b.rate.limit : Int)) b.rate.limit b.correction (by omega)
  have hl : b.rate.limit ≤ b.rate.length := Nat.div_le_self _ _
  unfold Timebase.step
  rw [hc]
  refine ⟨?_, ?_, ?_⟩
  · rintro (h | h) <;> rw [h] <;> rfl
  · rintro (h | h) <;> rw [h] <;> rfl
  · split <;> omega

/-- Where the sync-loss timer does not run out in some periods, they are periods run and nothing else (R5). -/
theorem Timebase.elapsed_of_timer (b : Timebase) (dt : Nat) (h : ∀ r, b.syncTimer = some r → dt < r) :
    b.elapsed dt = { b.ranOn dt with syncTimer := b.syncTimer.map (· - dt) } := by
  unfold Timebase.elapsed Timebase.ranOn
  cases hs : b.syncTimer with
  | none => simp
  | some r =>
    have hr := h r hs
    simp [show ¬r ≤ dt by omega]

/-- Settles O16: the frame length by the correction of `Timebase.step_cases`, where the sync-loss timer runs on. -/
theorem frameMarkSetsTheFrameLength : Obligations.FrameMarkSetsTheFrameLength := by
  intro m s hl href hin hsync
  have hmark : (s.part.frameMark m).tb =
      { (s.part.elapse (s.part.tb.frameLength - s.part.tb.sinceMark)).tb.nextFrame with relocking := false } := by
    rw [Part.frameMark, if_pos hl, Part.mark_tb]; rfl
  obtain ⟨free, following, room⟩ := s.part.tb.step_cases
  refine ⟨s.onPart (·.frameMark m), rfl, s.part.tb.step, ?_⟩
  rw [State.onPart_part, hmark, s.part.elapse_tb _ (.inl href), s.part.tb.elapsed_of_timer _ hsync]
  refine ⟨Int.toNat_of_nonneg room, rfl, ?_, rfl, rfl, free, following, ?_⟩
  · show s.part.tb.sinceMark + (if s.part.tb.synthLocked then _ else 0) - s.part.tb.frameLength = 0
    rw [if_pos hl]
    omega
  · show (if s.part.tb.genlock = .locking then s.part.tb.lockCount + 1 else s.part.tb.lockCount) = _
    by_cases hg : s.part.tb.genlock = .locking
    · rw [if_pos hg, if_pos hg]
    · rw [if_neg hg, if_neg hg]; rfl

/-! ## House sync (R5, R7 to R9) -/

/-- A pulse is accepted where the time since its predecessor is within L/2000 of L (R5). -/
theorem Timebase.accepts_iff (b : Timebase) : b.accepts = true ↔
    ∃ n, b.sincePulse = some n ∧ b.rate.length - b.rate.length / 2000 ≤ n ∧
      n ≤ b.rate.length + b.rate.length / 2000 := by
  unfold Timebase.accepts Rate.window
  cases b.sincePulse <;> simp

section AcceptedPulse

variable (b : Timebase) (p : Port)

/-- An accepted pulse restarts the sync-loss timer, whatever the genlock state it finds; in FREE_RUN it does no more (R5). -/
theorem acceptPulse_freeRun (h : b.genlock = .freeRun) :
    acceptPulse (b, p) = ({ b with syncTimer := some (3 * b.rate.length) }, p) := by
  unfold acceptPulse
  simp only [h]

/-- In HOLDOVER it begins LOCKING (R8). -/
theorem acceptPulse_holdover (h : b.genlock = .holdover) :
    acceptPulse (b, p) = ({ b with syncTimer := some (3 * b.rate.length), genlock := .locking, lockCount := 0
                                   correction := b.measured }, p) := by
  unfold acceptPulse
  simp only [h]
  rfl

/-- In LOCKING it gives LOCKED where the measurement lies within 27 periods (R8, R9). -/
theorem acceptPulse_locking (h : b.genlock = .locking) :
    acceptPulse (b, p) =
      if -27 ≤ b.measured ∧ b.measured ≤ 27 then
        ({ b with syncTimer := some (3 * b.rate.length), genlock := .locked, correction := b.measured },
          p.notice .genlockLocked 2 (toWord b.lockCount))
      else ({ b with syncTimer := some (3 * b.rate.length), correction := b.measured }, p) := by
  unfold acceptPulse
  simp only [h, within, Bool.and_eq_true, decide_eq_true_eq]
  rfl

/-- In LOCKED it gives LOCKING where the measurement lies beyond 135 periods (R8, R9). -/
theorem acceptPulse_locked (h : b.genlock = .locked) :
    acceptPulse (b, p) =
      if -135 ≤ b.measured ∧ b.measured ≤ 135 then
        ({ b with syncTimer := some (3 * b.rate.length), correction := b.measured }, p)
      else ({ b with syncTimer := some (3 * b.rate.length), genlock := .locking, lockCount := 0
                     correction := b.measured }, p.notice .genlockLost 1 1) := by
  unfold acceptPulse
  simp only [h, within, Bool.and_eq_true, decide_eq_true_eq]
  rfl

end AcceptedPulse

/-- The Timebase once `dt` periods in which the sync-loss timer did not run out have shown the reference present (R5). -/
def Timebase.runTo (b : Timebase) (dt : Nat) : Timebase :=
  { b.ranOn dt with syncTimer := b.syncTimer.map (· - dt) }

/-- A pulse at a Timebase, examined where genlock enable is on (R5). -/
def Timebase.pulsed (b : Timebase) (p : Port) : TimebasePort := if b.genlockEnable then examinePulse (b, p) else (b, p)

/-- A pulse comes `dt` periods on, and moves the Timebase and the Port alone (R5). -/
theorem Part.housePulse_eq (dt : Nat) (s : Part) (h : ∀ r, s.tb.syncTimer = some r → dt < r) :
    s.housePulse dt = (s.referencePresent.elapse dt).withTimebase ((s.tb.runTo dt).pulsed s.blk.port) := by
  have ht : (s.referencePresent.elapse dt).tb = s.tb.runTo dt :=
    (Part.elapse_tb dt _ (.inl rfl)).trans (Timebase.elapsed_of_timer _ dt h)
  have hp : (s.referencePresent.elapse dt).blk.port = s.blk.port := Part.elapse_port dt _ h
  unfold Part.housePulse Timebase.pulsed
  dsimp only
  rw [← ht, ← hp]
  split <;> rfl

/-- Time leaves the sections and the queue, of the Clock Unit all but the receiver, and of the blocks all but the Port and the
Capture Unit (R88, R129). -/
theorem Part.elapse_rest (dt : Nat) (s : Part) (x : TimebasePort) :
    let t := (s.referencePresent.elapse dt).withTimebase x
    t.sec = s.sec ∧
    t.clk = { s.clk with word := t.clk.word, gap := t.clk.gap, discards := t.clk.discards } ∧
    t.blk = { s.blk with port := t.blk.port, cap := t.blk.cap } := by
  refine ⟨Part.elapse_sec dt _, Part.elapse_clk dt s.referencePresent, ?_⟩
  have h := Part.elapse_blk dt s.referencePresent
  show ({ (s.referencePresent.elapse dt).blk with port := x.2 } : Blocks) = _
  rw [h]; rfl

/-- The measurement of a pulse `dt` periods on (R7). -/
theorem Timebase.measured_runTo (b : Timebase) (dt : Nat) : (b.runTo dt).measured =
    let run := if b.synthLocked then dt else 0
    let lead : Int := (b.sinceMark + run : Nat) - ((b.frameLength : Int) - b.rate.length)
    if 2 * lead ≤ b.rate.length then lead else lead - b.rate.length := rfl

/-- The acceptance of a pulse `dt` periods on (R5). -/
theorem Timebase.accepts_runTo (b : Timebase) (dt : Nat) : (b.runTo dt).accepts = true ↔
    ∃ n, b.sincePulse = some n ∧ b.rate.length - b.rate.length / 2000 ≤ n + dt ∧
      n + dt ≤ b.rate.length + b.rate.length / 2000 := by
  rw [Timebase.accepts_iff]
  unfold Timebase.runTo Timebase.ranOn
  cases b.sincePulse <;> simp

/-- A pulse that is not accepted, or comes with genlock enable off, moves the time since its predecessor at most (R5). -/
theorem Timebase.pulsed_not (b : Timebase) (p : Port) (h : ¬(b.genlockEnable = true ∧ b.accepts = true)) :
    b.pulsed p = ({ b with sincePulse := if b.genlockEnable then some 0 else b.sincePulse }, p) := by
  unfold Timebase.pulsed examinePulse
  by_cases hg : b.genlockEnable = true
  · rw [if_pos hg, if_pos hg]
    simp only [if_neg fun ha => h ⟨hg, ha⟩]
  · rw [if_neg hg, if_neg hg]

/-- An accepted pulse (R5). -/
theorem Timebase.pulsed_accepted (b : Timebase) (p : Port) (hg : b.genlockEnable = true) (ha : b.accepts = true) :
    b.pulsed p = ({ (acceptPulse (b, p)).1 with sincePulse := some 0 }, (acceptPulse (b, p)).2) := by
  unfold Timebase.pulsed examinePulse
  simp [hg, ha]

/-- A pulse moves no more of the Timebase than the time since its predecessor, the sync-loss timer and genlock (R5, R7). -/
theorem Timebase.pulsed_tb (b : Timebase) (p : Port) : (b.pulsed p).1 =
    { b with sincePulse := (b.pulsed p).1.sincePulse, syncTimer := (b.pulsed p).1.syncTimer
             genlock := (b.pulsed p).1.genlock, correction := (b.pulsed p).1.correction
             lockCount := (b.pulsed p).1.lockCount } := by
  by_cases h : b.genlockEnable = true ∧ b.accepts = true
  · rw [b.pulsed_accepted p h.1 h.2]
    cases hg : b.genlock with
    | freeRun => rw [acceptPulse_freeRun b p hg]
    | holdover => rw [acceptPulse_holdover b p hg]
    | locking => rw [acceptPulse_locking b p hg]; split <;> rfl
    | locked => rw [acceptPulse_locked b p hg]; split <;> rfl
  · rw [b.pulsed_not p h]

/-- A pulse examined is the next one's predecessor (R5). -/
theorem Timebase.pulsed_since (b : Timebase) (p : Port) (h : b.genlockEnable = true) :
    (b.pulsed p).1.sincePulse = some 0 := by
  unfold Timebase.pulsed
  rw [if_pos h]; rfl

/-- The sync-loss timer runs to its end (R5, R9). -/
theorem Part.expireSync_eq (r : Nat) (s : Part) (h : s.tb.syncTimer = some r) :
    s.expireSync = (s.referencePresent.elapse r).withTimebase
      ((s.tb.elapsed r), if s.tb.genlock.following then s.blk.port.notice .genlockLost 3 0 else s.blk.port) := by
  have ht : (s.referencePresent.elapse r).tb = s.tb.elapsed r := Part.elapse_tb r _ (.inl rfl)
  have hp : (s.referencePresent.elapse r).blk.port =
      if s.tb.genlock.following then s.blk.port.notice .genlockLost 3 0 else s.blk.port := by
    rw [Part.elapse_portOf r _ (.inl rfl)]
    show (if s.tb.genlock.following && s.tb.syncTimer.any (fun n => decide (n ≤ r)) then _ else _) = _
    simp [h]; rfl
  unfold Part.expireSync
  rw [h, ← ht, ← hp]
  rfl

/-- Settles O21, by the genlock state that an accepted pulse finds, and by the end of the sync-loss timer. -/
theorem houseSyncMeasuresThePhaseOrIsLost : Obligations.HouseSyncMeasuresThePhaseOrIsLost := by
  refine ⟨fun dt s hsync => ?_, fun r s hr => ?_, fun dt s => rfl, fun s hs => ?_⟩
  · have hpart := Part.housePulse_eq dt s.part hsync
    have hmeas := s.part.tb.measured_runTo dt
    have hacc := s.part.tb.accepts_runTo dt
    refine ⟨{ s with part := _ }, State.next_onPart hpart, ?_⟩
    obtain ⟨hsec, hclk, hblk⟩ := s.part.elapse_rest dt ((s.part.tb.runTo dt).pulsed s.part.blk.port)
    refine ⟨?_, ?_, ?_, ?_, hsec, rfl, hclk, hblk⟩
    · exact Timebase.pulsed_tb _ _
    · exact (s.part.tb.runTo dt).pulsed_since s.port
    · intro hno
      have h := (s.part.tb.runTo dt).pulsed_not s.port fun hh => hno ⟨hh.1, hacc.mp hh.2⟩
      dsimp only [Part.withTimebase_tb, Part.withTimebase_blk]
      rw [h]
      exact ⟨rfl, rfl, rfl, rfl, rfl⟩
    · rintro ⟨he, hn⟩
      have h := (s.part.tb.runTo dt).pulsed_accepted s.port he (hacc.mpr hn)
      dsimp only [Part.withTimebase_tb, Part.withTimebase_blk]
      rw [h]
      cases hg : s.part.tb.genlock with
      | freeRun =>
        rw [acceptPulse_freeRun (s.part.tb.runTo dt) _ hg]
        exact ⟨rfl, hg, rfl, rfl, rfl⟩
      | holdover =>
        rw [acceptPulse_holdover (s.part.tb.runTo dt) _ hg]
        exact ⟨rfl, rfl, hmeas, rfl, rfl⟩
      | locking =>
        rw [acceptPulse_locking (s.part.tb.runTo dt) _ hg]
        by_cases hin : -27 ≤ (s.part.tb.runTo dt).measured ∧ (s.part.tb.runTo dt).measured ≤ 27
        · rw [if_pos hin]
          refine ⟨rfl, hmeas, rfl, (iff_of_eq (if_pos hin)).mpr
            ⟨rfl, fun hm ha => Port.notice_noticeTaken _ .genlockLocked 2 _ hm ha⟩⟩
        · rw [if_neg hin]
          exact ⟨rfl, hmeas, rfl, (iff_of_eq (if_neg hin)).mpr ⟨hg, rfl⟩⟩
      | locked =>
        rw [acceptPulse_locked (s.part.tb.runTo dt) _ hg]
        by_cases hin : -135 ≤ (s.part.tb.runTo dt).measured ∧ (s.part.tb.runTo dt).measured ≤ 135
        · rw [if_pos hin]
          exact ⟨rfl, hmeas, (iff_of_eq (if_pos hin)).mpr ⟨hg, rfl, rfl⟩⟩
        · rw [if_neg hin]
          exact ⟨rfl, hmeas, (iff_of_eq (if_neg hin)).mpr
            ⟨rfl, rfl, fun hm ha => Port.notice_noticeTaken _ .genlockLost 1 1 hm ha⟩⟩
  · have hpart := Part.expireSync_eq r s.part hr
    refine ⟨{ s with part := _ }, State.next_onPart hpart, ?_⟩
    obtain ⟨hsec, hclk, hblk⟩ := s.part.elapse_rest r (s.part.tb.elapsed r,
      if s.part.tb.genlock.following then s.part.blk.port.notice .genlockLost 3 0 else s.part.blk.port)
    refine ⟨?_, ?_, ?_, hsec, rfl, hclk, hblk⟩
    · dsimp only [Part.withTimebase_tb]
      unfold Timebase.elapsed Timebase.ranOn
      rw [hr]
      split <;> simp
    · intro hf
      dsimp only [Part.withTimebase_tb, Part.withTimebase_blk]
      have hfol : s.part.tb.genlock.following = true := by rcases hf with h | h <;> rw [h] <;> rfl
      unfold Timebase.elapsed
      rw [hr, if_pos hfol, if_pos (by simp [hfol])]
      exact ⟨rfl, rfl, fun hw ha => Port.notice_noticeTaken _ .genlockLost 3 0 hw ha⟩
    · intro hf
      dsimp only [Part.withTimebase_tb, Part.withTimebase_blk]
      have hfol : s.part.tb.genlock.following = false := by rcases hf with h | h <;> rw [h] <;> rfl
      unfold Timebase.elapsed
      rw [if_neg (by simp [hfol]), if_neg (by simp [hfol])]
      exact ⟨rfl, rfl, rfl⟩
  · show Host.Outcome.next { s with part := s.part.expireSync } = _
    rw [Part.expireSync, hs]

end Sys2Proof.Machine
end


section
/-! PROOFS. The ms tick (O22). -/

namespace Sys2Proof.Machine

/-! ## The ms tick of the Clock Unit (R131, R135, R144) -/

/-- A clock after its count at an ms tick (R135). -/
def Clock.counted (c : Clock) : Clock :=
  if c.counting then
    if c.up then
      if 11999999 ≤ c.value + 1 then { c with state := .stopped, value := 11999999 }
      else { c with value := c.value + 1 }
    else if c.value ≤ 1 then { c with state := .expired, value := 0 } else { c with value := c.value - 1 }
  else c

/-- A count moves its clock, and raises the horn by its request (R135, R144). -/
theorem countClock_clock (i : ClockId) (x : ClockPort) : (countClock i x).1 =
    { x.1.setClock i (x.1.clock i).counted with horn := max x.1.horn (x.1.clock i).asks } := by
  have kept : ∀ c : Clock, x.1.setClock i c = { x.1.setClock i c with horn := max x.1.horn 0 } := by
    intro c; rw [Nat.max_zero]; cases i <;> rfl
  have same : x.1 = x.1.setClock i (x.1.clock i) := by cases i <;> rfl
  unfold countClock Clock.counted Clock.asks Clock.runsOut
  dsimp only
  generalize hc : x.1.clock i = c at same ⊢
  by_cases hr : c.counting = true
  · have hrun : (c.state == .running || c.state == .holdover) = true := hr
    rw [if_pos hr, if_pos hr, hrun, Bool.true_and]
    cases hu : c.up
    · simp only [Bool.false_eq_true, if_false, decide_eq_true_eq]
      by_cases hv : c.value ≤ 1
      · rw [if_pos hv, if_pos hv]
        unfold expireClock requestHorn
        dsimp only
        rw [hc, hu]
        cases ho : c.hornOn
        · rw [if_neg (by simp), if_neg (by simp)]; exact kept _
        · rw [if_pos rfl, if_pos (show c.value ≤ 1 ∧ True ∧ true = true from ⟨hv, trivial, rfl⟩)]
          dsimp only
          rw [ClockUnit.setClock_horn]
      · rw [if_neg hv, if_neg hv, if_neg (fun h => hv h.1)]; exact kept _
    · simp only [if_true, Bool.true_eq_false, false_and, and_false, if_false]
      unfold Config.upTop
      by_cases hv : 11999999 ≤ c.value + 1
      · rw [if_pos hv, if_pos hv]
        unfold limitClock
        rw [hc, ← hu]; exact kept _
      · rw [if_neg hv, if_neg hv]; exact kept _
  · have hrun : (c.state == .running || c.state == .holdover) = false := by simpa [Clock.counting] using hr
    rw [if_neg hr, if_neg hr, hrun, if_neg (by simp), ← kept, ← same]

/-- A clock put into HOLDOVER where the line is lost, and left alone where it is not (R131). -/
def Clock.silenced (c : Clock) (lost : Bool) : Clock := if lost then c.toHoldover else c

/-- A silence before the count of a clock and one behind it come to the same (R131, R135). -/
theorem Clock.silenced_counted (c : Clock) (lost : Bool) : (c.silenced lost).counted = c.counted.silenced lost := by
  cases lost
  · rfl
  · by_cases hf : c.followed = true
    · obtain ⟨hl, hs⟩ : c.localSource = false ∧ c.state = .running := by simpa [Clock.followed] using hf
      simp only [Clock.silenced, if_true, Clock.toHoldover, hf]
      unfold Clock.counted Clock.counting Clock.followed
      simp only [hl, hs]
      cases hu : c.up
      · by_cases hv : c.value ≤ 1 <;> simp [hv]
      · by_cases hv : 11999999 ≤ c.value + 1 <;> simp [hv]
    · have hn : ¬c.counted.followed = true := fun h => hf (by
        unfold Clock.counted Clock.followed at h
        unfold Clock.followed
        split at h
        · split at h <;> split at h <;> simp_all
        · exact h)
      simp only [Clock.silenced, if_true, Clock.toHoldover, if_neg hf, if_neg hn]

/-- A silence leaves the horn request of a clock's next count. -/
theorem Clock.silenced_asks (c : Clock) (lost : Bool) : (c.silenced lost).asks = c.asks := by
  unfold Clock.silenced
  split
  · exact c.toHoldover_counts.2
  · rfl

/-- The line is lost at a tick: a HEARD line is 500 ticks silent (R131). -/
def ClockUnit.losing (u : ClockUnit) : Bool := u.heard && decide (500 ≤ u.silence + 1)

/-- The silence count of a tick (R131). -/
theorem silenceTick_clock (x : ClockPort) : (silenceTick x).1 =
    { x.1 with silence := min (x.1.silence + 1) 4294967295, heard := x.1.heard && !x.1.losing
               game := x.1.game.silenced x.1.losing, aux := x.1.aux.silenced x.1.losing } := by
  have hs : capAt Config.countTop (x.1.silence + 1) = min (x.1.silence + 1) 4294967295 := by
    unfold capAt Config.countTop; split <;> omega
  have hl : (x.1.heard && decide (Config.silenceLimit ≤ min (x.1.silence + 1) 4294967295)) = x.1.losing := by
    unfold ClockUnit.losing Config.silenceLimit
    congr 2
    simp only [eq_iff_iff]
    omega
  unfold silenceTick loseLine
  dsimp only
  rw [hs, hl]
  cases x.1.losing
  · simp [Clock.silenced]
  · simp [Clock.silenced]

/-- The Clock Unit after an ms tick, in either order of silence and clocks (R131, R135, R144). -/
theorem clockTick_clock (silenceFirst : Bool) (u : ClockUnit) (p : Port) : (clockTick silenceFirst (u, p)).1 =
    { u with game := u.game.counted.silenced u.losing, aux := u.aux.counted.silenced u.losing
             horn := max (u.horn - 1) (max u.game.asks u.aux.asks)
             silence := min (u.silence + 1) 4294967295, heard := u.heard && !u.losing } := by
  unfold clockTick hornTick
  dsimp only
  split
  · rw [countClock_clock, countClock_clock, silenceTick_clock]
    simp only [ClockUnit.setClock, ClockUnit.clock, ClockUnit.losing, Clock.silenced_asks, Clock.silenced_counted,
      max_assoc]
  · rw [silenceTick_clock, countClock_clock, countClock_clock]
    simp only [ClockUnit.setClock, ClockUnit.clock, ClockUnit.losing, max_assoc]
    rfl

/-- A lost line puts a CONSOLE clock that is RUNNING into HOLDOVER (R131). -/
theorem Clock.silenced_eq (d : Clock) (lost : Bool) : d.silenced lost =
    { d with state := if lost && d.state == .running && !d.localSource then .holdover else d.state } := by
  cases lost
  · rfl
  · have hf : (true && d.state == .running && !d.localSource) = d.followed := by
      rw [Bool.true_and, Bool.and_comm]; rfl
    rw [hf]
    unfold Clock.silenced Clock.toHoldover
    cases d.followed <;> rfl

/-- A clock after a tick, by its state, its direction and its value (R131, R135). -/
theorem Clock.ticked_cases (c : Clock) (lost : Bool) :
    let d := c.counted.silenced lost
    let held : ClockState := if lost && c.state == .running && !c.localSource then .holdover else c.state
    (c.state = .noTime ∨ c.state = .stopped ∨ c.state = .expired → d = c) ∧
    d = { c with state := d.state, value := d.value } ∧
    (c.state = .running ∨ c.state = .holdover → c.up = false → 2 ≤ c.value →
      d.value = c.value - 1 ∧ d.state = held) ∧
    (c.state = .running ∨ c.state = .holdover → c.up = false → c.value ≤ 1 → d.value = 0 ∧ d.state = .expired) ∧
    (c.state = .running ∨ c.state = .holdover → c.up = true → c.value + 1 < 11999999 →
      d.value = c.value + 1 ∧ d.state = held) ∧
    (c.state = .running ∨ c.state = .holdover → c.up = true → 11999999 ≤ c.value + 1 →
      d.value = 11999999 ∧ d.state = .stopped) := by
  have hs := Clock.silenced_eq
  have counts : c.state = .running ∨ c.state = .holdover → c.counting = true := fun h => by
    rcases h with h | h <;> rw [Clock.counting, h] <;> rfl
  refine ⟨?_, ?_, fun hc hu hv => ?_, fun hc hu hv => ?_, fun hc hu hv => ?_, fun hc hu hv => ?_⟩
  · rintro (h | h | h) <;>
      simp [Clock.silenced, Clock.toHoldover, Clock.followed, Clock.counted, Clock.counting, h]
  · rw [hs]
    unfold Clock.counted
    repeat' split
    all_goals rfl
  · simp [hs, Clock.counted, counts hc, hu, show ¬c.value ≤ 1 by omega]
  · simp [hs, Clock.counted, counts hc, hu, hv]
  · simp [hs, Clock.counted, counts hc, hu, show ¬11999999 ≤ c.value + 1 by omega]
  · simp [hs, Clock.counted, counts hc, hu, hv]

/-- The horn request of a clock's next count, as the claims say it (R135, R144). -/
theorem Clock.asks_eq (c : Clock) : c.asks =
    if (c.state = .running ∨ c.state = .holdover) ∧ c.up = false ∧ c.value ≤ 1 ∧ c.hornOn = true
    then c.hornLength else 0 := by
  unfold Clock.asks Clock.runsOut
  cases hu : c.up <;> simp [and_assoc]

/-- The Clock Unit after an ms tick, but for the receiver (R131, R135, R144). -/
def ClockUnit.ticked (u : ClockUnit) : ClockUnit :=
  { u with game := u.game.counted.silenced u.losing, aux := u.aux.counted.silenced u.losing
           horn := max (u.horn - 1) (max u.game.asks u.aux.asks)
           silence := min (u.silence + 1) 4294967295, heard := u.heard && !u.losing }

/-- The Clock Unit at an ms tick that comes `dt` periods on: it has ticked, the Port has taken the notices of the time and of
the tick, and of all else only the receiver and the silence timers have run on (R5, R10, R135). -/
theorem Part.elapse_ticked (silenceFirst : Bool) (s : Part) (dt : Nat) (hl : s.tb.synthLocked = true) :
    let y := s.elapse dt
    let x := clockTick silenceFirst (y.clk, y.blk.port)
    x.1 = { s.clk.ticked with word := y.clk.word, gap := y.clk.gap, discards := y.clk.discards } ∧
    (s.blk.port.laidWhenRunning → Port.through (s.tb.syncLost dt ++
      s.clk.tickNoticed silenceFirst y.clk.discards) s.blk.port x.2) ∧
    Port.sameFixed s.blk.port x.2 ∧
    ({ y.blk with port := x.2 } : Blocks) = { s.blk with port := x.2, cap := y.blk.cap } := by
  have hclk := s.elapse_clk dt
  have hblk := s.elapse_blk dt
  have hfix := s.elapse_sameFixed dt
  have hclosed := closed_laidWhenRunning.elapse dt s
  have htime := fun h => s.elapse_through dt h hl
  dsimp only
  generalize s.elapse dt = y at *
  refine ⟨?_, fun h => Port.through_append (htime h) ?_,
    (closed_sameFixed _).clockTick silenceFirst (y.clk, y.blk.port) hfix, ?_⟩
  · rw [clockTick_clock, hclk]; rfl
  · have hsame : y.clk.tickNoticed silenceFirst y.clk.discards =
        s.clk.tickNoticed silenceFirst y.clk.discards := by rw [hclk]; rfl
    rw [← hsame]
    exact clockTick_through silenceFirst y.clk y.blk.port (hclosed h)
  · rw [hblk]

/-- A clock of a Clock Unit that has ticked. -/
theorem ClockUnit.ticked_clock (u : ClockUnit) (w : Option (List Byte)) (g n : Nat) (i : ClockId) :
    ClockUnit.clock { u.ticked with word := w, gap := g, discards := n } i =
      (u.clock i).counted.silenced u.losing := by
  cases i <;> rfl

/-- The parts an ms tick leaves: the Clock Unit and the Port at the tick, the time to it, and nothing else (R10). -/
theorem Part.msTick_eq (silenceFirst : Bool) (s : Part) (hl : s.tb.synthLocked = true) (dt : Nat)
    (hdt : 27000 - s.tb.sinceMs = dt) :
    let y := s.elapse dt
    let x := clockTick silenceFirst (y.clk, y.blk.port)
    let t := s.msTick silenceFirst
    t.clk = x.1 ∧ t.sec = s.sec ∧ t.blk = { y.blk with port := x.2 } := by
  rw [Part.msTick, if_pos hl, Config.msPeriods, hdt]
  exact ⟨rfl, s.elapse_sec dt, rfl⟩

/-- Settles O22: each clock by its state, direction and value, the Port by the chain of the tick. -/
theorem msTickCountsTheClocks : Obligations.MsTickCountsTheClocks := by
  intro silenceFirst s i hl
  generalize hdt : 27000 - s.part.tb.sinceMs = dt
  obtain ⟨hticked, hthrough, ⟨-, -, htick, -⟩, hrest⟩ := s.part.elapse_ticked silenceFirst dt hl
  have hword := s.part.elapse_hunting dt
  obtain ⟨c1, c2, c3, c4, c5, c6⟩ := (s.part.clk.clock i).ticked_cases s.part.clk.losing
  obtain ⟨t, ht, hpart⟩ : ∃ t, exec (.msTick silenceFirst) s = .next t ∧ t.part = s.part.msTick silenceFirst :=
    ⟨_, rfl, rfl⟩
  obtain ⟨hclk, hsec, hblk⟩ := s.part.msTick_eq silenceFirst hl dt hdt
  rw [← hpart] at hclk hsec hblk
  rw [hticked] at hclk
  rw [hrest] at hblk
  refine ⟨t, ht, ?_⟩
  have hport : t.part.blk.port = _ := congrArg Blocks.port hblk
  have hcap : t.part.blk.cap = _ := congrArg Blocks.cap hblk
  dsimp only at hport hcap
  rw [← hport, ← hcap] at hblk
  rw [← hport] at htick
  rw [← hport] at hthrough
  generalize (s.part.elapse dt).clk.word = w, (s.part.elapse dt).clk.gap = g,
    (s.part.elapse dt).clk.discards = n at *
  rw [hclk, ClockUnit.ticked_clock]
  refine ⟨c1, c2, ?_, rfl, rfl, rfl, hword, hthrough, c3, c4, c5, c6, hsec, hblk, htick⟩
  dsimp only [ClockUnit.ticked]
  rw [Clock.asks_eq, Clock.asks_eq]

end Sys2Proof.Machine
end


section
/-! PROOFS. The frame mark: the part as its work finds it, and the marks that leave the part in CONFIG (O15, O17, O20). -/

namespace Sys2Proof.Machine

/-! ## The part as a mark's work finds it -/

/-- What the part `b` is when a mark `dt` periods after a state samples the RUN request: the time has passed, the frame has
begun, the sections and the flash counts have had their work, and all else stands (R2, R5, R38 to R40, R88, R129, R146). -/
structure State.Begun (s : State) (first : Bool) (dt : Nat) (b : Part) : Prop where
  sec : b.sec = s.markSections first
  clk : s.markClock b.clk
  blk : b.blk = { s.blk with port := b.blk.port, cap := b.blk.cap }
  rings : b.blk.cap.rings = s.blk.cap.rings
  input : ∀ i, b.blk.cap.input i = { s.blk.cap.input i with state := (b.blk.cap.input i).state
                                                            silence := (b.blk.cap.input i).silence }
  input_kept : ∀ i, (s.blk.cap.input i).silence = none → b.blk.cap.input i = s.blk.cap.input i
  fixed : Port.sameFixed s.port b.blk.port
  desks : b.blk.port.desks = s.port.desks
  config : s.port.runState = .config → b.blk.port = s.port
  wf : Memory.wf s.port.mem = true → Memory.wf b.blk.port.mem = true
  through : s.port.laidWhenRunning → Port.through (s.part.tb.syncLost dt) s.port b.blk.port
  outside : s.port.laid → s.port.agreesOutside b.blk.port
  relocking : b.tb.relocking = s.part.tb.relocking
  rate : b.tb.rate = s.part.tb.rate

/-- A mark, cut at the sampling of the RUN request. -/
def Part.opened (first : Bool) (s : Part) : Part :=
  { s with tb := if first then s.tb.firstFrame else s.tb.nextFrame
           sec := (if first then s.sec else s.sec.countHealth).clearBuffers
           clk := flashMark s.clk }

theorem Part.mark_eq (first : Bool) (m : MarkInput) (s : Part) :
    s.mark first m = ((s.opened first).sampleRun m).closeMark := rfl

/-- The part once the time to a mark has passed, and the frame begun. -/
theorem State.begun_of_elapse (s : State) (first : Bool) (dt : Nat) (x : Part) (y : Part) (hy : x = y.elapse dt)
    (hrest : y.sec = s.part.sec ∧ y.clk = s.part.clk ∧ y.blk = s.part.blk ∧
      y.tb.relocking = s.part.tb.relocking ∧ y.tb.rate = s.part.tb.rate)
    (hthrough : s.port.laidWhenRunning → Port.through (s.part.tb.syncLost dt) s.port x.blk.port) :
    s.Begun first dt (x.opened first) := by
  obtain ⟨tb, sec, clk, blk⟩ := y
  obtain ⟨rfl, rfl, rfl, hrelock, hrate⟩ := hrest
  generalize hz : (⟨tb, s.part.sec, s.part.clk, s.part.blk⟩ : Part) = z at hy
  have hsec : z.sec = s.part.sec := by rw [← hz]
  have hclk : z.clk = s.part.clk := by rw [← hz]
  have hblk : z.blk = s.part.blk := by rw [← hz]
  have htb : z.tb = tb := by rw [← hz]
  subst hy
  obtain ⟨krate, -, krelock, -⟩ := z.elapse_tb_kept dt
  obtain ⟨hrings, hinputs⟩ := z.elapse_inputs dt
  have eclk := z.elapse_clk dt
  have eblk := z.elapse_blk dt
  have ehunt := z.elapse_hunting dt
  rw [hblk] at hrings hinputs eblk
  rw [hclk] at eclk ehunt
  refine ⟨?_, ⟨?_, ?_, ehunt⟩, eblk, hrings, fun i => ?_, fun i hi => ?_, ?_, ?_, fun h => ?_, fun h => ?_, hthrough,
    fun h => ?_, ?_, ?_⟩
  · show (if first then (z.elapse dt).sec else (z.elapse dt).sec.countHealth).clearBuffers = _
    rw [Part.elapse_sec, hsec]; rfl
  · show flashMark (z.elapse dt).clk = { s.part.clk with score := (flashMark (z.elapse dt).clk).score
                                                         word := (z.elapse dt).clk.word
                                                         gap := (z.elapse dt).clk.gap
                                                         discards := (z.elapse dt).clk.discards }
    rw [eclk]; rfl
  · show (flashMark (z.elapse dt).clk).score = _
    rw [eclk]; rfl
  · rcases hinputs i with h | h
    · show (z.elapse dt).blk.cap.input i = { s.blk.cap.input i with state := ((z.elapse dt).blk.cap.input i).state
                                                                    silence := ((z.elapse dt).blk.cap.input i).silence }
      rw [h]
    · show (z.elapse dt).blk.cap.input i = { s.blk.cap.input i with state := ((z.elapse dt).blk.cap.input i).state
                                                                    silence := ((z.elapse dt).blk.cap.input i).silence }
      rw [h]
      exact (Input.elapse_eq dt _).1
  · rcases hinputs i with h | h
    · exact h
    · exact h.trans ((Input.elapse_eq dt _).2 hi)
  · have h := z.elapse_sameFixed dt
    rw [hblk] at h; exact h
  · have h := z.elapse_desks dt
    rw [hblk] at h; exact h
  · have e := z.elapse_port_config dt (by rw [hblk]; exact h)
    rw [hblk] at e; exact e
  · exact closed_wf.elapse dt z (by rw [hblk]; exact h)
  · have e := z.elapse_agreesOutside dt (by rw [hblk]; exact h)
    rw [hblk] at e; exact e
  · show (if first then (z.elapse dt).tb.firstFrame else (z.elapse dt).tb.nextFrame).relocking = _
    rw [← hrelock, ← htb, ← krelock]
    cases first <;> rfl
  · show (if first then (z.elapse dt).tb.firstFrame else (z.elapse dt).tb.nextFrame).rate = _
    rw [← hrate, ← htb, ← krate]
    cases first <;> rfl

/-- A frame mark at a LOCKED synthesiser begins a frame and does the work of the run state (R4, R11). -/
theorem State.frameMark_begun (m : MarkInput) (s : State) (hl : s.part.tb.synthLocked = true) :
    ∃ b, exec (.frameMark m) s = .next { s with part := (b.sampleRun m).closeMark } ∧
      s.Begun false s.toMark b := by
  refine ⟨(s.part.elapse s.toMark).opened false, State.next_onPart ?_, ?_⟩
  · rw [Part.frameMark, if_pos hl]; rfl
  · exact s.begun_of_elapse false s.toMark _ s.part rfl ⟨rfl, rfl, rfl, rfl, rfl⟩
      fun h => s.part.elapse_through s.toMark h hl

/-- The lock of an UNLOCKED synthesiser begins the first frame and does the work of the run state (R2, R11). -/
theorem State.synthesiserLock_begun (dt : Nat) (m : MarkInput) (s : State) (hl : s.part.tb.synthLocked = false) :
    exec (.synthesiserLock dt m) s = .next { s with part :=
      ((((s.part.referencePresent.elapse dt).opened true).sampleRun m).closeMark) } ∧
      s.Begun true dt ((s.part.referencePresent.elapse dt).opened true) := by
  refine ⟨State.next_onPart ?_, ?_⟩
  · rw [Part.lockSynthesiser, if_neg (by simp [hl])]; rfl
  · exact s.begun_of_elapse true dt _ s.part.referencePresent rfl ⟨rfl, rfl, rfl, rfl, rfl⟩
      fun h => s.part.elapse_lock_through dt h hl

/-! ## A mark that leaves the part in CONFIG -/

/-- The states of the sections, once they have settled (R41). -/
theorem Sections.newStates_get (c : Sections) (i : Nat) (h : i < 80) : tget .live c.newStates i = c.stateOf i := by
  unfold Sections.newStates
  rw [tget_eq_getElem _ _ _ (by simpa using h), List.getElem_map, List.getElem_range]

/-- In CONFIG the sections settle with no notice (R44, R189). -/
theorem settleSections_config (c : Sections) (p : Port) (h : p.runState = .config) :
    settleSections false (c, p) = ({ c with states := c.newStates }, p) := by
  have hfold : ∀ l : List Nat, l.foldl (sectionNotice c false) p = p := fun l => by
    induction l with
    | nil => rfl
    | cons i l ih =>
      have hone : sectionNotice c false p i = p := by
        unfold sectionNotice
        simp [Port.notice_config _ _ _ _ h]
      rw [List.foldl_cons, hone, ih]
  unfold settleSections
  rw [hfold]

/-- A canvas composed in CONFIG has no layers, and is black (R13). -/
theorem Blocks.compose_config (b : Blocks) (u : ClockUnit) (h : b.port.runState = .config) :
    (∀ x y, (b.compose u).comp.mainFrame.pixel x y = .black) ∧
    (∀ x y, (b.compose u).comp.ribbonFrame.pixel x y = .black) := by
  unfold Blocks.compose Port.running
  rw [h]
  exact ⟨fun _ _ => rfl, fun _ _ => rfl⟩

/-- A mark whose work is that of CONFIG, on all but the Port: the sections settle and are sent, and both frames are black
(R12, R13, R41). -/
structure Part.EndsDark (b t : Part) : Prop where
  main : ∀ x y, t.blk.comp.mainFrame.pixel x y = .black
  ribbon : ∀ x y, t.blk.comp.ribbonFrame.pixel x y = .black
  sec : t.sec = ({ b.sec with states := t.sec.states } : Sections).send
  states : ∀ i, i < 80 → tget .live t.sec.states i = t.sec.stateOf i
  clk : t.clk = b.clk
  blk : t.blk = { b.blk with port := t.blk.port, comp := t.blk.comp }
  comp : t.blk.comp = { b.blk.comp with mainFrame := t.blk.comp.mainFrame, ribbonFrame := t.blk.comp.ribbonFrame }

/-- A mark ends in CONFIG: the sections settle and are sent, both frames are black, and the part page is written. -/
theorem Part.idle_closeMark (s : Part) (h : s.blk.port.runState = .config) :
    s.EndsDark s.idleWork.closeMark ∧ s.idleWork.closeMark.blk.port = s.blk.port.writePartPage := by
  have hidle : s.idleWork = { s with sec := { s.sec with states := s.sec.newStates } } := by
    unfold Part.idleWork
    rw [settleSections_config _ _ h]
  obtain ⟨hmain, hribbon⟩ := s.blk.compose_config s.clk h
  rw [hidle]
  exact ⟨⟨hmain, hribbon, rfl, fun i hi => s.sec.newStates_get i hi, rfl, rfl, rfl⟩, rfl⟩

/-! ## The work of a mark, by run state and RUN request (R11) -/

theorem Port.running_of {p : Port} (h : p.runState = .running) : p.running = true := by
  unfold Port.running; rw [h]; rfl

theorem Port.not_running_of {p : Port} (h : p.runState = .config) : p.running = false := by
  unfold Port.running; rw [h]; rfl

section SampleRun

variable (m : MarkInput) (b : Part)

theorem Part.sampleRun_goesOn (hc : b.blk.port.runState = .running) (hr : b.blk.port.runRequest = true) :
    b.sampleRun m = Part.showWork m false { b with blk := b.blk.onPort Port.advanceTick } := by
  unfold Part.sampleRun
  dsimp only
  rw [if_pos (Port.running_of hc), if_pos hr]

theorem Part.sampleRun_stops (hc : b.blk.port.runState = .running) (hr : b.blk.port.runRequest = false) :
    b.sampleRun m = Part.idleWork { b with blk := b.blk.stop } := by
  unfold Part.sampleRun
  dsimp only
  rw [if_pos (Port.running_of hc), if_neg (by simp [hr])]

theorem Part.sampleRun_stays (hc : b.blk.port.runState = .config) (hr : b.blk.port.runRequest = false) :
    b.sampleRun m = b.idleWork := by
  unfold Part.sampleRun
  dsimp only
  rw [if_neg (by simp [Port.not_running_of hc]), if_neg (by simp [hr])]

theorem Part.sampleRun_starts (hc : b.blk.port.runState = .config) (hr : b.blk.port.runRequest = true)
    (hq : b.blk.port.attempt.runState = .running) :
    b.sampleRun m = Part.showWork m true { b with blk := b.blk.onPort Port.attempt } := by
  unfold Part.sampleRun
  dsimp only
  rw [if_neg (by simp [Port.not_running_of hc]), if_pos hr,
    if_pos (show (b.blk.onPort Port.attempt).port.running = true from Port.running_of hq)]

theorem Part.sampleRun_fails (hc : b.blk.port.runState = .config) (hr : b.blk.port.runRequest = true)
    (hq : b.blk.port.attempt.runState = .config) :
    b.sampleRun m = Part.idleWork { b with blk := b.blk.onPort Port.attempt } := by
  unfold Part.sampleRun
  dsimp only
  rw [if_neg (by simp [Port.not_running_of hc]), if_pos hr, if_neg (by simp [Blocks.onPort, Port.not_running_of hq])]

end SampleRun

/-- The latches once set, with the interrupt behind them, and nothing else (R191, R192). -/
theorem Port.setLatches_eq (p : Port) (l : Latches) : p.setLatches l =
    { p with latches := l, irq := (p.setLatches l).irq, messages := (p.setLatches l).messages } := by
  unfold Port.setLatches Port.settle
  split <;> rfl

section Begun

variable {s : State} {first : Bool} {dt : Nat} {b : Part}

/-- What is true of all but the Port where a mark's work is that of CONFIG (R12, R13). -/
theorem State.Begun.standsDark (h : s.Begun first dt b) {t : State} (x : Part)
    (hx : x = { b with blk := { b.blk with port := x.blk.port } }) (ht : x.EndsDark t.part) :
    s.standsDark first t := by
  have hsec : x.sec = b.sec := by rw [hx]
  have hclk : x.clk = b.clk := by rw [hx]
  have hcap : t.part.blk.cap = b.blk.cap := by rw [ht.blk, hx]
  have hblk := h.blk
  refine ⟨ht.main, ht.ribbon, ?_, ?_, ?_, fun i => ?_, fun i hi => ?_, ?_, ?_, ht.states⟩
  · show t.part.blk = { s.part.blk with port := t.part.blk.port, cap := t.part.blk.cap, comp := t.part.blk.comp }
    rw [hcap]
    rw [ht.blk, hx, hblk]
  · show t.part.blk.comp = { s.part.blk.comp with mainFrame := t.part.blk.comp.mainFrame
                                                  ribbonFrame := t.part.blk.comp.ribbonFrame }
    have hcomp : x.blk.comp = s.part.blk.comp := by rw [hx, hblk]
    rw [← hcomp]
    exact ht.comp
  · show t.part.blk.cap.rings = _
    rw [hcap]; exact h.rings
  · show t.part.blk.cap.input i = { s.part.blk.cap.input i with state := (t.part.blk.cap.input i).state
                                                                silence := (t.part.blk.cap.input i).silence }
    rw [hcap]; exact h.input i
  · show t.part.blk.cap.input i = _
    rw [hcap]; exact h.input_kept i hi
  · show s.markClock t.part.clk
    rw [ht.clk, hclk]; exact h.clk
  · show t.part.sec = ({ s.markSections first with states := t.part.sec.states } : Sections).send
    rw [← h.sec, ← hsec]; exact ht.sec

/-- CONFIG with no RUN request (R11). -/
theorem State.Begun.staysConfig (h : s.Begun first dt b) (m : MarkInput) (hc : s.port.runState = .config)
    (hr : s.port.runRequest = false) (hw : Memory.wf s.port.mem = true) :
    s.staysConfig first { s with part := (b.sampleRun m).closeMark } := by
  have hp : b.blk.port = s.port := h.config hc
  have hsample := b.sampleRun_stays m (by rw [hp]; exact hc) (by rw [hp]; exact hr)
  obtain ⟨hdark, hport⟩ := b.idle_closeMark (by rw [hp]; exact hc)
  rw [hsample]
  generalize b.idleWork.closeMark = x at hdark hport
  rw [hp] at hport
  obtain ⟨kept, w0, w4, w8, hrest⟩ := s.port.writePartPage_reads hw
  have hflag : flagNat s.port.running = 0 := by unfold Port.running; rw [hc]; rfl
  rw [hflag] at w0
  rw [← hport] at kept w0 w4 w8 hrest
  refine ⟨?_, w0, w4, w8, kept, hrest, h.standsDark (t := { s with part := x }) b rfl hdark⟩
  show x.blk.port.runState = _
  rw [hrest]; exact hc

/-- CONFIG with the RUN request set and a record that fails (R172). -/
theorem State.Begun.entryFails (h : s.Begun first dt b) (m : MarkInput) (hc : s.port.runState = .config)
    (hr : s.port.runRequest = true) (hbad : (readLayout s.port.mem).check.1 ≠ .ok)
    (hw : Memory.wf s.port.mem = true) :
    s.entryFails first { s with part := (b.sampleRun m).closeMark } := by
  have hp : b.blk.port = s.port := h.config hc
  generalize hcheck : (readLayout s.port.mem).check = c at hbad
  have hattempt : s.port.attempt = s.port.failEntry c.1 c.2 := by
    unfold Port.attempt
    dsimp only
    rw [hcheck, if_neg hbad]
  have hconfig : s.port.attempt.runState = .config := by
    rw [hattempt]; exact (Port.setLatches_runState _ _).trans hc
  have hsample := b.sampleRun_fails m (by rw [hp]; exact hc) (by rw [hp]; exact hr) (by rw [hp]; exact hconfig)
  obtain ⟨hdark, hport⟩ := Part.idle_closeMark { b with blk := b.blk.onPort Port.attempt } (by
    show b.blk.port.attempt.runState = _
    rw [hp]; exact hconfig)
  rw [hsample]
  generalize Part.closeMark _ = x at hdark hport
  have hx : x.blk.port = s.port.attempt.writePartPage := by
    rw [← hp]; exact hport
  obtain ⟨kept, w0, w4, w8, hrest⟩ := s.port.attempt.writePartPage_reads (by
    rw [hattempt]; exact (congrArg Memory.wf (Port.setLatches_mem _ _)).trans hw)
  have hflag : flagNat s.port.attempt.running = 0 := by rw [Port.not_running_of hconfig]; rfl
  rw [hflag] at w0
  rw [← hx] at kept w0 w4 w8 hrest
  have hq := Port.setLatches_eq { s.port with result := c.1, resultArea := c.2, runRequest := false }
    { s.port.latches with layoutBad := true }
  have hfollows : s.port.interruptFollows s.port.attempt := by
    rw [hattempt]
    exact Port.setLatches_follows (p := s.port)
      (q := { s.port with result := c.1, resultArea := c.2, runRequest := false }) _ rfl rfl
  change s.port.failEntry c.1 c.2 = _ at hq
  rw [← hattempt] at hq
  generalize s.port.attempt = q at hq hx kept w0 w4 w8 hrest hfollows
  have hmem : q.mem = s.port.mem := by rw [hq]
  have hres : q.result = c.1 ∧ q.resultArea = c.2 := by rw [hq]; exact ⟨rfl, rfl⟩
  rw [hmem] at kept
  rw [hres.1] at w4
  rw [hres.2] at w8
  have ht := h.standsDark (t := { s with part := x }) _ rfl hdark
  have hxq : x.blk.port = { s.port with
      mem := x.blk.port.mem, runRequest := false, result := c.1, resultArea := c.2
      latches := { s.port.latches with layoutBad := true }, irq := q.irq, messages := q.messages } := by
    rw [hrest, hq]
  unfold State.entryFails
  dsimp only [State.port] at hcheck ⊢
  rw [hcheck]
  refine ⟨?_, ?_, ?_, ?_, ?_, ?_, w0, w4, w8, kept, ?_, ht⟩
  · rw [hxq]; exact hc
  · rw [hxq]
  · rw [hxq]
  · rw [hxq]
  · rw [hxq]
  · show s.port.interruptFollows x.blk.port
    rw [hrest]; exact hfollows
  · rw [hxq]

end Begun

end Sys2Proof.Machine
end


section
/-! PROOFS. The frames a mark composes (O17). -/

namespace Sys2Proof.Machine

/-! ## Sorted lists under a filter, and with a last item -/

/-- Insertion into a sorted list and a filter come to the same in either order. -/
theorem filter_insertBy {α : Type} (key : α → Nat) (p : α → Bool) (x : α) (l : List α)
    (h : l.Pairwise fun a b => key a ≤ key b) :
    (insertBy key x l).filter p = if p x then insertBy key x (l.filter p) else l.filter p := by
  induction l with
  | nil => cases hp : p x <;> simp [insertBy, hp]
  | cons a l ih =>
    obtain ⟨ha, hl⟩ := List.pairwise_cons.mp h
    by_cases hx : key x < key a
    · have front : ∀ m : List α, (∀ b ∈ m, key x < key b) → insertBy key x m = x :: m := fun m hm => by
        cases m with
        | nil => rfl
        | cons b m => exact if_pos (hm b (by simp))
      have hlt : ∀ b ∈ (a :: l).filter p, key x < key b := fun b hb => by
        rcases List.mem_cons.mp (List.mem_filter.mp hb).1 with rfl | hb
        · exact hx
        · exact hx.trans_le (ha b hb)
      rw [front _ hlt, insertBy, if_pos hx, List.filter_cons]
    · rw [insertBy, if_neg hx, List.filter_cons, List.filter_cons, ih hl]
      cases hpa : p a <;> cases hpx : p x <;> simp [insertBy, hx]

/-- Sorting and a filter come to the same in either order. -/
theorem filter_sortBy {α : Type} (key : α → Nat) (p : α → Bool) (l : List α) :
    (sortBy key l).filter p = sortBy key (l.filter p) := by
  have general : ∀ l acc : List α, acc.Pairwise (fun a b => key a ≤ key b) →
      (l.foldl (fun acc x => insertBy key x acc) acc).filter p =
        (l.filter p).foldl (fun acc x => insertBy key x acc) (acc.filter p) := fun l => by
    induction l with
    | nil => exact fun _ _ => rfl
    | cons x l ih =>
      intro acc hacc
      rw [List.foldl_cons, ih _ (insertBy_sorted key x acc hacc), filter_insertBy key p x acc hacc, List.filter_cons]
      cases p x <;> rfl
  exact general l [] List.Pairwise.nil

/-- An item of the greatest key goes to the end. -/
theorem insertBy_last {α : Type} (key : α → Nat) (x : α) (l : List α) (h : ∀ a ∈ l, key a < key x) :
    insertBy key x l = l ++ [x] := by
  induction l with
  | nil => rfl
  | cons a l ih =>
    have := h a (by simp)
    rw [insertBy, if_neg (by omega), ih fun b hb => h b (by simp [hb])]; rfl

/-- An item of a lesser key goes before a last one. -/
theorem insertBy_append_last {α : Type} (key : α → Nat) (x z : α) (l : List α) (h : key x < key z) :
    insertBy key x (l ++ [z]) = insertBy key x l ++ [z] := by
  induction l with
  | nil => exact if_pos h
  | cons a l ih =>
    rw [List.cons_append, insertBy, insertBy, ih]
    split <;> rfl

/-- Sorting puts the item of the greatest key last, and the rest as without it. -/
theorem sortBy_greatest {α : Type} (key : α → Nat) (pre post : List α) (z : α)
    (h : ∀ o ∈ pre ++ post, key o < key z) : sortBy key (pre ++ z :: post) = sortBy key (pre ++ post) ++ [z] := by
  have after : ∀ post acc : List α, (∀ o ∈ post, key o < key z) →
      post.foldl (fun acc x => insertBy key x acc) (acc ++ [z]) =
        post.foldl (fun acc x => insertBy key x acc) acc ++ [z] := fun post => by
    induction post with
    | nil => exact fun _ _ => rfl
    | cons o post ih =>
      intro acc ho
      rw [List.foldl_cons, List.foldl_cons, insertBy_append_last key o z acc (ho o (by simp)),
        ih _ fun x hx => ho x (by simp [hx])]
  have hpre : ∀ a ∈ sortBy key pre, key a < key z := fun a ha =>
    h a (List.mem_append_left _ ((sortBy_perm_sorted key pre).1.mem_iff.mp ha))
  unfold sortBy at hpre ⊢
  rw [List.foldl_append, List.foldl_append, List.foldl_cons, insertBy_last key z _ hpre,
    after post _ fun o ho => h o (List.mem_append_right _ ho)]

/-! ## The layers over a pixel (R23, R29) -/

/-- A zone is drawn at a pixel of a canvas: it is drawn, on that canvas, and its rectangle has the pixel (R29). -/
def ZoneRun.drawnAt (canvas : Canvas) (x y : Nat) (z : ZoneRun) : Bool :=
  (z.drawn && z.zone.canvas == canvas) && z.zone.rect.hasPixel x y

/-- A pixel of a stack of layers is that of the layers which have it. -/
theorem foldl_over_filter (x y : Nat) (l : List Layer) (p : Pixel) :
    l.foldl (Layer.over x y) p = (l.filter fun a => a.rect.hasPixel x y).foldl (Layer.over x y) p := by
  induction l generalizing p with
  | nil => rfl
  | cons a l ih =>
    rw [List.foldl_cons, ih, List.filter_cons]
    cases ha : a.rect.hasPixel x y
    · have hover : Layer.over x y p a = p := by unfold Layer.over; rw [ha]; rfl
      rw [hover]; rfl
    · rfl

/-- A pixel of a canvas shows the zones drawn at it over black, in rising rank (R29). -/
def Blocks.pixelOf (b : Blocks) (u : ClockUnit) (canvas : Canvas) (x y : Nat) (zones : List ZoneRun) : Pixel :=
  ((sortBy (fun z => z.zone.rank) (zones.filter (ZoneRun.drawnAt canvas x y))).map (b.layer u)).foldl
    (Layer.over x y) .black

/-- The pixel of a canvas composed while RUNNING is so made of the zones of the plan (R13, R29). -/
theorem Blocks.layers_pixel (b : Blocks) (u : ClockUnit) (canvas : Canvas) (x y w h : Nat) :
    (Frame.mk w h (b.layers u canvas)).pixel x y = b.pixelOf u canvas x y b.comp.zones := by
  unfold Frame.pixel Blocks.layers Blocks.pixelOf
  rw [foldl_over_filter, List.filter_map]
  have hrect : ((fun a : Layer => a.rect.hasPixel x y) ∘ b.layer u) = fun z => z.zone.rect.hasPixel x y := rfl
  rw [hrect, filter_sortBy, List.filter_filter]
  congr 4
  funext z
  exact Bool.and_comm _ _

/-- Where no zone is drawn the pixel is black (R29). -/
theorem Blocks.pixelOf_none (b : Blocks) (u : ClockUnit) (canvas : Canvas) (x y : Nat) (zones : List ZoneRun)
    (h : ∀ z ∈ zones, ZoneRun.drawnAt canvas x y z = false) : b.pixelOf u canvas x y zones = .black := by
  have hnone : zones.filter (ZoneRun.drawnAt canvas x y) = [] := by
    rw [List.filter_eq_nil_iff]; intro z hz; rw [h z hz]; simp
  unfold Blocks.pixelOf
  rw [hnone]; rfl

/-- Where one zone is the highest drawn, the pixel is its layer over what the canvas shows without it (R29). -/
theorem Blocks.pixelOf_highest (b : Blocks) (u : ClockUnit) (canvas : Canvas) (x y : Nat) (pre post : List ZoneRun)
    (z : ZoneRun) (hz : ZoneRun.drawnAt canvas x y z = true)
    (h : ∀ o ∈ pre ++ post, ZoneRun.drawnAt canvas x y o = true → o.zone.rank < z.zone.rank) :
    b.pixelOf u canvas x y (pre ++ z :: post) =
      Layer.over x y (b.pixelOf u canvas x y (pre ++ post)) (b.layer u z) := by
  unfold Blocks.pixelOf
  rw [List.filter_append, List.filter_cons_of_pos hz, List.filter_append,
    sortBy_greatest _ _ _ z fun o ho => ?_, List.map_append, List.foldl_append]
  · rfl
  · rw [← List.filter_append] at ho
    obtain ⟨hm, hd⟩ := List.mem_filter.mp ho
    exact h o hm hd

/-- The frames composed while RUNNING (R13, R29). -/
theorem Blocks.compose_running (b : Blocks) (u : ClockUnit) (x y : Nat) (h : b.port.runState = .running) :
    (b.compose u).comp.mainFrame.pixel x y = b.pixelOf u .main x y b.comp.zones ∧
    (b.compose u).comp.ribbonFrame.pixel x y = b.pixelOf u .ribbon x y b.comp.zones := by
  unfold Blocks.compose
  rw [Port.running_of h]
  exact ⟨b.layers_pixel u .main x y _ _, b.layers_pixel u .ribbon x y _ _⟩

/-- A layer with the pixel, drawn over another (R29). -/
theorem Layer.over_eq (x y : Nat) (below : Pixel) (l : Layer) (h : l.rect.hasPixel x y = true) :
    Layer.over x y below l =
      let c := l.content.pixel (x - l.rect.x) (y - l.rect.y)
      if l.sheer = true ∧ c = .black then below else mixPixel l.alpha c below := by
  unfold Layer.over
  rw [if_pos h]
  simp only [Bool.and_eq_true, beq_iff_eq]

/-- The zones drawn at a pixel, as the claims say it. -/
theorem ZoneRun.drawnAt_iff (canvas : Canvas) (x y : Nat) (z : ZoneRun) : z.drawnAt canvas x y = true ↔
    z.zone.canvas = canvas ∧ z.vis ≠ .hidden ∧ z.yielded = false ∧ z.zone.rect.x ≤ x ∧
      x < z.zone.rect.x + z.zone.rect.w ∧ z.zone.rect.y ≤ y ∧ y < z.zone.rect.y + z.zone.rect.h := by
  unfold ZoneRun.drawnAt ZoneRun.drawn Rect.hasPixel
  have hv : z.vis.drawn = true ↔ z.vis ≠ .hidden := by cases z.vis <;> simp [Visibility.drawn]
  simp only [Bool.and_eq_true, hv, Bool.not_eq_true', beq_iff_eq, decide_eq_true_eq]
  tauto

/-- Settles O17: a CONFIG mark has no layers and no notices; a canvas composed while RUNNING is a fold over the sorted zones,
whose highest drawn zone at a pixel comes last. -/
theorem configMarkShowsBlack : Obligations.ConfigMarkShowsBlack := by
  refine ⟨fun m s hl hc hr hw => ?_, fun m s hl => ?_, fun b u canvas x y hrun => ?_⟩
  · obtain ⟨b, hexec, hb⟩ := s.frameMark_begun m hl
    exact ⟨_, hexec, hb.staysConfig m hc hr hw⟩
  · obtain ⟨b, hexec, -⟩ := s.frameMark_begun m hl
    generalize b.sampleRun m = z at hexec
    exact ⟨_, z.blk, hexec, rfl, rfl, fun hw => (z.blk.port.writePartPage_reads hw).1⟩
  · intro shown drawn
    have hshown : ∀ c : Blocks, c.port.runState = .running → shown c = c.pixelOf u canvas x y c.comp.zones :=
      fun c hc => by cases canvas <;> [exact (c.compose_running u x y hc).1; exact (c.compose_running u x y hc).2]
    refine ⟨fun hnone => ?_, fun a pre post z ha hzones hz hrank => ?_⟩
    · rw [hshown b hrun]
      exact b.pixelOf_none u canvas x y _ fun z hz =>
        Bool.eq_false_iff.mpr fun hd => hnone z hz ((z.drawnAt_iff canvas x y).mp hd)
    · intro below c alpha mix
      have hbelow : below = b.pixelOf u canvas x y (pre ++ post) := hshown _ hrun
      have hdrawn := (z.drawnAt_iff canvas x y).mpr hz
      have hall : b.comp.zones = pre ++ z :: post := by unfold Compositor.zones; rw [ha]; exact hzones
      rw [hshown b hrun, hall, b.pixelOf_highest u canvas x y pre post z hdrawn fun o ho hd =>
        hrank o ho ((o.drawnAt_iff canvas x y).mp hd), ← hbelow,
        Layer.over_eq x y below (b.layer u z) (Bool.and_eq_true_iff.mp hdrawn).2]
      have halpha : alpha = z.vis.alpha := by
        show (match z.vis with | .hidden => _ | .fadingIn k n => _ | .shown => _ | .fadingOut k n => _) = _
        cases z.vis <;> rfl
      have hmix : (⟨mix c.c0 below.c0, mix c.c1 below.c1, mix c.c2 below.c2⟩ : Pixel) = mixPixel z.vis.alpha c below := by
        rw [← halpha]; rfl
      rw [hmix]
      rfl

end Sys2Proof.Machine
end


section
/-! PROOFS. The show stop (O19). -/

namespace Sys2Proof.Machine

/-- Every small change of the part keeps the Port laid out as a RUNNING layout has it. -/
theorem closed_laid : Port.Closed Port.laid where
  write _ _ _ _ hp := ⟨wf_memWrite _ _ _ hp.1, hp.2⟩
  desks _ _ hp := hp
  setLatches p l hp := by
    refine ⟨by rw [Port.setLatches_mem]; exact hp.1, fun i hi => ?_⟩
    unfold Port.area; rw [Port.setLatches_areas]; exact hp.2 i hi
  evalConditions p hp := by rw [Port.evalConditions_eq]; exact hp
  noticeWrite _ _ hp := hp
  logWrite _ _ hp := hp
  overrun _ _ hp := hp
  logFull _ _ hp := hp
  unstated _ _ hp := hp
  loadLocks _ _ hp := hp

/-! ## The changes of the Port at a show stop, owner by owner -/

/-- The MARK_CLIP cards of the clips at a show stop (R126). -/
def Replay.cardsStopped (r : Replay) : List PortChange :=
  (List.range 32).flatMap fun c => match r.clip c with
    | none => []
    | some x => [slotMoves .replay x.slot 4 4 (toWord c)]

/-- The STOP records of some passes (R166, R167). -/
def Lanes.passesStopped (l : Lanes) (passes : List Pass) : List PortChange :=
  passes.flatMap fun p => match l.card p.slot with
    | none => []
    | some c => c.passLogged 3 p

/-- The MESSAGE cards of the queue at a show stop (R167). -/
def Lanes.cardsStopped (l : Lanes) : List PortChange :=
  l.queue.map fun c => slotMoves .message c.slot 4 4 (toWord c.completed)

/-- The staged plan's card at a show stop (R33). -/
def Compositor.cardStopped (c : Compositor) : List PortChange :=
  match c.staged with
  | none => []
  | some p => [slotMoves .plan p.slot 4 4 0]

/-- The Rotator's show stop, but for the Port (R85). -/
theorem Blocks.stopRotator_eq (b : Blocks) : b.stopRotator =
    { b with port := b.stopRotator.port
             rot := { b.rot with airings := [], bank := b.rot.bank.map BankSlot.abandon, queue := [] } } := by
  unfold Blocks.stopRotator Blocks.endAirings
  simp

/-- A card finished STOPPED at a show stop. -/
theorem Port.complete_stopped (p : Port) (d : Desk) (i : Nat) (r : Word) (h : p.laid) :
    slotMoves d i 4 4 r p (p.complete d i .stopped r) :=
  p.complete_slotMoves d i .stopped r h

/-- A chain of one change for each item of a list. -/
theorem Port.through_map {α : Type} (f : Port → α → Port) (R : α → PortChange)
    (hP : ∀ p x, p.laid → (f p x).laid) (hR : ∀ p x, p.laid → R x p (f p x)) (l : List α) (p : Port) (hp : p.laid) :
    Port.through (l.map R) p (l.foldl f p) := by
  have h := Port.through_foldl Port.laid f (fun x => [R x]) hP (fun p x hx => Port.through_one (hR p x hx)) l p hp
  rwa [← List.map_eq_flatMap] at h

/-- The Rotator's show stop logs the open airings by rising zone, then finishes the loads (R76, R85). -/
theorem Blocks.stopRotator_through (b : Blocks) (h : b.port.laid) :
    Port.through ((sortBy (·.zone) b.rot.airings).map (b.rot.airingLogged 5) ++
      b.rot.queue.map fun l => slotMoves .rotation l.deskSlot 4 4 0) b.port b.stopRotator.port := by
  have hall : b.rot.airings.filter (fun _ => true) = b.rot.airings := List.filter_eq_self.mpr fun _ _ => rfl
  unfold Blocks.stopRotator Blocks.endAirings
  dsimp only
  rw [hall]
  have hlog : ∀ (p : Port) (a : Airing), p.laid → (p.log (airingRecord b.rot .stop p.showTick a)).laid :=
    fun p a hp => closed_laid.log _ _ hp
  have hrecords := Port.through_map (fun p a => p.log (airingRecord b.rot .stop p.showTick a))
    (b.rot.airingLogged 5) hlog (fun p a hp => p.log_airingLogged b.rot .stop a hp) (sortBy (·.zone) b.rot.airings)
    b.port h
  have hloads := Port.through_map (fun p (l : Load) => p.complete .rotation l.deskSlot .stopped 0)
    (fun l => slotMoves .rotation l.deskSlot 4 4 0) (fun p l hp => closed_laid.complete _ _ _ _ _ hp)
    (fun p l hp => p.complete_stopped .rotation l.deskSlot 0 hp) b.rot.queue _
    (closed_laid.fold _ hlog (sortBy (·.zone) b.rot.airings) b.port h)
  exact Port.through_append hrecords hloads

/-- The Replay Unit's show stop finishes the clips' cards (R126). -/
theorem Blocks.stopReplay_through (b : Blocks) (h : b.port.laid) :
    Port.through b.rep.cardsStopped b.port b.stopReplay.port := by
  refine Port.through_foldl Port.laid (fun p c => p.stopClip c (b.rep.clip c)) _ (fun p c hp => ?_) (fun p c hp => ?_)
    _ _ h
  · unfold Port.stopClip
    split
    · exact hp
    · exact closed_laid.complete _ _ _ _ _ hp
  · unfold Port.stopClip
    cases b.rep.clip c with
    | none => rfl
    | some x => exact Port.through_one (p.complete_stopped .replay x.slot (toWord c) hp)

/-! ## The Lanes' show stop (R166, R167) -/

/-- A card but for whether it is on air. -/
def MsgCard.offAir (c : MsgCard) : MsgCard := { c with onAir := false }

/-- One pass ended at a show stop. -/
def Blocks.stopPass (b : Blocks) (p : Pass) : Blocks :=
  match b.lanes.card p.slot with
  | none => b
  | some c => b.endPass c p .stop

/-- A held card is that of its slot. -/
theorem Lanes.card_mem {l : Lanes} {i : Nat} {c : MsgCard} (h : l.card i = some c) : c ∈ l.queue ∧ c.slot = i := by
  have hs := List.find?_some h
  exact ⟨List.mem_of_find?_eq_some h, by simpa using hs⟩

/-- The card of a slot, but for whether it is on air, by the queue so read. -/
theorem Lanes.card_offAir (l : Lanes) (i : Nat) :
    (l.card i).map MsgCard.offAir = (l.queue.map MsgCard.offAir).find? fun c => c.slot == i := by
  unfold Lanes.card
  rw [List.find?_map]
  rfl

/-- The end of a pass takes its card off air, and leaves the queue so. -/
theorem Blocks.stopPass_queue (b : Blocks) (p : Pass) (hd : (b.lanes.queue.map (·.slot)).Nodup) :
    (b.stopPass p).lanes.queue.map MsgCard.offAir = b.lanes.queue.map MsgCard.offAir := by
  unfold Blocks.stopPass
  cases hc : b.lanes.card p.slot with
  | none => rfl
  | some c =>
    obtain ⟨hm, -⟩ := Lanes.card_mem hc
    have hl : (b.endPass c p .stop).lanes.queue =
        b.lanes.queue.map fun d => if d.slot = c.slot then { c with onAir := false } else d := by
      unfold Blocks.endPass
      split <;> rfl
    dsimp only
    rw [hl, List.map_map]
    refine List.map_congr_left fun d hdm => ?_
    by_cases hs : d.slot = c.slot
    · have : d = c := List.inj_on_of_nodup_map hd hdm hm hs
      rw [Function.comp_apply, if_pos hs, this]; rfl
    · rw [Function.comp_apply, if_neg hs]

/-- The end of a pass gives its record to the log, if its card has one (R166). -/
theorem Blocks.stopPass_through (b : Blocks) (p : Pass) (h : b.port.laid) :
    Port.through (b.lanes.passesStopped [p]) b.port (b.stopPass p).port := by
  unfold Lanes.passesStopped Blocks.stopPass
  rw [List.flatMap_singleton]
  cases b.lanes.card p.slot with
  | none => rfl
  | some c =>
    have hlog := b.port.log_passLogged c p .stop h
    unfold Blocks.endPass
    dsimp only
    split at hlog
    · rename_i hs; rw [if_pos hs]; exact hlog
    · rename_i hs; rw [if_neg hs]; exact hlog

/-- The records of some passes are the same under queues that differ in what is on air alone. -/
theorem Lanes.passesStopped_congr {l k : Lanes} (h : l.queue.map MsgCard.offAir = k.queue.map MsgCard.offAir)
    (passes : List Pass) : l.passesStopped passes = k.passesStopped passes := by
  have same : ∀ p : Pass, l.passesStopped [p] = k.passesStopped [p] := fun p => by
    have hc : (l.card p.slot).map MsgCard.offAir = (k.card p.slot).map MsgCard.offAir := by
      rw [l.card_offAir, k.card_offAir, h]
    have by_offAir : ∀ j : Lanes, j.passesStopped [p] = match (j.card p.slot).map MsgCard.offAir with
        | none => []
        | some c => c.passLogged 3 p := fun j => by
      unfold Lanes.passesStopped
      rw [List.flatMap_singleton]
      cases j.card p.slot <;> rfl
    rw [by_offAir l, by_offAir k, hc]
  induction passes with
  | nil => rfl
  | cons p passes ih =>
    have split_cons : ∀ j : Lanes, j.passesStopped (p :: passes) = j.passesStopped [p] ++ j.passesStopped passes :=
      fun j => by unfold Lanes.passesStopped; rw [List.flatMap_cons, List.flatMap_singleton]
    rw [split_cons, split_cons, same, ih]

/-- Passes ended one after another give their records, and leave every card as it was but for whether it is on air. -/
theorem Blocks.stopPasses_through (passes : List Pass) (b : Blocks) (h : b.port.laid)
    (hd : (b.lanes.queue.map (·.slot)).Nodup) :
    Port.through (b.lanes.passesStopped passes) b.port (passes.foldl Blocks.stopPass b).port ∧
    (passes.foldl Blocks.stopPass b).port.laid ∧
    (passes.foldl Blocks.stopPass b).lanes.queue.map MsgCard.offAir = b.lanes.queue.map MsgCard.offAir := by
  induction passes generalizing b with
  | nil => exact ⟨rfl, h, rfl⟩
  | cons p passes ih =>
    have hq := b.stopPass_queue p hd
    have hslots : (b.stopPass p).lanes.queue.map (·.slot) = b.lanes.queue.map (·.slot) := by
      have := congrArg (List.map MsgCard.slot) hq
      rw [List.map_map, List.map_map] at this
      exact this
    have hlaid : (b.stopPass p).port.laid := by
      unfold Blocks.stopPass
      split
      · exact h
      · exact closed_laid.endPass _ _ _ _ h
    obtain ⟨ht, hl, hr⟩ := ih (b.stopPass p) hlaid (by rw [hslots]; exact hd)
    have hcons : b.lanes.passesStopped (p :: passes) =
        b.lanes.passesStopped [p] ++ (b.stopPass p).lanes.passesStopped passes := by
      rw [Lanes.passesStopped_congr hq]
      unfold Lanes.passesStopped; rw [List.flatMap_cons, List.flatMap_singleton]
    rw [hcons]
    exact ⟨Port.through_append (b.stopPass_through p h) ht, hl, hr.trans hq⟩

/-- The cards finished at a show stop move the Port as if they were finished by it alone. -/
theorem Blocks.finishCards_port (cards : List MsgCard) (b : Blocks) :
    (cards.foldl (fun b c => b.finishCard c .stopped) b).port =
      cards.foldl (fun p c => p.complete .message c.slot .stopped (toWord c.completed)) b.port := by
  induction cards generalizing b with
  | nil => rfl
  | cons c cards ih => rw [List.foldl_cons, ih, List.foldl_cons]; rfl

/-- The Lanes' show stop: the STOP records of the passes by rising lane, then the held cards (R166, R167). -/
theorem Blocks.stopLanes_through (b : Blocks) (h : b.port.laid) (hd : (b.lanes.queue.map (·.slot)).Nodup) :
    Port.through (b.lanes.passesStopped b.lanes.passesByLane ++ b.lanes.cardsStopped) b.port b.stopLanes.port := by
  obtain ⟨ht, hl, hq⟩ := Blocks.stopPasses_through b.lanes.passesByLane b h hd
  refine Port.through_append ht ?_
  generalize hb : b.lanes.passesByLane.foldl Blocks.stopPass b = c at hl hq
  have hport : b.stopLanes.port =
      c.lanes.queue.foldl (fun p c => p.complete .message c.slot .stopped (toWord c.completed)) c.port := by
    rw [← Blocks.finishCards_port, ← hb]; rfl
  have hcards : b.lanes.cardsStopped = c.lanes.cardsStopped := by
    have := congrArg (List.map fun c : MsgCard => slotMoves .message c.slot 4 4 (toWord c.completed)) hq
    rw [List.map_map, List.map_map] at this
    exact this.symm
  rw [hport, hcards]
  exact Port.through_map (fun p (c : MsgCard) => p.complete .message c.slot .stopped (toWord c.completed))
    (fun c => slotMoves .message c.slot 4 4 (toWord c.completed)) (fun p l hp => closed_laid.complete _ _ _ _ _ hp)
    (fun p l hp => p.complete_stopped .message l.slot _ hp) c.lanes.queue c.port hl

/-- The Lanes' show stop, but for the Port (R167). -/
theorem Blocks.stopLanes_eq (b : Blocks) : b.stopLanes = { b with port := b.stopLanes.port, lanes := .init } := by
  have hpass : ∀ (l : List Pass) (x : Blocks), ∃ p k, l.foldl Blocks.stopPass x = { x with port := p, lanes := k } := by
    intro l
    induction l with
    | nil => exact fun x => ⟨_, _, rfl⟩
    | cons a l ih =>
      intro x
      have hone : ∃ p k, x.stopPass a = { x with port := p, lanes := k } := by
        unfold Blocks.stopPass Blocks.endPass
        split
        · exact ⟨_, _, rfl⟩
        · split <;> exact ⟨_, _, rfl⟩
      obtain ⟨p, k, e⟩ := hone
      obtain ⟨p', k', e'⟩ := ih (x.stopPass a)
      exact ⟨p', k', by rw [List.foldl_cons, e', e]⟩
  have hcard : ∀ (l : List MsgCard) (x : Blocks),
      ∃ p k, l.foldl (fun b c => b.finishCard c .stopped) x = { x with port := p, lanes := k } := by
    intro l
    induction l with
    | nil => exact fun x => ⟨_, _, rfl⟩
    | cons a l ih =>
      intro x
      obtain ⟨p', k', e'⟩ := ih (x.finishCard a .stopped)
      exact ⟨p', k', by rw [List.foldl_cons, e']; rfl⟩
  obtain ⟨p, k, e⟩ := hpass b.lanes.passesByLane b
  obtain ⟨p', k', e'⟩ := hcard { b with port := p, lanes := k }.lanes.queue { b with port := p, lanes := k }
  have hstop : b.stopLanes = ((b.lanes.passesByLane.foldl Blocks.stopPass b).lanes.queue.foldl
      (fun b c => b.finishCard c .stopped) (b.lanes.passesByLane.foldl Blocks.stopPass b)).onLanes fun _ => .init := rfl
  rw [hstop, e, e']
  rfl

/-! ## The show stop (R12, R33, R76, R182) -/

/-- The plans' show stop, but for the Port (R33). -/
theorem Blocks.stopPlans_eq (b : Blocks) : b.stopPlans =
    { b with port := b.stopPlans.port
             comp := { b.comp with active := none, staged := none, urgentYield := false }, measures := [] } := by
  unfold Blocks.stopPlans
  cases h : b.comp.staged <;> rfl

/-- The plans' show stop finishes the staged plan's card (R33). -/
theorem Blocks.stopPlans_through (b : Blocks) (h : b.port.laid) :
    Port.through b.comp.cardStopped b.port b.stopPlans.port := by
  unfold Blocks.stopPlans Compositor.cardStopped
  cases b.comp.staged with
  | none => rfl
  | some p => exact Port.through_one (b.port.complete_stopped .plan p.slot 0 h)

/-- The owners' show stops, up to the change of run state. -/
def Blocks.stopOwners (b : Blocks) : Blocks :=
  ({ b.stopRotator.stopReplay with cap := b.stopRotator.stopReplay.cap.stop } : Blocks).stopLanes.stopPlans

/-- What the owners let go of at a show stop, and what they keep (R33, R85, R103, R126, R167). -/
theorem Blocks.stopOwners_eq (b : Blocks) : b.stopOwners =
    { port := b.stopOwners.port
      comp := { b.comp with active := none, staged := none, urgentYield := false }
      measures := []
      rot := { b.rot with airings := [], bank := b.rot.bank.map BankSlot.abandon, queue := [] }
      cap := b.cap.stop
      rep := .init
      lanes := .init } := by
  have hrot := b.stopRotator_eq
  unfold Blocks.stopOwners
  generalize b.stopRotator = x at hrot ⊢
  have hlanes := Blocks.stopLanes_eq { x.stopReplay with cap := x.stopReplay.cap.stop }
  generalize Blocks.stopLanes _ = y at hlanes ⊢
  rw [y.stopPlans_eq, hlanes, hrot]
  rfl

/-- The Port at a show stop, up to the change of run state: the STOP record of every open airing by rising zone, every load's
and every clip's card, the STOP records of the passes by rising lane, every held card and the staged plan's (R76, R85, R126,
R166, R167, R33). -/
theorem Blocks.stopOwners_through (b : Blocks) (h : b.port.laid) (hd : (b.lanes.queue.map (·.slot)).Nodup) :
    Port.through ((sortBy (·.zone) b.rot.airings).map (b.rot.airingLogged 5) ++
      (b.rot.queue.map fun l => slotMoves .rotation l.deskSlot 4 4 0) ++ b.rep.cardsStopped ++
      b.lanes.passesStopped b.lanes.passesByLane ++ b.lanes.cardsStopped ++ b.comp.cardStopped)
      b.port b.stopOwners.port := by
  have trot := b.stopRotator_through h
  have lrot : b.stopRotator.port.laid := closed_laid.stopRotator b h
  have hrot := b.stopRotator_eq
  unfold Blocks.stopOwners
  generalize b.stopRotator = x at trot lrot hrot ⊢
  have hrep : x.rep = b.rep := by rw [hrot]
  have hlan : x.lanes = b.lanes := by rw [hrot]
  have hcomp : x.comp = b.comp := by rw [hrot]
  have trep := x.stopReplay_through lrot
  have lrep : x.stopReplay.port.laid := closed_laid.stopReplay x lrot
  generalize hz : ({ x.stopReplay with cap := x.stopReplay.cap.stop } : Blocks) = z
  have zport : z.port = x.stopReplay.port := by rw [← hz]
  have zlan : z.lanes = b.lanes := by rw [← hz, ← hlan]; rfl
  have zcomp : z.comp = b.comp := by rw [← hz, ← hcomp]; rfl
  have llan : z.stopLanes.port.laid := closed_laid.stopLanes z (by rw [zport]; exact lrep)
  have tlan := z.stopLanes_through (by rw [zport]; exact lrep) (by rw [zlan]; exact hd)
  have tplan := z.stopLanes.stopPlans_through llan
  have ycomp : z.stopLanes.comp = b.comp := by rw [z.stopLanes_eq]; exact zcomp
  rw [hrep, ← zport] at trep
  rw [zlan] at tlan
  rw [ycomp] at tplan
  have t := Port.through_append (Port.through_append (Port.through_append trot trep) tlan) tplan
  simp only [List.append_assoc] at t ⊢
  exact t

/-- The Port at a mark lies as the layout in force has it, where it did before. -/
theorem State.Begun.laid {s : State} {first : Bool} {dt : Nat} {b : Part} (h : s.Begun first dt b) (hl : s.port.laid) :
    b.blk.port.laid :=
  Port.laidAs.laid ⟨h.wf hl.1, h.fixed⟩ hl

/-- The map and the forced flags of the sections a mark's work finds (R38 to R40). -/
theorem State.markSections_kept (s : State) (first : Bool) :
    (s.markSections first).map = s.part.sec.map ∧ (s.markSections first).forced = s.part.sec.forced := by
  cases first <;> exact ⟨rfl, rfl⟩

/-- Writing the part page moves Show Memory alone (R171). -/
theorem Port.writePartPage_rest (p : Port) : p.writePartPage = { p with mem := p.writePartPage.mem } := rfl

/-- An input after a show stop is OFF, and keeps its next number (R103). -/
theorem Capture.stop_input (c : Capture) (i : Nat) : c.stop.input i = .offAt (c.input i).next :=
  tget_map (fun x : Input => Input.offAt x.next) (.offAt 0) c.inputs i

/-- The Port of a show stop, as its mark leaves it (R76, R166, R182). -/
theorem State.Begun.stopped_port {s : State} {first : Bool} {dt : Nat} {b : Part} (h : s.Begun first dt b)
    (hl : s.port.laid) (hd : (s.blk.lanes.queue.map (·.slot)).Nodup) (q : Port)
    (hq : q = (b.blk.stopOwners.port.stopShow).writePartPage) :
    ∃ m, Port.through (s.part.tb.syncLost dt ++ ((sortBy (·.zone) s.blk.rot.airings).map (s.blk.rot.airingLogged 5)) ++
        (s.blk.rot.queue.map fun l => slotMoves .rotation l.deskSlot 4 4 0) ++ s.blk.rep.cardsStopped ++
        s.blk.lanes.passesStopped s.blk.lanes.passesByLane ++ s.blk.lanes.cardsStopped ++ s.blk.comp.cardStopped)
        s.port m ∧
      bytesKept m.mem q.mem [4096, 4100, 4104] ∧ memWord q.mem 4096 = 0 ∧
      memWord q.mem 4100 = toWord q.result.code ∧ memWord q.mem 4104 = toWord q.resultArea ∧
      q = { m with mem := q.mem, runState := .config, partLocks := [], loadLocks := [] } := by
  have hb := h.laid hl
  have hblk := h.blk
  have hrot : b.blk.rot = s.blk.rot := by rw [hblk]
  have hrep : b.blk.rep = s.blk.rep := by rw [hblk]
  have hlan : b.blk.lanes = s.blk.lanes := by rw [hblk]
  have hcomp : b.blk.comp = s.blk.comp := by rw [hblk]
  have howners := b.blk.stopOwners_through hb (by rw [hlan]; exact hd)
  rw [hrot, hrep, hlan, hcomp] at howners
  have hm : b.blk.stopOwners.port.laid := closed_laid.stopOwners b.blk hb
  generalize b.blk.stopOwners.port = m at hq howners hm
  have hsync := h.through fun _ => hl
  have t := Port.through_append hsync howners
  simp only [← List.append_assoc] at t
  obtain ⟨kept, w0, w4, w8, hrest⟩ := m.stopShow.writePartPage_reads hm.1
  rw [← hq] at kept w0 w4 w8 hrest
  have hresult : q.result = m.result ∧ q.resultArea = m.resultArea := by rw [hrest]; exact ⟨rfl, rfl⟩
  rw [hresult.1, hresult.2]
  exact ⟨m, t, kept, w0, w4, w8, hrest⟩

/-- RUNNING with the RUN request clear (R12, R182). -/
theorem State.Begun.showStops {s : State} {first : Bool} {dt : Nat} {b : Part} (h : s.Begun first dt b) (m : MarkInput)
    (hc : s.port.runState = .running) (hr : s.port.runRequest = false) :
    s.showStops first dt { s with part := (b.sampleRun m).closeMark } := by
  have hsample := b.sampleRun_stops m (h.fixed.1.trans hc) (h.fixed.2.1.trans hr)
  obtain ⟨-, -, gtick, gareas, gsizes, -⟩ := (closed_sameFixed s.port).stopOwners b.blk h.fixed
  change b.blk.stopOwners.port.showTick = _ at gtick
  change b.blk.stopOwners.port.areas = _ at gareas
  change b.blk.stopOwners.port.sizes = _ at gsizes
  have hport := h.stopped_port
  obtain ⟨hdark, hx⟩ := Part.idle_closeMark { b with blk := b.blk.stop } rfl
  rw [hsample]
  generalize Part.closeMark _ = x at hdark hx
  have hx' : x.blk.port = (b.blk.stopOwners.port.stopShow).writePartPage := hx
  have hfinal : x.blk.port = { b.blk.stopOwners.port with
      mem := x.blk.port.mem, runState := .config, partLocks := [], loadLocks := [] } := by
    have e := b.blk.stopOwners.port.stopShow.writePartPage_rest
    rw [← hx'] at e
    exact e
  have hblk : x.blk = { (b.blk.stopOwners.onPort Port.stopShow) with port := x.blk.port, comp := x.blk.comp } := hdark.blk
  have hcomp : x.blk.comp = { b.blk.stopOwners.comp with
      mainFrame := x.blk.comp.mainFrame, ribbonFrame := x.blk.comp.ribbonFrame } := hdark.comp
  rw [b.blk.stopOwners_eq] at hblk hcomp
  have hbegun := h.blk
  have hsec : x.sec = ({ s.markSections first with states := x.sec.states } : Sections).send := by
    rw [← h.sec]; exact hdark.sec
  have hclk : s.markClock x.clk := by rw [hdark.clk]; exact h.clk
  obtain ⟨hmap, hforced⟩ := s.markSections_kept first
  have hrot : x.blk.rot = { s.blk.rot with airings := [], bank := s.blk.rot.bank.map BankSlot.abandon, queue := [] } := by
    rw [hblk, hbegun]; rfl
  have hcap : x.blk.cap = b.blk.cap.stop := by rw [hblk]; rfl
  have hrep : x.blk.rep = .init := by rw [hblk]; rfl
  have hlan : x.blk.lanes = .init := by rw [hblk]; rfl
  have hready := Rotator.slot_abandon s.blk.rot x.blk.rot (by rw [hrot])
  refine ⟨?_, ?_, ?_, ?_, ?_, ?_, ?_, ?_, ?_, ?_, ?_, ?_, ?_, ?_, fun i => (hready i).1, fun i => (hready i).2,
    fun i => ?_, fun c => ?_, fun i => ?_, ?_, ?_, ?_, hsec, hdark.states, ?_, ?_, hclk, ?_, ?_, hdark.main,
    hdark.ribbon, fun hl hd => ?_⟩
  all_goals dsimp only [State.port, State.blk]
  · rw [hfinal]
  · rw [hfinal]; exact gtick
  · rw [hfinal]; exact gareas
  · rw [hfinal]; exact gsizes
  · rw [hfinal]
  · rw [hfinal]
  · rw [hcomp]
  · rw [hcomp]
  · rw [hcomp]
  · rw [hblk]; rfl
  · rw [hrot]
  · rw [hrot]
  · rw [hrot]
  · rw [hrot]
  · rw [hcap, Capture.stop_input, h.input i]
    exact ⟨rfl, rfl⟩
  · rw [hrep, Replay.init_clip]
  · rw [hrep, Replay.init_head]; rfl
  · rw [hlan]; rfl
  · rw [hlan]; rfl
  · rw [hlan]; rfl
  · rw [hsec]; exact hmap
  · rw [hsec]; exact hforced
  · rw [hclk.1]
  · rw [hclk.1]
  · obtain ⟨airingsPerm, airingsSorted⟩ := sortBy_perm_sorted Airing.zone s.blk.rot.airings
    obtain ⟨passesPerm, passesSorted⟩ := sortBy_perm_sorted Pass.lane s.blk.lanes.passes
    obtain ⟨n, hn⟩ := hport hl hd x.blk.port hx'
    exact ⟨_, _, n, airingsPerm, airingsSorted, passesPerm, passesSorted, hn⟩

/-- Settles O19, owner by owner, from the part as the mark finds it. -/
theorem showStopEndsEverything : Obligations.ShowStopEndsEverything := by
  intro m s hl hc hr
  obtain ⟨b, hexec, hb⟩ := s.frameMark_begun m hl
  exact ⟨_, hexec, hb.showStops m hc hr⟩

end Sys2Proof.Machine
end


section
/-! PROOFS. The clock record of a RUNNING mark (R143; O15, O18, O20). -/

namespace Sys2Proof.Machine

/-! ## Bytes that Show Memory holds -/

/-- Show Memory holds some bytes from an address on. -/
def Memory.holds (m : List Host.Cell) (a : Nat) (bs : List Byte) : Prop :=
  ∀ i, i < bs.length → memRead m (a + i) = bs.getD i 0

theorem Memory.holds_append {m : List Host.Cell} {a : Nat} {bs cs : List Byte} :
    Memory.holds m a (bs ++ cs) ↔ Memory.holds m a bs ∧ Memory.holds m (a + bs.length) cs := by
  refine ⟨fun h => ⟨fun i hi => ?_, fun i hi => ?_⟩, fun ⟨h, k⟩ i hi => ?_⟩
  · rw [h i (by simp; omega), List.getD_append _ _ _ _ hi]
  · rw [Nat.add_assoc, h (bs.length + i) (by simp; omega), List.getD_append_right _ _ _ _ (by omega),
      Nat.add_sub_cancel_left]
  · by_cases hb : i < bs.length
    · rw [h i hb, List.getD_append _ _ _ _ hb]
    · rw [List.length_append] at hi
      rw [List.getD_append_right _ _ _ _ (by omega), ← k (i - bs.length) (by omega)]
      congr 1; omega

/-- The bytes just written are held. -/
theorem Memory.holds_write (m : List Host.Cell) (a : Nat) (bs : List Byte) (h : Memory.wf m = true) :
    Memory.holds (memWriteBytes m a bs) a bs := by
  intro i hi
  rw [memRead_memWriteBytes _ _ _ _ h, if_pos (by omega), Nat.add_sub_cancel_left]

/-- Bytes are held still where no byte of theirs moves. -/
theorem Memory.holds.kept {m n : List Host.Cell} {a : Nat} {bs : List Byte} (h : Memory.holds m a bs)
    (hk : ∀ b, a ≤ b → b < a + bs.length → memRead n b = memRead m b) : Memory.holds n a bs :=
  fun i hi => (hk _ (by omega) (by omega)).trans (h i hi)

/-- Four bytes held are a word. -/
theorem Memory.holds_word {m : List Host.Cell} {a : Nat} {w : Word} : Memory.holds m a (leBytes w) → memWord m a = w := by
  intro h
  have h0 : memRead m a = wordByte w 0 := h 0 (by simp [leBytes])
  have h1 : memRead m (a + 1) = wordByte w 1 := h 1 (by simp [leBytes])
  have h2 : memRead m (a + 2) = wordByte w 2 := h 2 (by simp [leBytes])
  have h3 : memRead m (a + 3) = wordByte w 3 := h 3 (by simp [leBytes])
  unfold memWord
  rw [h0, h1, h2, h3]
  exact word_of_bytes w

/-- Two bytes held are a half. -/
theorem Memory.holds_half {m : List Host.Cell} {a n : Nat} : Memory.holds m a (leHalf n) → memHalf m a = n % 65536 := by
  intro h
  have h0 : memRead m a = wordByte (toWord n) 0 := h 0 (by simp [leHalf])
  have h1 : memRead m (a + 1) = wordByte (toWord n) 1 := h 1 (by simp [leHalf])
  unfold memHalf
  rw [h0, h1]
  simp only [wordByte, toWord, BitVec.toNat_ofNat]
  omega

/-- Bytes held, read out as a list. -/
theorem Memory.holds_list {m : List Host.Cell} {a : Nat} {bs : List Byte} (h : Memory.holds m a bs) :
    ((List.range bs.length).map fun j => memRead m (a + j)) = bs := by
  refine List.ext_getElem (by simp) fun i h1 h2 => ?_
  rw [List.getElem_map, List.getElem_range, h i h2, List.getD_eq_getElem _ _ h2]

/-! ## The blocks of the clock record (8.7) -/

theorem padded_length (bs : List Byte) : (padded bs).length = 8 := by
  unfold padded; simp

theorem clockBlock_length (c : Clock) : (clockBlock c).length = 23 := by
  unfold clockBlock
  simp [padded_length, leBytes, leHalf]

/-- The block of a clock, read back (8.7). -/
theorem clockBlock_reads {m : List Host.Cell} {a : Nat} {c : Clock} (h : Memory.holds m a (clockBlock c)) :
    (memRead m a).toNat = (match c.state with
      | .noTime => 0 | .stopped => 1 | .running => 2 | .expired => 3 | .holdover => 4) ∧
    memRead m (a + 1) = (if c.localSource then 1 else 0) ∧ memRead m (a + 2) = (if c.up then 1 else 0) ∧
    memRead m (a + 3) = (if c.hornOn then 1 else 0) ∧ memWord m (a + 4) = toWord c.value ∧
    ((List.range 8).map fun j => memRead m (a + 8 + j)) = (clockString c ++ List.replicate 8 32).take 8 ∧
    memWord m (a + 16) = toWord c.tenths ∧ memHalf m (a + 20) = c.hornLength % 65536 ∧
    (memRead m (a + 22)).toNat = c.comp % 256 := by
  unfold clockBlock at h
  simp only [Memory.holds_append, List.length_append, padded_length] at h
  obtain ⟨⟨⟨⟨⟨hflags, hvalue⟩, hstring⟩, htenths⟩, hlength⟩, hcomp⟩ := h
  have hlist := Memory.holds_list hstring
  rw [padded_length] at hlist
  refine ⟨?_, hflags 1 (by simp), hflags 2 (by simp), hflags 3 (by simp), Memory.holds_word hvalue, hlist,
    Memory.holds_word htenths, Memory.holds_half hlength, ?_⟩
  · rw [show memRead m a = BitVec.ofNat 8 c.state.code from hflags 0 (by simp)]
    cases c.state <;> rfl
  · rw [show memRead m (a + 22) = BitVec.ofNat 8 c.comp from hcomp 0 (by simp)]
    exact BitVec.toNat_ofNat _ _

/-- The head of the clock record, read back (8.7). -/
theorem recordHead_reads {m : List Host.Cell} {a : Nat} {u : ClockUnit} {tick : Word}
    (h : Memory.holds m (a + 4) (recordHead u tick)) :
    memWord m (a + 4) = tick ∧ memRead m (a + 8) = (if u.heard then 1 else 0) ∧
    memRead m (a + 9) = (if 0 < u.horn then 1 else 0) ∧ memHalf m (a + 10) = u.horn % 65536 ∧
    memWord m (a + 12) = toWord u.discards := by
  unfold recordHead at h
  simp only [Memory.holds_append, List.length_append] at h
  obtain ⟨⟨⟨htick, hflags⟩, hhorn⟩, hdiscards⟩ := h
  refine ⟨Memory.holds_word htick, hflags 0 (by simp), ?_, Memory.holds_half hhorn, Memory.holds_word hdiscards⟩
  rw [show memRead m (a + 9) = flagByte (decide (0 < u.horn)) from hflags 1 (by simp)]
  unfold flagByte
  simp

/-- The score in the clock record, read back (8.7). -/
theorem scoreBlock_reads {m : List Host.Cell} {a : Nat} {s : Score} (h : Memory.holds m (a + 80) (scoreBlock s)) :
    memHalf m (a + 80) = s.home % 65536 ∧ memHalf m (a + 82) = s.guest % 65536 ∧
    ((List.range 8).map fun j => (memRead m (a + 84 + j)).toNat) =
      [s.period, s.possession, s.c0, s.c1, s.c2, s.c3, s.homeFlash, s.guestFlash].map (· % 256) := by
  unfold scoreBlock at h
  simp only [Memory.holds_append, List.length_append] at h
  obtain ⟨⟨hhome, hguest⟩, hrest⟩ := h
  refine ⟨Memory.holds_half hhome, Memory.holds_half hguest, ?_⟩
  have hlist := congrArg (List.map BitVec.toNat) (Memory.holds_list hrest)
  rw [List.map_map] at hlist
  refine Eq.trans ?_ (hlist.trans ?_)
  · rfl
  · simp

/-! ## The writing of the clock record (R143) -/

/-- What the writing of the clock record leaves: the edit count two higher, its blocks behind it, and of the Port all but Show
Memory (R143). -/
theorem writeClockRecord_reads (u : ClockUnit) (p : Port) (hw : Memory.wf p.mem = true) :
    let x := writeClockRecord (u, p)
    let a := p.areaBase 6
    memWord x.2.mem a = u.edit + 2 ∧ Memory.holds x.2.mem (a + 4) (recordHead u p.showTick) ∧
    Memory.holds x.2.mem (a + 16) (clockBlock u.game) ∧ Memory.holds x.2.mem (a + 48) (clockBlock u.aux) ∧
    Memory.holds x.2.mem (a + 80) (scoreBlock u.score) := by
  dsimp only
  generalize ha : p.areaBase 6 = a
  have hlen : (recordHead u p.showTick ++ clockBlock u.game).length = 35 := by
    rw [List.length_append, clockBlock_length]; rfl
  have haux := clockBlock_length u.aux
  have hscore : (scoreBlock u.score).length = 12 := rfl
  have hmem : (writeClockRecord (u, p)).2.mem = memWriteWord (memWriteBytes (memWriteBytes (memWriteBytes
      (memWriteWord p.mem a (u.edit + 1)) (a + 4) (recordHead u p.showTick ++ clockBlock u.game))
      (a + 48) (clockBlock u.aux)) (a + 80) (scoreBlock u.score)) a (u.edit + 2) := by
    unfold writeClockRecord Port.poke
    dsimp only
    rw [ha]
  rw [hmem]
  have w0 := wf_memWriteWord p.mem a (u.edit + 1) hw
  generalize memWriteWord p.mem a (u.edit + 1) = m0 at w0 ⊢
  have w1 := wf_memWriteBytes m0 (a + 4) (recordHead u p.showTick ++ clockBlock u.game) w0
  have h1 := Memory.holds_write m0 (a + 4) (recordHead u p.showTick ++ clockBlock u.game) w0
  generalize memWriteBytes m0 (a + 4) (recordHead u p.showTick ++ clockBlock u.game) = m1 at w1 h1 ⊢
  have w2 := wf_memWriteBytes m1 (a + 48) (clockBlock u.aux) w1
  have h2 := Memory.holds_write m1 (a + 48) (clockBlock u.aux) w1
  have k2 : ∀ b, b < a + 48 ∨ a + 71 ≤ b → memRead (memWriteBytes m1 (a + 48) (clockBlock u.aux)) b = memRead m1 b :=
    fun b hb => by rw [memRead_memWriteBytes _ _ _ _ w1, haux, if_neg (by omega)]
  generalize memWriteBytes m1 (a + 48) (clockBlock u.aux) = m2 at w2 h2 k2 ⊢
  have w3 := wf_memWriteBytes m2 (a + 80) (scoreBlock u.score) w2
  have h3 := Memory.holds_write m2 (a + 80) (scoreBlock u.score) w2
  have k3 : ∀ b, b < a + 80 ∨ a + 92 ≤ b → memRead (memWriteBytes m2 (a + 80) (scoreBlock u.score)) b = memRead m2 b :=
    fun b hb => by rw [memRead_memWriteBytes _ _ _ _ w2, hscore, if_neg (by omega)]
  generalize memWriteBytes m2 (a + 80) (scoreBlock u.score) = m3 at w3 h3 k3 ⊢
  have k4 : ∀ b, b < a ∨ a + 4 ≤ b → memRead (memWriteWord m3 a (u.edit + 2)) b = memRead m3 b :=
    fun b hb => memRead_memWriteWord_ne _ _ _ _ w3 hb
  have hfirst : Memory.holds (memWriteWord m3 a (u.edit + 2)) (a + 4) (recordHead u p.showTick ++ clockBlock u.game) :=
    h1.kept fun b hb hb' => by rw [k4 b (by omega), k3 b (by omega), k2 b (by omega)]
  obtain ⟨hhead, hgame⟩ := Memory.holds_append.mp hfirst
  refine ⟨memWord_memWriteWord_self _ _ _ w3, hhead, hgame, ?_, ?_⟩
  · exact h2.kept fun b hb hb' => by rw [k4 b (by omega), k3 b (by omega)]
  · exact h3.kept fun b hb hb' => k4 b (by omega)

end Sys2Proof.Machine
end


section
/-! PROOFS. The order of a mark's open work (log entry 20; O15, O18, O20). -/

namespace Sys2Proof.Machine

/-! ## Each task once -/

/-- A list taken once behind another adds no task twice, takes every task of it, and leaves what stood before. -/
theorem foldl_onceEach (l acc : List MarkTask) (h : acc.Nodup) :
    let r := l.foldl (fun acc t => if acc.contains t then acc else acc ++ [t]) acc
    r.Nodup ∧ (∀ t, t ∈ r ↔ t ∈ acc ∨ t ∈ l) ∧ acc <+: r := by
  induction l generalizing acc with
  | nil => exact ⟨h, by simp, List.prefix_rfl⟩
  | cons a l ih =>
    rw [List.foldl_cons]
    by_cases ha : acc.contains a = true
    · have hm : a ∈ acc := by simpa using ha
      rw [if_pos ha]
      obtain ⟨h1, h2, h3⟩ := ih acc h
      refine ⟨h1, fun t => (h2 t).trans ?_, h3⟩
      rw [List.mem_cons]
      exact ⟨fun x => x.imp_right .inr, fun x => x.elim .inl (·.elim (fun e => .inl (e ▸ hm)) .inr)⟩
    · have hm : a ∉ acc := by simpa using ha
      rw [if_neg ha]
      obtain ⟨h1, h2, h3⟩ := ih (acc ++ [a]) (List.nodup_append.mpr ⟨h, by simp, fun b hb c hc e => hm (by
        rw [← List.mem_singleton.mp hc, ← e]; exact hb)⟩)
      refine ⟨h1, fun t => (h2 t).trans ?_, (List.prefix_append _ _).trans h3⟩
      simp only [List.mem_append, List.mem_cons, List.not_mem_nil, or_false, or_assoc]

/-- Each task once is a list without repetition of the same tasks. -/
theorem onceEach_nodup (l : List MarkTask) : (onceEach l).Nodup := (foldl_onceEach l [] List.nodup_nil).1

theorem mem_onceEach (l : List MarkTask) (t : MarkTask) : t ∈ onceEach l ↔ t ∈ l := by
  simpa [onceEach] using (foldl_onceEach l [] List.nodup_nil).2.1 t

/-- A list without repetition is each task of it once. -/
theorem onceEach_of_nodup (l : List MarkTask) (h : l.Nodup) : onceEach l = l := by
  have general : ∀ l acc : List MarkTask, (acc ++ l).Nodup →
      l.foldl (fun acc t => if acc.contains t then acc else acc ++ [t]) acc = acc ++ l := fun l => by
    induction l with
    | nil => intro acc _; simp
    | cons a l ih =>
      intro acc hn
      have ha : ¬acc.contains a = true := by
        have := (List.nodup_append.mp hn).2.2
        simpa using fun hm => this a hm a (by simp) rfl
      rw [List.foldl_cons, if_neg ha, ih _ (by simpa using hn)]
      simp
  exact general l [] h

/-- An order without repetition stands first in its completion. -/
theorem onceEach_prefix (l k : List MarkTask) (h : l.Nodup) : l <+: onceEach (l ++ k) := by
  have hl : l.foldl (fun acc t => if acc.contains t then acc else acc ++ [t]) [] = l := onceEach_of_nodup l h
  unfold onceEach
  rw [List.foldl_append, hl]
  exact (foldl_onceEach k l h).2.2

/-! ## The Lanes behind the plans -/

/-- The move of the Lanes behind the plans leaves a list without either. -/
theorem flatMap_plain (l : List MarkTask) (hm : .messages ∉ l) (hp : .plan ∉ l) :
    (l.flatMap fun t => if t = .messages then [] else if t = .plan then [.plan, .messages] else [t]) = l := by
  induction l with
  | nil => rfl
  | cons a l ih =>
    rw [List.mem_cons, not_or] at hm hp
    rw [List.flatMap_cons, ih hm.2 hp.2, if_neg (Ne.symm hm.1), if_neg (Ne.symm hp.1)]
    rfl

/-- The Lanes moved behind the plans: the same tasks, the plans before the Lanes (R19, R156). -/
theorem messagesAfterPlan_moved (l : List MarkTask) (hn : l.Nodup) (hp : .plan ∈ l) (hm : .messages ∈ l) :
    (messagesAfterPlan l).Perm l ∧ (messagesAfterPlan l).idxOf .plan < (messagesAfterPlan l).idxOf .messages := by
  obtain ⟨a, c, rfl⟩ := List.append_of_mem hp
  have hpa : MarkTask.plan ∉ a := fun h => (List.nodup_append.mp hn).2.2 _ h _ (by simp) rfl
  have hpc : MarkTask.plan ∉ c := (List.nodup_cons.mp (List.nodup_append.mp hn).2.1).1
  have hwhile : (a ++ .plan :: c).takeWhile (· != MarkTask.plan) = a := by
    rw [List.takeWhile_append_of_pos fun t ht => by simpa using fun e : t = .plan => hpa (e ▸ ht)]
    simp
  unfold messagesAfterPlan
  rw [hwhile]
  by_cases h : a.contains .messages = true
  · rw [if_pos h]
    obtain ⟨a1, a2, rfl⟩ := List.append_of_mem (show MarkTask.messages ∈ a by simpa using h)
    have hna := (List.nodup_append.mp hn).1
    have hm1 : MarkTask.messages ∉ a1 := fun x => (List.nodup_append.mp hna).2.2 _ x _ (by simp) rfl
    have hm2 : MarkTask.messages ∉ a2 := (List.nodup_cons.mp (List.nodup_append.mp hna).2.1).1
    have hmc : MarkTask.messages ∉ c := fun x =>
      (List.nodup_append.mp hn).2.2 .messages (by simp) .messages (by simp [x]) rfl
    have hp1 : MarkTask.plan ∉ a1 := fun x => hpa (by simp [x])
    have hp2 : MarkTask.plan ∉ a2 := fun x => hpa (by simp [x])
    rw [List.flatMap_append, List.flatMap_append, List.flatMap_cons, List.flatMap_cons, flatMap_plain a1 hm1 hp1,
      flatMap_plain a2 hm2 hp2, flatMap_plain c hmc hpc, if_pos rfl, if_neg (by decide), if_pos rfl]
    simp only [List.nil_append, List.append_assoc, List.cons_append]
    refine ⟨List.Perm.append_left a1 ?_, ?_⟩
    · have h := List.perm_middle (a := MarkTask.messages) (l₁ := a2 ++ [.plan]) (l₂ := c)
      simpa only [List.append_assoc, List.cons_append, List.nil_append] using h
    · rw [List.idxOf_append_of_notMem hp1, List.idxOf_append_of_notMem hm1, List.idxOf_append_of_notMem hp2,
        List.idxOf_append_of_notMem hm2, List.idxOf_cons_self, List.idxOf_cons_ne _ (by decide), List.idxOf_cons_self]
      omega
  · rw [if_neg h]
    have hma : MarkTask.messages ∉ a := by simpa using h
    refine ⟨List.Perm.refl _, ?_⟩
    rw [List.idxOf_append_of_notMem hpa, List.idxOf_append_of_notMem hma, List.idxOf_cons_self,
      List.idxOf_cons_ne _ (by decide)]
    omega

/-- The order of a mark's open work: every piece once; the Lanes behind the plans where a plan may be adopted, and else as
the surroundings name them (R19, R155, log entry 20). -/
theorem taskOrder_open (order : List MarkTask) (staging : Bool) :
    (taskOrder order staging).Perm allTasks ∧
    (staging = true → (taskOrder order staging).idxOf .plan < (taskOrder order staging).idxOf .messages) ∧
    (staging = false → order.Nodup → order <+: taskOrder order staging) := by
  have hn := onceEach_nodup (order ++ allTasks)
  have hmem : ∀ t, t ∈ onceEach (order ++ allTasks) := fun t => by
    rw [mem_onceEach, List.mem_append]; right; cases t <;> decide
  have hperm : (onceEach (order ++ allTasks)).Perm allTasks :=
    (List.perm_ext_iff_of_nodup hn (by decide)).mpr fun t => ⟨fun _ => by cases t <;> decide, fun _ => hmem t⟩
  unfold taskOrder
  cases staging
  · exact ⟨hperm, by simp, fun _ h => onceEach_prefix order allTasks h⟩
  · obtain ⟨h1, h2⟩ := messagesAfterPlan_moved _ hn (hmem .plan) (hmem .messages)
    exact ⟨h1.trans hperm, fun _ => h2, by simp⟩

end Sys2Proof.Machine
end


section
/-! PROOFS. The stages of a RUNNING mark (O15, O18, O20). -/

namespace Sys2Proof.Machine

/-! ## What the open work leaves of the sections and the Clock Unit -/

/-- A SET_SECTION card leaves the health records (R42). -/
theorem Work.applySection_health (w : Work) (slot : Nat) (q : SectionCue) :
    (w.applySection slot q).sec.health = w.sec.health := by
  have hr : ∀ (c d : Sections) (i r g : Nat), c.remap r g = .accepted d i → d.health = c.health := by
    intro c d i r g h
    unfold Sections.remap at h
    split at h
    · cases h; rfl
    · split at h <;> cases h; rfl
  have ha : ∀ (c d : Sections) (i : Nat), c.apply q = .accepted d i → d.health = c.health := by
    intro c d i h
    unfold Sections.apply at h
    dsimp only at h
    generalize (if q.canvas = 0 then q.sect else 16 + q.sect) = j at h
    split at h
    · cases h
    · split at h
      · split at h
        · cases h
        · exact hr _ _ _ _ _ h
      · cases h; rfl
  unfold Work.applySection setSectionOp
  cases h : w.sec.apply q with
  | refused o r => rfl
  | accepted d i => exact ha _ _ _ h

/-- The PLAN cards leave the health records and the Clock Unit. -/
theorem Work.applyPlans_kept (cards : List (Taken PlanCard)) (w : Work) :
    (cards.foldl Work.applyPlan w).sec.health = w.sec.health ∧ (cards.foldl Work.applyPlan w).clk = w.clk := by
  induction cards generalizing w with
  | nil => exact ⟨rfl, rfl⟩
  | cons t cards ih =>
    have hone : (w.applyPlan t).sec.health = w.sec.health ∧ (w.applyPlan t).clk = w.clk := by
      unfold Work.applyPlan
      cases t.card with
      | postPlan q => exact ⟨rfl, rfl⟩
      | showZone q => exact ⟨rfl, rfl⟩
      | hideZone q => exact ⟨rfl, rfl⟩
      | setSection q => exact ⟨w.applySection_health _ q, rfl⟩
    obtain ⟨h1, h2⟩ := ih (w.applyPlan t)
    exact ⟨h1.trans hone.1, h2.trans hone.2⟩

/-- A CLOCK card leaves the edit count of the clock record (R137). -/
theorem applyClock_edit (x : ClockPort) (t : Taken ClockCard) : (applyClock x t).1.edit = x.1.edit := by
  unfold applyClock
  cases t.card with
  | setup q => simp only [clockSetupOp]; split <;> simp
  | set q => simp only [clockSetOp]; split <;> [rfl; split <;> simp]
  | run c => simp only [clockRunOp]; split <;> [rfl; split <;> [rfl; split <;> simp]]
  | stop c => simp only [clockStopOp]; split <;> [rfl; split <;> simp]
  | score q => simp only [scoreOp]; split <;> rfl

theorem applyClocks_edit (cards : List (Taken ClockCard)) (x : ClockPort) :
    (cards.foldl applyClock x).1.edit = x.1.edit := by
  induction cards generalizing x with
  | nil => rfl
  | cons t cards ih => rw [List.foldl_cons, ih, applyClock_edit]

/-- The open work of a mark leaves the health records and the edit count. -/
theorem Work.tasks_kept (timer : Nat) (c : Cards) (order : List MarkTask) (w : Work) :
    (order.foldl (Work.task timer c) w).sec.health = w.sec.health ∧
    (order.foldl (Work.task timer c) w).clk.edit = w.clk.edit := by
  induction order generalizing w with
  | nil => exact ⟨rfl, rfl⟩
  | cons k order ih =>
    have hone : (w.task timer c k).sec.health = w.sec.health ∧ (w.task timer c k).clk.edit = w.clk.edit := by
      cases k with
      | plan =>
        obtain ⟨h1, h2⟩ := Work.applyPlans_kept c.plan w
        exact ⟨h1, congrArg ClockUnit.edit h2⟩
      | clock => exact ⟨rfl, applyClocks_edit c.clock (w.clk, w.blk.port)⟩
      | clips | replay | rotation | messages | dwell => exact ⟨rfl, rfl⟩
    obtain ⟨h1, h2⟩ := ih (w.task timer c k)
    exact ⟨h1.trans hone.1, h2.trans hone.2⟩

/-! ## The stages of the show work -/

/-- The stages of a mark's show work. -/
def Part.stages (m : MarkInput) (entry : Bool) (s : Part) : MarkStages :=
  let read := (s.openMark entry).blk.startMark
  let y := read.pickupAll
  let done := (taskOrder m.order (mayAdopt y.1 y.2)).foldl (Work.task (3 * s.tb.rate.length) y.2)
    { sec := s.sec, clk := s.clk, blk := y.1.beforeCards, accepted := [] }
  let worked := done.settle entry
  let selected := ((worked.blk.onComp Compositor.stepFades).measure worked.sec.states).selectionPass
  let output := selected.outputHeads m.uncorrectable m.headBFirst
  { read := read, cards := y.2, clock := s.clk, advanced := y.1.beforeCards, done := done, worked := worked
    selected := selected, output := output, credited := output.credit }

/-- The opening of a mark leaves the Timebase, the sections and the Clock Unit. -/
theorem Part.openMark_kept (entry : Bool) (s : Part) : (s.openMark entry).tb = s.tb ∧
    (s.openMark entry).sec = s.sec ∧ (s.openMark entry).clk = s.clk := by
  have hc : ∀ x : ClockPort, (clockEntryNotice x).1 = x.1 := fun x => by
    unfold clockEntryNotice; split <;> rfl
  cases entry
  · exact ⟨rfl, rfl, rfl⟩
  · exact ⟨rfl, rfl, hc _⟩

/-- The show work ends with the clock record, behind its stages (R143). -/
theorem Part.showWork_stages (m : MarkInput) (entry : Bool) (s : Part) : s.showWork m entry =
    let g := s.stages m entry
    let x := writeClockRecord (g.worked.clk, g.credited.port)
    { s with sec := g.worked.sec, clk := x.1, blk := { g.credited with port := x.2 } } := by
  obtain ⟨htb, hsec, hclk⟩ := s.openMark_kept entry
  unfold Part.showWork Part.stages
  dsimp only
  rw [htb, hsec, hclk]
  rfl

section Stages

variable (m : MarkInput) (entry : Bool) (s : Part)

/-- The work of the stages of a mark, from the desks as read (R72, R116, R176). -/
theorem Part.stages_takes (t : State) (h : (s.stages m entry).read.comp = t.blk.comp) : (s.stages m entry).takes t := by
  unfold MarkStages.takes
  rw [← h]
  exact ⟨rfl, rfl⟩

/-- The Port as the open work leaves it lies as it did when the desks were read. -/
theorem Part.stages_done {P : Port → Prop} (hP : Port.Closed P) (h : P (s.stages m entry).read.port) :
    P (s.stages m entry).done.blk.port :=
  hP.tasks _ _ _ _ (hP.beforeCards _ (hP.pickupAll _ h))

/-- The Port once the frame is credited too. -/
theorem Part.stages_credited {P : Port → Prop} (hP : Port.Closed P) (h : P (s.stages m entry).read.port) :
    P (s.stages m entry).credited.port := by
  have hdone := s.stages_done m entry hP h
  have hworked : (s.stages m entry).worked = (s.stages m entry).done.settle entry := rfl
  have hcredited : (s.stages m entry).credited =
      (s.stages m entry).worked.blk.afterCards m (s.stages m entry).worked.sec.states := by
    unfold Blocks.afterCards Part.stages
    dsimp only
  generalize s.stages m entry = g at hdone hworked hcredited ⊢
  have hsettled := hP.settle entry _ hdone
  rw [← hworked] at hsettled
  rw [hcredited]
  exact hP.afterCards m _ _ hsettled

end Stages

/-- A SET_SECTION card that acted is finished with the state of its section (R42). -/
theorem finishSection_moves (c : Sections) (p : Port) (k : Nat × Nat) (h : p.laid) :
    slotMoves .plan k.1 4 0 (toWord (c.stateOf k.2).code) p (finishSection c p k) :=
  p.complete_slotMoves .plan k.1 .ok _ h

/-- The settling of the sections, with the notices of those that left or became LIVE and the results of the mark's
SET_SECTION cards (R41, R42, R44). -/
theorem Work.settle_through (entry : Bool) (w : Work) (h : w.blk.port.laid) :
    Port.through (w.sec.noticed entry w.sec.states ++
      w.accepted.map fun k => slotMoves .plan k.1 4 0 (toWord (w.sec.stateOf k.2).code))
      w.blk.port (w.settle entry).blk.port := by
  have hsections := Port.through_foldl Port.laid (sectionNotice w.sec entry) _
    (fun p i hp => closed_laid.sectionNotice w.sec entry p i hp)
    (fun p i hp => sectionNotice_through w.sec entry p i fun _ => hp)
  have hcards := Port.through_map (fun p (k : Nat × Nat) => finishSection w.sec p k)
    (fun k => slotMoves .plan k.1 4 0 (toWord (w.sec.stateOf k.2).code))
    (fun p k hp => closed_laid.finishSection w.sec p k hp)
    (fun p k hp => finishSection_moves w.sec p k hp) w.accepted _
    (closed_laid.settleSections entry (w.sec, w.blk.port) h)
  exact Port.through_append (hsections (List.range 80) w.blk.port h) hcards

/-- The settling of the sections, on all but the Port (R41). -/
theorem Work.settle_eq (entry : Bool) (w : Work) :
    (w.settle entry).clk = w.clk ∧ (w.settle entry).sec = { w.sec with states := w.sec.newStates } ∧
    (w.settle entry).blk = { w.blk with port := (w.settle entry).blk.port } := ⟨rfl, rfl, rfl⟩

theorem Part.stages_settles (m : MarkInput) (entry : Bool) (s : Part) : (s.stages m entry).settles entry := by
  have hworked : (s.stages m entry).worked = (s.stages m entry).done.settle entry := rfl
  have hdone := s.stages_done m entry closed_laid
  generalize s.stages m entry = g at hworked hdone
  obtain ⟨hclk, hsec, hblk⟩ := g.done.settle_eq entry
  have hthrough := g.done.settle_through entry
  unfold MarkStages.settles
  rw [← hworked] at hclk hsec hblk hthrough
  exact ⟨hworked, hclk, by rw [hsec], fun i hi => by rw [hsec]; exact g.done.sec.newStates_get i hi,
    fun hl => ⟨hdone hl, hthrough (hdone hl)⟩, hblk⟩

end Sys2Proof.Machine
end


section
/-! PROOFS. The marks that leave the part RUNNING (O15, O18, O20). -/

namespace Sys2Proof.Machine

/-- The registers and the layout stand through two changes that each leave them. -/
theorem Port.sameFixed.trans {p q r : Port} (h : Port.sameFixed p q) (k : Port.sameFixed q r) : Port.sameFixed p r := by
  obtain ⟨h1, h2, h3, h4, h5, h6, h7, h8, h9, h10, h11, h12⟩ := h
  obtain ⟨k1, k2, k3, k4, k5, k6, k7, k8, k9, k10, k11, k12⟩ := k
  exact ⟨k1.trans h1, k2.trans h2, k3.trans h3, k4.trans h4, k5.trans h5, k6.trans h6, k7.trans h7, k8.trans h8,
    k9.trans h9, k10.trans h10, k11.trans h11, k12.trans h12⟩

/-- The areas lie where they did. -/
theorem Port.sameFixed.areaBase {q p : Port} (h : Port.sameFixed q p) (i : Nat) : p.areaBase i = q.areaBase i := by
  unfold Port.areaBase Port.area
  rw [h.2.2.2.1]

section Stages

variable (m : MarkInput) (entry : Bool) (p : Part)

/-- The work of a mark's stages, from the part at the sampling of the RUN request (R19, R41, R72, R123). -/
theorem Part.stages_works (s : State) (first : Bool) (hsec : p.sec = s.markSections first) (hclk : s.markClock p.clk)
    (hrate : p.tb.rate = s.part.tb.rate) (hcomp : (p.stages m entry).read.comp = s.blk.comp) :
    (p.stages m entry).works first entry m s := by
  have hsettles := p.stages_settles m entry
  have hmay : mayAdopt (p.stages m entry).read.pickupAll.1 (p.stages m entry).cards =
      mayAdopt s.blk (p.stages m entry).cards := by
    unfold mayAdopt
    rw [← hcomp]
    rfl
  obtain ⟨hperm, hbehind, hprefix⟩ := taskOrder_open m.order (mayAdopt s.blk (p.stages m entry).cards)
  refine ⟨hclk, ⟨_, hperm, hbehind, hprefix, ?_⟩, hsettles, ?_, ?_, ?_⟩
  · rw [← hmay, ← hrate, ← hsec]; rfl
  · unfold Part.stages; dsimp only
  · unfold Part.stages Blocks.outputHeads; dsimp only
  · unfold Part.stages; dsimp only

/-- The end of a mark that goes on RUNNING (R13, R36, R143, R171). -/
theorem Part.stages_ends (t : State) (ht : t.part = (p.showWork m entry).closeMark)
    (hrun : (p.stages m entry).read.port.runState = .running) : (p.stages m entry).ends t := by
  rw [p.showWork_stages] at ht
  have hcredited := p.stages_credited m entry (closed_sameFixed (p.stages m entry).read.port)
    ⟨rfl, rfl, rfl, rfl, rfl, rfl, rfl, rfl, rfl, rfl, rfl, rfl⟩
  generalize p.stages m entry = g at ht hrun hcredited ⊢
  have hx := (closed_sameFixed g.read.port).writeClockRecord g.worked.clk _ hcredited
  unfold MarkStages.ends
  dsimp only at ht ⊢
  generalize writeClockRecord (g.worked.clk, g.credited.port) = x at ht hx ⊢
  have hport : t.port = x.2.writePartPage := congrArg (fun y : Part => y.blk.port) ht
  have hflag : flagNat x.2.running = 1 := by rw [Port.running_of (hx.1.trans hrun)]; rfl
  refine ⟨by rw [ht]; rfl, by rw [ht]; rfl, ?_, fun hw => ?_, ?_⟩
  · rw [State.port, State.blk, ht]; rfl
  · obtain ⟨kept, w0, w4, w8, hrest⟩ := x.2.writePartPage_reads hw
    rw [hflag] at w0
    have hres : t.port.result = x.2.result ∧ t.port.resultArea = x.2.resultArea := by
      rw [hport, hrest]; exact ⟨rfl, rfl⟩
    rw [hres.1, hres.2, hport]
    exact ⟨kept, w0, w4, w8⟩
  · rw [hport]; exact x.2.writePartPage_rest

/-- The clock record of a mark that goes on RUNNING (R143). -/
theorem Part.stages_recorded (s t : State) (ht : t.part = (p.showWork m entry).closeMark)
    (hedit : p.clk.edit = s.part.clk.edit) (hw : Memory.wf (p.stages m entry).read.port.mem = true)
    (ha : 2 ≤ ((p.stages m entry).read.port.area 6).first) : s.clockRecorded t := by
  have hkept : (p.stages m entry).worked.clk.edit = p.clk.edit :=
    (Work.tasks_kept (3 * p.tb.rate.length) (p.stages m entry).cards _ _).2
  have hfixed := p.stages_credited m entry (closed_laidAs (p.stages m entry).read.port)
    ⟨hw, rfl, rfl, rfl, rfl, rfl, rfl, rfl, rfl, rfl, rfl, rfl, rfl⟩
  rw [p.showWork_stages] at ht
  generalize p.stages m entry = g at ht ha hkept hfixed
  obtain ⟨hwc, hfixed⟩ := hfixed
  have hbase : 8192 ≤ g.credited.port.areaBase 6 := by
    rw [hfixed.areaBase]; unfold Port.areaBase Config.pageBytes; omega
  have hedits := writeClockRecord_reads g.worked.clk g.credited.port hwc
  have hwx := closed_wf.writeClockRecord g.worked.clk g.credited.port hwc
  have hxfixed := (closed_sameFixed g.read.port).writeClockRecord g.worked.clk g.credited.port hfixed
  have hxclk : (writeClockRecord (g.worked.clk, g.credited.port)).1 =
    { g.worked.clk with edit := g.worked.clk.edit + 2 } := rfl
  dsimp only at ht hedits
  generalize writeClockRecord (g.worked.clk, g.credited.port) = x at ht hedits hwx hxfixed hxclk
  have hport : t.port = x.2.writePartPage := congrArg (fun y : Part => y.blk.port) ht
  have hclk : t.part.clk = x.1 := congrArg Part.clk ht
  obtain ⟨kept, -⟩ := x.2.writePartPage_reads hwx
  have tfixed := (closed_sameFixed g.read.port).writePartPage _ hxfixed
  rw [← hport] at kept tfixed
  have tarea : t.port.areaBase 6 = g.credited.port.areaBase 6 := by rw [tfixed.areaBase, hfixed.areaBase]
  have ttick : t.port.showTick = g.credited.port.showTick := tfixed.2.2.1.trans hfixed.2.2.1.symm
  obtain ⟨hword, hhead, hgame, haux, hscore⟩ := hedits
  generalize g.credited.port.areaBase 6 = a at hbase tarea hword hhead hgame haux hscore
  have same : ∀ b, a ≤ b → memRead t.port.mem b = memRead x.2.mem b := fun b hb =>
    kept b (by simp only [List.mem_cons, List.not_mem_nil, or_false, forall_eq_or_imp, forall_eq]; omega)
  have thead := recordHead_reads (hhead.kept fun b hb _ => same b (by omega))
  have tgame := clockBlock_reads (hgame.kept fun b hb _ => same b (by omega))
  have taux := clockBlock_reads (haux.kept fun b hb _ => same b (by omega))
  have tscore := scoreBlock_reads (hscore.kept fun b hb _ => same b (by omega))
  have tword : memWord t.port.mem a = g.worked.clk.edit + 2 := by
    rw [← hword]; exact memWord_congr fun o _ => same _ (by omega)
  obtain ⟨h1, h2, h3, h4, h5⟩ := thead
  obtain ⟨h6, h7, h8⟩ := tscore
  unfold State.clockRecorded
  rw [tarea, hclk, hxclk, ttick]
  exact ⟨by rw [hkept, hedit], tword, h1, h2, h3, h4, h5, tgame, taux, h6, h7, h8⟩

/-- What a mark that goes on RUNNING leaves as the desks were read with: the run state, the layout, the registers. -/
theorem Part.showWork_sameFixed : Port.sameFixed (p.stages m entry).read.port
    ((p.showWork m entry).closeMark).blk.port := by
  have hcredited := p.stages_credited m entry (closed_sameFixed (p.stages m entry).read.port)
    ⟨rfl, rfl, rfl, rfl, rfl, rfl, rfl, rfl, rfl, rfl, rfl, rfl⟩
  rw [p.showWork_stages]
  generalize p.stages m entry = g at hcredited ⊢
  exact (closed_sameFixed g.read.port).writePartPage _
    ((closed_sameFixed g.read.port).writeClockRecord g.worked.clk _ hcredited)

end Stages

end Sys2Proof.Machine
end


section
/-! PROOFS. The marks that go on RUNNING and start the show (O15, O18, O20). -/

namespace Sys2Proof.Machine

/-! ## The boards as the desks are read (R88, R92, R110) -/

/-- A table mapped by place, where its default maps to the default. -/
theorem tget_tmapFrom_default {α β : Type} (d : α) (e : β) (f : Nat → α → β) (h : ∀ j, f j d = e) (k : Nat)
    (l : List α) (i : Nat) : tget e (tmapFrom f k l) i = f (k + i) (tget d l i) := by
  induction l generalizing k i with
  | nil => exact (h _).symm
  | cons a l ih =>
    cases i with
    | zero => rfl
    | succ i => exact (ih (k + 1) i).trans (by rw [Nat.add_right_comm]; rfl)

/-- The clips KEPT for the frame just ended are noted (R110). -/
theorem Replay.noteKept_clip (r : Replay) (c : Nat) :
    r.noteKept.clip c = (r.clip c).map fun x => { x with ran := x.state == .kept } :=
  tget_tmapFrom_default none none (fun _ x => x.map fun y : Clip => ({ y with ran := y.state == .kept } : Clip))
    (fun _ => rfl) 0 r.clips c

/-- Numbering starts from 0 at entry (R92). -/
theorem Capture.enter_input (c : Capture) (i : Nat) : c.enter.input i = { c.input i with next := 0 } :=
  tget_map (fun x : Input => ({ x with next := 0 } : Input)) (.offAt 0) c.inputs i

/-- What the opening of a mark and the tests of its flags leave of the blocks. -/
theorem Part.openMark_blk (entry : Bool) (p : Part) : (p.openMark entry).blk.startMark =
    { p.blk with port := (p.openMark entry).blk.startMark.port
                 cap := if entry then p.blk.cap.enter else p.blk.cap, rep := p.blk.rep.noteKept } := by
  cases entry <;> rfl

section Begun

variable {s : State} {first : Bool} {dt : Nat} {b : Part} (h : s.Begun first dt b)
include h

/-- The part at the sampling of the RUN request, the Port moved, has the plans of before. -/
theorem State.Begun.read_comp (m : MarkInput) (entry : Bool) (f : Port → Port) :
    (Part.stages m entry { b with blk := b.blk.onPort f }).read.comp = s.blk.comp := by
  have hb : b.blk.comp = s.blk.comp := by rw [h.blk]
  rw [← hb]
  cases entry <;> rfl

/-- The boards as the desks are read (R88, R92, R110). -/
theorem State.Begun.finds (m : MarkInput) (entry : Bool) (f : Port → Port) :
    (Part.stages m entry { b with blk := b.blk.onPort f }).finds entry s := by
  have hread := Part.openMark_blk entry { b with blk := b.blk.onPort f }
  change (Part.stages m entry { b with blk := b.blk.onPort f }).read = _ at hread
  generalize Part.stages m entry { b with blk := b.blk.onPort f } = g at hread
  have hblk := h.blk
  have hcap : g.read.cap = if entry then b.blk.cap.enter else b.blk.cap := by rw [hread]; rfl
  have hrep : g.read.rep = s.blk.rep.noteKept := by
    rw [hread]
    show b.blk.rep.noteKept = _
    rw [hblk]
  refine ⟨?_, fun i => ?_, ?_, fun c => ?_, ?_⟩
  · rw [hcap, ← h.rings]
    cases entry <;> rfl
  · have hin := h.input i
    rw [hcap]
    cases entry
    · exact hin
    · simp only [if_true]
      rw [Capture.enter_input, hin]
  · rw [hrep]; rfl
  · rw [hrep]; exact Replay.noteKept_clip _ c
  · have hrest : g.read = { b.blk with port := g.read.port, cap := g.read.cap, rep := g.read.rep } := by
      rw [hread]; rfl
    exact hrest.trans (by rw [hblk])

end Begun

/-! ## The opening of a mark -/

/-- The tests of both flags leave the desks. -/
theorem Port.tests_desks (p : Port) : p.testLogFull.testOverrun.desks = p.desks := by
  rw [Port.testOverrun_eq, Port.testLogFull_eq]

/-- Memories that agree outside the part page and the notice area, one after another. -/
theorem Port.agreesOutside.trans {p q r : Port} (h : p.agreesOutside q) (ha : q.areaBase 8 = p.areaBase 8)
    (k : q.agreesOutside r) : p.agreesOutside r := fun a h1 h2 =>
  (k a h1 (by rw [ha]; exact h2)).trans (h a h1 h2)

/-- What is written in the part page alone leaves all outside it. -/
theorem Port.agreesOutside_of_kept {p q : Port} {words : List Nat} (h : bytesKept p.mem q.mem words)
    (hw : ∀ w ∈ words, partPage ≤ w ∧ w + 4 ≤ partPage + 4096) : p.agreesOutside q := fun a h1 _ =>
  h a fun w hm => by have := hw w hm; omega

/-- The opening of a mark that goes on RUNNING: the show tick, the notice of a relock, the tests of the flags (R3, R9, R12,
R80, R190). -/
theorem Part.opens_port (b : Part) (hl : b.blk.port.laid) :
    let q := (Part.openMark false { b with blk := b.blk.onPort Port.advanceTick }).blk.startMark.port
    q.laid ∧ Port.through ([tickAdvanced] ++
      (if b.tb.relocking = true then [noticed 22 b.tb.genlockSubject 2] else []) ++ [flagsTested]) b.blk.port q ∧
    b.blk.port.agreesOutside q := by
  have hq : (Part.openMark false { b with blk := b.blk.onPort Port.advanceTick }).blk.startMark.port =
      (relockNotice b.tb b.blk.port.advanceTick).testLogFull.testOverrun := rfl
  dsimp only
  rw [hq]
  have htick := b.blk.port.advanceTick_tickAdvanced hl.1
  have harea1 : b.blk.port.advanceTick.areaBase 8 = b.blk.port.areaBase 8 := by
    unfold Port.areaBase Port.area; rw [htick.2.2]
  have hlaid1 : b.blk.port.advanceTick.laid :=
    ⟨wf_memWriteWord _ _ _ hl.1, fun i hi => hl.2 i hi⟩
  have hout1 : b.blk.port.agreesOutside b.blk.port.advanceTick :=
    Port.agreesOutside_of_kept htick.2.1 (by simp [partPage])
  generalize b.blk.port.advanceTick = p1 at htick harea1 hlaid1 hout1
  have hnote := relockNotice_through b.tb p1 fun _ => hlaid1
  have hlaid2 : (relockNotice b.tb p1).laid := closed_laid.relockNotice b.tb p1 hlaid1
  have hout2 : p1.agreesOutside (relockNotice b.tb p1) := by
    unfold relockNotice
    split
    · exact p1.notice_agreesOutside _ _ _ hlaid1
    · exact fun _ _ _ => rfl
  have harea2 := Port.sameFixed.areaBase (closed_sameFixed p1 |>.relockNotice b.tb p1
    ⟨rfl, rfl, rfl, rfl, rfl, rfl, rfl, rfl, rfl, rfl, rfl, rfl⟩) 8
  generalize relockNotice b.tb p1 = p2 at hnote hlaid2 hout2 harea2
  have htest := p2.test_flagsTested hlaid2.1
  have hlaid3 := closed_laid.testOverrun _ (closed_laid.testLogFull _ hlaid2)
  have hout3 : p2.agreesOutside p2.testLogFull.testOverrun :=
    Port.agreesOutside_of_kept htest.2.2.1 (by simp [partPage])
  refine ⟨hlaid3, ?_, ?_⟩
  · exact Port.through_append (Port.through_append (Port.through_one htick) hnote) (Port.through_one htest)
  · exact (hout1.trans harea1 hout2).trans (harea2.trans harea1) hout3

/-- What the opening of a mark that goes on RUNNING leaves of the registers: all but the show tick (R12). -/
theorem Part.opens_fixed (b : Part) :
    let q := (Part.openMark false { b with blk := b.blk.onPort Port.advanceTick }).blk.startMark.port
    Port.sameFixed { b.blk.port with showTick := b.blk.port.showTick + 1 } q ∧ q.desks = b.blk.port.desks := by
  have hq : (Part.openMark false { b with blk := b.blk.onPort Port.advanceTick }).blk.startMark.port =
      (relockNotice b.tb b.blk.port.advanceTick).testLogFull.testOverrun := rfl
  have hrelock : ∀ p : Port, (relockNotice b.tb p).desks = p.desks := fun p => by
    unfold relockNotice; split <;> simp
  have hfixed := closed_sameFixed { b.blk.port with showTick := b.blk.port.showTick + 1 }
  dsimp only
  rw [hq]
  refine ⟨hfixed.testOverrun _ (hfixed.testLogFull _ (hfixed.relockNotice b.tb _ ?_)), ?_⟩
  · exact hfixed.pokePart _ _ _ ⟨rfl, rfl, rfl, rfl, rfl, rfl, rfl, rfl, rfl, rfl, rfl, rfl⟩
  · rw [Port.tests_desks, hrelock]; rfl

/-- The show tick raised on two Ports alike. -/
theorem Port.sameFixed.tick {p q : Port} (h : Port.sameFixed p q) :
    Port.sameFixed { p with showTick := p.showTick + 1 } { q with showTick := q.showTick + 1 } := by
  obtain ⟨h1, h2, h3, h4, h5, h6, h7, h8, h9, h10, h11, h12⟩ := h
  exact ⟨h1, h2, congrArg (· + 1) h3, h4, h5, h6, h7, h8, h9, h10, h11, h12⟩

/-- RUNNING with the RUN request set (R11, R12, R143). -/
theorem State.Begun.goesOn {s : State} {first : Bool} {dt : Nat} {b : Part} (h : s.Begun first dt b) (m : MarkInput)
    (hc : s.port.runState = .running) (hr : s.port.runRequest = true) :
    s.goesOn first dt m { s with part := (b.sampleRun m).closeMark } := by
  rw [b.sampleRun_goesOn m (h.fixed.1.trans hc) (h.fixed.2.1.trans hr)]
  have hread := b.opens_fixed
  have hopens := b.opens_port
  have hcomp := h.read_comp m false Port.advanceTick
  have hfinds := h.finds m false Port.advanceTick
  generalize hp : ({ b with blk := b.blk.onPort Port.advanceTick } : Part) = p at hread hopens hcomp hfinds ⊢
  have psec : p.sec = s.markSections first := by rw [← hp]; exact h.sec
  have pclk : s.markClock p.clk := by rw [← hp]; exact h.clk
  have prate : p.tb.rate = s.part.tb.rate := by rw [← hp]; exact h.rate
  have ptb : p.tb = b.tb := by rw [← hp]
  change Port.sameFixed _ (p.stages m false).read.port ∧ (p.stages m false).read.port.desks = _ at hread
  change b.blk.port.laid → (p.stages m false).read.port.laid ∧ Port.through _ _ (p.stages m false).read.port ∧
    b.blk.port.agreesOutside (p.stages m false).read.port at hopens
  obtain ⟨gfixed, gdesks⟩ := hread
  have hopened := h.fixed.tick.trans gfixed
  have hfinal := hopened.trans (p.showWork_sameFixed m false)
  have hends := p.stages_ends m false { s with part := (p.showWork m false).closeMark } rfl
  have htakes := p.stages_takes m false s hcomp
  have hworks := p.stages_works m false s first psec pclk prate hcomp
  have hrecorded := p.stages_recorded m false s { s with part := (p.showWork m false).closeMark } rfl
    (by rw [pclk.1])
  have hwread : Memory.wf s.port.mem = true → Memory.wf (p.stages m false).read.port.mem = true := fun hw =>
    closed_wf.startMark _ (closed_wf.openMark false p (by
      rw [← hp]; exact closed_wf.pokePart _ _ _ (h.wf hw)))
  have tgenlock : (p.showWork m false).closeMark.tb.genlockSubject = b.tb.genlockSubject := by
    show (p.showWork m false).tb.genlockSubject = _
    rw [Part.showWork_tb, ptb]
  generalize (p.showWork m false).closeMark = x at hfinal hends hrecorded tgenlock ⊢
  generalize p.stages m false = g at *
  obtain ⟨gstate, -, gtick, gareas, gsizes, gthresholds, -⟩ := hopened
  obtain ⟨tstate, trequest, ttick, tareas, tsizes, tthresholds, -, -, tlocks, tfault, tmask, -⟩ := hfinal
  refine ⟨ttick, tstate.trans hc, trequest.trans hr, tareas, tsizes, tthresholds, tlocks, tmask, tfault,
    fun hw ha => hrecorded (hwread hw) ?_,
    g, ⟨gtick, gstate.trans hc, gdesks.trans h.desks, gareas, gsizes, gthresholds, fun hl => ?_, fun hl => ?_, hfinds⟩,
    htakes, hworks, hends (gstate.trans hc)⟩
  · unfold Port.area at ha ⊢; rw [gareas]; exact ha
  · obtain ⟨qlaid, qthrough, -⟩ := hopens (h.laid hl)
    have t := Port.through_append (h.through fun _ => hl) qthrough
    rw [h.relocking, ← tgenlock] at t
    simp only [← List.append_assoc] at t
    exact ⟨qlaid, t⟩
  · obtain ⟨-, -, qoutside⟩ := hopens (h.laid hl)
    exact (h.outside hl).trans (Port.sameFixed.areaBase h.fixed 8) qoutside

/-! ## The start of a show (R9, R148, R172, R173) -/

/-- Every small change keeps its property through the sweep (R181). -/
theorem Port.Closed.sweep {P : Port → Prop} (hP : Port.Closed P) (p : Port) (hp : P p) : P p.sweep := by
  rw [Port.sweep_eq]
  refine hP.fold _ (fun q x hq => ?_) _ _ hp
  unfold Port.sweepSlot
  dsimp only
  split
  · exact hP.moveOut _ _ _ _ _ _ _ hq
  · exact hq

/-- The Port with a record in force and its counts started, but for Show Memory, the desks and the counts (R173). -/
def Port.inForce (p : Port) (l : Layout) : Port :=
  { p with result := .ok, resultArea := 255, areas := some l.areas, sizes := some l.sizes
           thresholds := some l.thresholds, countsInForce := true }

/-- The registers and the layout after the first four stages of the entry (R173). -/
theorem Port.swept_fixed (p : Port) (l : Layout) : Port.sameFixed (p.inForce l)
    ((({ p with result := .ok, resultArea := 255 }.putInForce l).clearDesks).startCounts).sweep := by
  have hclosed := closed_sameFixed (p.inForce l)
  refine hclosed.sweep _ ?_
  rw [Port.startCounts_eq]
  refine hclosed.evalConditions _ ?_
  rw [Port.clearDesks_eq]
  exact ⟨rfl, rfl, rfl, rfl, rfl, rfl, rfl, rfl, rfl, rfl, rfl, rfl⟩

/-- The registers and the layout after the entry under a record (R12, R172, R173, R183). -/
theorem Port.enter_fixed (p : Port) (l : Layout) : Port.sameFixed
    { p.inForce l with showTick := 0, runState := .running
                       partLocks := ⟨1, 1⟩ :: [5, 6, 7, 8].map (fun i => tget ⟨0, 0⟩ l.areas i) } (p.enter l) := by
  have hswept := p.swept_fixed l
  unfold Port.enter
  generalize Port.sweep _ = q at hswept ⊢
  obtain ⟨-, h2, -, h4, h5, h6, h7, h8, -, h10, h11, h12⟩ := hswept
  refine ⟨rfl, h2, rfl, h4, h5, h6, h7, h8, ?_, h10, h11, h12⟩
  show [⟨1, 1⟩, q.area 5, q.area 6, q.area 7, q.area 8] = _
  unfold Port.area
  rw [h4]; rfl

/-- The opening of the mark of entry: the notices of genlock and of the console, the tests of the flags (R9, R80, R148,
R190). -/
theorem Part.enters_port (p : Part) (hl : p.blk.port.laid) :
    let q := (p.openMark true).blk.startMark.port
    q.laid ∧ Port.through (p.tb.entryNoticed ++ p.clk.entryNoticed ++ [flagsTested]) p.blk.port q := by
  have hq : (p.openMark true).blk.startMark.port =
      (clockEntryNotice (p.clk, genlockEntryNotice p.tb p.blk.port)).2.testLogFull.testOverrun := rfl
  have hgenlock := genlockEntryNotice_through p.tb p.blk.port fun _ => hl
  have hlaid1 := closed_laid.genlockEntryNotice p.tb p.blk.port hl
  dsimp only
  rw [hq]
  generalize genlockEntryNotice p.tb p.blk.port = p1 at hgenlock hlaid1
  have hconsole := clockEntryNotice_through p.clk p1 fun _ => hlaid1
  have hlaid2 := closed_laid.clockEntryNotice (p.clk, p1) hlaid1
  generalize (clockEntryNotice (p.clk, p1)).2 = p2 at hconsole hlaid2
  exact ⟨closed_laid.testOverrun _ (closed_laid.testLogFull _ hlaid2),
    Port.through_append (Port.through_append hgenlock hconsole) (Port.through_one (p2.test_flagsTested hlaid2.1))⟩

/-- CONFIG with the RUN request set and a record that passes (R11, R12, R172, R173). -/
theorem State.Begun.showStarts {s : State} {first : Bool} {dt : Nat} {b : Part} (h : s.Begun first dt b) (m : MarkInput)
    (hc : s.port.runState = .config) (hr : s.port.runRequest = true) (hok : (readLayout s.port.mem).check.1 = .ok) :
    s.showStarts first m { s with part := (b.sampleRun m).closeMark } := by
  have hb : b.blk.port = s.port := h.config hc
  have hattempt : s.port.attempt = s.port.enter (readLayout s.port.mem) := by
    unfold Port.attempt
    dsimp only
    rw [if_pos hok]
  have henter := s.port.enter_fixed (readLayout s.port.mem)
  rw [← hattempt] at henter
  rw [b.sampleRun_starts m (by rw [hb]; exact hc) (by rw [hb]; exact hr) (by rw [hb]; exact henter.1)]
  have hcomp := h.read_comp m true Port.attempt
  have hfinds := h.finds m true Port.attempt
  generalize hp : ({ b with blk := b.blk.onPort Port.attempt } : Part) = p at hcomp hfinds ⊢
  have psec : p.sec = s.markSections first := by rw [← hp]; exact h.sec
  have pclk : s.markClock p.clk := by rw [← hp]; exact h.clk
  have prate : p.tb.rate = s.part.tb.rate := by rw [← hp]; exact h.rate
  have pport : p.blk.port = s.port.attempt := by rw [← hp, ← hb]; rfl
  have hread : Port.sameFixed s.port.attempt (p.stages m true).read.port := by
    rw [← pport]
    have hfixed := closed_sameFixed p.blk.port
    exact hfixed.startMark _ (hfixed.openMark true p ⟨rfl, rfl, rfl, rfl, rfl, rfl, rfl, rfl, rfl, rfl, rfl, rfl⟩)
  have hopens : p.blk.port.laid → (p.stages m true).read.port.laid ∧ Port.through
    (p.tb.entryNoticed ++ p.clk.entryNoticed ++ [flagsTested]) p.blk.port (p.stages m true).read.port := p.enters_port
  have hfinal := p.showWork_sameFixed m true
  have hends := p.stages_ends m true { s with part := (p.showWork m true).closeMark } rfl
  have htakes := p.stages_takes m true s hcomp
  have hworks := p.stages_works m true s first psec pclk prate hcomp
  have hrecorded := p.stages_recorded m true s { s with part := (p.showWork m true).closeMark } rfl
    (by rw [pclk.1])
  have hclock : (p.stages m true).clock = p.clk := rfl
  have tentry : (p.showWork m true).closeMark.tb.entryNoticed = p.tb.entryNoticed := by
    show (p.showWork m true).tb.entryNoticed = _
    rw [Part.showWork_tb]
  generalize (p.showWork m true).closeMark = x at hfinal hends hrecorded tentry ⊢
  generalize p.stages m true = g at *
  obtain ⟨gstate, -⟩ := henter.trans hread
  obtain ⟨tstate, trequest, ttick, tareas, tsizes, tthresholds, tresult, tresultArea, tlocks, tfault, tmask, tcounts⟩ :=
    (henter.trans hread).trans hfinal
  refine ⟨tstate, trequest.trans hr, ttick, tareas, tsizes, tthresholds, tresult, tresultArea, tcounts, tlocks, tmask,
    tfault, fun hw => ?_⟩
  obtain ⟨hthrough, hlaid⟩ := s.port.enter_through (readLayout s.port.mem) hok hw
  rw [← hattempt, ← pport] at hthrough hlaid
  obtain ⟨qlaid, qthrough⟩ := hopens hlaid
  refine ⟨hrecorded qlaid.1 (qlaid.2 6 (by omega)), g, ⟨qlaid, ?_, hfinds⟩, htakes, hworks, hends gstate⟩
  have t := Port.through_append hthrough qthrough
  rw [← hclock, ← tentry] at t
  simp only [← List.append_assoc] at t
  exact t

end Sys2Proof.Machine
end


section
/-! PROOFS. Synthesiser lock and the entry to RUNNING (O15, O20). -/

namespace Sys2Proof.Machine

/-- The work of a mark leaves the health records (R39). -/
theorem Part.sampleRun_health (m : MarkInput) (s : Part) : (s.sampleRun m).sec.health = s.sec.health := by
  have hshow : ∀ (entry : Bool) (p : Part), (p.showWork m entry).sec.health = p.sec.health := fun entry p => by
    have h := (Work.tasks_kept (3 * p.tb.rate.length) (p.stages m entry).cards
      (taskOrder m.order (mayAdopt (p.stages m entry).read.pickupAll.1 (p.stages m entry).cards))
      { sec := p.sec, clk := p.clk, blk := (p.stages m entry).advanced, accepted := [] }).1
    rw [p.showWork_stages]
    exact h
  have hidle : ∀ p : Part, p.idleWork.sec.health = p.sec.health := fun _ => rfl
  unfold Part.sampleRun
  dsimp only
  split
  · split
    · exact hshow false _
    · exact hidle _
  · split
    · split
      · exact hshow true _
      · exact hidle _
    · exact hidle _

/-- The Timebase when an unlocked synthesiser locks: the first frame begins (R2, R4). -/
theorem Part.lock_tb (dt : Nat) (m : MarkInput) (s : Part) :
    ((((s.referencePresent.elapse dt).opened true).sampleRun m).closeMark).tb =
      { (({ s.tb with reference := true } : Timebase).elapsed dt).firstFrame with relocking := false } := by
  rw [← Part.mark_eq, Part.mark_tb, Part.elapse_tb dt _ (.inl rfl)]
  rfl

/-- The first frame after some periods, in terms of the Timebase before them (R2, R4, R5). -/
theorem Timebase.elapsed_firstFrame (b : Timebase) (dt : Nat) :
    let d := (({ b with reference := true } : Timebase).elapsed dt).firstFrame
    d.synthLocked = true ∧ d.reference = true ∧ d.rate = b.rate ∧ d.frameLength = b.rate.length ∧ d.correction = 0 ∧
    d.lockCount = 0 ∧ d.sinceMark = 0 ∧ d.sinceMs = 0 ∧ d.genlockEnable = b.genlockEnable ∧
    d.genlock = (if d.genlockEnable = false then .freeRun else if d.syncTimer.isSome then .locking else .holdover) ∧
    d.syncTimer = (b.syncTimer.bind fun r => if r ≤ dt then none else some (r - dt)) := by
  have hgenlock : ∀ x : Timebase, x.firstFrame.genlock = (if x.firstFrame.genlockEnable = false then .freeRun
      else if x.firstFrame.syncTimer.isSome then .locking else .holdover) := fun x => by
    show x.firstGenlock = (if x.genlockEnable = false then _ else if x.syncTimer.isSome then _ else _)
    unfold Timebase.firstGenlock
    cases x.genlockEnable <;> rfl
  refine ⟨rfl, ?_, ?_, ?_, rfl, rfl, rfl, rfl, ?_, hgenlock _, ?_⟩
  all_goals unfold Timebase.elapsed Timebase.ranOn
  all_goals split <;> rfl

/-- Settles O15: the frame by `Timebase.elapsed_firstFrame`, its mark by run state and RUN request. -/
theorem synthesiserLockBeginsAFrame : Obligations.SynthesiserLockBeginsAFrame := by
  intro dt m s hl
  obtain ⟨hexec, hb⟩ := s.synthesiserLock_begun dt m hl
  have htb := s.part.lock_tb dt m
  obtain ⟨flocked, freference, frate, flength, fcorrection, fcount, fmark, fms, fenable, fgenlock, ftimer⟩ :=
    s.part.tb.elapsed_firstFrame dt
  have hhealth : ((((s.part.referencePresent.elapse dt).opened true).sampleRun m).closeMark).sec.health =
      s.part.sec.health := by
    show (Part.sampleRun m _).sec.health = _
    rw [Part.sampleRun_health, hb.sec]; rfl
  generalize (s.part.referencePresent.elapse dt).opened true = b at hexec hb htb hhealth
  have goes := hb.goesOn m
  have stops := hb.showStops m
  have starts := hb.showStarts m
  have fails := hb.entryFails m
  have stays := hb.staysConfig m
  generalize (b.sampleRun m).closeMark = x at *
  have hlength : s.part.tb.rate.length = match s.part.tb.rate with
      | .fps50 => 540000 | .fps5994 => 450450 | .fps60 => 450000 := by cases s.part.tb.rate <;> rfl
  rw [hlength] at flength
  generalize (Timebase.elapsed _ dt).firstFrame = d at *
  refine ⟨_, hexec, ?_⟩
  dsimp only
  rw [htb]
  exact ⟨flocked, freference, frate, flength, fcorrection, fcount, fmark, fms, fenable, fgenlock, ftimer, rfl, hhealth,
    goes, stops, starts, fails, stays⟩

/-- Settles O20, by the check of the record; the sweep alone is `Layout.sweep_orphansSwept`. -/
theorem entryAttemptValidatesTheLayout : Obligations.EntryAttemptValidatesTheLayout := by
  refine ⟨fun m s hl hc hr hok => ?_, fun m s hl hc hr hbad hw => ?_, fun l p h hp hw => l.sweep_orphansSwept h p hp hw⟩
  · obtain ⟨b, hexec, hb⟩ := s.frameMark_begun m hl
    exact ⟨_, hexec, hb.showStarts m hc hr hok⟩
  · obtain ⟨b, hexec, hb⟩ := s.frameMark_begun m hl
    exact ⟨_, hexec, hb.entryFails m hc hr hbad hw⟩

end Sys2Proof.Machine
end


section
/-! PROOFS. What the pickup of a desk does to its slots, one after another (R175 to R178; O18). -/

namespace Sys2Proof.Machine

/-! ## A step at one slot -/

/-- The Port lies as the start of a pickup has it: Show Memory canonical, the layout and the registers as they were, and the
seen count and the rescan of the desk as they were. -/
structure Port.Picking (p : Port) (d : Desk) (q : Port) : Prop where
  lies : Port.laidAs p q
  seen : (q.desks.get d).seen = (p.desks.get d).seen
  rescan : (q.desks.get d).rescan = (p.desks.get d).rescan

theorem Port.Picking.slotAddr {p q : Port} {d : Desk} (h : p.Picking d q) (i : Nat) : q.slotAddr d i = p.slotAddr d i := by
  unfold Port.slotAddr
  rw [h.lies.2.areaBase]

theorem Port.Picking.showTick {p q : Port} {d : Desk} (h : p.Picking d q) : q.showTick = p.showTick := h.lies.showTick

/-- A slot lies clear of the host page and the part page. -/
theorem Port.slotAddr_clear (p : Port) (d : Desk) (i : Nat) (h : 2 ≤ (p.area (deskIndex d)).first) :
    8192 ≤ p.slotAddr d i := by
  unfold Port.slotAddr Port.areaBase Config.pageBytes; omega

/-- A step moves one slot: only its head words, and outside the areas the part page, may have moved. -/
structure Port.SlotStep (p : Port) (d : Desk) (i : Nat) (q r : Port) : Prop where
  picking : p.Picking d r
  kept : ∀ b, 8192 ≤ b → (b < p.slotAddr d i ∨ p.slotAddr d i + 28 ≤ b) → memRead r.mem b = memRead q.mem b

/-- The words of one slot read the same in two memories. -/
def Port.slotSame (p : Port) (d : Desk) (i : Nat) (m n : List Host.Cell) : Prop :=
  ∀ b, p.slotAddr d i ≤ b → b < p.slotAddr d i + 512 → memRead n b = memRead m b

theorem Port.slotSame.word {p : Port} {d : Desk} {i : Nat} {m n : List Host.Cell} (h : p.slotSame d i m n) (k : Nat)
    (hk : k + 4 ≤ 512) : memWord n (p.slotAddr d i + k) = memWord m (p.slotAddr d i + k) :=
  memWord_congr fun o ho => h _ (by omega) (by omega)

/-- A step at one slot leaves another slot's bytes. -/
theorem Port.SlotStep.other {p q r : Port} {d : Desk} {i j : Nat} (h : p.SlotStep d i q r)
    (hf : 2 ≤ (p.area (deskIndex d)).first) (hij : j ≠ i) : p.slotSame d j q.mem r.mem := by
  intro b h1 h2
  have hc := p.slotAddr_clear d j hf
  unfold Port.slotAddr at h1 h2 hc
  refine h.kept b (by omega) ?_
  unfold Port.slotAddr
  omega

/-- Steps at different slots, one after another. Each slot is moved from the bytes it started with, and ends with what its
step left. -/
theorem Port.slotSteps (p : Port) (d : Desk) (hf : 2 ≤ (p.area (deskIndex d)).first) {β : Type} (slot : β → Nat)
    (f : Port → β → Port) (hstep : ∀ q x, p.Picking d q → p.SlotStep d (slot x) q (f q x)) (l : List β)
    (hn : (l.map slot).Nodup) (q : Port) (hq : p.Picking d q) :
    p.Picking d (l.foldl f q) ∧
    (∀ b, 8192 ≤ b → (∀ x ∈ l, b < p.slotAddr d (slot x) ∨ p.slotAddr d (slot x) + 28 ≤ b) →
      memRead (l.foldl f q).mem b = memRead q.mem b) ∧
    (∀ j, (∀ x ∈ l, slot x ≠ j) → p.slotSame d j q.mem (l.foldl f q).mem) ∧
    ∀ x ∈ l, ∃ r, p.Picking d r ∧ p.slotSame d (slot x) q.mem r.mem ∧
      p.slotSame d (slot x) (f r x).mem (l.foldl f q).mem := by
  induction l generalizing q with
  | nil => exact ⟨hq, fun _ _ _ => rfl, fun _ _ _ _ _ => rfl, by simp⟩
  | cons a l ih =>
    rw [List.map_cons, List.nodup_cons] at hn
    have ha := hstep q a hq
    obtain ⟨h1, h2, h3, h4⟩ := ih hn.2 (f q a) ha.picking
    rw [List.foldl_cons]
    refine ⟨h1, fun b hb hx => ?_, fun j hj b hb hb' => ?_, fun x hx => ?_⟩
    · rw [h2 b hb fun x hm => hx x (by simp [hm])]
      exact ha.kept b hb (hx a (by simp))
    · rw [h3 j (fun x hm => hj x (by simp [hm])) b hb hb']
      exact ha.other hf (Ne.symm (hj a (by simp))) b hb hb'
    · rcases List.mem_cons.mp hx with rfl | hm
      · exact ⟨q, hq, fun _ _ _ => rfl, h3 _ fun y hy e => hn.1 (by rw [← e]; exact List.mem_map_of_mem hy)⟩
      · obtain ⟨r, r1, r2, r3⟩ := h4 x hm
        have hne : slot x ≠ slot a := fun e => hn.1 (by rw [← e]; exact List.mem_map_of_mem hm)
        exact ⟨r, r1, fun b hb hb' => (r2 b hb hb').trans (ha.other hf hne b hb hb'), r3⟩

/-! ## A slot refused, and a slot taken (R175, R178) -/

/-- A slot as a refusal from POSTED leaves it in a memory (R175). -/
def Port.refusedIn (p : Port) (d : Desk) (i : Nat) (outcome result : Word) (m : List Host.Cell) : Prop :=
  (memWord m (p.slotAddr d i) = 5 ∧ memWord m (p.slotAddr d i + 12) = outcome ∧
    memWord m (p.slotAddr d i + 20) = p.showTick ∧ memWord m (p.slotAddr d i + 24) = result) ∧
  memWord m (p.slotAddr d i + 16) = p.showTick

/-- A slot as a take leaves it in a memory (R175). -/
def Port.takenIn (p : Port) (d : Desk) (i : Nat) (m : List Host.Cell) : Prop :=
  memWord m (p.slotAddr d i) = 2 ∧ memWord m (p.slotAddr d i + 16) = p.showTick

theorem Port.refusedIn.kept {p : Port} {d : Desk} {i : Nat} {o r : Word} {m n : List Host.Cell}
    (h : p.refusedIn d i o r m) (k : p.slotSame d i m n) : p.refusedIn d i o r n := by
  obtain ⟨⟨h0, h12, h20, h24⟩, h16⟩ := h
  exact ⟨⟨(k.word 0 (by omega)).trans h0, (k.word 12 (by omega)).trans h12, (k.word 20 (by omega)).trans h20,
    (k.word 24 (by omega)).trans h24⟩, (k.word 16 (by omega)).trans h16⟩

theorem Port.takenIn.kept {p : Port} {d : Desk} {i : Nat} {m n : List Host.Cell} (h : p.takenIn d i m)
    (k : p.slotSame d i m n) : p.takenIn d i n :=
  ⟨(k.word 0 (by omega)).trans h.1, (k.word 16 (by omega)).trans h.2⟩

/-- A slot in its turn of take, in a memory: TAKEN where its card is one, else REFUSED BAD_KIND (R178). -/
def Port.pickedIn (p : Port) (d : Desk) (i : Nat) (card : Bool) (m : List Host.Cell) : Prop :=
  if card then p.takenIn d i m else p.refusedIn d i 18 0 m

theorem Port.pickedIn.kept {p : Port} {d : Desk} {i : Nat} {card : Bool} {m n : List Host.Cell}
    (h : p.pickedIn d i card m) (k : p.slotSame d i m n) : p.pickedIn d i card n := by
  cases card
  · exact Port.refusedIn.kept h k
  · exact Port.takenIn.kept h k

/-- The desk after a refusal from POSTED: the done count is raised, and the slot out of the held set (R175). -/
theorem Port.refusePosted_desk (q : Port) (d : Desk) (i : Nat) (o : CardOutcome) (r : Word) :
    (q.refusePosted d i o r).desks.get d = { q.desks.get d with
      done := (q.desks.get d).done + 1, held := (q.desks.get d).held.filter (· != i) } := by
  unfold Port.refusePosted Port.refuse
  rw [Port.moveOut_desks, Desks.get_set_self]
  rfl

/-- A refusal from POSTED (R175). -/
theorem Port.refusePosted_step (p : Port) (d : Desk) (hf : 2 ≤ (p.area (deskIndex d)).first) (q : Port)
    (hq : p.Picking d q) (i : Nat) (o : CardOutcome) (r : Word) :
    p.SlotStep d i q (q.refusePosted d i o r) ∧
      p.refusedIn d i (toWord o.code) r (q.refusePosted d i o r).mem := by
  have haddr := hq.slotAddr i
  have htick := hq.showTick
  have hclear := p.slotAddr_clear d i hf
  have harea : (q.area (deskIndex d)) = p.area (deskIndex d) := by
    unfold Port.area; rw [hq.lies.2.2.2.2.1]
  have hdesk := q.refusePosted_desk d i o r
  have hlies : Port.laidAs p (q.refusePosted d i o r) :=
    (closed_laidAs p).refuse _ _ _ _ _ ((closed_laidAs p).poke _ _ _ hq.lies)
  have w1 := wf_memWriteWord q.mem (p.slotAddr d i + 16) p.showTick hq.lies.1
  have hmem : (q.poke (q.slotAddr d i + 16) q.showTick).mem = memWriteWord q.mem (p.slotAddr d i + 16) p.showTick := by
    rw [haddr, htick]; rfl
  have hreads := (q.poke (q.slotAddr d i + 16) q.showTick).moveOut_slotReads d i slotRefused o q.showTick r
    (by rw [hmem]; exact w1) (by show 2 ≤ (q.area (deskIndex d)).first; rw [harea]; exact hf)
  have hkept := (q.poke (q.slotAddr d i + 16) q.showTick).moveOut_bytesKept d i slotRefused o q.showTick r
    (by rw [hmem]; exact w1)
  rw [hmem] at hkept
  change (q.poke (q.slotAddr d i + 16) q.showTick).slotReads (q.refusePosted d i o r) _ _ _ _ _ _ at hreads
  change bytesKept _ (q.refusePosted d i o r).mem _ at hkept
  have hslot : (q.poke (q.slotAddr d i + 16) q.showTick).slotAddr d i = p.slotAddr d i := haddr
  unfold Port.slotReads at hreads
  unfold Port.slotWords at hkept
  rw [hslot] at hreads hkept
  rw [htick] at hreads
  generalize q.refusePosted d i o r = t at *
  have hd : deskIndex d ≤ 4 := by cases d <;> simp [deskIndex]
  have hout : ∀ b, 8192 ≤ b → (b < p.slotAddr d i ∨ p.slotAddr d i + 28 ≤ b) → memRead t.mem b = memRead q.mem b := by
    intro b hb hb'
    rw [hkept b ?_, memRead_memWriteWord_ne _ _ _ _ hq.lies.1 (by omega)]
    simp only [List.mem_cons, List.not_mem_nil, or_false, forall_eq_or_imp, forall_eq, partPage]
    omega
  refine ⟨⟨⟨hlies, by rw [hdesk]; exact hq.seen, by rw [hdesk]; exact hq.rescan⟩, hout⟩, hreads, ?_⟩
  rw [← memWord_memWriteWord_self q.mem (p.slotAddr d i + 16) p.showTick hq.lies.1]
  refine memWord_congr fun k hk => hkept _ ?_
  simp only [List.mem_cons, List.not_mem_nil, or_false, forall_eq_or_imp, forall_eq, partPage]
  omega

/-- A take (R175, R178). -/
theorem Port.markTaken_step (p : Port) (d : Desk) (q : Port) (hq : p.Picking d q) (i : Nat) :
    p.SlotStep d i q (q.markTaken d i) ∧ p.takenIn d i (q.markTaken d i).mem ∧
    (q.markTaken d i).desks.get d = { q.desks.get d with held := (q.desks.get d).held ++ [i] } := by
  have haddr := hq.slotAddr i
  have htick := hq.showTick
  have hdesk : (q.markTaken d i).desks.get d = { q.desks.get d with held := (q.desks.get d).held ++ [i] } := by
    unfold Port.markTaken Port.setDesk
    dsimp only
    rw [Desks.get_set_self]; rfl
  have hlies : Port.laidAs p (q.markTaken d i) :=
    (closed_laidAs p).setDesk _ _ _ ((closed_laidAs p).poke _ _ _ ((closed_laidAs p).poke _ _ _ hq.lies))
  have hmem : (q.markTaken d i).mem =
      memWriteWord (memWriteWord q.mem (p.slotAddr d i + 16) p.showTick) (p.slotAddr d i) 2 := by
    rw [← haddr, ← htick]; rfl
  have w1 := wf_memWriteWord q.mem (p.slotAddr d i + 16) p.showTick hq.lies.1
  refine ⟨⟨⟨hlies, by rw [hdesk]; exact hq.seen, by rw [hdesk]; exact hq.rescan⟩, fun b _ hb => ?_⟩, ⟨?_, ?_⟩, hdesk⟩
  · rw [hmem, memRead_memWriteWord_ne _ _ _ _ w1 (by omega), memRead_memWriteWord_ne _ _ _ _ hq.lies.1 (by omega)]
  · rw [hmem, memWord_memWriteWord_self _ _ _ w1]
  · rw [hmem, memWord_memWriteWord_ne _ _ _ _ w1 (by omega), memWord_memWriteWord_self _ _ _ hq.lies.1]

end Sys2Proof.Machine
end


section
/-! PROOFS. The pickup of a desk (R175 to R180; O18). -/

namespace Sys2Proof.Machine

/-! ## The scan and the order of take (R177, R178) -/

/-- A slot of a desk is POSTED and outside the held set (R177). -/
def Port.isPosted (p : Port) (d : Desk) (i : Nat) : Prop :=
  i < deskSlots d ∧ i ∉ (p.desks.get d).held ∧ memWord p.mem (p.slotAddr d i) = 1

/-- A scan finds the POSTED slots with their post numbers (R177). -/
theorem Port.mem_scan (p : Port) (d : Desk) (x : Posted) :
    x ∈ p.scan d ↔ p.isPosted d x.slot ∧ x.post = memWord p.mem (p.slotAddr d x.slot + 4) := by
  unfold Port.scan Port.isPosted slotPosted
  rw [List.mem_filterMap]
  simp only [List.mem_range, Bool.and_eq_true, Bool.not_eq_true', List.contains_eq_mem, decide_eq_false_iff_not,
    beq_iff_eq, Option.ite_none_right_eq_some, Option.some.injEq]
  constructor
  · rintro ⟨i, h1, ⟨h2, h3⟩, rfl⟩
    exact ⟨⟨h1, h2, h3⟩, rfl⟩
  · rintro ⟨⟨h1, h2, h3⟩, h4⟩
    exact ⟨x.slot, h1, ⟨h2, h3⟩, by rw [← h4]⟩

/-- It finds them in slot order (R177). -/
theorem Port.scan_sorted (p : Port) (d : Desk) : (p.scan d).Pairwise fun x y => x.slot < y.slot := by
  refine List.Pairwise.filterMap _ (fun i j hij x hx y hy => ?_) List.pairwise_lt_range
  rw [Option.ite_none_right_eq_some, Option.some.injEq] at hx hy
  rw [← hx.2, ← hy.2]
  exact hij

/-- Of the slots that share a post number the lowest is found (R177). -/
theorem lowestWith_spec (l : List Posted) (hs : l.Pairwise fun x y => x.slot < y.slot) (x : Posted) (hx : x ∈ l) :
    ∃ z ∈ l, z.post = x.post ∧ lowestWith l x.post = some z.slot ∧
      ∀ y ∈ l, y.post = x.post → z.slot ≤ y.slot := by
  obtain ⟨z, hz⟩ : ∃ z, l.find? (fun y => y.post == x.post) = some z :=
    Option.isSome_iff_exists.mp (List.find?_isSome.mpr ⟨x, hx, by simp⟩)
  obtain ⟨hpost, as, bs, rfl, has⟩ := List.find?_eq_some_iff_append.mp hz
  refine ⟨z, by simp, by simpa using hpost, by unfold lowestWith; rw [hz]; rfl, fun y hy he => ?_⟩
  rcases List.mem_append.mp hy with hy | hy
  · exact absurd he (by simpa using has y hy)
  · rcases List.mem_cons.mp hy with rfl | hy
    · exact le_refl _
    · exact le_of_lt ((List.pairwise_cons.mp (List.pairwise_append.mp hs).2.1).1 y hy)

section TakeOrder

variable (last : Word) (newer : List Posted)

theorem mem_takeOrder (x : Posted) :
    x ∈ takeOrder last newer ↔ x ∈ newer ∧ lowestWith newer x.post = some x.slot := by
  unfold takeOrder
  rw [(sortBy_perm_sorted _ _).1.mem_iff, List.mem_filter, beq_iff_eq]

variable {newer} (hs : newer.Pairwise fun x y => x.slot < y.slot)
include hs

/-- A slot is taken in its turn where no lower one shares its post number (R177). -/
theorem mem_takeOrder_iff (x : Posted) (hx : x ∈ newer) :
    x ∈ takeOrder last newer ↔ ∀ y ∈ newer, y.slot < x.slot → y.post ≠ x.post := by
  rw [mem_takeOrder]
  obtain ⟨z, hz, hzp, hl, hmin⟩ := lowestWith_spec newer hs x hx
  rw [hl]
  constructor
  · rintro ⟨-, h⟩ y hy hlt he
    have := hmin y hy he
    have := Option.some.inj h
    omega
  · intro h
    refine ⟨hx, congrArg some ?_⟩
    by_contra hne
    exact h z hz (lt_of_le_of_ne (hmin x hx rfl) hne) hzp

/-- No slot is taken twice. -/
theorem takeOrder_nodup : ((takeOrder last newer).map (·.slot)).Nodup := by
  have hp := (sortBy_perm_sorted (fun x : Posted => (x.post - last).toNat)
    (newer.filter fun x => lowestWith newer x.post == some x.slot)).1
  refine (hp.map (·.slot)).nodup_iff.mpr ?_
  rw [List.Nodup, List.pairwise_map]
  exact (hs.filter _).imp fun h => Nat.ne_of_lt h

/-- The slots are taken by rising age (R178). -/
theorem takeOrder_sorted :
    (takeOrder last newer).Pairwise fun x y => (x.post - last).toNat < (y.post - last).toNat := by
  have hsorted : (takeOrder last newer).Pairwise fun x y => (x.post - last).toNat ≤ (y.post - last).toNat :=
    (sortBy_perm_sorted (fun x : Posted => (x.post - last).toNat)
      (newer.filter fun x => lowestWith newer x.post == some x.slot)).2
  have hslots := List.pairwise_map.mp (takeOrder_nodup last hs)
  refine (hsorted.and hslots).imp_of_mem fun {x y} hx hy h => lt_of_le_of_ne h.1 fun he => h.2 ?_
  have hpost : x.post = y.post := by
    have := BitVec.eq_of_toNat_eq he
    bv_omega
  obtain ⟨-, hlx⟩ := (mem_takeOrder last newer x).mp hx
  obtain ⟨-, hly⟩ := (mem_takeOrder last newer y).mp hy
  rw [hpost, hly] at hlx
  exact (Option.some.inj hlx).symm

end TakeOrder

/-! ## The refusals of a scan (R177) -/

/-- What a POSTED slot is refused for, if it is (R177). -/
def judged (last : Word) (newer : List Posted) (x : Posted) : Option (CardOutcome × Word) :=
  if isNewer last x.post then
    match lowestWith newer x.post with
    | some i => if i = x.slot then none else some (.duplicate, toWord i)
    | none => none
  else some (.stale, last)

theorem Port.judgePosted_eq (last : Word) (newer : List Posted) (d : Desk) (q : Port) (x : Posted) :
    q.judgePosted last newer d x = match judged last newer x with
      | none => q
      | some v => q.refusePosted d x.slot v.1 v.2 := by
  unfold Port.judgePosted judged
  split
  · cases lowestWith newer x.post with
    | none => rfl
    | some i => dsimp only; split <;> rfl
  · rfl

/-- A judgement moves its slot at most. -/
theorem Port.judgePosted_step (p : Port) (d : Desk) (hf : 2 ≤ (p.area (deskIndex d)).first) (last : Word)
    (newer : List Posted) (q : Port) (x : Posted) (hq : p.Picking d q) :
    p.SlotStep d x.slot q (q.judgePosted last newer d x) := by
  rw [Port.judgePosted_eq]
  cases judged last newer x with
  | none => exact ⟨hq, fun _ _ _ => rfl⟩
  | some v => exact (p.refusePosted_step d hf q hq x.slot v.1 v.2).1

/-- Judgements of slots outside the held set leave last taken and the held set (R177). -/
theorem Port.judged_desk (last : Word) (newer : List Posted) (d : Desk) (l : List Posted) (q : Port)
    (h : ∀ x ∈ l, x.slot ∉ (q.desks.get d).held) :
    ((l.foldl (Port.judgePosted last newer d) q).desks.get d).last = (q.desks.get d).last ∧
    ((l.foldl (Port.judgePosted last newer d) q).desks.get d).held = (q.desks.get d).held := by
  induction l generalizing q with
  | nil => exact ⟨rfl, rfl⟩
  | cons a l ih =>
    have hone : ((q.judgePosted last newer d a).desks.get d).last = (q.desks.get d).last ∧
        ((q.judgePosted last newer d a).desks.get d).held = (q.desks.get d).held := by
      rw [Port.judgePosted_eq]
      cases judged last newer a with
      | none => exact ⟨rfl, rfl⟩
      | some v =>
        rw [show (match some v with | none => q | some v => q.refusePosted d a.slot v.1 v.2) =
          q.refusePosted d a.slot v.1 v.2 from rfl, Port.refusePosted_desk]
        refine ⟨rfl, List.filter_eq_self.mpr fun i hi => ?_⟩
        simpa using fun e : i = a.slot => h a (by simp) (e ▸ hi)
    obtain ⟨h1, h2⟩ := ih (q.judgePosted last newer d a) fun x hx => by rw [hone.2]; exact h x (by simp [hx])
    exact ⟨h1.trans hone.1, h2.trans hone.2⟩

/-- The refusals alone move the Port. -/
theorem Port.judged_filter (last : Word) (newer : List Posted) (d : Desk) (l : List Posted) (q : Port) :
    l.foldl (Port.judgePosted last newer d) q =
      (l.filter fun x => (judged last newer x).isSome).foldl (Port.judgePosted last newer d) q := by
  rw [List.foldl_filter]
  congr 1
  funext r x
  cases h : judged last newer x with
  | none => rw [Port.judgePosted_eq, h]; rfl
  | some v => rfl

/-! ## The take (R178) -/

section Take

variable {α : Type} (parse : Word → List Host.Cell → Nat → Option α) (d : Desk)

/-- The Port after the take of one slot. -/
def takePort (q : Port) (x : Posted) : Port := (takeOne parse d (q, []) x).1

/-- The card of a slot as a Port holds it. -/
def Port.cardOf (p : Port) (x : Posted) : Option (Taken α) :=
  (parse (memWord p.mem (p.slotAddr d x.slot + 8)) p.mem (p.slotAddr d x.slot)).map fun c => ⟨x.slot, x.post, c⟩

theorem takeOne_eq (acc : Port × List (Taken α)) (x : Posted) :
    takeOne parse d acc x = (takePort parse d acc.1 x, acc.2 ++ (acc.1.cardOf parse d x).toList) := by
  unfold takePort takeOne Port.cardOf
  dsimp only
  cases parse (memWord acc.1.mem (acc.1.slotAddr d x.slot + 8)) acc.1.mem (acc.1.slotAddr d x.slot) with
  | none => simp
  | some c => simp

/-- The Port after the take of one slot, by whether its card is one (R178). -/
theorem takePort_eq (q : Port) (x : Posted) : takePort parse d q x =
    if (q.cardOf parse d x).isSome then (q.setLast d x.post).markTaken d x.slot
    else (q.setLast d x.post).refusePosted d x.slot .badKind 0 := by
  unfold takePort takeOne Port.cardOf
  dsimp only
  cases parse (memWord q.mem (q.slotAddr d x.slot + 8)) q.mem (q.slotAddr d x.slot) <;> rfl

/-- Last taken set: nothing else of the desk moves, and no byte of Show Memory. -/
theorem Port.Picking.setLast {p q : Port} {d : Desk} (h : p.Picking d q) (w : Word) : p.Picking d (q.setLast d w) := by
  have hdesk : (q.setLast d w).desks.get d = { q.desks.get d with last := w } := by
    unfold Port.setLast Port.setDesk
    dsimp only
    rw [Desks.get_set_self]
  exact ⟨(closed_laidAs p).setDesk _ _ _ h.lies, by rw [hdesk]; exact h.seen, by rw [hdesk]; exact h.rescan⟩

theorem Port.setLast_desk (q : Port) (w : Word) : (q.setLast d w).desks.get d = { q.desks.get d with last := w } := by
  unfold Port.setLast Port.setDesk
  dsimp only
  rw [Desks.get_set_self]

/-- A take moves its slot: it goes TAKEN, or REFUSED BAD_KIND (R178). -/
theorem takePort_step (p : Port) (hf : 2 ≤ (p.area (deskIndex d)).first) (q : Port) (x : Posted) (hq : p.Picking d q) :
    p.SlotStep d x.slot q (takePort parse d q x) ∧
    p.pickedIn d x.slot (q.cardOf parse d x).isSome (takePort parse d q x).mem := by
  have hlast := hq.setLast x.post
  obtain ⟨htaken, hin, -⟩ := p.markTaken_step d _ hlast x.slot
  obtain ⟨hrefused, hout⟩ := p.refusePosted_step d hf _ hlast x.slot .badKind 0
  rw [takePort_eq]
  cases (q.cardOf parse d x).isSome
  · exact ⟨⟨hrefused.picking, hrefused.kept⟩, hout⟩
  · exact ⟨⟨htaken.picking, htaken.kept⟩, hin⟩

/-- The desk after the take of a slot outside the held set (R178). -/
theorem takePort_desk (q : Port) (x : Posted) (h : x.slot ∉ (q.desks.get d).held) :
    ((takePort parse d q x).desks.get d).last = x.post ∧
    ((takePort parse d q x).desks.get d).held =
      (q.desks.get d).held ++ (q.cardOf parse d x).toList.map (·.slot) := by
  rw [takePort_eq]
  have hset := q.setLast_desk d x.post
  cases hc : q.cardOf parse d x with
  | none =>
    rw [if_neg (by simp), Port.refusePosted_desk, hset]
    refine ⟨rfl, ?_⟩
    simp only [Option.toList_none, List.map_nil, List.append_nil]
    exact List.filter_eq_self.mpr fun i hi => by simpa using fun e : i = x.slot => h (e ▸ hi)
  | some c =>
    have hslot : c.slot = x.slot := by
      unfold Port.cardOf at hc
      obtain ⟨a, -, rfl⟩ := Option.map_eq_some_iff.mp hc
      rfl
    have hdesk : ((q.setLast d x.post).markTaken d x.slot).desks.get d =
        { (q.setLast d x.post).desks.get d with held := ((q.setLast d x.post).desks.get d).held ++ [x.slot] } := by
      unfold Port.markTaken Port.setDesk
      dsimp only
      rw [Desks.get_set_self]; rfl
    rw [if_pos (by simp), hdesk, hset]
    refine ⟨rfl, ?_⟩
    simp [hslot]

end Take

end Sys2Proof.Machine
end


section
/-! PROOFS. The scan of a desk in whole, and the marks that go on RUNNING (R175 to R180; O18). -/

namespace Sys2Proof.Machine

section Take

variable {α : Type} (parse : Word → List Host.Cell → Nat → Option α) (d : Desk)

theorem Port.cardOf_slot (p : Port) (x : Posted) (c : Taken α) (h : p.cardOf parse d x = some c) : c.slot = x.slot := by
  unfold Port.cardOf at h
  obtain ⟨a, -, rfl⟩ := Option.map_eq_some_iff.mp h
  rfl

variable (hparse : ∀ kind m m' a, (∀ b, a + 32 ≤ b → b < a + 512 → memRead m b = memRead m' b) →
  parse kind m a = parse kind m' a)
include hparse

/-- A slot's card is the same while its bytes are. -/
theorem Port.Picking.cardOf {p q : Port} (h : p.Picking d q) (x : Posted) (hs : p.slotSame d x.slot p.mem q.mem) :
    q.cardOf parse d x = p.cardOf parse d x := by
  unfold Port.cardOf
  rw [h.slotAddr, hs.word 8 (by omega), hparse _ q.mem p.mem _ fun b hb hb' => hs b (by omega) hb']

/-- Takes of different slots, each as it stood: the cards are those the slots held, last taken is the last slot's, and the
slots whose cards are taken enter the held set (R178). -/
theorem takes_eq (p : Port) (hf : 2 ≤ (p.area (deskIndex d)).first) (l : List Posted)
    (hn : (l.map (·.slot)).Nodup) (q : Port) (cs : List (Taken α)) (hq : p.Picking d q)
    (hs : ∀ x ∈ l, p.slotSame d x.slot p.mem q.mem) (hh : ∀ x ∈ l, x.slot ∉ (q.desks.get d).held) :
    l.foldl (takeOne parse d) (q, cs) = (l.foldl (takePort parse d) q, cs ++ l.filterMap (p.cardOf parse d)) ∧
    ((l.foldl (takePort parse d) q).desks.get d).last = (l.getLast?.map (·.post)).getD (q.desks.get d).last ∧
    ((l.foldl (takePort parse d) q).desks.get d).held =
      (q.desks.get d).held ++ (l.filterMap (p.cardOf parse d)).map (·.slot) := by
  induction l generalizing q cs with
  | nil => simp
  | cons a l ih =>
    rw [List.map_cons, List.nodup_cons] at hn
    have hcard := hq.cardOf parse d hparse a (hs a (by simp))
    obtain ⟨hstep, -⟩ := takePort_step parse d p hf q a hq
    obtain ⟨hlast, hheld⟩ := takePort_desk parse d q a (hh a (by simp))
    have hne : ∀ x ∈ l, x.slot ≠ a.slot := fun x hx e => hn.1 (by rw [← e]; exact List.mem_map_of_mem hx)
    obtain ⟨h1, h2, h3⟩ := ih hn.2 (takePort parse d q a) (cs ++ (q.cardOf parse d a).toList) hstep.picking
      (fun x hx b hb hb' => (hstep.other hf (hne x hx) b hb hb').trans (hs x (by simp [hx]) b hb hb'))
      (fun x hx => by
        rw [hheld, List.mem_append, not_or]
        refine ⟨hh x (by simp [hx]), fun hm => ?_⟩
        obtain ⟨c, hc, he⟩ := List.mem_map.mp hm
        exact hne x hx (he.symm.trans (q.cardOf_slot parse d a c (by simpa using hc))))
    rw [List.foldl_cons, takeOne_eq, h1, List.foldl_cons, h2, h3, hlast, hheld, hcard, List.filterMap_cons]
    refine ⟨?_, ?_, ?_⟩
    · cases p.cardOf parse d a <;> simp
    · rw [List.getLast?_cons]
      cases l.getLast? <;> rfl
    · cases p.cardOf parse d a <;> simp

end Take

/-! ## The refusals and the takes of a scan (R177, R178) -/

/-- The Port once the POSTED slots of a desk are judged against the newer ones: each refused slot as a refusal leaves it, every
other byte of the areas as it was, and of the desk the done count alone moved (R175, R177). -/
structure Port.Judged (d : Desk) (p : Port) (newer : List Posted) (q : Port) : Prop where
  picking : p.Picking d q
  refused : ∀ x ∈ p.scan d, ∀ v, judged (p.desks.get d).last newer x = some v →
    p.refusedIn d x.slot (toWord v.1.code) v.2 q.mem
  waiting : ∀ x ∈ p.scan d, judged (p.desks.get d).last newer x = none → p.slotSame d x.slot p.mem q.mem
  kept : ∀ b, 8192 ≤ b → (∀ x ∈ p.scan d, judged (p.desks.get d).last newer x ≠ none →
    b < p.slotAddr d x.slot ∨ p.slotAddr d x.slot + 28 ≤ b) → memRead q.mem b = memRead p.mem b
  last : (q.desks.get d).last = (p.desks.get d).last
  held : (q.desks.get d).held = (p.desks.get d).held

/-- The Port once some slots are taken behind the refusals: each of them as a take or a BAD_KIND leaves it, every other byte of
the areas as the refusals left it, last taken and the held set by the cards (R178). -/
structure Port.PickedUp {α : Type} (parse : Word → List Host.Cell → Nat → Option α) (d : Desk) (p : Port)
    (newer taking : List Posted) (q : Port) (cards : List (Taken α)) : Prop where
  refused : ∀ x ∈ p.scan d, ∀ v, judged (p.desks.get d).last newer x = some v →
    p.refusedIn d x.slot (toWord v.1.code) v.2 q.mem
  taken : ∀ x ∈ taking, p.pickedIn d x.slot (p.cardOf parse d x).isSome q.mem
  cards_eq : cards = taking.filterMap (p.cardOf parse d)
  kept : ∀ b, 8192 ≤ b → (∀ x ∈ p.scan d, judged (p.desks.get d).last newer x ≠ none ∨ x ∈ taking →
    b < p.slotAddr d x.slot ∨ p.slotAddr d x.slot + 28 ≤ b) → memRead q.mem b = memRead p.mem b
  last : (q.desks.get d).last = (taking.getLast?.map (·.post)).getD (p.desks.get d).last
  held : (q.desks.get d).held = (p.desks.get d).held ++ cards.map (·.slot)

/-- A scan finds one post number for a slot. -/
theorem Port.scan_unique (p : Port) (d : Desk) {x y : Posted} (hx : x ∈ p.scan d) (hy : y ∈ p.scan d)
    (h : x.slot = y.slot) : x = y := by
  have h1 := ((p.mem_scan d x).mp hx).2
  have h2 := ((p.mem_scan d y).mp hy).2
  obtain ⟨xs, xp⟩ := x
  obtain ⟨ys, yp⟩ := y
  dsimp only at h h1 h2
  subst h
  rw [h1, h2]

/-- The judgement of the POSTED slots (R177). -/
theorem Port.scan_judged (p : Port) (d : Desk) (hw : Memory.wf p.mem = true) (hf : 2 ≤ (p.area (deskIndex d)).first)
    (newer : List Posted) :
    p.Judged d newer ((p.scan d).foldl (Port.judgePosted (p.desks.get d).last newer d) p) := by
  have hstart : p.Picking d p := ⟨⟨hw, rfl, rfl, rfl, rfl, rfl, rfl, rfl, rfl, rfl, rfl, rfl, rfl⟩, rfl, rfl⟩
  have hnodup : ((p.scan d).map (·.slot)).Nodup := by
    rw [List.Nodup, List.pairwise_map]
    exact (p.scan_sorted d).imp fun h => Nat.ne_of_lt h
  obtain ⟨hlast, hheld⟩ := Port.judged_desk (p.desks.get d).last newer d (p.scan d) p fun x hx =>
    ((p.mem_scan d x).mp hx).1.2.1
  obtain ⟨hpick, hkept, hother, heach⟩ := p.slotSteps d hf Posted.slot
    (Port.judgePosted (p.desks.get d).last newer d) (fun q x hq => p.judgePosted_step d hf _ newer q x hq)
    ((p.scan d).filter fun x => (judged (p.desks.get d).last newer x).isSome)
    (hnodup.sublist (List.filter_sublist.map _)) p hstart
  rw [← Port.judged_filter] at hpick hkept hother heach
  refine ⟨hpick, fun x hx v hv => ?_, fun x hx hn => hother x.slot fun y hy e => ?_, fun b hb hout => ?_, hlast, hheld⟩
  · obtain ⟨r, rpick, -, rsame⟩ := heach x (List.mem_filter.mpr ⟨hx, by simp [hv]⟩)
    rw [Port.judgePosted_eq, hv] at rsame
    exact (p.refusePosted_step d hf r rpick x.slot v.1 v.2).2.kept rsame
  · obtain ⟨hy, hjudged⟩ := List.mem_filter.mp hy
    rw [p.scan_unique d hy hx e, hn] at hjudged
    simp at hjudged
  · refine hkept b hb fun x hx => hout x (List.mem_filter.mp hx).1 fun hn => ?_
    have hjudged := (List.mem_filter.mp hx).2
    rw [hn] at hjudged
    simp at hjudged

/-- What moves the part page alone, and of the desk the seen count and the rescan alone, leaves the slots as picked up. -/
theorem Port.PickedUp.close {α : Type} (parse : Word → List Host.Cell → Nat → Option α) (d : Desk) (p : Port)
    (hf : 2 ≤ (p.area (deskIndex d)).first) {newer taking : List Posted} {q r : Port} {cards : List (Taken α)}
    (h : p.PickedUp parse d newer taking q cards) (hm : ∀ b, 8192 ≤ b → memRead r.mem b = memRead q.mem b)
    (hl : (r.desks.get d).last = (q.desks.get d).last) (hh : (r.desks.get d).held = (q.desks.get d).held) :
    p.PickedUp parse d newer taking r cards := by
  have hslot : ∀ i, p.slotSame d i q.mem r.mem := fun i b hb _ => hm b (le_trans (p.slotAddr_clear d i hf) hb)
  exact ⟨fun x hx v hv => (h.refused x hx v hv).kept (hslot _), fun x hx => (h.taken x hx).kept (hslot _), h.cards_eq,
    fun b hb hout => (hm b hb).trans (h.kept b hb hout), hl.trans h.last, hh.trans h.held⟩

section Scan

variable {α : Type} (parse : Word → List Host.Cell → Nat → Option α) (d : Desk) (p : Port)
  (hf : 2 ≤ (p.area (deskIndex d)).first)
  (hparse : ∀ kind m m' a, (∀ b, a + 32 ≤ b → b < a + 512 → memRead m b = memRead m' b) →
    parse kind m a = parse kind m' a)
include hf hparse

/-- Different slots taken behind the refusals, none of them refused (R178). -/
theorem Port.Judged.pickedUp {newer : List Posted} {q : Port} (h : p.Judged d newer q) (taking : List Posted)
    (hn : (taking.map (·.slot)).Nodup)
    (ht : ∀ x ∈ taking, x ∈ p.scan d ∧ judged (p.desks.get d).last newer x = none) :
    p.Picking d (taking.foldl (takePort parse d) q) ∧
    p.PickedUp parse d newer taking (taking.foldl (takeOne parse d) (q, [])).1
      (taking.foldl (takeOne parse d) (q, [])).2 ∧
    (taking.foldl (takeOne parse d) (q, [])).1 = taking.foldl (takePort parse d) q := by
  have hsame : ∀ x ∈ taking, p.slotSame d x.slot p.mem q.mem := fun x hx => h.waiting x (ht x hx).1 (ht x hx).2
  obtain ⟨hcards, hlast, hheld⟩ := takes_eq parse d hparse p hf taking hn q [] h.picking hsame fun x hx => by
    rw [h.held]; exact ((p.mem_scan d x).mp (ht x hx).1).1.2.1
  obtain ⟨hpick, hkept, hother, heach⟩ := p.slotSteps d hf Posted.slot (takePort parse d)
    (fun q x hq => (takePort_step parse d p hf q x hq).1) taking hn q h.picking
  rw [h.last] at hlast
  rw [h.held] at hheld
  rw [hcards]
  refine ⟨hpick, ⟨fun x hx v hv => ?_, fun x hx => ?_, List.nil_append _, fun b hb hout => ?_, hlast, hheld⟩, rfl⟩
  · refine (h.refused x hx v hv).kept (hother x.slot fun y hy e => ?_)
    have hy' := ht y hy
    rw [p.scan_unique d hy'.1 hx e, hv] at hy'
    exact absurd hy'.2 (by simp)
  · obtain ⟨r, rpick, rfrom, rsame⟩ := heach x hx
    have hin := (takePort_step parse d p hf r x rpick).2
    rw [rpick.cardOf parse d hparse x fun b hb hb' => (rfrom b hb hb').trans (hsame x hx b hb hb')] at hin
    exact hin.kept rsame
  · rw [hkept b hb fun x hx => hout x (ht x hx).1 (.inr hx)]
    exact h.kept b hb fun x hx hj => hout x hx (.inl hj)

end Scan

/-! ## The scan in whole (R176 to R178) -/

/-- The seen count recorded moves the desk's seen count and rescan, and outside the part page no byte (R176). -/
theorem Port.setSeen_eq (q : Port) (d : Desk) (n : Word) (hw : Memory.wf q.mem = true) :
    (q.setSeen d n).desks.get d = { q.desks.get d with seen := n, rescan := false } ∧
    memWord (q.setSeen d n).mem (4112 + 4 * deskIndex d) = n ∧
    ∀ b, 8192 ≤ b → memRead (q.setSeen d n).mem b = memRead q.mem b := by
  have hd : deskIndex d ≤ 4 := by cases d <;> simp [deskIndex]
  have hmem : (q.setSeen d n).mem = memWriteWord q.mem (4112 + 4 * deskIndex d) n := by
    unfold Port.setSeen Port.pokePart Port.poke Port.setDesk partPage
    rw [← Nat.add_assoc]
  refine ⟨?_, ?_, fun b hb => ?_⟩
  · unfold Port.setSeen Port.setDesk
    rw [Port.pokePart_desks]
    dsimp only
    rw [Desks.get_set_self]
  · rw [hmem]; exact memWord_memWriteWord_self _ _ _ hw
  · rw [hmem]; exact memRead_memWriteWord_ne _ _ _ _ hw (by omega)

theorem Port.setRescan_eq (q : Port) (d : Desk) :
    (q.setRescan d).desks.get d = { q.desks.get d with rescan := true } ∧ (q.setRescan d).mem = q.mem := by
  unfold Port.setRescan Port.setDesk
  dsimp only
  rw [Desks.get_set_self]
  exact ⟨rfl, rfl⟩

/-- A scan, its judgements before its takes (R176 to R178). -/
theorem scanDesk_eq {α : Type} (parse : Word → List Host.Cell → Nat → Option α) (d : Desk) (p : Port) :
    scanDesk parse d p =
      let newer := (p.scan d).filter fun x => isNewer (p.desks.get d).last x.post
      let order := takeOrder (p.desks.get d).last newer
      let y := (order.take 8).foldl (takeOne parse d)
        ((p.scan d).foldl (Port.judgePosted (p.desks.get d).last newer d) p, [])
      if order.length ≤ 8 then (y.1.setSeen d (memWord p.mem (4 * deskIndex d)), y.2) else (y.1.setRescan d, y.2) := rfl

/-- A slot that is taken in its turn is not refused by the scan (R177). -/
theorem judged_of_mem_takeOrder (last : Word) (newer : List Posted) (x : Posted) (hx : x ∈ takeOrder last newer)
    (hnew : ∀ y ∈ newer, isNewer last y.post = true) : judged last newer x = none := by
  obtain ⟨hm, hl⟩ := (mem_takeOrder _ _ x).mp hx
  unfold judged
  rw [if_pos (hnew x hm), hl]
  exact if_pos rfl

section Scan

variable {α : Type} (parse : Word → List Host.Cell → Nat → Option α) (d : Desk) (p : Port)
  (hw : Memory.wf p.mem = true) (hf : 2 ≤ (p.area (deskIndex d)).first)
  (hparse : ∀ kind m m' a, (∀ b, a + 32 ≤ b → b < a + 512 → memRead m b = memRead m' b) →
    parse kind m a = parse kind m' a)
include hw hf hparse

/-- The scan of a desk: the slots as picked up, up to 8 of them taken in their order, and the desk left as seen or to be
scanned again (R176 to R178). -/
theorem scanDesk_pickedUp (newer order : List Posted)
    (hnewer : (p.scan d).filter (fun x => isNewer (p.desks.get d).last x.post) = newer)
    (horder : takeOrder (p.desks.get d).last newer = order) :
    let q := (scanDesk parse d p).1
    p.PickedUp parse d newer (order.take 8) q (scanDesk parse d p).2 ∧
    (order.length ≤ 8 → (q.desks.get d).seen = memWord p.mem (4 * deskIndex d) ∧ (q.desks.get d).rescan = false ∧
      memWord q.mem (4112 + 4 * deskIndex d) = memWord p.mem (4 * deskIndex d)) ∧
    (8 < order.length → (q.desks.get d).seen = (p.desks.get d).seen ∧ (q.desks.get d).rescan = true) := by
  have hsub : ∀ y ∈ newer, y ∈ p.scan d ∧ isNewer (p.desks.get d).last y.post = true := fun y hy => by
    rw [← hnewer] at hy; exact List.mem_filter.mp hy
  have hsorted : newer.Pairwise fun x y => x.slot < y.slot := by rw [← hnewer]; exact (p.scan_sorted d).filter _
  have hjudged : ∀ x ∈ order.take 8, x ∈ p.scan d ∧ judged (p.desks.get d).last newer x = none := fun x hx => by
    have hm : x ∈ takeOrder (p.desks.get d).last newer := by rw [horder]; exact List.mem_of_mem_take hx
    exact ⟨(hsub x ((mem_takeOrder _ _ x).mp hm).1).1, judged_of_mem_takeOrder _ _ x hm fun y hy => (hsub y hy).2⟩
  have hnodup : ((order.take 8).map (·.slot)).Nodup := by
    rw [List.map_take, ← horder]; exact (takeOrder_nodup _ hsorted).sublist (List.take_sublist _ _)
  obtain ⟨hpick, hup, hport⟩ := (p.scan_judged d hw hf newer).pickedUp parse d p hf hparse (order.take 8) hnodup hjudged
  have hscan := scanDesk_eq parse d p
  dsimp only at hscan ⊢
  rw [hnewer, horder] at hscan
  rw [← hport] at hpick
  generalize (order.take 8).foldl (takeOne parse d) _ = y at hscan hpick hup
  by_cases hlen : order.length ≤ 8
  · rw [if_pos hlen] at hscan
    obtain ⟨hdesk, hword, hmem⟩ := y.1.setSeen_eq d (memWord p.mem (4 * deskIndex d)) hpick.lies.1
    rw [hscan]
    exact ⟨hup.close parse d p hf hmem (by rw [hdesk]) (by rw [hdesk]),
      fun _ => ⟨by rw [hdesk], by rw [hdesk], hword⟩, fun h => absurd hlen (by omega)⟩
  · rw [if_neg hlen] at hscan
    obtain ⟨hdesk, hmem⟩ := y.1.setRescan_eq d
    rw [hscan]
    exact ⟨hup.close parse d p hf (fun b _ => by rw [hmem]) (by rw [hdesk]) (by rw [hdesk]),
      fun h => absurd h hlen, fun _ => ⟨by rw [hdesk]; exact hpick.seen, by rw [hdesk]⟩⟩

end Scan

end Sys2Proof.Machine
end


section
/-! PROOFS. A RUNNING mark and the pickup of its desks (O18). -/

namespace Sys2Proof.Machine

/-! ## The slots of a desk by their post numbers (R177, R178) -/

/-- The post number a slot holds. -/
def Port.postOf (p : Port) (d : Desk) (i : Nat) : Word := memWord p.mem (p.slotAddr d i + 4)

/-- How far a slot's post number is from the last taken (R177). -/
def Port.ageOf (p : Port) (d : Desk) (i : Nat) : Nat := (p.postOf d i - (p.desks.get d).last).toNat

/-- A POSTED slot newer than the last taken (R177). -/
def Port.isNewerSlot (p : Port) (d : Desk) (i : Nat) : Prop :=
  p.isPosted d i ∧ 1 ≤ p.ageOf d i ∧ p.ageOf d i ≤ 2147483647

/-- The slots a scan finds newer. -/
def Port.newerSlots (p : Port) (d : Desk) : List Posted :=
  (p.scan d).filter fun x => isNewer (p.desks.get d).last x.post

/-- The slots of a scan in their turn of take. -/
def Port.turns (p : Port) (d : Desk) : List Posted := takeOrder (p.desks.get d).last (p.newerSlots d)

/-- A post number is newer where its distance from the last taken is 1 to 2,147,483,647 (R177). -/
theorem isNewer_iff (last post : Word) :
    isNewer last post = true ↔ 1 ≤ (post - last).toNat ∧ (post - last).toNat ≤ 2147483647 := by
  unfold isNewer
  simp

section Turns

variable (p : Port) (d : Desk)

theorem Port.mem_newerSlots (z : Posted) : z ∈ p.newerSlots d ↔ p.isNewerSlot d z.slot ∧ z.post = p.postOf d z.slot := by
  unfold Port.newerSlots
  rw [List.mem_filter, p.mem_scan, isNewer_iff]
  constructor
  · rintro ⟨⟨hposted, hpost⟩, hage⟩
    rw [hpost] at hage
    exact ⟨⟨hposted, hage⟩, hpost⟩
  · rintro ⟨⟨hposted, hage⟩, hpost⟩
    refine ⟨⟨hposted, hpost⟩, ?_⟩
    rw [hpost]
    exact hage

theorem Port.newerSlots_sorted : (p.newerSlots d).Pairwise fun x y => x.slot < y.slot := (p.scan_sorted d).filter _

/-- A slot in its turn is newer, with the post number it holds, and the lowest of those that share it. -/
theorem Port.mem_turns {z : Posted} (h : z ∈ p.turns d) :
    p.isNewerSlot d z.slot ∧ z.post = p.postOf d z.slot ∧ lowestWith (p.newerSlots d) z.post = some z.slot := by
  obtain ⟨hnew, hlow⟩ := (mem_takeOrder _ _ z).mp h
  obtain ⟨hslot, hpost⟩ := (p.mem_newerSlots d z).mp hnew
  exact ⟨hslot, hpost, hlow⟩

/-- The turns go by rising age (R178). -/
theorem Port.turns_sorted : ((p.turns d).map (·.slot)).Pairwise fun i j => p.ageOf d i < p.ageOf d j := by
  rw [List.pairwise_map]
  refine (takeOrder_sorted _ (p.newerSlots_sorted d)).imp_of_mem fun {x y} hx hy h => ?_
  rw [(p.mem_turns d hx).2.1, (p.mem_turns d hy).2.1] at h
  exact h

/-- A slot has a turn where it is newer and no lower newer slot shares its post number (R177). -/
theorem Port.mem_turns_iff (i : Nat) : i ∈ (p.turns d).map (·.slot) ↔
    p.isNewerSlot d i ∧ ∀ j, j < i → p.isNewerSlot d j → p.postOf d j ≠ p.postOf d i := by
  have hfirst := mem_takeOrder_iff (p.desks.get d).last (p.newerSlots_sorted d)
  rw [List.mem_map]
  constructor
  · rintro ⟨z, hz, rfl⟩
    obtain ⟨hslot, hpost, -⟩ := p.mem_turns d hz
    refine ⟨hslot, fun j hj hn he => ?_⟩
    refine (hfirst z ((p.mem_newerSlots d z).mpr ⟨hslot, hpost⟩)).mp hz ⟨j, p.postOf d j⟩
      ((p.mem_newerSlots d _).mpr ⟨hn, rfl⟩) hj ?_
    rw [hpost]; exact he
  · rintro ⟨hn, hlow⟩
    refine ⟨⟨i, p.postOf d i⟩, (hfirst _ ((p.mem_newerSlots d _).mpr ⟨hn, rfl⟩)).mpr fun y hy hlt he => ?_, rfl⟩
    obtain ⟨hslot, hpost⟩ := (p.mem_newerSlots d y).mp hy
    exact hlow y.slot hlt hslot (hpost.symm.trans he)

/-- A POSTED slot that is not newer is refused STALE (R177). -/
theorem Port.judged_stale (i : Nat) (hi : p.isPosted d i) (hold : ¬p.isNewerSlot d i) :
    judged (p.desks.get d).last (p.newerSlots d) ⟨i, p.postOf d i⟩ = some (.stale, (p.desks.get d).last) := by
  unfold judged
  exact if_neg fun h => hold ⟨hi, (isNewer_iff _ _).mp h⟩

/-- A newer slot that shares the post number of another slot in its turn is refused DUPLICATE (R177). -/
theorem Port.judged_duplicate (i : Nat) (hi : p.isNewerSlot d i) (z : Posted) (hz : z ∈ p.turns d) (hne : z.slot ≠ i)
    (he : p.postOf d z.slot = p.postOf d i) :
    judged (p.desks.get d).last (p.newerSlots d) ⟨i, p.postOf d i⟩ = some (.duplicate, toWord z.slot) := by
  obtain ⟨-, hpost, hlow⟩ := p.mem_turns d hz
  rw [hpost, he] at hlow
  unfold judged
  rw [if_pos ((isNewer_iff _ _).mpr hi.2)]
  dsimp only
  rw [hlow]
  exact if_neg hne

/-- A slot that is refused or has its turn within the limit is not behind the limit. -/
theorem Port.not_mem_behind {x : Posted} (hx : x ∈ p.scan d)
    (h : judged (p.desks.get d).last (p.newerSlots d) x ≠ none ∨ x ∈ (p.turns d).take 8) :
    x.slot ∉ ((p.turns d).drop 8).map (·.slot) := by
  rintro hm
  obtain ⟨y, hy, he⟩ := List.mem_map.mp hm
  have hyturn : y ∈ p.turns d := List.mem_of_mem_drop hy
  have hsub : ∀ z ∈ p.newerSlots d, z ∈ p.scan d ∧ isNewer (p.desks.get d).last z.post = true := fun z hz =>
    List.mem_filter.mp hz
  have hxy : y = x := p.scan_unique d (hsub y ((mem_takeOrder _ _ y).mp hyturn).1).1 hx he
  rcases h with h | h
  · exact h (hxy ▸ judged_of_mem_takeOrder _ _ y hyturn fun z hz => (hsub z hz).2)
  · have hnodup := takeOrder_nodup (p.desks.get d).last (p.newerSlots_sorted d)
    change ((p.turns d).map (·.slot)).Nodup at hnodup
    rw [← List.take_append_drop 8 (p.turns d), List.map_append] at hnodup
    exact (List.nodup_append.mp hnodup).2.2 _ (List.mem_map_of_mem h) _ hm rfl

end Turns

/-! ## The pickup (R176, R179) -/

section Pickup

variable {α : Type} (parse : Word → List Host.Cell → Nat → Option α) (d : Desk) (stalled : Bool) (p : Port)

/-- A desk that is stalled, or has nothing new, is not read (R176, R179). -/
theorem pickup_stands (h : stalled = true ∨ p.postCount d = (p.desks.get d).seen ∧ (p.desks.get d).rescan = false) :
    pickup parse d stalled p = (p, []) := by
  unfold pickup
  refine if_pos ?_
  rcases h with h | ⟨h1, h2⟩
  · simp [h]
  · simp [h1, h2]

/-- Any other desk is scanned (R176). -/
theorem pickup_scans (hs : stalled = false) (h : p.postCount d ≠ (p.desks.get d).seen ∨ (p.desks.get d).rescan = true) :
    pickup parse d stalled p = scanDesk parse d p := by
  unfold pickup
  refine if_neg ?_
  rw [hs]
  rcases h with h | h <;> simp [h]

end Pickup

/-- Settles O18: the mark by its stages, the pickup by the turns of the slots a scan finds newer. -/
theorem runningMarkAdvancesTheShowTick : Obligations.RunningMarkAdvancesTheShowTick := by
  refine ⟨fun m s hl hc hr => ?_, fun α parse d stalled p hw hf hparse => ?_⟩
  · obtain ⟨b, hexec, hb⟩ := s.frameMark_begun m hl
    exact ⟨_, hexec, hb.goesOn m hc hr⟩
  intro x q y cards count word posted age newer refused
  refine ⟨fun h => ?_, fun hstalled hopen => ?_⟩
  · have hpick := pickup_stands parse d stalled p h
    exact ⟨congrArg Prod.fst hpick, congrArg Prod.snd hpick⟩
  obtain ⟨hup, hwithin, hbeyond⟩ := scanDesk_pickedUp parse d p hw hf hparse (p.newerSlots d) (p.turns d) rfl rfl
  rw [← pickup_scans parse d stalled p hstalled hopen] at hup hwithin hbeyond
  have hscan : ∀ i, posted i → (⟨i, p.postOf d i⟩ : Posted) ∈ p.scan d := fun i hi => (p.mem_scan d _).mpr ⟨hi, rfl⟩
  refine ⟨fun i hi hold => hup.refused ⟨i, _⟩ (hscan i hi) _ (p.judged_stale d i hi hold),
    (p.turns d).map Posted.slot, p.turns_sorted d, p.mem_turns_iff d, fun i j hi hj hne he => ?_, fun i hi => ?_, ?_,
    fun b hb hout => ?_, ?_, hup.held, fun h => hwithin (by simpa using h), fun h => hbeyond (by simpa using h)⟩
  · obtain ⟨z, hz, rfl⟩ := List.mem_map.mp hj
    exact hup.refused ⟨i, _⟩ (hscan i hi.1) _ (p.judged_duplicate d i hi z hz hne he)
  · rw [← List.map_take] at hi
    obtain ⟨z, hz, rfl⟩ := List.mem_map.mp hi
    have htaken := hup.taken z hz
    change p.pickedIn d z.slot ((parse (word z.slot 8) p.mem (p.slotAddr d z.slot)).map _).isSome _ at htaken
    cases hc : parse (word z.slot 8) p.mem (p.slotAddr d z.slot) with
    | none => rw [hc] at htaken; exact htaken
    | some c => rw [hc] at htaken; exact htaken
  · rw [← List.map_take, List.filterMap_map]
    refine hup.cards_eq.trans (List.filterMap_congr fun z hz => ?_)
    unfold Port.cardOf
    rw [(p.mem_turns d (List.mem_of_mem_take hz)).2.1]
    rfl
  · rw [← List.map_drop] at hout
    exact hup.kept b hb fun z hz h => hout z.slot ((p.mem_scan d z).mp hz).1 (p.not_mem_behind d hz h)
  · rw [← List.map_take, List.getLast?_map]
    refine hup.last.trans ?_
    cases hlast : ((p.turns d).take 8).getLast? with
    | none => rfl
    | some z => exact (p.mem_turns d (List.mem_of_mem_take (List.mem_of_getLast? hlast))).2.1

end Sys2Proof.Machine
end


section
/-! PROOFS. Plans staged, zones shown and hidden, fades ended (O28, O29, O30). -/

namespace Sys2Proof.Machine

/-! ## Cards and board steps on a live part -/

/-- On a live part a card is its owner's change of the blocks (R178). -/
theorem State.next_card {s : State} (h : s.part.live = true) (f : Blocks → Blocks) :
    (.next (s.onPart (·.card f)) : Answer) = .next (s.onPart (·.onBlk f)) :=
  State.next_onPart (if_pos h)

/-- On a live part a board step is its change of the blocks, with the visible areas recomputed (R51). -/
theorem State.next_boardStep {s : State} (h : s.part.live = true) (f : Blocks → Blocks) :
    (.next (s.onPart (·.boardStep f)) : Answer) =
      .next (s.onPart (·.onBlk fun b => (f b).measure s.part.sec.states)) :=
  State.next_onPart (if_pos h)

/-! ## The first fault of a plan (R15, R16) -/

/-- Records that pass by themselves and against every earlier one have no fault. -/
theorem firstFault_none {z : Sizes} {rs : List ZoneRec} {earlier : List ZoneRec} (k : Nat)
    (hrec : ∀ r ∈ rs, recFails z r = false) (hpair : rs.Pairwise fun e r => pairFails e r = false)
    (hold : ∀ r ∈ rs, ∀ e ∈ earlier, pairFails e r = false) : firstFault z k earlier rs = none := by
  induction rs generalizing k earlier with
  | nil => rfl
  | cons r rs ih =>
    obtain ⟨hr, hrs⟩ := List.forall_mem_cons.mp hrec
    obtain ⟨hor, hors⟩ := List.forall_mem_cons.mp hold
    obtain ⟨hpr, hprs⟩ := List.pairwise_cons.mp hpair
    have hany : earlier.any (pairFails · r) = false := by simpa using hor
    have hlater : ∀ u ∈ rs, ∀ e ∈ earlier ++ [r], pairFails e u = false := fun u hu e he => by
      rcases List.mem_append.mp he with he | he
      · exact hors u hu e he
      · exact List.mem_singleton.mp he ▸ hpr u hu
    rw [firstFault, hr, hany]
    exact ih (k + 1) hrs hprs hlater

/-- The first record that fails, by itself or against an earlier one, is the fault. -/
theorem firstFault_some {z : Sizes} {rs : List ZoneRec} {earlier : List ZoneRec} (k : Nat) {i : Nat} {r : ZoneRec}
    (hi : rs[i]? = some r) (hr : recFails z r = true ∨ ∃ e ∈ earlier ++ rs.take i, pairFails e r = true)
    (hbefore : ∀ j u, j < i → rs[j]? = some u →
      recFails z u = false ∧ ∀ e ∈ earlier ++ rs.take j, pairFails e u = false) :
    firstFault z k earlier rs = some (k + i) := by
  induction rs generalizing k i earlier with
  | nil => simp at hi
  | cons a rs ih =>
    cases i with
    | zero =>
      obtain rfl : a = r := by simpa using hi
      have hfails : (recFails z a || earlier.any (pairFails · a)) = true := by simpa using hr
      rw [firstFault, if_pos hfails]; rfl
    | succ i =>
      obtain ⟨ha, hpair⟩ := hbefore 0 a (by omega) rfl
      have hany : earlier.any (pairFails · a) = false := by simpa using hpair
      have hstep : firstFault z (k + 1) (earlier ++ [a]) rs = some (k + 1 + i) :=
        ih (k + 1) hi (by simpa using hr) fun j u hj hu => by simpa using hbefore (j + 1) u (by omega) hu
      rw [firstFault, ha, hany, show k + (i + 1) = k + 1 + i by omega]
      exact hstep

/-- A card whose count is outside 1 to 16 has the fault 16 (R15). -/
theorem planFault_count (z : Sizes) (q : PlanCue) (h : q.count = 0 ∨ 16 < q.count) : planFault z q = some 16 :=
  if_pos h

/-- A card whose count is 1 to 16 and gives its records has the fault of its records (R15). -/
theorem planFault_recs (z : Sizes) (q : PlanCue) (h1 : 1 ≤ q.count) (h16 : q.count ≤ 16)
    (hlen : q.recs.length = q.count) : planFault z q = firstFault z 0 [] q.recs := by
  rw [planFault, if_neg (by omega), ← hlen, List.take_length]

/-- A faulty POST_PLAN card moves nothing but its slot (R15). -/
theorem postPlan_refused (slot : Nat) (post : Word) (q : PlanCue) (s : State) (hs : s.ready .plan) (r : Nat)
    (h : planFault s.port.sizesInForce q = some r) :
    ∃ t, exec (.postPlan slot post q) s = .next t ∧ s.onlyMoved t .plan slot 5 19 (toWord r) :=
  ⟨_, rfl, s.refused_onlyMoved .plan slot .badField (toWord r) (fun _ => postPlanOp slot post q) hs
    (by rw [postPlanOp, h])⟩

/-- Settles O28, by the first fault of the records. -/
theorem postPlanStagesAPlan : Obligations.PostPlanStagesAPlan := by
  refine ⟨fun slot post q s hs h1 h16 hlen hrec hpair => ?_, fun slot post q s hs => ⟨fun hcount => ?_, ?_⟩⟩
  · have ⟨hlive, hwf, hclear⟩ := hs
    have hfault : planFault s.port.sizesInForce q = none :=
      (planFault_recs _ q h1 h16 hlen).trans (firstFault_none 0 hrec hpair (by simp))
    have hop : postPlanOp slot post q s.blk = s.blk.supersede.onComp fun c =>
        { c with staged := some ⟨q.recs.map zoneOfRec, slot, post⟩ } := by
      rw [postPlanOp, hfault, ← hlen, List.take_length]
    refine ⟨_, State.next_card hlive _, ?_⟩
    simp only [State.blk, State.port, State.onPart, Part.onBlk] at hop ⊢
    rw [hop, Blocks.supersede]
    cases hold : s.part.blk.comp.staged with
    | none => exact ⟨rfl, rfl, rfl⟩
    | some old => exact ⟨rfl, rfl, Port.refuse_slotMoved _ .plan old.slot .superseded 0 hwf hclear⟩
  · exact postPlan_refused slot post q s hs 16 (planFault_count _ q hcount)
  · intro i r h1 h16 hlen hi hfails hbefore
    have hfault := (planFault_recs s.port.sizesInForce q h1 h16 hlen).trans
      (firstFault_some 0 hi (by simpa using hfails) (by simpa using hbefore))
    exact postPlan_refused slot post q s hs i (by rw [hfault, Nat.zero_add])

/-! ## The zones of the active plan -/

@[simp] theorem Compositor.zones_mapZones (c : Compositor) (f : ZoneRun → ZoneRun) :
    (c.mapZones f).zones = c.zones.map f := by
  unfold Compositor.mapZones Compositor.zones
  cases c.active <;> rfl

/-- A change of the zones that keeps their ids changes the zone of an id so. -/
theorem Compositor.zone_mapZones (c : Compositor) (f : ZoneRun → ZoneRun) (hf : ∀ z, (f z).zone.id = z.zone.id)
    (id : Nat) : (c.mapZones f).zone id = (c.zone id).map f := by
  unfold Compositor.zone
  rw [Compositor.zones_mapZones, List.find?_map]
  congr 2
  funext z
  simp [hf]

/-- The zone found by an id has it. -/
theorem Compositor.zone_id {c : Compositor} {id : Nat} {z : ZoneRun} (h : c.zone id = some z) : z.zone.id = id := by
  simpa using List.find?_some h

/-- A zone replaced is found by its id, and every other id finds what it found. -/
theorem Compositor.zone_setZone {c : Compositor} {id : Nat} {z : ZoneRun} (y : ZoneRun) (h : c.zone id = some z)
    (hy : y.zone.id = id) (j : Nat) : (c.setZone y).zone j = if j = id then some y else c.zone j := by
  have hkeep : ∀ x : ZoneRun, (if x.zone.id = y.zone.id then y else x).zone.id = x.zone.id := fun x => by
    split <;> simp_all
  rw [Compositor.setZone, Compositor.zone_mapZones c _ hkeep]
  by_cases hj : j = id
  · rw [if_pos hj, hj, h, Option.map_some, if_pos ((Compositor.zone_id h).trans hy.symm)]
  · rw [if_neg hj]
    cases hx : c.zone j with
    | none => rfl
    | some x =>
      have : x.zone.id ≠ y.zone.id := by rw [Compositor.zone_id hx, hy]; exact hj
      rw [Option.map_some, if_neg this]

/-! ## The end of a fade (R23) -/

/-- The end of one zone's fade leaves the other zones. -/
theorem Compositor.zone_endFadeOf (c : Compositor) (id j : Nat) :
    (c.endFadeOf id).zone j = if j = id then (c.zone j).map ZoneRun.endFade else c.zone j := by
  have hkeep : ∀ x : ZoneRun, (if x.zone.id = id then x.endFade else x).zone.id = x.zone.id := fun x => by
    split <;> rfl
  rw [Compositor.endFadeOf, Compositor.zone_mapZones c _ hkeep]
  cases hx : c.zone j with
  | none => simp
  | some x => by_cases hj : j = id <;> simp [Compositor.zone_id hx, hj]

/-- Settles O30, by the zone that the end of one fade leaves at each id. -/
theorem fadeEndSettlesTheZone : Obligations.FadeEndSettlesTheZone := by
  intro id s z hl hz
  have hfound : (s.blk.comp.endFadeOf id).zone id = some z.endFade := by
    rw [Compositor.zone_endFadeOf, if_pos rfl, hz, Option.map_some]
  have hshown : ∀ n, z.vis = .fadingIn n n → z.endFade.vis = .shown := fun n hn => by
    simp [ZoneRun.endFade, Visibility.ended, hn]
  have hhidden : ∀ n, z.vis = .fadingOut 1 n → z.endFade.vis = .hidden := fun n hn => by
    simp [ZoneRun.endFade, Visibility.ended, hn]
  refine ⟨_, State.next_boardStep hl _, fun n hn => ?_, fun n hn => ?_, fun j hj => ?_, rfl⟩
  · exact (congrArg (Option.map (·.vis)) hfound).trans (congrArg some (hshown n hn))
  · exact (congrArg (Option.map (·.vis)) hfound).trans (congrArg some (hhidden n hn))
  · exact (s.blk.comp.zone_endFadeOf id j).trans (if_neg hj)

/-! ## Zone cards (R18, R24 to R26, R28) -/

/-- What a zone card can be seen to move of a zone. -/
def Compositor.seen (c : Compositor) (id : Nat) : Option (Zone × Visibility × Bool) :=
  (c.zone id).map fun y => (y.zone, y.vis, y.yielded)

/-- A fade settled for the frame in progress is seen as before. -/
@[simp] theorem Compositor.seen_settleFades (c : Compositor) (id : Nat) : c.settleFades.seen id = c.seen id := by
  rw [Compositor.seen, Compositor.settleFades,
    Compositor.zone_mapZones c (fun z => { z with fresh := false }) fun _ => rfl, Option.map_map]
  rfl

/-- A zone card moves the Port, the active plan and the visible areas at most. -/
def State.zonesMoved (s t : State) : Prop := t = s.onPart (·.onBlk fun b =>
  { b with port := t.port, measures := t.blk.measures, comp := { b.comp with active := t.blk.comp.active } })

/-- A zone card whose change of the blocks is that of the Port and of the active plan, on a live part. -/
theorem State.zoneCard {s : State} (hl : s.part.live = true) {f : Blocks → Blocks} {p : Port} {a : Option ActivePlan}
    (hf : f s.blk = { s.blk with port := p, comp := { s.blk.comp with active := a } }) :
    ∃ t, (.next (s.onPart (·.boardStep fun b => (f b).onComp Compositor.settleFades)) : Answer) = .next t ∧
      s.zonesMoved t ∧ (∀ id, t.blk.comp.seen id = ({ s.blk.comp with active := a } : Compositor).seen id) ∧
      t.port = p := by
  refine ⟨_, State.next_boardStep hl _, ?_, ?_, ?_⟩
  · simp only [State.zonesMoved, State.blk, State.port, State.onPart, Part.onBlk] at hf ⊢
    rw [hf]; rfl
  · intro id
    simp only [State.blk, State.onPart, Part.onBlk] at hf ⊢
    rw [hf, Blocks.measure_comp, Blocks.onComp_comp, Compositor.seen_settleFades]
  · simp only [State.blk, State.port, State.onPart, Part.onBlk] at hf ⊢
    rw [hf]; rfl

/-- The effect of a zone card takes a zone to a visibility with a result: with no effect it stays, with result 0; with
one it is elsewhere, and no more of it is seen to move. -/
def takesTo (z : ZoneRun) (e : Option (ZoneRun × Nat)) (after : Visibility × Nat) : Prop :=
  match e with
  | none => after = (z.vis, 0)
  | some (y, r) => after = (y.vis, r) ∧ y.zone = z.zone ∧ y.yielded = z.yielded ∧ y.vis ≠ z.vis

/-- A zone card that names a zone moves it by its effect, and finishes its slot: CLAMPED where a plan is staged and
the zone moves (R18). -/
theorem State.zoneCard_acts {s : State} (hs : s.ready .plan) {slot id : Nat} {z : ZoneRun}
    (hz : s.blk.comp.zone id = some z) {e : Option (ZoneRun × Nat)} {after : Visibility × Nat}
    (he : takesTo z e after) {f : Blocks → Blocks}
    (hf : f s.blk = s.blk.applyCue slot s.blk.comp.staged.isSome e) :
    ∃ t, (.next (s.onPart (·.boardStep fun b => (f b).onComp Compositor.settleFades)) : Answer) = .next t ∧
      s.zonesMoved t ∧ t.blk.comp.seen id = some (z.zone, after.1, z.yielded) ∧
      (∀ j, j ≠ id → t.blk.comp.seen j = s.blk.comp.seen j) ∧
      s.port.slotMoved t.port .plan slot 4 (if s.blk.comp.staged ≠ none ∧ after.1 ≠ z.vis then 1 else 0)
        (toWord after.2) := by
  have ⟨hlive, hwf, hclear⟩ := hs
  cases e with
  | none =>
    obtain rfl : after = (z.vis, 0) := he
    obtain ⟨t, ht, hmoved, hseen, hport⟩ := State.zoneCard hlive (p := s.port.complete .plan slot .ok 0)
      (a := s.blk.comp.active) hf
    refine ⟨t, ht, hmoved, (hseen id).trans ?_, fun j _ => hseen j, ?_⟩
    · exact congrArg (Option.map fun y : ZoneRun => (y.zone, y.vis, y.yielded)) hz
    · rw [hport, if_neg (fun h => h.2 rfl)]
      exact s.port.complete_slotMoved .plan slot .ok 0 hwf hclear
  | some e =>
    obtain ⟨y, r⟩ := e
    obtain ⟨rfl, hzone, hyielded, hvis⟩ := he
    have hfind := Compositor.zone_setZone y hz ((congrArg Zone.id hzone).trans (Compositor.zone_id hz))
    obtain ⟨t, ht, hmoved, hseen, hport⟩ := State.zoneCard hlive
      (p := s.port.complete .plan slot (okOr s.blk.comp.staged.isSome) (toWord r))
      (a := (s.blk.comp.setZone y).active) hf
    have hafter : ∀ j, t.blk.comp.seen j =
        ((if j = id then some y else s.blk.comp.zone j).map fun y => (y.zone, y.vis, y.yielded)) := fun j =>
      (hseen j).trans (congrArg (Option.map _) (hfind j))
    refine ⟨t, ht, hmoved, ?_, fun j hj => ?_, ?_⟩
    · rw [hafter, if_pos rfl, Option.map_some, hzone, hyielded]
    · rw [hafter, if_neg hj]; rfl
    · have hout : toWord (okOr s.blk.comp.staged.isSome).code =
          if s.blk.comp.staged ≠ none ∧ y.vis ≠ z.vis then 1 else 0 := by
        cases s.blk.comp.staged <;> simp [okOr, hvis] <;> rfl
      rw [hport, ← hout]
      exact s.port.complete_slotMoved .plan slot _ (toWord r) hwf hclear

/-- A refused zone card moves no zone (R24). -/
theorem State.zoneCard_refused {s : State} (hl : s.part.live = true) {f : Blocks → Blocks} {p : Port}
    (hf : f s.blk = { s.blk with port := p }) :
    ∃ t, (.next (s.onPart (·.boardStep fun b => (f b).onComp Compositor.settleFades)) : Answer) = .next t ∧
      s.zonesMoved t ∧ (∀ id, t.blk.comp.seen id = s.blk.comp.seen id) ∧ t.port = p :=
  State.zoneCard hl (a := s.blk.comp.active) hf

/-- The override of a zone card is coded as R24 has it. -/
theorem overrideFails_iff (q : ZoneCue) :
    overrideFails q = false ↔ q.override ≤ 1 ∨ (q.override = 2 ∧ 1 ≤ q.len ∧ q.len ≤ 60) := by
  by_cases h : q.override = 2
  · simp [overrideFails, h]; omega
  · simp [overrideFails, h]; omega

/-- The zone that a coded card names. -/
theorem Compositor.cueZone_coded (c : Compositor) (q : ZoneCue)
    (h : q.override ≤ 1 ∨ (q.override = 2 ∧ 1 ≤ q.len ∧ q.len ≤ 60)) : c.cueZone q = c.zone q.zone := by
  rw [Compositor.cueZone, (overrideFails_iff q).mpr h]; rfl

/-- A card that is not coded, or names no zone of an active plan, is refused (R24). -/
theorem Compositor.cueZone_none (c : Compositor) (q : ZoneCue)
    (h : ¬(q.override ≤ 1 ∨ (q.override = 2 ∧ 1 ≤ q.len ∧ q.len ≤ 60)) ∨ c.zone q.zone = none) :
    c.cueZone q = none := by
  unfold Compositor.cueZone
  rw [← overrideFails_iff] at h
  rcases h with h | h
  · rw [if_pos (by simpa using h)]
  · rw [h, ite_self]

/-- SHOW_ZONE on a STILL zone that is HIDDEN is refused while its image is not READY, else it is not (R24). -/
theorem Blocks.stillFault_eq (b : Blocks) (z : ZoneRun) : b.stillFault z =
    if z.zone.kind = .still ∧ z.vis = .hidden ∧ (b.rot.slot z.zone.source).isReady = false then
      some (if b.rot.slot z.zone.source = .empty then .badField else .inUse) else none := by
  unfold Blocks.stillFault
  by_cases h : z.zone.kind = .still ∧ z.vis = .hidden
  · cases hx : b.rot.slot z.zone.source <;> simp [h, BankSlot.isReady]
  · rw [if_neg h, if_neg fun ⟨hkind, hvis, _⟩ => h ⟨hkind, hvis⟩]

/-- Settles O29: a card that is not refused acts by the effect of its cue, whatever visibility it finds. -/
theorem zoneCardsShowAndHide : Obligations.ZoneCardsShowAndHide := by
  intro slot post q s hs staged coded seen fade shown hidden moved acts refused
  have ⟨hlive, hwf, hclear⟩ := hs
  have hcut : s.blk.comp.staged.isSome = true ↔ staged := Option.isSome_iff_ne_none
  have hshow : ∀ z, takesTo z (showEffect z (cueFade z.zone q) s.blk.comp.staged.isSome) (shown z) := fun z => by
    change takesTo z (showEffect z (fade z) s.blk.comp.staged.isSome) _
    cases hv : z.vis with
    | shown => simp [takesTo, showEffect, shown, hv]
    | fadingIn k n => by_cases hy : z.yielded = true <;> simp [takesTo, showEffect, shown, hv, hy]
    | fadingOut k n =>
      by_cases hc : z.yielded = true ∨ staged <;> simp [takesTo, showEffect, shown, hv, hcut, hc]
    | hidden =>
      cases hf : fade z <;> by_cases hc : z.yielded = true ∨ staged <;>
        simp [takesTo, showEffect, shown, hv, hf, hcut, hc]
  have hhide : ∀ z, takesTo z (hideEffect z (cueFade z.zone q) s.blk.comp.staged.isSome) (hidden z) := fun z => by
    change takesTo z (hideEffect z (fade z) s.blk.comp.staged.isSome) _
    cases hv : z.vis with
    | hidden => simp [takesTo, hideEffect, hidden, hv]
    | fadingOut k n => by_cases hy : z.yielded = true <;> simp [takesTo, hideEffect, hidden, hv, hy]
    | fadingIn k n =>
      by_cases hc : z.yielded = true ∨ staged <;> simp [takesTo, hideEffect, hidden, hv, hcut, hc]
    | shown =>
      cases hf : fade z <;> by_cases hc : z.yielded = true ∨ staged <;>
        simp [takesTo, hideEffect, hidden, hv, hf, hcut, hc]
  refine ⟨fun z hq hz hstill => ?_, fun z hq hz => ?_, fun hno => ?_, fun z hq hz hkind hvis hready => ?_⟩
  · refine State.zoneCard_acts hs hz (hshow z) (f := showZoneOp slot q) ?_
    have hfault : s.blk.stillFault z = none := by
      rw [Blocks.stillFault_eq, if_neg]
      rintro ⟨h1, h2, h3⟩
      exact absurd (hstill h1 h2) (by simp [h3])
    rw [showZoneOp, s.blk.comp.cueZone_coded q hq, hz]
    dsimp only
    rw [hfault]
  · refine State.zoneCard_acts hs hz (hhide z) (f := hideZoneOp slot q) ?_
    rw [hideZoneOp, s.blk.comp.cueZone_coded q hq, hz]
  · have hnone := s.blk.comp.cueZone_none q hno
    have hrefused := s.port.refuse_slotMoved .plan slot .badField 0 hwf hclear
    constructor
    · obtain ⟨t, ht, hmoved, hseen, hport⟩ := State.zoneCard_refused hlive (f := showZoneOp slot q)
        (p := s.port.refuse .plan slot .badField 0) (by rw [showZoneOp, hnone]; rfl)
      exact ⟨t, ht, hmoved, hseen, hport ▸ hrefused⟩
    · obtain ⟨t, ht, hmoved, hseen, hport⟩ := State.zoneCard_refused hlive (f := hideZoneOp slot q)
        (p := s.port.refuse .plan slot .badField 0) (by rw [hideZoneOp, hnone]; rfl)
      exact ⟨t, ht, hmoved, hseen, hport ▸ hrefused⟩
  · have hfault : s.blk.stillFault z = some (if s.blk.rot.slot z.zone.source = .empty then .badField else .inUse) := by
      rw [Blocks.stillFault_eq, if_pos ⟨hkind, hvis, hready⟩]
    obtain ⟨t, ht, hmoved, hseen, hport⟩ := State.zoneCard_refused hlive (f := showZoneOp slot q)
      (p := ({ s.port with unstated := s.port.unstated + 1 } : Port).refuse .plan slot
        (if s.blk.rot.slot z.zone.source = .empty then .badField else .inUse)
        (Config.unstatedResult s.port.unstated)) (by
          rw [showZoneOp, s.blk.comp.cueZone_coded q hq, hz]; dsimp only; rw [hfault]; rfl)
    refine ⟨t, Config.unstatedResult s.port.unstated, ht, hmoved, hseen, ?_⟩
    rw [hport]
    have hout : toWord (if s.blk.rot.slot z.zone.source = .empty then CardOutcome.badField else .inUse).code =
        if s.blk.rot.slot z.zone.source = .empty then 19 else 21 := by split <;> rfl
    rw [← hout]
    exact Port.refuse_slotMoved _ .plan slot _ _ hwf hclear

end Sys2Proof.Machine
end


section
/-! PROOFS. Passes that an adoption or a takeover ends: what becomes of the queue, the passes and the Port. -/

namespace Sys2Proof.Machine

/-! ## Items of a list changed by their keys -/

/-- The items of some keys dropped where a test holds of them, and changed where it does not. -/
def atKeys {α : Type} (key : α → Nat) (drop : α → Bool) (g : α → α) (ks : List Nat) (l : List α) : List α :=
  (l.filter fun x => !(ks.contains (key x) && drop x)).map fun x => if ks.contains (key x) then g x else x

section Keys

variable {α : Type} {key : α → Nat} {drop : α → Bool} {g : α → α}

theorem atKeys_nil (l : List α) : atKeys key drop g [] l = l := by simp [atKeys]

/-- One key after others that do not hold it. -/
theorem atKeys_cons (hg : ∀ x, key (g x) = key x) {k : Nat} {ks : List Nat} (hk : k ∉ ks) (l : List α) :
    atKeys key drop g ks (atKeys key drop g [k] l) = atKeys key drop g (k :: ks) l := by
  unfold atKeys
  rw [List.filter_map, List.map_map, List.filter_filter]
  have hone : ∀ x, key (if [k].contains (key x) then g x else x) = key x := fun x => by split <;> simp [hg]
  congr 1
  · funext x
    by_cases hx : key x = k
    · simp [hx, hg, hk]
    · simp [hx]
  · refine List.filter_congr fun x _ => ?_
    by_cases hx : key x = k
    · simp [hx, hk, hg]
    · simp [hx]

/-- No key is new. -/
theorem atKeys_keys (hg : ∀ x, key (g x) = key x) (ks : List Nat) (l : List α) :
    ((atKeys key drop g ks l).map key).Sublist (l.map key) := by
  unfold atKeys
  rw [List.map_map, List.map_congr_left (g := key) fun x _ => by dsimp only [Function.comp_apply]; split <;> simp [hg]]
  exact List.filter_sublist.map key

/-- An item of another key stays. -/
theorem mem_atKeys {ks : List Nat} {l : List α} {x : α} (hx : x ∈ l) (hk : key x ∉ ks) :
    x ∈ atKeys key drop g ks l :=
  List.mem_map.mpr ⟨x, List.mem_filter.mpr ⟨hx, by simp [hk]⟩, by simp [hk]⟩

/-- One key in a list that holds it once, at a known item. -/
theorem atKeys_one {l : List α} (hn : (l.map key).Nodup) {a : α} (ha : a ∈ l) :
    atKeys key drop g [key a] l =
      if drop a then l.filter fun x => key x != key a else l.map fun x => if key x = key a then g a else x := by
  have hone : ∀ x ∈ l, key x = key a → x = a := fun x hx h => List.inj_on_of_nodup_map hn hx ha h
  unfold atKeys
  cases hd : drop a with
  | true =>
    have hf : ∀ x ∈ l, (!([key a].contains (key x) && drop x)) = (key x != key a) := fun x hx => by
      by_cases h : key x = key a
      · simp [hone x hx h, hd]
      · simp [h]
    rw [List.filter_congr hf, if_pos rfl]
    refine (List.map_congr_left fun x hx => ?_).trans (List.map_id _)
    have : key x ≠ key a := by simpa using (List.mem_filter.mp hx).2
    simp [this]
  | false =>
    have hf : ∀ x ∈ l, (!([key a].contains (key x) && drop x)) = true := fun x hx => by
      by_cases h : key x = key a
      · simp [hone x hx h, hd]
      · simp [h]
    rw [List.filter_eq_self.mpr hf, if_neg (by simp)]
    refine List.map_congr_left fun x hx => ?_
    by_cases h : key x = key a
    · rw [if_pos h, hone x hx h]; simp
    · rw [if_neg h]; simp [h]

end Keys

/-- A step of the blocks, by what it makes of them. -/
theorem State.onBlk_eq {s t : State} {f : Blocks → Blocks} (ht : s.onPart (·.onBlk f) = t) {y : Blocks}
    (h : f s.blk = y) : t = s.onPart (·.onBlk fun _ => y) :=
  ht.symm.trans (congrArg (fun y => ({ s with part := { s.part with blk := y } } : State)) h)

/-- What no step of a fold moves, the fold does not move. -/
theorem foldl_kept {σ α β : Type} (g : σ → β) (f : σ → α → σ) (h : ∀ s a, g (f s a) = g s) (l : List α) (s : σ) :
    g (l.foldl f s) = g s := by
  induction l generalizing s with
  | nil => rfl
  | cons a l ih => exact (ih (f s a)).trans (h s a)

/-! ## What the log leaves (R79, R80) -/

@[simp] theorem Port.log_desks (p : Port) (r : LogRecord) : (p.log r).desks = p.desks := by
  have ht : p.testLogFull.desks = p.desks := by rw [Port.testLogFull_eq]
  unfold Port.log
  dsimp only
  split
  · rw [Port.writeLog_eq]; exact ht
  · split
    · exact ht
    · exact (Port.notice_desks _ _ _ _).trans ht

@[simp] theorem Port.log_latches (p : Port) (r : LogRecord) : (p.log r).latches = p.latches := by
  have ht : p.testLogFull.latches = p.latches := by rw [Port.testLogFull_eq]
  unfold Port.log
  dsimp only
  split
  · rw [Port.writeLog_eq]; exact ht
  · split
    · exact ht
    · exact (Port.notice_latches _ _ _ _).trans ht

theorem Port.sameFixed_refl (p : Port) : Port.sameFixed p p :=
  ⟨rfl, rfl, rfl, rfl, rfl, rfl, rfl, rfl, rfl, rfl, rfl, rfl⟩

@[simp] theorem Port.log_showTick (p : Port) (r : LogRecord) : (p.log r).showTick = p.showTick := by
  obtain ⟨-, -, htick, -⟩ := (closed_sameFixed p).log p r p.sameFixed_refl
  exact htick

/-! ## The cards of the queue by their slots -/

@[simp] theorem MsgCard.offAir_slot (c : MsgCard) : c.offAir.slot = c.slot := rfl

/-- A card of the queue is found by its slot, or one of the same slot is. -/
theorem Lanes.card_isSome {l : Lanes} {i : Nat} : (l.card i).isSome = true ↔ ∃ d ∈ l.queue, d.slot = i := by
  simp [Lanes.card, List.find?_isSome]

/-- A card replaced is found by its slot, and no other is touched. -/
theorem Lanes.card_setCard (l : Lanes) (c : MsgCard) (i : Nat) :
    (l.setCard c).card i = if i = c.slot then (l.card i).map fun _ => c else l.card i := by
  have hslot : ∀ d : MsgCard, (if d.slot = c.slot then c else d).slot = d.slot := fun d => by split <;> simp_all
  have hfind : (l.setCard c).card i = (l.card i).map fun d => if d.slot = c.slot then c else d := by
    unfold Lanes.card Lanes.setCard
    rw [List.find?_map]
    congr 2
    funext d
    simp [hslot]
  rw [hfind]
  cases hc : l.card i with
  | none => simp
  | some d => by_cases hi : i = c.slot <;> simp [(Lanes.card_mem hc).2, hi]

/-- A card that leaves the queue takes no other along. -/
theorem Lanes.card_leave_ne (l : Lanes) {i j : Nat} (h : i ≠ j) : (l.leave j).card i = l.card i := by
  unfold Lanes.card Lanes.leave
  rw [List.find?_filter]
  congr 1
  funext d
  by_cases hd : d.slot = i <;> simp [hd, h]

/-! ## The end of a pass (R79, R160, R162, R166) -/

/-- The end of a pass hands its record to the log, takes its card off air and the pass from the passes. -/
theorem Blocks.endPass_eq (b : Blocks) (c : MsgCard) (p : Pass) (e : PassEnd) : b.endPass c p e =
    { b with
      port := if c.cls = .sponsored then b.port.log (passRecord c p e b.port.showTick) else b.port
      lanes := { b.lanes.setCard c.offAir with passes := b.lanes.passes.filter fun q => q.slot != p.slot } } := by
  unfold Blocks.endPass
  dsimp only
  split <;> rfl

@[simp] theorem Blocks.endPass_showTick (b : Blocks) (c : MsgCard) (p : Pass) (e : PassEnd) :
    (b.endPass c p e).port.showTick = b.port.showTick := by
  rw [Blocks.endPass_eq]
  dsimp only
  split <;> simp

/-- The record of a pass that ends is all that its end hands to the Port. -/
theorem Blocks.endPass_through (b : Blocks) (c : MsgCard) (p : Pass) (e : PassEnd) (h : b.port.laid) :
    Port.through (c.passLogged e.code p) b.port (b.endPass c p e).port := by
  rw [Blocks.endPass_eq]
  exact b.port.log_passLogged c p e h

/-- The blocks but for the Port, the queue and the passes. -/
def Blocks.offLanes (b : Blocks) : Blocks :=
  { b with port := .init [], lanes := { b.lanes with queue := [], passes := [] } }

/-- Blocks that agree but for the Port, the queue and the passes. -/
theorem Blocks.eq_of_offLanes {x b : Blocks} (h : x.offLanes = b.offLanes) :
    x = { b with port := x.port, lanes := { b.lanes with queue := x.lanes.queue, passes := x.lanes.passes } } := by
  have hx := congrArg (fun y : Blocks => ({ y with port := x.port, lanes := { y.lanes with
    queue := x.lanes.queue, passes := x.lanes.passes } } : Blocks)) h
  exact hx

theorem Blocks.endPass_offLanes (b : Blocks) (c : MsgCard) (p : Pass) (e : PassEnd) :
    (b.endPass c p e).offLanes = b.offLanes := by rw [Blocks.endPass_eq]; rfl

end Sys2Proof.Machine
end


section
/-! PROOFS. The adoption of a staged plan (O31). -/

namespace Sys2Proof.Machine

/-! ## A pass at an adoption (R155, R163) -/

/-- A lane of a pass is shown still. -/
def Lanes.keepsLane (l : Lanes) (p : Pass) : Bool := p.parts.any fun x => l.isShown x.lane

/-- A pass is left without a lane and with frames to draw. -/
def Lanes.loses (l : Lanes) (p : Pass) : Bool := !l.keepsLane p && decide (p.index + 1 < p.length)

/-- A pass that goes on: with the lanes still shown, or as it is where it has none left. -/
def Lanes.goesOnAs (l : Lanes) (p : Pass) : Pass := if l.keepsLane p then l.stillIn p else p

@[simp] theorem Lanes.goesOnAs_slot (l : Lanes) (p : Pass) : (l.goesOnAs p).slot = p.slot := by
  unfold Lanes.goesOnAs; split <;> rfl

/-- The judgement of a pass at an adoption. -/
theorem Lanes.judgeLost_eq (l : Lanes) (p : Pass) :
    l.judgeLost p = if l.loses p then (some .laneLost, p) else (none, l.goesOnAs p) := by
  have hkeeps : (l.stillIn p).parts ≠ [] ↔ l.keepsLane p = true := by
    simp [Lanes.stillIn, Lanes.keepsLane, List.filter_eq_nil_iff]
  unfold Lanes.judgeLost Lanes.loses Lanes.goesOnAs
  by_cases hk : l.keepsLane p = true
  · simp [hkeeps, hk]
  · by_cases hn : p.length ≤ p.index + 1 <;> simp [hkeeps, hk, hn]

/-- One pass dealt with at an adoption. -/
def Blocks.losePass (b : Blocks) (p : Pass) : Blocks := b.applyJudgement (b.lanes.judgeLost p)

theorem Blocks.loseLanes_eq_foldl (b : Blocks) : b.loseLanes = b.lanes.passesByLane.foldl Blocks.losePass b := rfl

/-- A pass that loses its lanes ends LANE_LOST, and another goes on. -/
theorem Blocks.losePass_eq (b : Blocks) (p : Pass) : b.losePass p =
    match b.lanes.card p.slot with
    | none => b
    | some c => if b.lanes.loses p then b.endPass c p .laneLost else b.onLanes (·.setPass (b.lanes.goesOnAs p)) := by
  unfold Blocks.losePass Blocks.applyJudgement
  rw [Lanes.judgeLost_eq]
  cases hl : b.lanes.loses p with
  | true => rw [if_pos rfl]; rfl
  | false =>
    rw [if_neg (by simp)]
    dsimp only
    rw [Lanes.goesOnAs_slot]
    rfl

/-- What a pass at an adoption leaves: every block but the Port, the queue and the passes, and of the Port the desks and
the latches. -/
theorem Blocks.losePass_kept (b : Blocks) (p : Pass) : (b.losePass p).offLanes = b.offLanes ∧
    (b.losePass p).port.desks = b.port.desks ∧ (b.losePass p).port.latches = b.port.latches := by
  rw [Blocks.losePass_eq]
  split
  · exact ⟨rfl, rfl, rfl⟩
  · split
    · rw [Blocks.endPass_eq]
      dsimp only
      exact ⟨rfl, by split <;> simp, by split <;> simp⟩
    · exact ⟨rfl, rfl, rfl⟩

theorem Blocks.loseLanes_kept (b : Blocks) : b.loseLanes.offLanes = b.offLanes ∧
    b.loseLanes.port.desks = b.port.desks ∧ b.loseLanes.port.latches = b.port.latches :=
  ⟨foldl_kept Blocks.offLanes _ (fun b p => (b.losePass_kept p).1) _ b,
    foldl_kept (fun b : Blocks => b.port.desks) _ (fun b p => have ⟨_, h, _⟩ := b.losePass_kept p; h) _ b,
    foldl_kept (fun b : Blocks => b.port.latches) _ (fun b p => have ⟨_, _, h⟩ := b.losePass_kept p; h) _ b⟩

/-- Which lanes are shown says what becomes of a pass. -/
theorem Lanes.judges_of_shown {l k : Lanes} (h : l.shown = k.shown) :
    l.isShown = k.isShown ∧ l.keepsLane = k.keepsLane ∧ l.loses = k.loses ∧ l.goesOnAs = k.goesOnAs := by
  have hs : l.isShown = k.isShown := by unfold Lanes.isShown Lanes.laneWidth; rw [h]
  have hk : l.keepsLane = k.keepsLane := by unfold Lanes.keepsLane; rw [hs]
  refine ⟨hs, hk, ?_, ?_⟩
  · unfold Lanes.loses; rw [hk]
  · unfold Lanes.goesOnAs Lanes.stillIn; rw [hk, hs]

theorem Blocks.losePass_shown (b : Blocks) (p : Pass) : (b.losePass p).lanes.shown = b.lanes.shown :=
  congrArg (·.lanes.shown) (b.losePass_kept p).1

/-! ## The queue and the passes of an adoption -/

/-- A pass with a card, as it leaves the passes and the queue. -/
theorem Blocks.losePass_lanes (b : Blocks) {p : Pass} (hp : p ∈ b.lanes.passes)
    (hpn : (b.lanes.passes.map (·.slot)).Nodup) (hqn : (b.lanes.queue.map (·.slot)).Nodup)
    (hcard : ∃ c ∈ b.lanes.queue, c.slot = p.slot) :
    (b.losePass p).lanes.passes = atKeys (·.slot) b.lanes.loses b.lanes.goesOnAs [p.slot] b.lanes.passes ∧
    (b.losePass p).lanes.queue = atKeys (·.slot) (fun _ => false) MsgCard.offAir
      (([p].filter b.lanes.loses).map (·.slot)) b.lanes.queue := by
  obtain ⟨c, hc⟩ := Option.isSome_iff_exists.mp (Lanes.card_isSome.mpr hcard)
  obtain ⟨hmem, hslot⟩ := Lanes.card_mem hc
  have hqueue := atKeys_one (key := MsgCard.slot) (drop := fun _ => false) (g := MsgCard.offAir) hqn hmem
  rw [if_neg (by simp), hslot] at hqueue
  rw [atKeys_one (key := Pass.slot) hpn hp, Blocks.losePass_eq, hc]
  dsimp only
  cases hl : b.lanes.loses p with
  | true =>
    simp only [if_true, List.filter_cons_of_pos hl, List.filter_nil, List.map_cons, List.map_nil]
    rw [Blocks.endPass_eq, hqueue, ← hslot]
    exact ⟨rfl, rfl⟩
  | false =>
    simp only [List.filter_cons_of_neg (by simpa using hl), List.filter_nil, List.map_nil, atKeys_nil,
      Bool.false_eq_true, if_false]
    exact ⟨by simp [Lanes.setPass], rfl⟩

/-- The passes of an adoption dealt with one after another. -/
theorem Blocks.losePasses_lanes (ps : List Pass) (b : Blocks) (hps : ∀ p ∈ ps, p ∈ b.lanes.passes)
    (hn : (ps.map (·.slot)).Nodup) (hpn : (b.lanes.passes.map (·.slot)).Nodup)
    (hqn : (b.lanes.queue.map (·.slot)).Nodup) (hcard : ∀ p ∈ ps, ∃ c ∈ b.lanes.queue, c.slot = p.slot) :
    (ps.foldl Blocks.losePass b).lanes.passes =
      atKeys (·.slot) b.lanes.loses b.lanes.goesOnAs (ps.map (·.slot)) b.lanes.passes ∧
    (ps.foldl Blocks.losePass b).lanes.queue =
      atKeys (·.slot) (fun _ => false) MsgCard.offAir ((ps.filter b.lanes.loses).map (·.slot)) b.lanes.queue := by
  induction ps generalizing b with
  | nil => exact ⟨(atKeys_nil _).symm, (atKeys_nil _).symm⟩
  | cons p ps ih =>
    obtain ⟨hp, hps⟩ := List.forall_mem_cons.mp hps
    obtain ⟨hcp, hcard⟩ := List.forall_mem_cons.mp hcard
    obtain ⟨hnew, hn⟩ := List.nodup_cons.mp hn
    obtain ⟨hpasses, hqueue⟩ := b.losePass_lanes hp hpn hqn hcp
    obtain ⟨-, -, hloses, hgoes⟩ := Lanes.judges_of_shown (b.losePass_shown p)
    have hother : ∀ q ∈ ps, q.slot ≠ p.slot := fun q hq h => hnew (List.mem_map.mpr ⟨q, hq, h⟩)
    obtain ⟨ihp, ihq⟩ := ih (b.losePass p)
      (fun q hq => hpasses ▸ mem_atKeys (hps q hq) (by simpa using hother q hq)) hn
      (hpasses ▸ hpn.sublist (atKeys_keys (by simp) _ _))
      (hqueue ▸ hqn.sublist (atKeys_keys MsgCard.offAir_slot _ _))
      (fun q hq => by
        obtain ⟨c, hc, hs⟩ := hcard q hq
        refine ⟨c, hqueue ▸ mem_atKeys hc fun h => ?_, hs⟩
        obtain ⟨r, hr, hrs⟩ := List.mem_map.mp h
        obtain rfl := List.mem_singleton.mp (List.mem_filter.mp hr).1
        exact hother q hq (hs.symm.trans hrs.symm))
    rw [hloses, hgoes, hpasses, atKeys_cons (by simp) hnew] at ihp
    refine ⟨ihp, ihq.trans ?_⟩
    rw [hloses, hqueue]
    cases hl : b.lanes.loses p with
    | true =>
      simp only [List.filter_cons_of_pos hl, List.filter_nil, List.map_cons, List.map_nil]
      exact atKeys_cons MsgCard.offAir_slot (fun h => hnew ((List.filter_sublist.map _).subset h)) _
    | false => simp [hl, atKeys_nil]

/-- The passes and the queue after an adoption: a pass left without a lane and with frames to draw is gone, its card
WAITING, and another goes on (R155, R163). -/
theorem Blocks.loseLanes_lanes (b : Blocks) (hqn : (b.lanes.queue.map (·.slot)).Nodup)
    (hpn : (b.lanes.passes.map (·.slot)).Nodup) (hcard : ∀ p ∈ b.lanes.passes, ∃ c ∈ b.lanes.queue, c.slot = p.slot) :
    b.loseLanes.lanes.passes = (b.lanes.passes.filter fun x => !b.lanes.loses x).map b.lanes.goesOnAs ∧
    b.loseLanes.lanes.queue = b.lanes.queue.map fun c =>
      if b.lanes.passes.any (fun x => x.slot == c.slot && b.lanes.loses x) then c.offAir else c := by
  have hperm : b.lanes.passesByLane.Perm b.lanes.passes := (sortBy_perm_sorted Pass.lane b.lanes.passes).1
  obtain ⟨hpasses, hqueue⟩ := Blocks.losePasses_lanes b.lanes.passesByLane b (fun p hp => hperm.mem_iff.mp hp)
    ((hperm.map _).nodup_iff.mpr hpn) hpn hqn fun p hp => hcard p (hperm.mem_iff.mp hp)
  rw [Blocks.loseLanes_eq_foldl, hpasses, hqueue]
  have hall : ∀ x ∈ b.lanes.passes, (b.lanes.passesByLane.map (·.slot)).contains x.slot = true := fun x hx =>
    List.contains_iff_mem.mpr (List.mem_map.mpr ⟨x, hperm.mem_iff.mpr hx, rfl⟩)
  constructor
  · unfold atKeys
    rw [List.filter_congr fun x hx => by rw [hall x hx, Bool.true_and]]
    exact List.map_congr_left fun x hx => if_pos (hall x (List.mem_filter.mp hx).1)
  · unfold atKeys
    rw [List.filter_eq_self (l := b.lanes.queue) |>.mpr fun _ _ => by simp]
    refine List.map_congr_left fun c _ => ?_
    congr 1
    rw [eq_iff_iff, List.contains_iff_mem, List.any_eq_true]
    simp only [List.mem_map, List.mem_filter, Bool.and_eq_true, beq_iff_eq, hperm.mem_iff]
    exact ⟨fun ⟨x, ⟨hx, hl⟩, hs⟩ => ⟨x, hx, hs, hl⟩, fun ⟨x, hx, hs, hl⟩ => ⟨x, ⟨hx, hl⟩, hs⟩⟩

/-! ## The LANE_LOST records (R166) -/

/-- A pass loses its lanes where none of them is shown and it has frames to draw. -/
theorem Lanes.loses_iff (l : Lanes) (p : Pass) :
    l.loses p = true ↔ (∀ x ∈ p.parts, l.laneWidth x.lane = none) ∧ p.index + 1 < p.length := by
  simp [Lanes.loses, Lanes.keepsLane, Lanes.isShown]

/-- The record of a pass that loses its lanes. -/
def Lanes.lossLogged (l : Lanes) (p : Pass) : List PortChange :=
  match l.card p.slot with
  | none => []
  | some c =>
    if (∀ x ∈ p.parts, l.laneWidth x.lane = none) ∧ p.index + 1 < p.length then c.passLogged 2 p else []

/-- It is the same under lanes that show the same and differ in what is on air alone. -/
theorem Lanes.lossLogged_congr {l k : Lanes} (hs : l.shown = k.shown)
    (hc : ∀ i, (l.card i).map MsgCard.offAir = (k.card i).map MsgCard.offAir) (p : Pass) :
    l.lossLogged p = k.lossLogged p := by
  obtain ⟨-, -, hloses, -⟩ := Lanes.judges_of_shown hs
  have hread : ∀ j : Lanes, j.lossLogged p = match (j.card p.slot).map MsgCard.offAir with
      | none => []
      | some c => if j.loses p then c.passLogged 2 p else [] := fun j => by
    simp only [Lanes.lossLogged, ← Lanes.loses_iff]
    cases j.card p.slot <;> rfl
  rw [hread, hread, hc, hloses]

/-- A pass at an adoption hands its record to the log where it loses its lanes, and leaves each card as it was but for
whether it is on air. -/
theorem Blocks.losePass_through (b : Blocks) (p : Pass) (h : b.port.laid) :
    Port.through (b.lanes.lossLogged p) b.port (b.losePass p).port ∧
    ∀ i, ((b.losePass p).lanes.card i).map MsgCard.offAir = (b.lanes.card i).map MsgCard.offAir := by
  simp only [Lanes.lossLogged, ← Lanes.loses_iff]
  rw [Blocks.losePass_eq]
  cases hc : b.lanes.card p.slot with
  | none => exact ⟨rfl, fun _ => rfl⟩
  | some c =>
    dsimp only
    cases b.lanes.loses p with
    | false => exact ⟨rfl, fun _ => rfl⟩
    | true =>
      refine ⟨b.endPass_through c p .laneLost h, fun i => ?_⟩
      have hset : (b.endPass c p .laneLost).lanes.card i = (b.lanes.setCard c.offAir).card i := by
        rw [Blocks.endPass_eq]; rfl
      have hslot : c.offAir.slot = p.slot := (Lanes.card_mem hc).2
      rw [if_pos rfl, hset, Lanes.card_setCard]
      by_cases hi : i = p.slot
      · rw [if_pos (hi.trans hslot.symm), hi, hc]; rfl
      · rw [if_neg fun h => hi (h.trans hslot)]

/-- The records of the passes of an adoption, one after another. -/
theorem Blocks.losePasses_through (l : Lanes) (ps : List Pass) (b : Blocks) (h : b.port.laid)
    (hshown : b.lanes.shown = l.shown)
    (hcards : ∀ i, (b.lanes.card i).map MsgCard.offAir = (l.card i).map MsgCard.offAir) :
    Port.through (ps.flatMap l.lossLogged) b.port (ps.foldl Blocks.losePass b).port := by
  induction ps generalizing b with
  | nil => rfl
  | cons p ps ih =>
    obtain ⟨hone, hkept⟩ := b.losePass_through p h
    rw [List.flatMap_cons, ← Lanes.lossLogged_congr hshown hcards]
    exact Port.through_append hone (ih (b.losePass p) (closed_laid.applyJudgement _ _ h)
      ((b.losePass_shown p).trans hshown) fun i => (hkept i).trans (hcards i))

/-! ## The plan adopted (R19 to R22, R77) -/

/-- Zones that a function leaves are left. -/
theorem Compositor.mapZones_self (c : Compositor) (f : ZoneRun → ZoneRun) (h : ∀ z ∈ c.zones, f z = z) :
    c.mapZones f = c := by
  obtain ⟨active, staged, urgentYield, mainFrame, ribbonFrame⟩ := c
  cases active with
  | none => rfl
  | some a =>
    have hmap : a.zones.map f = a.zones := (List.map_congr_left h).trans (List.map_id _)
    simp [Compositor.mapZones, hmap]

/-- Where no zone is in a transition no fade ends. -/
theorem Compositor.endFades_self (c : Compositor) (h : ∀ z ∈ c.zones, z.vis.fading = false) : c.endFades = c :=
  c.mapZones_self _ fun z hz => by
    have hv := h z hz
    cases hvis : z.vis <;> simp_all [ZoneRun.endFade, Visibility.ended, Visibility.fading] <;> rw [← hvis]

/-- A staged plan is adopted where no zone is in a transition, and the passes that lose their lanes follow. -/
theorem Blocks.adoptAlone_adopts (b : Blocks) (p : StagedPlan) (hp : b.comp.staged = some p)
    (h : ∀ z ∈ b.comp.zones, z.vis.fading = false) :
    b.adoptAlone = (b.adoptPlan p).loseLanes.onComp Compositor.settleFades := by
  have hself : b.onComp Compositor.endFades = b := by rw [Blocks.onComp, b.comp.endFades_self h]
  have hstill : b.comp.still = true := by
    rw [Compositor.still, List.all_eq_true]
    exact fun z hz => by rw [h z hz]; rfl
  unfold Blocks.adoptAlone Blocks.adopt
  simp only [hself, hp, hstill, Option.isSome_some, Bool.and_self, if_true]

/-- A fade that has not drawn its last step goes on (R23). -/
theorem Visibility.ended_fading {v : Visibility}
    (h : match v with | .fadingIn k n => k < n | .fadingOut k _ => 1 < k | _ => False) : v.ended.fading = true := by
  cases v with
  | fadingIn k n => rw [Visibility.ended, if_neg (Nat.not_le.mpr h)]; rfl
  | fadingOut k n => rw [Visibility.ended, if_neg (Nat.not_le.mpr h)]; rfl
  | hidden => exact h.elim
  | shown => exact h.elim

theorem Visibility.drawn_eq (v : Visibility) : v.drawn = (v != .hidden) := by cases v <;> rfl

/-- A zone whose transition goes on holds the plan back (R19). -/
theorem Blocks.adoptAlone_waits (b : Blocks) (z : ZoneRun) (hz : z ∈ b.comp.zones)
    (h : z.vis.ended.fading = true) : b.adoptAlone = b := by
  have hstill : b.comp.endFades.still = false := by
    rw [Compositor.still, Compositor.endFades, Compositor.zones_mapZones, List.all_eq_false]
    exact ⟨z.endFade, List.mem_map_of_mem hz, by simp [ZoneRun.endFade, h]⟩
  unfold Blocks.adoptAlone
  simp [hstill]

/-- No zone is adopted fading out (R20). -/
theorem adoptedVisibility_settled (old : List ZoneRun) (z : Zone) : (adoptedVisibility old z).settled =
    match adoptedVisibility old z with
    | .fadingIn _ _ => .shown
    | v => v := by
  have hnew : ∀ k n, newVisibility z ≠ .fadingOut k n := fun k n => by
    unfold newVisibility
    split
    · split <;> simp
    · simp
  have hout : ∀ k n, adoptedVisibility old z ≠ .fadingOut k n := fun k n => by
    unfold adoptedVisibility
    split
    · split
      · split <;> simp
      · exact hnew k n
    · exact hnew k n
  cases hv : adoptedVisibility old z with
  | fadingOut k n => exact absurd hv (hout k n)
  | _ => rfl

/-- A zone as adopted, its fade settled for the frame in progress (R20, R28). -/
theorem adoptZone_settled (old : List ZoneRun) (yieldOn : Bool) (ready : Nat → Bool) (z : Zone) :
    { adoptZone old yieldOn ready z with fresh := false } =
      let v := if wantsImage old ready z then .hidden else adoptedVisibility old z
      if yieldOn = true ∧ z.kind = .placement ∧ z.yields = true then
        ({ zone := z, yielded := true, fresh := false
           vis := match v with | .fadingIn _ _ => .shown | v => v } : ZoneRun)
      else { zone := z, vis := v, yielded := false, fresh := false } := by
  have hyield : (yieldOn && z.yieldsNow) = true ↔ yieldOn = true ∧ z.kind = .placement ∧ z.yields = true := by
    simp [Zone.yieldsNow]
  unfold adoptZone
  dsimp only
  by_cases hy : yieldOn = true ∧ z.kind = .placement ∧ z.yields = true
  · rw [if_pos (hyield.mpr hy), if_pos hy]
    cases wantsImage old ready z with
    | true => rfl
    | false =>
      rw [if_neg Bool.false_ne_true]
      dsimp only
      rw [adoptedVisibility_settled]
  · rw [if_neg (mt hyield.mp hy), if_neg hy]

/-- The airings that end hand their records to the log by rising zone (R76, R77). -/
theorem Blocks.endAirings_through (b : Blocks) (test : Airing → Bool) (reason : AiringEnd) (h : b.port.laid) :
    Port.through ((sortBy (·.zone) (b.rot.airings.filter test)).map (b.rot.airingLogged reason.code)) b.port
      (b.endAirings test reason).port :=
  Port.through_map (fun p a => p.log (airingRecord b.rot reason p.showTick a)) (b.rot.airingLogged reason.code)
    (fun _ _ hp => closed_laid.log _ _ hp) (fun p a hp => p.log_airingLogged b.rot reason a hp) _ _ h

/-- They leave the desks and the latches. -/
theorem Blocks.endAirings_kept (b : Blocks) (test : Airing → Bool) (reason : AiringEnd) :
    (b.endAirings test reason).port.desks = b.port.desks ∧ (b.endAirings test reason).port.latches = b.port.latches :=
  ⟨foldl_kept Port.desks _ (fun _ _ => Port.log_desks _ _) _ _,
    foldl_kept Port.latches _ (fun _ _ => Port.log_latches _ _) _ _⟩

/-- How many zones of a plan are adopted HIDDEN for want of their image (R20). -/
def Blocks.bareZones (b : Blocks) (s : StagedPlan) : Nat :=
  (s.zones.filter (wantsImage b.comp.zones fun i => (b.rot.slot i).isReady)).length

/-- The Port of an adoption, up to the passes that lose their lanes: the airings that end, the card and the notice. -/
def Blocks.adoptionPort (b : Blocks) (s : StagedPlan) : Port :=
  ((b.endAirings (fun a => !continuesInto b.comp.zones s.zones a.zone) .planChange).port.complete .plan s.slot
    (okOr (b.bareZones s != 0)) (toWord (b.bareZones s))).notice .planAdopted s.slot s.post

/-- The blocks of an adoption, up to the passes that lose their lanes. -/
theorem Blocks.adoptPlan_eq (b : Blocks) (s : StagedPlan) : b.adoptPlan s =
    { b with
      port := b.adoptionPort s
      comp := { b.comp with
        staged := none
        active := some ⟨s.zones.map (adoptZone b.comp.zones b.comp.urgentYield fun i => (b.rot.slot i).isReady),
          s.slot, s.post⟩ }
      rot := { b.rot with airings := b.rot.airings.filter fun a => continuesInto b.comp.zones s.zones a.zone }
      lanes := { b.lanes with shown := lanesShown s.zones } } := by
  have hnot : (fun a : Airing => !!continuesInto b.comp.zones s.zones a.zone) =
      fun a => continuesInto b.comp.zones s.zones a.zone := funext fun a => Bool.not_not _
  rw [← hnot]
  rfl

/-- The card of an adopted plan is the one done, and DESK_DONE is latched (R22, R175). -/
theorem Blocks.adoptionPort_desk (b : Blocks) (s : StagedPlan) :
    ((b.adoptionPort s).desks.get .plan).done = (b.port.desks.get .plan).done + 1 ∧
    (b.adoptionPort s).latches.deskDone = true := by
  obtain ⟨hdesks, -⟩ := b.endAirings_kept (fun a => !continuesInto b.comp.zones s.zones a.zone) .planChange
  unfold Blocks.adoptionPort Port.complete
  rw [Port.notice_desks, Port.notice_latches, Port.moveOut_desks, Port.moveOut_latches, Desks.get_set_self, hdesks]
  exact ⟨rfl, rfl⟩

/-- The Port of an adoption goes through the PLAN_CHANGE records, the card and the notice (R22, R77). -/
theorem Blocks.adoptionPort_through (b : Blocks) (s : StagedPlan) (h : b.port.laid) :
    Port.through ((sortBy (·.zone) (b.rot.airings.filter fun a => !continuesInto b.comp.zones s.zones a.zone)).map
      (b.rot.airingLogged 2) ++
        [slotMoves .plan s.slot 4 (if b.bareZones s = 0 then 0 else 1) (toWord (b.bareZones s)),
          noticed 1 s.slot s.post]) b.port (b.adoptionPort s) ∧ (b.adoptionPort s).laid := by
  have hended := b.endAirings_through (fun a => !continuesInto b.comp.zones s.zones a.zone) .planChange h
  have hlaid := closed_laid.endAirings b (fun a => !continuesInto b.comp.zones s.zones a.zone) .planChange h
  unfold Blocks.adoptionPort
  generalize (b.endAirings (fun a => !continuesInto b.comp.zones s.zones a.zone) .planChange).port = p at hended hlaid
  generalize b.bareZones s = n
  have hdone := p.complete_slotMoves .plan s.slot (okOr (n != 0)) (toWord n) hlaid
  have hlaid' := closed_laid.complete p .plan s.slot (okOr (n != 0)) (toWord n) hlaid
  have hcode : toWord (okOr (n != 0)).code = if n = 0 then 0 else 1 := by
    by_cases hn : n = 0 <;> simp [okOr, hn] <;> rfl
  rw [hcode] at hdone
  have hnotice := Port.notice_noticed _ .planAdopted s.slot s.post hlaid'
  exact ⟨Port.through_append hended ⟨_, hdone, Port.through_one hnotice⟩, closed_laid.notice _ _ _ _ hlaid'⟩

/-- The width of a lane under a plan (R155). -/
theorem lanesShown_get (zones : List Zone) (k : Nat) : tget none (lanesShown zones) k =
    if k < 4 then (zones.find? fun z => z.kind == .message && z.source == k).map (·.rect.w) else none := by
  have hlen : (lanesShown zones).length = 4 := by simp [lanesShown]
  by_cases hk : k < 4
  · rw [if_pos hk, tget_eq_getElem _ _ _ (hlen ▸ hk)]
    simp [lanesShown]
  · rw [if_neg hk, tget_beyond _ _ _ (by omega)]

/-- The Port of an adoption goes through the PLAN_CHANGE records, the card, the notice and the LANE_LOST records (R22,
R77, R166). -/
theorem Blocks.adoptPlan_through (b : Blocks) (s : StagedPlan) (h : b.port.laid) :
    Port.through ((sortBy (·.zone) (b.rot.airings.filter fun a => !continuesInto b.comp.zones s.zones a.zone)).map
      (b.rot.airingLogged 2) ++
        [slotMoves .plan s.slot 4 (if b.bareZones s = 0 then 0 else 1) (toWord (b.bareZones s)),
          noticed 1 s.slot s.post] ++
        b.lanes.passesByLane.flatMap { b.lanes with shown := lanesShown s.zones }.lossLogged)
      b.port (b.adoptPlan s).loseLanes.port := by
  obtain ⟨hadopted, hlaid⟩ := b.adoptionPort_through s h
  have hplan := b.adoptPlan_eq s
  generalize b.adoptPlan s = x at hplan
  have hport : x.port = b.adoptionPort s := by rw [hplan]
  have hlanes : x.lanes = { b.lanes with shown := lanesShown s.zones } := by rw [hplan]
  have hfold : x.loseLanes = b.lanes.passesByLane.foldl Blocks.losePass x := by
    rw [Blocks.loseLanes_eq_foldl, hlanes]; rfl
  have hlost := Blocks.losePasses_through { b.lanes with shown := lanesShown s.zones } b.lanes.passesByLane x
    (hport ▸ hlaid) (by rw [hlanes]) fun i => by rw [hlanes]
  rw [hfold]
  exact Port.through_append hadopted (hport ▸ hlost)

/-- The zones of a fade settled between marks. -/
theorem Compositor.settleFades_eq (c : Compositor) : c.settleFades =
    { c with active := c.active.map fun a => { a with zones := a.zones.map fun z => { z with fresh := false } } } := rfl

/-- The blocks of an adoption by itself: what it moves of each but the Port, the queue and the passes (R19 to R22). -/
theorem Blocks.adoptAlone_eq (b : Blocks) (p : StagedPlan) (hp : b.comp.staged = some p)
    (h : ∀ z ∈ b.comp.zones, z.vis.fading = false) : b.adoptAlone =
    { b with
      port := (b.adoptPlan p).loseLanes.port
      comp := { b.comp with
        staged := none
        active := some ⟨p.zones.map fun z =>
            { adoptZone b.comp.zones b.comp.urgentYield (fun i => (b.rot.slot i).isReady) z with fresh := false },
          p.slot, p.post⟩ }
      rot := { b.rot with airings := b.rot.airings.filter fun a => continuesInto b.comp.zones p.zones a.zone }
      lanes := { b.lanes with shown := lanesShown p.zones, queue := (b.adoptPlan p).loseLanes.lanes.queue
                              passes := (b.adoptPlan p).loseLanes.lanes.passes } } := by
  have hlost := Blocks.eq_of_offLanes (b.adoptPlan p).loseLanes_kept.1
  have hplan := b.adoptPlan_eq p
  rw [b.adoptAlone_adopts p hp h]
  generalize (b.adoptPlan p).loseLanes = y at hlost ⊢
  generalize b.adoptPlan p = x at hlost hplan
  rw [hlost, hplan]
  simp [Blocks.onComp, Compositor.settleFades_eq, List.map_map, Function.comp_def]

/-- A plan that waits, or one adopted, as a step of the boards on a live part. -/
theorem State.adoption_next {s : State} (h : s.part.live = true) : exec .adoption s =
    .next (s.onPart (·.onBlk fun b => b.adoptAlone.measure s.part.sec.states)) := State.next_boardStep h _

/-- Settles O31: `adoptAlone_eq` says what an adoption moves of each block, `loseLanes_lanes` what of the queue and the
passes, and `adoptPlan_through` what the Port goes through. -/
theorem adoptionMakesTheStagedPlanActive : Obligations.AdoptionMakesTheStagedPlanActive := by
  refine ⟨fun s p hl hp hstill => ?_, fun s p z hl hp hz hfade => ?_⟩
  · intro old same newly wanted bare run n goesOn
    have hwanted : ∀ z, adoptedVisibility old z = wanted z := fun z => rfl
    have hbare : ∀ z, wantsImage old (fun i => (s.blk.rot.slot i).isReady) z = bare z := fun z => by
      rw [wantsImage, hwanted, Visibility.drawn_eq]
    have hrun : ∀ z, { adoptZone old s.blk.comp.urgentYield (fun i => (s.blk.rot.slot i).isReady) z with
        fresh := false } = run z := fun z => by
      have h := adoptZone_settled old s.blk.comp.urgentYield (fun i => (s.blk.rot.slot i).isReady) z
      rw [hbare, hwanted] at h
      exact h
    have hcount : s.blk.bareZones p = n := congrArg List.length (List.filter_congr fun z _ => hbare z)
    have heq := s.blk.adoptAlone_eq p hp hstill
    have hplan := s.blk.adoptPlan_eq p
    have hthrough := s.blk.adoptPlan_through p
    obtain ⟨hdone, hdesk⟩ := s.blk.adoptionPort_desk p
    obtain ⟨-, -, htick, -⟩ := (closed_sameFixed s.port).adoptAlone s.blk (Port.sameFixed_refl s.port)
    rw [funext hrun] at heq
    generalize s.blk.adoptPlan p = x at heq hplan hthrough
    have hxport : x.port = s.blk.adoptionPort p := by rw [hplan]
    have hxlanes : x.lanes = { s.blk.lanes with shown := lanesShown p.zones } := by rw [hplan]
    obtain ⟨-, hdesks, hlatches⟩ := x.loseLanes_kept
    refine ⟨_, State.adoption_next hl, ?_⟩
    generalize ht : s.onPart (·.onBlk fun b => b.adoptAlone.measure s.part.sec.states) = t
    have hblk : t.blk = s.blk.adoptAlone.measure s.part.sec.states := by rw [← ht]; rfl
    have hport : t.port = x.loseLanes.port := (congrArg Blocks.port hblk).trans (by rw [heq]; rfl)
    have hlanes : t.blk.lanes = { s.blk.lanes with
        shown := lanesShown p.zones, queue := x.loseLanes.lanes.queue, passes := x.loseLanes.lanes.passes } := by
      rw [hblk, heq]; rfl
    refine ⟨by rw [hblk, heq]; rfl, by rw [hblk, heq]; rfl, by rw [hlanes], fun hqn hpn hcards => ?_, fun k => ?_,
      ?_, ?_, ?_, fun hlaid => ?_, State.onBlk_eq ht (by rw [hport, hblk, heq]; rfl)⟩
    · obtain ⟨hpasses, hqueue⟩ := x.loseLanes_lanes (by rw [hxlanes]; exact hqn) (by rw [hxlanes]; exact hpn)
        (by rw [hxlanes]; exact hcards)
      obtain ⟨-, -, hloses, hgoes⟩ := Lanes.judges_of_shown (l := x.lanes) (k := t.blk.lanes) (by rw [hxlanes, hlanes])
      rw [hloses, hgoes, hxlanes] at hpasses
      rw [hloses, hxlanes] at hqueue
      exact ⟨(congrArg Lanes.passes hlanes).trans hpasses, (congrArg Lanes.queue hlanes).trans hqueue⟩
    · rw [Lanes.laneWidth, hlanes]; exact lanesShown_get p.zones k
    · rw [hport, hdesks, hxport]; exact hdone
    · rw [hport, hlatches, hxport]; exact hdesk
    · exact (congrArg (·.port.showTick) hblk).trans htick
    · obtain ⟨hended, hbyZone⟩ := sortBy_perm_sorted Airing.zone (s.blk.rot.airings.filter fun a => !goesOn a)
      obtain ⟨hpasses, hbyLane⟩ := sortBy_perm_sorted Pass.lane s.blk.lanes.passes
      have hchain := hthrough hlaid
      rw [hcount] at hchain
      rw [hlanes, hport]
      exact ⟨_, _, hended, hbyZone, hpasses, hbyLane, hchain⟩
  · have hends : z.vis.ended.fading = true := Visibility.ended_fading hfade
    refine ⟨_, State.adoption_next hl, ?_⟩
    simp only [State.blk, State.onPart, Part.onBlk]
    rw [s.blk.adoptAlone_waits z hz hends]
    rfl

end Sys2Proof.Machine
end


section
/-! PROOFS. The takeover of the lanes by an URGENT card (O60). -/

namespace Sys2Proof.Machine

/-! ## A pass preempted (R79, R161, R162) -/

/-- A preempted pass ends; its card is WAITING, or leaves the queue where its expiry has come. -/
theorem Blocks.preempt_eq (b : Blocks) (p : Pass) : b.preempt p =
    match b.lanes.card p.slot with
    | none => b
    | some c =>
      if expiryCome b.port.showTick c.expiry then (b.endPass c p .preempted).finishCard c.offAir .expired
      else b.endPass c p .preempted := by
  unfold Blocks.preempt
  cases hc : b.lanes.card p.slot with
  | none => rfl
  | some c =>
    obtain ⟨-, hslot⟩ := Lanes.card_mem hc
    have hcard : (b.endPass c p .preempted).lanes.card c.slot = some c.offAir := by
      have hset : (b.endPass c p .preempted).lanes.card c.slot = (b.lanes.setCard c.offAir).card c.slot := by
        rw [Blocks.endPass_eq]; rfl
      rw [hset, Lanes.card_setCard, MsgCard.offAir_slot, if_pos rfl, hslot, hc]; rfl
    have htest : (!c.offAir.onAir && expiryCome (b.endPass c p .preempted).port.showTick c.offAir.expiry) =
        expiryCome b.port.showTick c.expiry := by rw [Blocks.endPass_showTick]; rfl
    dsimp only
    rw [Blocks.expireCard, hcard]
    dsimp only
    rw [htest]

/-- What a preempted pass leaves. -/
theorem Blocks.preempt_kept (b : Blocks) (p : Pass) : (b.preempt p).offLanes = b.offLanes ∧
    (b.preempt p).port.showTick = b.port.showTick := by
  obtain ⟨-, -, htick, -⟩ := (closed_sameFixed b.port).preempt b p b.port.sameFixed_refl
  refine ⟨?_, htick⟩
  rw [Blocks.preempt_eq]
  split
  · rfl
  · split
    · exact Blocks.endPass_offLanes _ _ _ _
    · exact Blocks.endPass_offLanes _ _ _ _

/-- The passes after one is preempted that has a card. -/
theorem Blocks.preempt_passes (b : Blocks) (p : Pass) (h : (b.lanes.card p.slot).isSome = true) :
    (b.preempt p).lanes.passes = b.lanes.passes.filter fun q => q.slot != p.slot := by
  obtain ⟨c, hc⟩ := Option.isSome_iff_exists.mp h
  have hend : (b.endPass c p .preempted).lanes.passes = b.lanes.passes.filter fun q => q.slot != p.slot := by
    rw [Blocks.endPass_eq]
  rw [Blocks.preempt_eq, hc]
  dsimp only
  split <;> exact hend

/-- No other card is touched. -/
theorem Blocks.preempt_card_ne (b : Blocks) (p : Pass) {i : Nat} (h : i ≠ p.slot) :
    (b.preempt p).lanes.card i = b.lanes.card i := by
  rw [Blocks.preempt_eq]
  cases hc : b.lanes.card p.slot with
  | none => rfl
  | some c =>
    have hslot : c.offAir.slot = p.slot := (Lanes.card_mem hc).2
    have hset : (b.lanes.setCard c.offAir).card i = b.lanes.card i := by
      rw [Lanes.card_setCard, if_neg fun hi => h (hi.trans hslot)]
    have hend : (b.endPass c p .preempted).lanes.card i = b.lanes.card i := by rw [Blocks.endPass_eq]; exact hset
    dsimp only
    split
    · exact ((b.endPass c p .preempted).lanes.card_leave_ne fun hi => h (hi.trans hslot)).trans hend
    · exact hend

/-- A card replaced and then dropped is dropped. -/
theorem filter_map_replaced (l : List MsgCard) (c : MsgCard) :
    ((l.map fun d => if d.slot = c.slot then c.offAir else d).filter fun d => d.slot != c.slot) =
      l.filter fun d => d.slot != c.slot := by
  induction l with
  | nil => rfl
  | cons d l ih => by_cases hs : d.slot = c.slot <;> simp [hs, ih]

/-- The queue after a pass is preempted that has a card. -/
theorem Blocks.preempt_queue (b : Blocks) (p : Pass) (hn : (b.lanes.queue.map (·.slot)).Nodup)
    (h : (b.lanes.card p.slot).isSome = true) : (b.preempt p).lanes.queue =
      atKeys (·.slot) (fun d => expiryCome b.port.showTick d.expiry) MsgCard.offAir [p.slot] b.lanes.queue := by
  obtain ⟨c, hc⟩ := Option.isSome_iff_exists.mp h
  obtain ⟨hmem, hslot⟩ := Lanes.card_mem hc
  have hset : ((b.endPass c p .preempted).lanes.queue) =
      b.lanes.queue.map fun d => if d.slot = c.slot then c.offAir else d := by rw [Blocks.endPass_eq]; rfl
  rw [← hslot, atKeys_one (key := MsgCard.slot) hn hmem, Blocks.preempt_eq, hc]
  dsimp only
  split
  · show ((b.endPass c p .preempted).lanes.queue.filter fun d => d.slot != c.slot) = _
    rw [hset, filter_map_replaced]
  · exact hset

/-- All that a preempted pass hands to the Port: its record, and its card's move where its expiry has come. -/
def Lanes.preemptMoves (l : Lanes) (tick : Word) (p : Pass) : List PortChange :=
  match l.card p.slot with
  | none => []
  | some d => d.passLogged 1 p ++
    if expiryCome tick d.expiry then [slotMoves .message d.slot 4 2 (toWord d.completed)] else []

theorem Blocks.preempt_through (b : Blocks) (p : Pass) (h : b.port.laid) :
    Port.through (b.lanes.preemptMoves b.port.showTick p) b.port (b.preempt p).port := by
  unfold Lanes.preemptMoves
  rw [Blocks.preempt_eq]
  cases b.lanes.card p.slot with
  | none => rfl
  | some c =>
    dsimp only
    refine Port.through_append (b.endPass_through c p .preempted h) ?_
    have hlaid : (b.endPass c p .preempted).port.laid := closed_laid.endPass _ _ _ _ h
    have hdone := (b.endPass c p .preempted).port.complete_slotMoves .message c.slot .expired (toWord c.completed) hlaid
    split
    · exact Port.through_one hdone
    · rfl

/-! ## The passes preempted one after another -/

/-- The blocks but for the Port, the queue and the passes, and the show tick. -/
theorem Blocks.preempts_kept (ps : List Pass) (b : Blocks) : (ps.foldl Blocks.preempt b).offLanes = b.offLanes ∧
    (ps.foldl Blocks.preempt b).port.showTick = b.port.showTick :=
  ⟨foldl_kept Blocks.offLanes _ (fun b p => (b.preempt_kept p).1) ps b,
    foldl_kept (fun b : Blocks => b.port.showTick) _ (fun b p => (b.preempt_kept p).2) ps b⟩

/-- A card that no pass is of is touched by none. -/
theorem Blocks.preempts_card (ps : List Pass) (b : Blocks) {i : Nat} (h : ∀ p ∈ ps, p.slot ≠ i) :
    (ps.foldl Blocks.preempt b).lanes.card i = b.lanes.card i := by
  induction ps generalizing b with
  | nil => rfl
  | cons p ps ih =>
    obtain ⟨hp, hps⟩ := List.forall_mem_cons.mp h
    exact (ih (b.preempt p) hps).trans (b.preempt_card_ne p hp.symm)

/-- Every pass preempted is gone from the passes, where each pass has its card. -/
theorem Blocks.preempts_passes (ps : List Pass) (b : Blocks)
    (h : ∀ q ∈ b.lanes.passes, (b.lanes.card q.slot).isSome = true) :
    (ps.foldl Blocks.preempt b).lanes.passes = b.lanes.passes.filter fun q => !(ps.map (·.slot)).contains q.slot := by
  induction ps generalizing b with
  | nil => exact (List.filter_eq_self.mpr fun _ _ => rfl).symm
  | cons p ps ih =>
    have hone : (b.preempt p).lanes.passes = b.lanes.passes.filter fun q => q.slot != p.slot := by
      by_cases hc : (b.lanes.card p.slot).isSome = true
      · exact b.preempt_passes p hc
      · have hnone : b.lanes.card p.slot = none := by simpa using hc
        have hsame : b.preempt p = b := by rw [Blocks.preempt_eq, hnone]
        rw [hsame]
        exact (List.filter_eq_self.mpr fun q hq => by
          simpa using fun hs : q.slot = p.slot => hc (hs ▸ h q hq)).symm
    rw [List.foldl_cons, ih (b.preempt p), hone, List.filter_filter]
    · exact List.filter_congr fun q _ => by
        by_cases hs : q.slot = p.slot <;> simp [hs]
    · intro q hq
      rw [hone] at hq
      obtain ⟨hq, hs⟩ := List.mem_filter.mp hq
      rw [b.preempt_card_ne p (by simpa using hs)]
      exact h q hq

/-- The queue once some passes are preempted that have cards of their own. -/
theorem Blocks.preempts_queue (ps : List Pass) (b : Blocks) (hn : (b.lanes.queue.map (·.slot)).Nodup)
    (hps : (ps.map (·.slot)).Nodup) (h : ∀ p ∈ ps, (b.lanes.card p.slot).isSome = true) :
    (ps.foldl Blocks.preempt b).lanes.queue = atKeys (·.slot) (fun d => expiryCome b.port.showTick d.expiry)
      MsgCard.offAir (ps.map (·.slot)) b.lanes.queue := by
  induction ps generalizing b with
  | nil => exact (atKeys_nil _).symm
  | cons p ps ih =>
    obtain ⟨hp, h⟩ := List.forall_mem_cons.mp h
    obtain ⟨hnew, hps⟩ := List.nodup_cons.mp hps
    have hone := b.preempt_queue p hn hp
    have hother : ∀ q ∈ ps, q.slot ≠ p.slot := fun q hq hs => hnew (List.mem_map.mpr ⟨q, hq, hs⟩)
    have hrest := ih (b.preempt p) (hone ▸ hn.sublist (atKeys_keys MsgCard.offAir_slot _ _)) hps fun q hq => by
      rw [b.preempt_card_ne p (hother q hq)]; exact h q hq
    rw [(b.preempt_kept p).2, hone] at hrest
    exact hrest.trans (atKeys_cons MsgCard.offAir_slot hnew _)

/-- The Port once some passes are preempted that have slots of their own. -/
theorem Blocks.preempts_through (l : Lanes) (ps : List Pass) (b : Blocks) (h : b.port.laid)
    (hps : (ps.map (·.slot)).Nodup) (hl : ∀ p ∈ ps, b.lanes.card p.slot = l.card p.slot) :
    Port.through (ps.flatMap (l.preemptMoves b.port.showTick)) b.port (ps.foldl Blocks.preempt b).port := by
  induction ps generalizing b with
  | nil => rfl
  | cons p ps ih =>
    obtain ⟨hp, hl⟩ := List.forall_mem_cons.mp hl
    obtain ⟨hnew, hps⟩ := List.nodup_cons.mp hps
    have hone := b.preempt_through p h
    have hrest := ih (b.preempt p) (closed_laid.preempt _ _ h) hps fun q hq => by
      rw [b.preempt_card_ne p fun hs => hnew (List.mem_map.mpr ⟨q, hq, hs⟩)]; exact hl q hq
    rw [(b.preempt_kept p).2] at hrest
    unfold Lanes.preemptMoves at hone
    rw [hp] at hone
    exact Port.through_append hone hrest

/-! ## The card that takes over (R158, R162, R163) -/

/-- The first WAITING card, being URGENT, takes over where a lane is shown and no URGENT card is on air. -/
theorem Lanes.taker_eq {l : Lanes} {pre post : List MsgCard} {c : MsgCard} (hq : l.queue = pre ++ c :: post)
    (hpre : ∀ d ∈ pre, d.onAir = true) (hwaits : c.onAir = false) (hurgent : c.cls = .urgent)
    (hnone : ∀ d ∈ l.queue, d.cls = .urgent → d.onAir = false)
    (hshown : ∃ k, k < 4 ∧ (l.laneWidth k).isSome = true) : l.taker = some c := by
  have hany : (l.queue.any fun d => d.cls == .urgent && d.onAir) = false := by
    rw [List.any_eq_false]
    intro d hd
    by_cases hc : d.cls = .urgent
    · simp [hnone d hd hc]
    · simp [hc]
  have hlanes : l.shownLanes.isEmpty = false := by
    obtain ⟨k, hk, hw⟩ := hshown
    obtain ⟨w, hw⟩ := Option.isSome_iff_exists.mp hw
    have hmem : (k, w) ∈ l.shownLanes := List.mem_filterMap.mpr ⟨k, List.mem_range.mpr hk, by rw [hw]; rfl⟩
    exact List.isEmpty_eq_false_iff.mpr (List.ne_nil_of_mem hmem)
  have hhead : l.waiting.head? = some c := by
    have hnowait : pre.filter (fun d => !d.onAir) = [] :=
      List.filter_eq_nil_iff.mpr fun d hd => by simp [hpre d hd]
    rw [Lanes.waiting, hq, List.filter_append, hnowait, List.filter_cons_of_pos (by simp [hwaits])]
    rfl
  rw [Lanes.taker, hany, hlanes, hhead]
  simp [hurgent]

/-- The shown lanes by rising number. -/
theorem Lanes.shownLanes_lanes (l : Lanes) :
    l.shownLanes.map (·.1) = (List.range 4).filter fun k => (l.laneWidth k).isSome := by
  unfold Lanes.shownLanes
  rw [List.map_filterMap, ← List.filterMap_eq_filter]
  refine List.filterMap_congr fun k _ => ?_
  cases hw : l.laneWidth k <;> simp [hw, Option.guard]

/-- A HOLD card must crawl where a shown lane is narrower than its text (R158). -/
theorem MsgCard.mustCrawl_shown (c : MsgCard) (l : Lanes) : c.mustCrawl l.shownLanes =
    (c.holdMode && (List.range 4).any fun k =>
      match l.laneWidth k with | none => false | some w => decide (w < c.width)) := by
  unfold MsgCard.mustCrawl Lanes.shownLanes
  rw [List.any_filterMap]
  congr 2
  funext k
  cases l.laneWidth k <;> rfl

/-- The slot of a card whose pass begins: ACTIVE at its first pass, CLAMPED where it must crawl, and nothing else is
written (R157, R158). -/
theorem Port.beginCard_reads (p : Port) (c : MsgCard) (lanes : List (Nat × Nat)) (hw : Memory.wf p.mem = true) :
    let slot := p.slotAddr .message c.slot
    let q := p.beginCard c lanes
    (c.started = false → memWord q.mem slot = 3) ∧ (c.mustCrawl lanes = true → memWord q.mem (slot + 12) = 1) ∧
    bytesKept p.mem q.mem ((if c.started then [] else [slot]) ++ if c.mustCrawl lanes then [slot + 12] else []) ∧
    q = { p with mem := q.mem } := by
  intro slot q
  have hq : q = { p with mem := q.mem } := by
    simp only [q, Port.beginCard, Port.activate]
    split <;> split <;> rfl
  have hmem : q.mem =
      let m := if c.mustCrawl lanes then memWriteWord p.mem (slot + 12) 1 else p.mem
      if c.started then m else memWriteWord m slot 3 := by
    simp only [q, Port.beginCard, Port.activate]
    split <;> split <;> rfl
  have hwc := wf_memWriteWord p.mem (slot + 12) 1 hw
  refine ⟨fun hs => ?_, fun hc => ?_, fun a ha => ?_, hq⟩
  all_goals rw [hmem]
  · cases hc : c.mustCrawl lanes <;> simp only [hs, if_true, Bool.false_eq_true, if_false]
    · exact memWord_memWriteWord_self _ _ _ hw
    · exact memWord_memWriteWord_self _ _ _ hwc
  · have hone := memWord_memWriteWord_self p.mem (slot + 12) 1 hw
    cases hs : c.started <;> simp only [hc, if_true, Bool.false_eq_true, if_false]
    · rw [memWord_memWriteWord_ne _ _ _ _ hwc (by omega)]; exact hone
    · exact hone
  · have hactive : c.started = false → a < slot ∨ slot + 4 ≤ a := fun hs => ha slot (by simp [hs])
    have hcrawl : c.mustCrawl lanes = true → a < slot + 12 ∨ slot + 12 + 4 ≤ a := fun hc =>
      ha (slot + 12) (by simp [hc])
    have hone : memRead (if c.mustCrawl lanes then memWriteWord p.mem (slot + 12) 1 else p.mem) a =
        memRead p.mem a := by
      split
      · exact memRead_memWriteWord_ne _ _ _ _ hw (hcrawl ‹_›)
      · rfl
    cases hs : c.started with
    | true => exact hone
    | false => exact (memRead_memWriteWord_ne _ _ _ _ (by split <;> assumption) (hactive hs)).trans hone

/-- The urgent state turns ON where it is OFF (R164). -/
theorem Blocks.urgentOn_eq (b : Blocks) (c : MsgCard) : b.urgentOn c =
    match b.lanes.urgent with
    | some _ => b
    | none => { b with lanes := { b.lanes with urgent := some b.port.showTick }, comp := b.comp.beginYield
                       port := b.port.notice .urgentOn c.slot c.post } := by
  unfold Blocks.urgentOn
  cases b.lanes.urgent <;> rfl

/-- A zone as a yield begins (R28). -/
theorem ZoneRun.yield_eq (z : ZoneRun) : z.yield =
    if z.zone.kind = .placement ∧ z.zone.yields = true then
      { z with yielded := true, fresh := false
               vis := match z.vis with | .fadingIn _ _ => .shown | .fadingOut _ _ => .hidden | v => v }
    else z := by
  have hyield : z.zone.yieldsNow = true ↔ z.zone.kind = .placement ∧ z.zone.yields = true := by
    simp [Zone.yieldsNow]
  unfold ZoneRun.yield
  by_cases hy : z.zone.kind = .placement ∧ z.zone.yields = true
  · rw [if_pos (hyield.mpr hy), if_pos hy]; rfl
  · rw [if_neg (mt hyield.mp hy), if_neg hy]

/-- A card that takes over, as it stands in the queue from then on. -/
def MsgCard.begun (c : MsgCard) (lanes : List (Nat × Nat)) : MsgCard :=
  { c with onAir := true, started := true, clamped := c.clamped || c.mustCrawl lanes }

/-- The blocks once every pass is preempted and the card has begun its own on the shown lanes (R162, R163). -/
theorem Blocks.takeLanes_eq (b : Blocks) (c : MsgCard)
    (h : ∀ p ∈ b.lanes.passes, (b.lanes.card p.slot).isSome = true) :
    let y := b.lanes.passesByLane.foldl Blocks.preempt b
    b.takeLanes c = { b with
      port := y.port.beginCard c b.lanes.shownLanes
      lanes := { b.lanes with
        passes := [c.begin b.lanes.shownLanes b.port.showTick]
        queue := y.lanes.queue.map fun d =>
          if d.slot = c.slot then c.begun b.lanes.shownLanes else d } } := by
  intro y
  obtain ⟨hoff, htick⟩ := Blocks.preempts_kept b.lanes.passesByLane b
  have hperm : b.lanes.passesByLane.Perm b.lanes.passes := (sortBy_perm_sorted Pass.lane b.lanes.passes).1
  have hpasses : y.lanes.passes = [] := by
    rw [Blocks.preempts_passes _ _ h, List.filter_eq_nil_iff]
    intro q hq
    have hin : q.slot ∈ b.lanes.passesByLane.map (·.slot) := List.mem_map.mpr ⟨q, hperm.mem_iff.mpr hq, rfl⟩
    simpa using hin
  have hy := Blocks.eq_of_offLanes hoff
  have htake : b.takeLanes c = y.beginPass c b.lanes.shownLanes := rfl
  change y.port.showTick = _ at htick
  change y = _ at hy
  have hbegin : y.beginPass c b.lanes.shownLanes = { y with
      port := y.port.beginCard c b.lanes.shownLanes
      lanes := { y.lanes with
        passes := y.lanes.passes ++ [c.begin b.lanes.shownLanes y.port.showTick]
        queue := y.lanes.queue.map fun d =>
          if d.slot = c.slot then c.begun b.lanes.shownLanes else d } } := rfl
  rw [htake, hbegin, hpasses, htick]
  clear_value y
  rw [hy]
  rfl

@[simp] theorem MsgCard.part_lane (c : MsgCard) (k w : Nat) : (c.part k w).lane = k := by
  unfold MsgCard.part; split <;> rfl

/-- A pass begins on the lanes it is given. -/
theorem MsgCard.begin_lanes (c : MsgCard) (lanes : List (Nat × Nat)) (tick : Word) :
    (c.begin lanes tick).parts.map (·.lane) = lanes.map (·.1) := by
  simp [MsgCard.begin, Function.comp_def]

/-- The queue once every pass is preempted and the card is on air: a preempted card whose expiry has come has left it,
another waits (R161, R162). -/
theorem Blocks.takeLanes_queue (b : Blocks) (c : MsgCard) (hqn : (b.lanes.queue.map (·.slot)).Nodup)
    (hpn : (b.lanes.passes.map (·.slot)).Nodup) (h : ∀ p ∈ b.lanes.passes, (b.lanes.card p.slot).isSome = true) :
    (b.takeLanes c).lanes.queue =
      (b.lanes.queue.filter fun d =>
        !(b.lanes.passes.any (fun p => p.slot == d.slot) && expiryCome b.port.showTick d.expiry)).map fun d =>
      if d.slot = c.slot then c.begun b.lanes.shownLanes
      else if b.lanes.passes.any (fun p => p.slot == d.slot) then d.offAir else d := by
  have hperm : b.lanes.passesByLane.Perm b.lanes.passes := (sortBy_perm_sorted Pass.lane b.lanes.passes).1
  have hqueue := Blocks.preempts_queue b.lanes.passesByLane b hqn ((hperm.map _).nodup_iff.mpr hpn)
    fun p hp => h p (hperm.mem_iff.mp hp)
  have hstopped : ∀ d : MsgCard, (b.lanes.passesByLane.map (·.slot)).contains d.slot =
      b.lanes.passes.any fun p => p.slot == d.slot := fun d => by
    rw [← Bool.coe_iff_coe, List.contains_iff_mem, List.any_eq_true]
    simp [hperm.mem_iff]
  rw [b.takeLanes_eq c h, hqueue]
  unfold atKeys
  simp only [hstopped, List.map_map]
  refine List.map_congr_left fun d _ => ?_
  rw [Function.comp_apply]
  generalize b.lanes.passes.any (fun p => p.slot == d.slot) = stops
  cases stops <;> rfl

/-- The card that takes over stands in the queue. -/
theorem Blocks.takeLanes_card (b : Blocks) (c : MsgCard) (h : ∀ p ∈ b.lanes.passes, (b.lanes.card p.slot).isSome = true)
    (hc : c ∈ b.lanes.queue) (hother : ∀ p ∈ b.lanes.passes, p.slot ≠ c.slot) :
    c.begun b.lanes.shownLanes ∈ (b.takeLanes c).lanes.queue := by
  have hperm : b.lanes.passesByLane.Perm b.lanes.passes := (sortBy_perm_sorted Pass.lane b.lanes.passes).1
  have hcard := Blocks.preempts_card b.lanes.passesByLane b fun p hp => hother p (hperm.mem_iff.mp hp)
  have hfound : (b.lanes.card c.slot).isSome = true := Lanes.card_isSome.mpr ⟨c, hc, rfl⟩
  rw [← hcard] at hfound
  obtain ⟨d, hd, hs⟩ := Lanes.card_isSome.mp hfound
  rw [b.takeLanes_eq c h]
  exact List.mem_map.mpr ⟨d, hd, if_pos hs⟩

/-- All that a takeover does: the lanes taken, and the urgent state with its yield and its notice where it was OFF
(R28, R162, R164). -/
theorem Blocks.takeover_eq (b : Blocks) (c : MsgCard) (ht : b.lanes.taker = some c) : b.takeover =
    { b.takeLanes c with
      port := if (b.takeLanes c).lanes.urgent = none then (b.takeLanes c).port.notice .urgentOn c.slot c.post
        else (b.takeLanes c).port
      comp := if (b.takeLanes c).lanes.urgent = none then (b.takeLanes c).comp.beginYield else (b.takeLanes c).comp
      lanes := { (b.takeLanes c).lanes with
        urgent := some ((b.takeLanes c).lanes.urgent.getD b.port.showTick) } } := by
  obtain ⟨-, -, htick, -⟩ := (closed_sameFixed b.port).takeLanes b c b.port.sameFixed_refl
  rw [Blocks.takeover, ht]
  dsimp only
  rw [Blocks.urgentOn_eq, htick]
  cases hu : (b.takeLanes c).lanes.urgent with
  | none => rfl
  | some tick =>
    have hsame : (b.takeLanes c).lanes = { (b.takeLanes c).lanes with urgent := some tick } := by rw [← hu]
    simp only [reduceCtorEq, if_false, Option.getD_some]
    rw [← hsame]

/-- The Port as the passes are preempted and the card begins: each preempted pass's record and its card's move, then the
words of the card's slot (R79, R158, R161, R162). -/
theorem Blocks.takeLanes_through (b : Blocks) (c : MsgCard) (h : b.port.laid)
    (hpn : (b.lanes.passes.map (·.slot)).Nodup) :
    ∃ m, Port.through (b.lanes.passesByLane.flatMap (b.lanes.preemptMoves b.port.showTick)) b.port m ∧ m.laid ∧
      m.slotAddr .message c.slot = b.port.slotAddr .message c.slot ∧
      (b.takeLanes c).port = m.beginCard c b.lanes.shownLanes := by
  have hperm : b.lanes.passesByLane.Perm b.lanes.passes := (sortBy_perm_sorted Pass.lane b.lanes.passes).1
  have hfixed := (closed_sameFixed b.port).foldBlocks _ (fun x p => (closed_sameFixed b.port).preempt x p)
    b.lanes.passesByLane b b.port.sameFixed_refl
  obtain ⟨-, -, -, hareas, -⟩ := hfixed
  exact ⟨_, Blocks.preempts_through b.lanes b.lanes.passesByLane b h ((hperm.map _).nodup_iff.mpr hpn) fun _ _ => rfl,
    closed_laid.foldBlocks _ (fun x p => closed_laid.preempt x p) _ _ h, Port.slotAddr_congr hareas _ _, rfl⟩

/-- Settles O60: `takeover_eq` says what a takeover moves, `takeLanes_queue` what of the queue, and `takeLanes_through`
what the Port goes through up to the URGENT card. -/
theorem urgentCardTakesEveryLane : Obligations.UrgentCardTakesEveryLane := by
  intro s pre post c hl hqueue hpre hwaits hurgent hnone hshown hpasses
  have htaker := Lanes.taker_eq hqueue hpre hwaits hurgent hnone hshown
  have hcards : ∀ p ∈ s.blk.lanes.passes, (s.blk.lanes.card p.slot).isSome = true := fun p hp =>
    Lanes.card_isSome.mpr (hpasses p hp).2
  have htake := s.blk.takeLanes_eq c hcards
  have htakeover := s.blk.takeover_eq c htaker
  obtain ⟨-, -, htick, -⟩ := (closed_sameFixed s.port).takeover s.blk (Port.sameFixed_refl s.port)
  have hnext : exec .urgentTakeover s =
      .next (s.onPart (·.onBlk fun b => b.takeover.measure s.part.sec.states)) := State.next_boardStep hl _
  refine ⟨_, hnext, ?_⟩
  generalize ht : s.onPart (·.onBlk fun b => b.takeover.measure s.part.sec.states) = t
  have hblk : t.blk = s.blk.takeover.measure s.part.sec.states := by rw [← ht]; rfl
  have hurgentEq : (s.blk.takeLanes c).lanes.urgent = s.blk.lanes.urgent := by rw [htake]
  have hcompEq : (s.blk.takeLanes c).comp = s.blk.comp := by rw [htake]
  have hqueueOf : t.blk.lanes.queue = (s.blk.takeLanes c).lanes.queue := by rw [hblk, htakeover]; rfl
  have hurgentOf : t.blk.lanes.urgent = some (s.blk.lanes.urgent.getD s.port.showTick) := by
    rw [hblk, htakeover, hurgentEq]; rfl
  have hcompOf : t.blk.comp = if s.blk.lanes.urgent = none then s.blk.comp.beginYield else s.blk.comp := by
    rw [hblk, htakeover, hurgentEq, hcompEq]; rfl
  have hportOf : t.port = if s.blk.lanes.urgent = none then (s.blk.takeLanes c).port.notice .urgentOn c.slot c.post
      else (s.blk.takeLanes c).port := (congrArg Blocks.port hblk).trans (by rw [htakeover, hurgentEq]; rfl)
  refine ⟨⟨c.begin s.blk.lanes.shownLanes s.port.showTick, ?_, rfl, rfl, rfl, rfl, ?_⟩, ?_, fun hoff => ⟨?_, ?_⟩,
    fun tick hon => ⟨?_, ?_⟩, fun hqn hpn => ⟨?_, fun hlaid => ?_⟩, ?_, ?_, State.onBlk_eq ht ?_⟩
  · rw [hblk, htakeover, htake]; rfl
  · rw [MsgCard.begin_lanes, Lanes.shownLanes_lanes]
  · have hmem : c ∈ s.blk.lanes.queue := by rw [hqueue]; simp
    rw [hqueueOf]
    exact ⟨_, s.blk.takeLanes_card c hcards hmem fun p hp => (hpasses p hp).1, rfl, rfl, rfl, rfl⟩
  · rw [hurgentOf, hoff]; rfl
  · rw [hcompOf, if_pos hoff]
    exact congrArg (fun f => ({ s.blk.comp.mapZones f with urgentYield := true } : Compositor))
      (funext ZoneRun.yield_eq)
  · rw [hurgentOf, hon]; rfl
  · rw [hcompOf, hon]; rfl
  · rw [hqueueOf, s.blk.takeLanes_queue c hqn hpn hcards, MsgCard.begun, MsgCard.mustCrawl_shown]
    rfl
  · obtain ⟨m, hchain, hmlaid, hslot, hbegin⟩ := s.blk.takeLanes_through c hlaid hpn
    obtain ⟨hperm, hsorted⟩ := sortBy_perm_sorted Pass.lane s.blk.lanes.passes
    obtain ⟨hactive, hclamped, hkept, hrest⟩ := m.beginCard_reads c s.blk.lanes.shownLanes hmlaid.1
    have hklaid := closed_laid.beginCard m c s.blk.lanes.shownLanes hmlaid
    rw [hslot, ← hbegin] at hactive hclamped hkept
    rw [← hbegin] at hrest hklaid
    rw [MsgCard.mustCrawl_shown] at hclamped hkept
    refine ⟨_, m, (s.blk.takeLanes c).port, hperm, hsorted, hchain, hactive, hclamped, hkept, hrest, ?_⟩
    rw [hportOf]
    split
    · exact Port.through_one (Port.notice_noticed _ .urgentOn c.slot c.post hklaid)
    · rfl
  · rw [hblk, htakeover, htake]; rfl
  · exact (congrArg (·.port.showTick) hblk).trans htick
  · rw [hportOf, hblk, htakeover, hurgentEq, hcompEq, htake]
    rfl

end Sys2Proof.Machine
end


section
/-! PROOFS. The segment map, and what a command can do to the sections (O3, O5). -/

namespace Sys2Proof.Machine

/-! ## A segment and the section it backs (R37) -/

/-- The section found for a segment is one it backs. -/
theorem Sections.backed_some {c : Sections} {g r : Nat} (h : c.backed g = some r) : r < 64 ∧ c.backing r = g := by
  have hmem := List.mem_of_find?_eq_some h
  have hfound := List.find?_some h
  exact ⟨by simpa using hmem, by simpa using hfound⟩

/-- A segment for which no section is found backs none. -/
theorem Sections.backed_none {c : Sections} {g : Nat} : c.backed g = none ↔ ∀ r, r < 64 → c.backing r ≠ g := by
  simp [Sections.backed, List.find?_eq_none]

/-- The map alone decides whether it is sound. -/
theorem Sections.mapSound.of_map {c d : Sections} (h : c.mapSound) (e : d.map = c.map) : d.mapSound := by
  unfold Sections.mapSound Sections.backing at *
  rwa [e]

/-- The default map is sound (R37, R45). -/
theorem Sections.init_mapSound : Sections.init.mapSound := by
  refine ⟨rfl, fun r hr => ?_, fun r q hr hq heq => ?_⟩
  · rw [Sections.init_backing r hr]; omega
  · rwa [Sections.init_backing r hr, Sections.init_backing q hq] at heq

/-- A map stays sound where a section is given a segment that backs none (R43). -/
theorem Sections.mapSound.mapped {c : Sections} (h : c.mapSound) {r g : Nat} (hr : r < 64) (hg : g < 68)
    (hfree : ∀ q, q < 64 → c.backing q ≠ g) : ({ c with map := tset 0 c.map r g } : Sections).mapSound := by
  obtain ⟨hlength, hrange, hone⟩ := h
  have hbacking : ∀ q, ({ c with map := tset 0 c.map r g } : Sections).backing q = if q = r then g else c.backing q :=
    fun q => tget_tset 0 c.map r q g
  refine ⟨(length_tset 0 c.map r g (by omega)).trans hlength, fun q hq => ?_, fun p q hp hq heq => ?_⟩
  · rw [hbacking]
    split
    · exact hg
    · exact hrange q hq
  · rw [hbacking, hbacking] at heq
    split at heq
    · split at heq
      · omega
      · exact absurd heq.symm (hfree q hq)
    · split at heq
      · exact absurd heq (hfree p hp)
      · exact hone p q hp hq heq

/-! ## What a SET_SECTION card can do to the table (R42, R43) -/

/-- A MAP that is not refused leaves the table, or gives the section a segment that backs none (R43). -/
theorem Sections.remap_accepted {c d : Sections} {r g i : Nat} (h : c.remap r g = .accepted d i) :
    d = c ∨ (∀ q, q < 64 → c.backing q ≠ g) ∧ d = { c with map := tset 0 c.map r g } := by
  unfold Sections.remap at h
  split at h
  · cases h; exact .inl rfl
  · split at h
    · cases h
    · cases h; exact .inr ⟨Sections.backed_none.mp ‹_›, rfl⟩

/-- A SET_SECTION card that passes leaves the table, sets a forced flag, or gives a ribbon section a segment that backs
none. -/
theorem Sections.apply_accepted {c d : Sections} {q : SectionCue} {i : Nat} (h : c.apply q = .accepted d i) :
    d = c ∨ (∃ l, d = { c with forced := l }) ∨
      q.sect < 64 ∧ q.segment < 68 ∧ (∀ r, r < 64 → c.backing r ≠ q.segment) ∧
        d = { c with map := tset 0 c.map q.sect q.segment } := by
  unfold Sections.apply at h
  dsimp only at h
  split at h
  · cases h
  · next hrange =>
    split at h
    · split at h
      · cases h
      · next hmap =>
        rcases Sections.remap_accepted h with hsame | ⟨hfree, hd⟩
        · exact .inl hsame
        · exact .inr (.inr ⟨by omega, by omega, hfree, hd⟩)
    · cases h; exact .inr (.inl ⟨_, rfl⟩)

/-- A property of the sections that the cards and the settling of a mark keep. -/
structure Sections.Closed (P : Sections → Prop) : Prop where
  forced : ∀ c l, P c → P { c with forced := l }
  mapped : ∀ c r g, r < 64 → g < 68 → (∀ q, q < 64 → c.backing q ≠ g) → P c → P { c with map := tset 0 c.map r g }
  states : ∀ c l, P c → P { c with states := l }

/-- A sound map is kept (R37). -/
theorem closed_mapSound : Sections.Closed Sections.mapSound where
  forced _ _ h := h.of_map rfl
  mapped _ _ _ hr hg hfree h := h.mapped hr hg hfree
  states _ _ h := h.of_map rfl

/-- The report buffers are left alone (R38). -/
theorem closed_buffer (b : List Report) : Sections.Closed fun c => c.buffer = b where
  forced _ _ h := h
  mapped _ _ _ _ _ _ h := h
  states _ _ h := h

namespace Sections.Closed

variable {P : Sections → Prop} (h : Sections.Closed P)
include h

theorem apply {c d : Sections} {q : SectionCue} {i : Nat} (ha : c.apply q = .accepted d i) (hp : P c) : P d := by
  rcases Sections.apply_accepted ha with rfl | ⟨l, rfl⟩ | ⟨hr, hg, hfree, rfl⟩
  · exact hp
  · exact h.forced c l hp
  · exact h.mapped c _ _ hr hg hfree hp

theorem setSectionOp (slot : Nat) (q : SectionCue) (x : SectionsPort) (hp : P x.1) :
    P (Machine.setSectionOp slot q x).1.1 := by
  unfold Machine.setSectionOp
  split
  · exact hp
  · exact h.apply ‹_› hp

theorem settleSections (entry : Bool) (x : SectionsPort) (hp : P x.1) : P (Machine.settleSections entry x).1 :=
  h.states x.1 _ hp

theorem applyPlans (cards : List (Taken PlanCard)) (w : Work) (hp : P w.sec) :
    P (cards.foldl Work.applyPlan w).sec := by
  induction cards generalizing w with
  | nil => exact hp
  | cons t cards ih =>
    refine ih (w.applyPlan t) ?_
    unfold Work.applyPlan
    cases t.card with
    | postPlan q | showZone q | hideZone q => exact hp
    | setSection q => exact h.setSectionOp t.slot q (w.sec, w.blk.port) hp

theorem tasks (timer : Nat) (c : Cards) (order : List MarkTask) (w : Work) (hp : P w.sec) :
    P (order.foldl (Work.task timer c) w).sec := by
  induction order generalizing w with
  | nil => exact hp
  | cons k order ih =>
    refine ih (w.task timer c k) ?_
    cases k with
    | plan => exact h.applyPlans c.plan w hp
    | clips | replay | rotation | messages | dwell =>
      rw [Work.task, Work.onBlk_sec]
      exact hp
    | clock =>
      rw [Work.task, Work.withClock_sec]
      exact hp

theorem showWork (m : MarkInput) (entry : Bool) (s : Part) (hp : P s.sec) : P (s.showWork m entry).sec := by
  have hdone : P (s.stages m entry).done.sec :=
    h.tasks (3 * s.tb.rate.length) (s.stages m entry).cards
      (taskOrder m.order (mayAdopt (s.stages m entry).read.pickupAll.1 (s.stages m entry).cards))
      { sec := s.sec, clk := s.clk, blk := (s.stages m entry).advanced, accepted := [] } hp
  have hworked : (s.stages m entry).worked = (s.stages m entry).done.settle entry := rfl
  rw [s.showWork_stages]
  generalize s.stages m entry = g at hdone hworked
  obtain ⟨-, hsec, -⟩ := g.done.settle_eq entry
  show P g.worked.sec
  rw [hworked, hsec]
  exact h.states _ _ hdone

theorem idleWork (s : Part) (hp : P s.sec) : P s.idleWork.sec := h.settleSections false (s.sec, s.blk.port) hp

/-- The work of a mark, whatever the run state and the RUN request (R11). -/
theorem sampleRun (m : MarkInput) (s : Part) (hp : P s.sec) : P (s.sampleRun m).sec := by
  unfold Part.sampleRun
  dsimp only
  split
  · split
    · exact h.showWork m false _ hp
    · exact h.idleWork _ hp
  · split
    · split
      · exact h.showWork m true _ hp
      · exact h.idleWork _ hp
    · exact h.idleWork _ hp

theorem settleStates (s : Part) (hp : P s.sec) : P s.settleStates.sec := h.settleSections false (s.sec, s.blk.port) hp

theorem setSection (slot : Nat) (q : SectionCue) (s : Part) (hp : P s.sec) : P (s.setSection slot q).sec := by
  have hset := h.setSectionOp slot q (s.sec, s.blk.port) hp
  unfold Part.setSection
  dsimp only
  split
  · exact hset
  · exact h.settleStates _ hset

end Sections.Closed

/-! ## What leaves the sections alone -/

theorem Part.whenLive_sec {f : Part → Part} {s : Part} (hf : (f s).sec = s.sec) : (s.whenLive f).sec = s.sec := by
  unfold Part.whenLive
  split
  · exact hf
  · rfl

theorem Part.card_sec (f : Blocks → Blocks) (s : Part) : (s.card f).sec = s.sec := Part.whenLive_sec rfl

theorem Part.boardStep_sec (f : Blocks → Blocks) (s : Part) : (s.boardStep f).sec = s.sec := Part.whenLive_sec rfl

theorem Part.clockCard_sec (f : ClockPort → ClockPort) (s : Part) : (s.clockCard f).sec = s.sec :=
  Part.whenLive_sec rfl

theorem Part.afterTime_sec {f : Part → Part} (hf : ∀ p, (f p).sec = p.sec) (dt : Nat) (s : Part) :
    (s.afterTime dt f).sec = s.sec := by
  unfold Part.afterTime
  dsimp only
  split
  · exact (hf _).trans (s.elapse_sec dt)
  · exact s.elapse_sec dt

theorem Part.onLine_sec (dt : Nat) (f : ClockPort → ClockPort) (s : Part) : (s.onLine dt f).sec = s.sec :=
  Part.afterTime_sec (f := (·.onClock f)) (fun _ => rfl) dt s

theorem Part.onTick_sec (due : ClockUnit → Bool) (f : ClockPort → ClockPort) (s : Part) :
    (s.onTick due f).sec = s.sec := by
  unfold Part.onTick
  split <;> rfl

theorem Part.discardByte_sec (dt : Nat) (b : Byte) (ok : Bool) (s : Part) : (s.discardByte dt b ok).sec = s.sec :=
  Part.afterTime_sec (fun p => by split <;> rfl) dt s

theorem Part.expireGap_sec (s : Part) : s.expireGap.sec = s.sec := by
  unfold Part.expireGap
  split
  · exact s.elapse_sec _
  · rfl

theorem Part.arrival_sec (dt i : Nat) (conforming : Bool) (p : Picture) (s : Part) :
    (s.arrival dt i conforming p).sec = s.sec :=
  Part.afterTime_sec (f := (·.takeFrame i conforming p)) (fun _ => rfl) dt s

theorem Part.arrivalWhen_sec (cond : Blocks → Bool) (dt i : Nat) (p : Picture) (s : Part) :
    (s.arrivalWhen cond dt i p).sec = s.sec :=
  Part.afterTime_sec (fun x => by split <;> rfl) dt s

theorem Part.expireSilence_sec (i : Nat) (s : Part) : (s.expireSilence i).sec = s.sec := by
  unfold Part.expireSilence
  split
  · rfl
  · exact s.elapse_sec _

theorem Part.loseSignal_sec (i : Nat) (cause : SignalLoss) (s : Part) : (s.loseSignal i cause).sec = s.sec := by
  cases cause with
  | timer =>
    unfold Part.loseSignal
    dsimp only
    split
    · exact s.expireSilence_sec i
    · rfl
  | receiver dt => exact Part.afterTime_sec (f := (·.onBlk (·.onInput i Input.loseSignal))) (fun _ => rfl) dt s

theorem Part.msTick_sec (silenceFirst : Bool) (s : Part) : (s.msTick silenceFirst).sec = s.sec := by
  cases hl : s.tb.synthLocked with
  | true =>
    obtain ⟨-, hsec, -⟩ := s.msTick_eq silenceFirst hl _ rfl
    exact hsec
  | false =>
    unfold Part.msTick
    rw [if_neg (by simp [hl])]

theorem Part.housePulse_sec (dt : Nat) (s : Part) : (s.housePulse dt).sec = s.sec := by
  have htime : (s.referencePresent.elapse dt).sec = s.sec := s.referencePresent.elapse_sec dt
  unfold Part.housePulse
  dsimp only
  split
  · exact htime
  · exact htime

theorem Part.expireSync_sec (s : Part) : s.expireSync.sec = s.sec := by
  unfold Part.expireSync
  split
  · rfl
  · exact s.referencePresent.elapse_sec _

/-! ## The segment map through every command -/

/-- A health report leaves the map (R38). -/
theorem Sections.report_map (c : Sections) (link position : Nat) (says' : HealthSays) (ok : Bool) :
    (c.report link position says' ok).map = c.map := by
  unfold Sections.report
  split
  · split <;> rfl
  · rfl

/-- A turned segment leaves the map (R39). -/
theorem Part.turnSegment_map (g : Nat) (s : Part) : (s.turnSegment g).sec.map = s.sec.map := by
  unfold Part.turnSegment
  split <;> rfl

/-- A mark keeps the map sound: of the work of a mark the SET_SECTION cards alone move it (R43). -/
theorem Part.mark_mapSound (first : Bool) (m : MarkInput) (s : Part) (h : s.sec.mapSound) :
    (s.mark first m).sec.mapSound := by
  have hopened : (s.opened first).sec.mapSound := h.of_map (by cases first <;> rfl)
  rw [s.mark_eq]
  exact (closed_mapSound.sampleRun m _ hopened).of_map rfl

theorem Part.frameMark_mapSound (m : MarkInput) (s : Part) (h : s.sec.mapSound) : (s.frameMark m).sec.mapSound := by
  unfold Part.frameMark
  split
  · exact Part.mark_mapSound false m _ (by rwa [Part.elapse_sec])
  · exact h

theorem Part.lockSynthesiser_mapSound (dt : Nat) (m : MarkInput) (s : Part) (h : s.sec.mapSound) :
    (s.lockSynthesiser dt m).sec.mapSound := by
  unfold Part.lockSynthesiser
  split
  · exact h
  · exact Part.mark_mapSound true m _ (by rw [Part.elapse_sec]; exact h)

/-- Every command keeps the map sound. -/
theorem exec_mapSound (c : Instr) (s : State) (h : s.part.sec.mapSound) :
    ∃ t, exec c s = .next t ∧ t.part.sec.mapSound := by
  have stands : ∀ {d : Sections}, d = s.part.sec → d.mapSound := fun e => e ▸ h
  cases c with
  | powerOn | hardReset | softReset => exact ⟨_, rfl, Sections.init_mapSound⟩
  | run | causeWrite | causeMaskWrite | registerWriteOther | hostWrite => exact ⟨_, rfl, h⟩
  | referenceLost dt => exact ⟨_, rfl, stands (s.part.elapse_sec dt)⟩
  | synthesiserLock dt m => exact ⟨_, rfl, s.part.lockSynthesiser_mapSound dt m h⟩
  | frameMark m => exact ⟨_, rfl, s.part.frameMark_mapSound m h⟩
  | msTick silenceFirst => exact ⟨_, rfl, stands (s.part.msTick_sec silenceFirst)⟩
  | houseSyncPulse reference dt =>
    cases reference with
    | false => exact ⟨_, rfl, h⟩
    | true => exact ⟨_, rfl, stands (s.part.housePulse_sec dt)⟩
  | syncLossExpiry => exact ⟨_, rfl, stands s.part.expireSync_sec⟩
  | healthReport link position report ok =>
    exact ⟨_, rfl, h.of_map (s.part.sec.report_map link position report ok)⟩
  | segmentHealthChange g => exact ⟨_, rfl, h.of_map (s.part.turnSegment_map g)⟩
  | frameArrival => exact ⟨_, rfl, stands (Part.arrival_sec ..)⟩
  | captureResume | numbersExhausted | openClipClose => exact ⟨_, rfl, stands (Part.arrivalWhen_sec ..)⟩
  | lossOfSignal i cause => exact ⟨_, rfl, stands (s.part.loseSignal_sec i cause)⟩
  | clockWord | hornWord | periodWord | consoleByte => exact ⟨_, rfl, stands (Part.onLine_sec ..)⟩
  | wordDiscard => exact ⟨_, rfl, stands (Part.discardByte_sec ..)⟩
  | interByteGap => exact ⟨_, rfl, stands s.part.expireGap_sec⟩
  | consoleSilenceExpiry | clockExpiry | clockLimitReached | hornRelease | flashEnd =>
    exact ⟨_, rfl, stands (Part.onTick_sec ..)⟩
  | fadeEnd | adoption | passComplete | messageExpiry | urgentTakeover | showZone | hideZone =>
    exact ⟨_, rfl, stands (Part.boardStep_sec ..)⟩
  | setSection slot post q =>
    refine ⟨_, rfl, ?_⟩
    show (s.part.whenLive _).sec.mapSound
    unfold Part.whenLive
    split
    · exact closed_mapSound.setSection slot q s.part h
    · exact h
  | clockSetup | clockSet | clockRun | clockStop | score => exact ⟨_, rfl, stands (Part.clockCard_sec ..)⟩
  | dwellComplete | holdLimit | loadComplete | clipExpiry | laneAssignment =>
    exact ⟨_, rfl, stands (Part.whenLive_sec rfl)⟩
  | postPlan | setInput | markClip | keepClip | dropClip | cueHead | play | setRate | pause | stopHead | setGroup
    | setEntry | dropEntry | loadImage | message => exact ⟨_, rfl, stands (Part.card_sec ..)⟩

/-- Settles O5: a step is a command of `exec_mapSound`, or nothing. -/
theorem segmentMapStaysOneToOne : Obligations.SegmentMapStaysOneToOne := by
  intro s t h hstep
  unfold step at hstep
  split at hstep
  · cases hstep; exact h
  · next c rest _ =>
    obtain ⟨u, hu, hsound⟩ := exec_mapSound c { s with pending := rest } h
    rw [hu] at hstep
    cases hstep
    exact hsound

/-- Settles O3, each kind of soundness by the values of its block at reset. -/
theorem resetIsSound : Obligations.ResetIsSound := by
  have hclock : ∀ hornOn, (Clock.init hornOn).sound := fun _ =>
    ⟨Nat.zero_le _, fun _ => rfl, fun h => (nomatch h), fun h => (nomatch h)⟩
  exact ⟨⟨hclock true, hclock false⟩, Sections.init_mapSound, rfl, rfl, fun h => (nomatch h)⟩

end Sys2Proof.Machine
end


section
/-! PROOFS. Health reports, the turn of a segment and the notices of the sections (O23, O24). -/

namespace Sys2Proof.Machine

/-! ## Health reports (R36, R38) -/

/-- The segment at a position that its link carries (R36). -/
theorem linkSegment_carried {link position : Nat}
    (h : (link < 4 ∧ position < 4) ∨ (4 ≤ link ∧ link < 8 ∧ position < 17)) :
    linkSegment link position = some (if link < 4 then 4 * link + position
      else if position < 16 then 16 + (16 * (link - 4) + position) else 16 + (64 + (link - 4))) := by
  unfold linkSegment
  rcases h with ⟨hlink, hposition⟩ | ⟨hlow, hhigh, hposition⟩
  · rw [if_pos hlink, if_pos hposition, if_pos hlink]
  · have hribbon : ¬link < 4 := by omega
    rw [if_neg hribbon, if_pos hhigh, if_neg hribbon]
    split
    · rw [Nat.add_assoc]
    · rw [if_pos (by omega), Nat.add_assoc]

/-- A position beyond those a link carries has no segment (R36). -/
theorem linkSegment_beyond {link position : Nat} (h : (link < 4 ∧ 4 ≤ position) ∨ (4 ≤ link ∧ 17 ≤ position)) :
    linkSegment link position = none := by
  unfold linkSegment
  rcases h with ⟨hlink, hposition⟩ | ⟨hlink, hposition⟩
  · rw [if_pos hlink, if_neg (by omega)]
  · rw [if_neg (by omega)]
    split
    · rw [if_neg (by omega), if_neg (by omega)]
    · rfl

/-- A buffer after a report: FAULT once either says so, else OK (R38). -/
theorem Report.after_eq (b : Report) (report : HealthSays) :
    b.after report = if report = .fault ∨ b = .fault then .fault else .ok := by
  cases report <;> cases b <;> rfl

/-- A well-formed report for a segment moves its buffer (R38). -/
theorem Sections.report_carried (c : Sections) {link position g : Nat} (report : HealthSays)
    (h : linkSegment link position = some g) : c.report link position report true =
      { c with buffer := tset .absent c.buffer g ((tget .absent c.buffer g).after report) } := by
  unfold Sections.report
  rw [h]
  rfl

/-- A report whose check fails, or for a position its link does not carry, changes nothing (R38). -/
theorem Sections.report_discarded (c : Sections) {link position : Nat} (report : HealthSays) {ok : Bool}
    (h : ok = false ∨ linkSegment link position = none) : c.report link position report ok = c := by
  unfold Sections.report
  rcases h with h | h
  · rw [h]
    split <;> rfl
  · rw [h]

/-- A report moves the buffers alone (R38). -/
theorem Sections.report_eq (c : Sections) (link position : Nat) (report : HealthSays) (ok : Bool) :
    c.report link position report ok = { c with buffer := (c.report link position report ok).buffer } := by
  cases ok with
  | false => rw [c.report_discarded report (.inl rfl)]
  | true =>
    cases h : linkSegment link position with
    | none => rw [c.report_discarded report (.inr h)]
    | some g => rw [c.report_carried report h]

/-- Settles O23. -/
theorem healthReportFillsTheBuffer : Obligations.HealthReportFillsTheBuffer := by
  intro link position report ok s
  refine ⟨_, rfl, ?_, fun hcarried hok => ?_, fun hdiscarded => ?_⟩
  · exact congrArg (fun c => s.onPart fun p => { p with sec := c })
      (s.part.sec.report_eq link position report ok)
  · have hreport := s.part.sec.report_carried report (linkSegment_carried hcarried)
    subst hok
    dsimp only [State.onPart_part]
    rw [hreport]
    dsimp only
    rw [← Report.after_eq]
    exact ⟨tget_tset_self .., fun h hne => tget_tset_ne _ _ _ _ _ hne⟩
  · have hsame : s.part.sec.report link position report ok = s.part.sec :=
      s.part.sec.report_discarded report (hdiscarded.imp_right linkSegment_beyond)
    exact congrArg (fun c => s.onPart fun p => { p with sec := c }) hsame

/-! ## Health records (R39) -/

/-- A frame of the segment's own kind ends the run of the other kind. -/
theorem SegHealth.after_same {h : SegHealth} {b : Report} (hb : h.live = true ↔ ¬b ≠ .ok) :
    h.after b = { h with runCount := 0 } := by
  unfold SegHealth.after
  rw [if_pos (by rw [Bool.eq_iff_iff, hb, not_not, beq_iff_eq])]

/-- A frame of the other kind is no frame of the segment's own. -/
theorem SegHealth.other_kind {h : SegHealth} {b : Report} (hb : h.live = true ↔ b ≠ .ok) :
    ¬h.live = (b == .ok) := by
  rw [Bool.eq_iff_iff, hb, beq_iff_eq]
  tauto

/-- One of the first 29 frames of the other kind in a row is counted. -/
theorem SegHealth.after_counts {h : SegHealth} {b : Report} (hb : h.live = true ↔ b ≠ .ok) (hr : h.runCount < 29) :
    h.after b = { h with runCount := h.runCount + 1 } := by
  unfold SegHealth.after
  rw [if_neg (SegHealth.other_kind hb)]
  exact if_pos hr

/-- The 30th frame of the other kind in a row turns the segment. -/
theorem SegHealth.after_turns {h : SegHealth} {b : Report} (hb : h.live = true ↔ b ≠ .ok) (hr : 29 ≤ h.runCount) :
    h.after b = ⟨!h.live, 0⟩ := by
  unfold SegHealth.after
  rw [if_neg (SegHealth.other_kind hb)]
  exact if_neg (by unfold Config.runLimit; omega)

/-- The health record of a segment at a mark that ends a frame. -/
theorem Sections.countHealth_segHealth (c : Sections) {g : Nat} (h : g < c.health.length) :
    c.countHealth.segHealth g = (c.segHealth g).after (tget .absent c.buffer g) := by
  unfold Sections.segHealth Sections.countHealth
  dsimp only
  rw [tget_tmapFrom ⟨true, 0⟩ _ _ 0 c.health g h, Nat.zero_add]

/-- One segment's health work: its record takes its report, its buffer is ABSENT, and the other records stay. -/
theorem Sections.countSegment_segHealth (c : Sections) (g h : Nat) : (c.countSegment g).segHealth h =
    if h = g then (c.segHealth g).after (tget .absent c.buffer g) else c.segHealth h :=
  tget_tset _ _ _ _ _

/-- A mark that ends a frame leaves the health records as counted and every buffer ABSENT (R38 to R40). -/
theorem State.Begun.health {s : State} {dt : Nat} {b : Part} (h : s.Begun false dt b) (m : MarkInput) :
    (b.sampleRun m).closeMark.sec.health = s.part.sec.countHealth.health ∧
    (b.sampleRun m).closeMark.sec.buffer = List.replicate 84 .absent := by
  have hhealth := b.sampleRun_health m
  have hbuffer := (closed_buffer _).sampleRun m b rfl
  rw [h.sec] at hhealth hbuffer
  exact ⟨hhealth, hbuffer⟩

/-! ## The settling of the section states (R41, R44) -/

/-- The sections settle with the notices of those that left or became LIVE, or at entry of those that are not LIVE. -/
theorem settleSections_through (entry : Bool) (c : Sections) (p : Port) (h : p.laidWhenRunning) :
    Port.through (c.noticed entry c.states) p (settleSections entry (c, p)).2 :=
  Port.through_foldl Port.laidWhenRunning (sectionNotice c entry) _
    (fun p i hp => closed_laidWhenRunning.sectionNotice c entry p i hp)
    (fun p i hp => sectionNotice_through c entry p i hp) (List.range 80) p h

/-- The section states settled outside a mark: of the sections their states move, and of the blocks the Port and the visible
areas (R41, R51). -/
theorem Part.settleStates_eq (s : Part) : s.settleStates =
    { s with sec := { s.sec with states := s.sec.newStates }
             blk := { s.blk with port := s.settleStates.blk.port, measures := s.settleStates.blk.measures } } := rfl

theorem Part.settleStates_through (s : Part) (h : s.blk.port.laid) :
    Port.through (s.sec.noticed false s.sec.states) s.blk.port s.settleStates.blk.port :=
  settleSections_through false s.sec s.blk.port fun _ => h

/-- Where a segment's health work turns it, that is done and the section states settle (R39, R41). -/
theorem Part.turnSegment_due {s : Part} {g : Nat} (hl : s.tb.synthLocked = true) (ht : s.sec.turns g = true) :
    s.turnSegment g = Part.settleStates { s with sec := s.sec.countSegment g } := by
  unfold Part.turnSegment
  rw [hl, ht]
  rfl

/-- A segment whose next health work gives it the other health is one that turns (R39). -/
theorem Sections.turns_of {c : Sections} {g : Nat} (hg : g < 84)
    (h : (c.segHealth g).after (tget .absent c.buffer g) = ⟨!(c.segHealth g).live, 0⟩) : c.turns g = true := by
  unfold Sections.turns
  rw [h]
  simp [hg]

/-- Settles O24: the frame's end by the cases of `SegHealth.after`, the turn by itself by `turnSegment_due`, and the notices by
`settleSections_through`. -/
theorem healthTurnsAtTheThirtiethBadFrame : Obligations.HealthTurnsAtTheThirtiethBadFrame := by
  refine ⟨fun m s g hl hg => ?_, fun g s hl hg hrun hkind => ?_, fun entry c p hp =>
    ⟨rfl, fun i hi => c.newStates_get i hi, settleSections_through entry c p hp⟩⟩
  · obtain ⟨b, hexec, hb⟩ := s.frameMark_begun m hl
    obtain ⟨hhealth, hbuffer⟩ := hb.health m
    have hrecord : (b.sampleRun m).closeMark.sec.segHealth g =
        (s.part.sec.segHealth g).after (tget .absent s.part.sec.buffer g) := by
      rw [← s.part.sec.countHealth_segHealth hg, Sections.segHealth, hhealth]
      rfl
    refine ⟨_, hexec, ?_⟩
    dsimp only
    rw [hrecord]
    refine ⟨fun h => ?_, fun h hr => ?_, fun h hr => ?_, hbuffer⟩
    · rw [SegHealth.after_same h]; exact ⟨rfl, rfl⟩
    · rw [SegHealth.after_counts h hr]; exact ⟨rfl, rfl⟩
    · rw [SegHealth.after_turns h hr]; exact ⟨rfl, rfl⟩
  · have hafter := SegHealth.after_turns hkind hrun
    have hrecords := s.part.sec.countSegment_segHealth g
    have hexec : exec (.segmentHealthChange g) s = .next { s with part := _ } :=
      State.next_onPart (Part.turnSegment_due hl (Sections.turns_of hg hafter))
    refine ⟨_, hexec, (hrecords g).trans ?_, tget_tset_self .., fun h hne => (hrecords h).trans (if_neg hne),
      fun i hi => Sections.newStates_get _ i hi, rfl, rfl, rfl, rfl,
      Part.settleStates_through { s.part with sec := s.part.sec.countSegment g }, rfl⟩
    rw [if_pos rfl, hafter]

end Sys2Proof.Machine
end


section
/-! PROOFS. SET_SECTION (O25). -/

namespace Sys2Proof.Machine

/-! ## The verdict on a card (R42, R43) -/

/-- A card outside its encoding or range is refused BAD_FIELD with result 0. -/
theorem Sections.apply_badField (c : Sections) {q : SectionCue} (h : 1 < q.canvas ∨ 2 < q.action ∨
    (if q.canvas = 0 then 16 else 64) ≤ q.sect ∨ (q.action = 2 ∧ (q.canvas = 0 ∨ 67 < q.segment))) :
    c.apply q = .refused .badField 0 := by
  unfold Sections.apply
  split
  · rfl
  · next hrange =>
    have hmap : q.action = 2 ∧ (q.canvas = 0 ∨ 67 < q.segment) := by
      split at h <;> omega
    obtain ⟨haction, hfield⟩ := hmap
    dsimp only
    rw [if_pos haction, if_pos hfield]

/-- A card within its encoding and range passes the checks on them. -/
theorem Sections.apply_inRange (c : Sections) {q : SectionCue} (hcanvas : q.canvas ≤ 1) (haction : q.action ≤ 2)
    (hsect : q.sect < if q.canvas = 0 then 16 else 64) : c.apply q =
      if q.action = 2 then
        if q.canvas = 0 ∨ 67 < q.segment then .refused .badField 0 else c.remap q.sect q.segment
      else
        let i := if q.canvas = 0 then q.sect else 16 + q.sect
        .accepted { c with forced := tset false c.forced i (q.action == 1) } i := by
  unfold Sections.apply
  rw [if_neg (by split at hsect <;> omega)]

/-- IN and OUT clear and set the section's forced flag (R42). -/
theorem Sections.apply_forces (c : Sections) {q : SectionCue} (hcanvas : q.canvas ≤ 1) (haction : q.action ≤ 1)
    (hsect : q.sect < if q.canvas = 0 then 16 else 64) :
    let i := if q.canvas = 0 then q.sect else 16 + q.sect
    c.apply q = .accepted { c with forced := tset false c.forced i (decide (q.action = 1)) } i := by
  rw [c.apply_inRange hcanvas (by omega) hsect]
  exact if_neg (by omega)

/-- A MAP within its encoding and range is decided by the map (R43). -/
theorem Sections.apply_map (c : Sections) {q : SectionCue} (hcanvas : q.canvas = 1) (haction : q.action = 2)
    (hsect : q.sect < 64) (hsegment : q.segment < 68) : c.apply q = c.remap q.sect q.segment := by
  rw [c.apply_inRange (by omega) (by omega) (by simp [hcanvas, hsect]), if_pos haction, if_neg (by omega)]

/-- A segment that backs no other section is given to the section, whose own segment it may be already (R43). -/
theorem Sections.remap_free (c : Sections) {r g : Nat} (hfree : ∀ q, q < 64 → q ≠ r → c.backing q ≠ g) :
    ∃ d, c.remap r g = .accepted d (16 + r) ∧ d.backing r = g ∧ (∀ q, q ≠ r → d.backing q = c.backing q) ∧
      d.forced = c.forced := by
  unfold Sections.remap
  by_cases hown : c.backing r = g
  · rw [if_pos hown]
    exact ⟨c, rfl, hown, fun _ _ => rfl, rfl⟩
  · have hnone : c.backed g = none := Sections.backed_none.mpr fun q hq => by
      by_cases hqr : q = r
      · rwa [hqr]
      · exact hfree q hq hqr
    rw [if_neg hown, hnone]
    exact ⟨_, rfl, tget_tset_self .., fun q hq => tget_tset_ne _ _ _ _ _ hq, rfl⟩

/-- A segment that backs one other section is in use by it (R43). -/
theorem Sections.remap_inUse (c : Sections) {r g u : Nat} (hu : u < 64) (hback : c.backing u = g)
    (hown : c.backing r ≠ g) (hone : ∀ v, v < 64 → c.backing v = g → v = u) :
    c.remap r g = .refused .inUse (toWord (16 + u)) := by
  unfold Sections.remap
  rw [if_neg hown]
  cases h : c.backed g with
  | none => exact absurd hback (Sections.backed_none.mp h u hu)
  | some v =>
    obtain ⟨hv, hvback⟩ := Sections.backed_some h
    rw [hone v hv hvback]

/-- A card that passes leaves the states in force and the health of segments (R42). -/
theorem Sections.apply_leaves {c d : Sections} {q : SectionCue} {i : Nat} (h : c.apply q = .accepted d i) :
    d.states = c.states ∧ d.health = c.health := by
  rcases Sections.apply_accepted h with rfl | ⟨l, rfl⟩ | ⟨-, -, -, rfl⟩ <;> exact ⟨rfl, rfl⟩

/-! ## The card by itself -/

/-- A refused SET_SECTION card moves its slot alone (R42). -/
theorem State.setSection_refused {s : State} {slot : Nat} {q : SectionCue} {o : CardOutcome} {r : Word}
    (hs : s.ready .plan) (h : s.part.sec.apply q = .refused o r) (post : Word) :
    ∃ t, exec (.setSection slot post q) s = .next t ∧ s.onlyMoved t .plan slot 5 (toWord o.code) r := by
  obtain ⟨hl, hwf, harea⟩ := hs
  have hpart : s.part.whenLive (·.setSection slot q) = s.part.onPort fun _ => s.port.refuse .plan slot o r := by
    unfold Part.whenLive Part.setSection setSectionOp
    rw [if_pos hl]
    dsimp only
    rw [h]
    rfl
  exact ⟨_, State.next_onPart hpart, s.port.refuse_slotMoved .plan slot o r hwf harea, rfl⟩

/-- A SET_SECTION card that passes: its table is taken, the section states settle with their notices, and then its slot is
finished with the state of its section (R41, R42, R44; the order is log entry 26). -/
theorem State.setSection_accepted {s : State} {slot i : Nat} {q : SectionCue} {c : Sections} (hs : s.ready .plan)
    (h : s.part.sec.apply q = .accepted c i) (post : Word) :
    ∃ t, exec (.setSection slot post q) s = .next t ∧ t.part.sec = { c with states := c.newStates } ∧
      s.port.slotReads t.port .plan slot 4 0 s.port.showTick (toWord (c.stateOf i).code) ∧
      (s.port.laid → Port.through (c.noticed false s.part.sec.states ++
        [slotMoves .plan slot 4 0 (toWord (c.stateOf i).code)]) s.port t.port) ∧
      t.part.tb = s.part.tb ∧ t.part.clk = s.part.clk ∧
      t.blk = { s.blk with port := t.port, measures := t.blk.measures } := by
  obtain ⟨hl, hwf, harea⟩ := hs
  have hstates := (Sections.apply_leaves h).1
  generalize hx : ({ s.part with sec := c } : Part) = x
  have hport : x.blk.port = s.port := by rw [← hx]
  have hsec : x.sec = c := by rw [← hx]
  have hpart : s.part.whenLive (·.setSection slot q) =
      x.settleStates.onPort (·.complete .plan slot .ok (toWord (c.stateOf i).code)) := by
    unfold Part.whenLive Part.setSection setSectionOp
    rw [if_pos hl, ← hx]
    dsimp only
    rw [h]
    rfl
  have hthrough := x.settleStates_through
  have hlies : Port.laidAs s.port x.settleStates.blk.port :=
    (closed_laidAs s.port).settleStates x (by rw [hport]; exact ⟨hwf, s.port.sameFixed_refl⟩)
  rw [hport, hsec, hstates] at hthrough
  have hrest := x.settleStates_eq
  generalize x.settleStates = y at hpart hthrough hlies hrest
  obtain ⟨hywf, -, -, htick, hareas, -⟩ := hlies
  have hyarea : 2 ≤ (y.blk.port.area (deskIndex .plan)).first := by
    unfold Port.area at harea ⊢
    rw [hareas]
    exact harea
  have hmoved := y.blk.port.complete_slotMoved .plan slot .ok (toWord (c.stateOf i).code) hywf hyarea
  have hreads := hmoved.1
  unfold Port.slotReads at hreads
  rw [Port.slotAddr_congr hareas, htick] at hreads
  refine ⟨_, State.next_onPart hpart, ?_, hreads, fun hlaid => ?_, ?_, ?_, ?_⟩
  · rw [Part.onPort_sec, hrest, hsec]
  · exact Port.through_append (hthrough hlaid) (Port.through_one hmoved)
  · rw [Part.onPort_tb, hrest, ← hx]
  · rw [Part.onPort_clk, hrest, ← hx]
  · dsimp only [State.blk, State.port]
    rw [Part.onPort_blk, hrest, ← hx]
    rfl

/-- Settles O25: the verdict on the card, and what each verdict does to the part. -/
theorem setSectionForcesOrMaps : Obligations.SetSectionForcesOrMaps := by
  refine ⟨fun slot post q s hs hcanvas hsect haction => ?_, fun slot post q s hs => ⟨fun hfails => ?_, ?_⟩⟩
  · dsimp only
    generalize hi : (if q.canvas = 0 then q.sect else 16 + q.sect) = i
    rcases haction with haction | ⟨haction, hribbon, hsegment, hfree⟩
    · have happly := s.part.sec.apply_forces hcanvas haction hsect
      dsimp only at happly
      rw [hi] at happly
      obtain ⟨t, hexec, hsec, hreads, hthrough, htb, hclk, hblk⟩ := State.setSection_accepted (slot := slot) hs happly post
      refine ⟨t, hexec, ?_⟩
      rw [hsec]
      exact ⟨fun _ => ⟨tget_tset_self .., fun j hj => tget_tset_ne _ _ _ _ _ hj, rfl⟩, fun h => by omega, hreads,
        hthrough, rfl, htb, hclk, hblk⟩
    · rw [hribbon] at hsect
      obtain ⟨d, hremap, hown, hothers, hforced⟩ := s.part.sec.remap_free hfree
      have happly := (s.part.sec.apply_map hribbon haction hsect hsegment).trans hremap
      have hindex : 16 + q.sect = i := by rw [← hi, hribbon]; rfl
      rw [hindex] at happly
      obtain ⟨t, hexec, hsec, hreads, hthrough, htb, hclk, hblk⟩ := State.setSection_accepted (slot := slot) hs happly post
      refine ⟨t, hexec, ?_⟩
      rw [hsec]
      exact ⟨fun h => by omega, fun _ => ⟨hown, hothers, hforced⟩, hreads, hthrough, (Sections.apply_leaves happly).2,
        htb, hclk, hblk⟩
  · exact State.setSection_refused hs (s.part.sec.apply_badField hfails) post
  · intro r hpasses haction hr hback hown hone
    have hrange : q.canvas = 1 ∧ q.sect < 64 ∧ q.segment < 68 := by
      split at hpasses <;> omega
    obtain ⟨hcanvas, hsect, hsegment⟩ := hrange
    have happly := (s.part.sec.apply_map hcanvas haction hsect hsegment).trans
      (s.part.sec.remap_inUse hr hback hown hone)
    exact State.setSection_refused hs happly post

end Sys2Proof.Machine
end


section
/-! PROOFS. The visible area and the base weight of a zone (O26, O27). -/

namespace Sys2Proof.Machine

/-! ## The visible area (R49, R50) -/

/-- A rectangle has a pixel where the pixel's column and row are its own (R14). -/
theorem Rect.hasPixel_iff {r : Rect} {x y : Nat} :
    r.hasPixel x y = true ↔ r.x ≤ x ∧ x < r.x + r.w ∧ r.y ≤ y ∧ y < r.y + r.h := by
  unfold Rect.hasPixel
  simp only [Bool.and_eq_true, decide_eq_true_eq, and_assoc]

/-- Two rectangles overlap where both their columns and their rows do (R14). -/
theorem Rect.overlaps_iff {a b : Rect} : a.overlaps b = true ↔
    a.x < b.x + b.w ∧ b.x < a.x + a.w ∧ a.y < b.y + b.h ∧ b.y < a.y + a.h := by
  unfold Rect.overlaps
  simp only [Bool.and_eq_true, decide_eq_true_eq, and_assoc]

/-- The pixels of a rectangle, as a set. -/
def Rect.pixels (r : Rect) : Finset (Nat × Nat) := Finset.Ico r.x (r.x + r.w) ×ˢ Finset.Ico r.y (r.y + r.h)

theorem Rect.mem_pixels {r : Rect} {q : Nat × Nat} : q ∈ r.pixels ↔ r.hasPixel q.1 q.2 = true := by
  unfold Rect.pixels
  rw [Rect.hasPixel_iff, Finset.mem_product, Finset.mem_Ico, Finset.mem_Ico]
  tauto

theorem Rect.card_pixels (r : Rect) : r.pixels.card = r.area := by simp [Rect.pixels, Rect.area]

/-- A pixel lies in none of some rectangles. -/
def clearOf (cs : List Rect) (q : Nat × Nat) : Bool := cs.all fun c => !c.hasPixel q.1 q.2

theorem clearOf_cons {c : Rect} {cs : List Rect} {q : Nat × Nat} :
    clearOf (c :: cs) q = true ↔ ¬c.hasPixel q.1 q.2 = true ∧ clearOf cs q = true := by
  simp [clearOf]

/-- How many pixels of a rectangle lie in none of some others. -/
def Rect.clearPixels (cs : List Rect) (r : Rect) : Nat := (r.pixels.filter fun q => clearOf cs q = true).card

/-- The four strips that a rectangle cut out of another leaves share no pixel, and together have those of the one that
are not of the other. -/
theorem Rect.clearPixels_minus (cs : List Rect) (a b : Rect) :
    ((a.minus b).map (Rect.clearPixels cs)).sum = Rect.clearPixels (b :: cs) a := by
  unfold Rect.minus
  split
  case isTrue hover =>
    rw [Rect.overlaps_iff] at hover
    simp only [List.map_cons, List.map_nil, List.sum_cons, List.sum_nil, Nat.add_zero, Rect.clearPixels]
    rw [← Finset.card_union_of_disjoint, ← Finset.card_union_of_disjoint, ← Finset.card_union_of_disjoint]
    · congr 1
      ext q
      simp only [Finset.mem_union, Finset.mem_filter, Rect.mem_pixels, clearOf_cons, Rect.hasPixel_iff]
      by_cases hothers : clearOf cs q = true
      · simp only [hothers, and_true]
        omega
      · simp [hothers]
    all_goals
      rw [Finset.disjoint_left]
      simp only [Finset.mem_union, Finset.mem_filter, Rect.mem_pixels, Rect.hasPixel_iff]
      omega
  case isFalse hover =>
    rw [Rect.overlaps_iff] at hover
    simp only [List.map_cons, List.map_nil, List.sum_cons, List.sum_nil, Nat.add_zero, Rect.clearPixels]
    refine congrArg Finset.card (Finset.filter_congr fun q hq => ?_)
    rw [Rect.mem_pixels, Rect.hasPixel_iff] at hq
    have hmiss : b.hasPixel q.1 q.2 = false := by
      rw [← Bool.not_eq_true, Rect.hasPixel_iff]
      omega
    simp [clearOf, hmiss]

/-- The rectangles left when covers are taken away one after another have together the pixels that lie in none of them. -/
theorem area_uncovered (cs rs : List Rect) :
    ((uncovered rs cs).map Rect.area).sum = (rs.map (Rect.clearPixels cs)).sum := by
  induction cs generalizing rs with
  | nil =>
    refine congrArg List.sum (List.map_congr_left fun r _ => ?_)
    simp [Rect.clearPixels, clearOf, Rect.card_pixels]
  | cons c cs ih =>
    calc ((uncovered (rs.flatMap (·.minus c)) cs).map Rect.area).sum
        = ((rs.flatMap (·.minus c)).map (Rect.clearPixels cs)).sum := ih _
      _ = (rs.map fun r => ((r.minus c).map (Rect.clearPixels cs)).sum).sum := by
        rw [List.map_flatMap, List.flatMap_def, List.sum_flatten, List.map_map]; rfl
      _ = (rs.map (Rect.clearPixels (c :: cs))).sum := by simp only [Rect.clearPixels_minus]

/-- The visible pixels of a rectangle are those that lie in none of the covers, each counted once (R50). -/
theorem visiblePixels_eq (r : Rect) (cs : List Rect) : visiblePixels r cs = r.clearPixels cs := by
  unfold visiblePixels
  rw [area_uncovered, List.map_singleton, List.sum_singleton]

/-- A pixel is clear of what hides a zone where no zone that covers it and no unusable section of its canvas has it
(R49, R50). -/
theorem clearOf_hiddenRegions (zones : List ZoneRun) (z : ZoneRun) (unusable : Canvas → List Rect) (q : Nat × Nat) :
    clearOf (hiddenRegions zones z unusable) q = true ↔
      (∀ y ∈ zones, covers y z = true → y.zone.rect.hasPixel q.1 q.2 = false) ∧
      ∀ u ∈ unusable z.zone.canvas, u.hasPixel q.1 q.2 = false := by
  simp [clearOf, hiddenRegions, ← Bool.not_eq_true, imp_iff_not_or]

/-- Settles O26: taking the covers away one after another leaves rectangles that share no pixel. -/
theorem visibleAreaCountsPixels : Obligations.VisibleAreaCountsPixels := by
  intro th zones unusable z r
  show visiblePixels r (hiddenRegions zones z unusable) = _
  rw [visiblePixels_eq]
  exact congrArg Finset.card (Finset.filter_congr fun q _ => clearOf_hiddenRegions zones z unusable q)

/-! ## The base weight (R53) -/

/-- Below F a zone weighs nothing (R53). -/
theorem baseWeight_below {th : Thresholds} {p : Nat} (h : p < th.floor) (ht : th.floor < th.full) :
    baseWeight th p = 0 := by
  unfold baseWeight
  rw [if_neg (by omega), if_pos h]

/-- From U on it weighs 256 (R53). -/
theorem baseWeight_full {th : Thresholds} {p : Nat} (h : th.full ≤ p) : baseWeight th p = 256 := if_pos h

/-- Between F and U its weight is its share of the way from one to the other (R53). -/
theorem baseWeight_between {th : Thresholds} {p : Nat} (hF : th.floor ≤ p) (hU : p < th.full) :
    baseWeight th p = 256 * (p - th.floor) / (th.full - th.floor) := by
  unfold baseWeight
  rw [if_neg (by omega), if_neg (by omega)]

/-- Short of U it weighs at most 255 (R53). -/
theorem baseWeight_le_255 {th : Thresholds} {p : Nat} (ht : th.floor < th.full) (h : p < th.full) :
    baseWeight th p ≤ 255 := by
  rcases Nat.lt_or_ge p th.floor with hF | hF
  · rw [baseWeight_below hF ht]; omega
  · rw [baseWeight_between hF h, ← Nat.lt_succ_iff, Nat.div_lt_iff_lt_mul (by omega)]
    omega

theorem baseWeight_le_256 {th : Thresholds} (ht : th.floor < th.full) (p : Nat) : baseWeight th p ≤ 256 := by
  rcases Nat.lt_or_ge p th.full with hU | hU
  · have := baseWeight_le_255 ht hU; omega
  · rw [baseWeight_full hU]

/-- The base weight never falls as the permille rises (R53). -/
theorem baseWeight_mono {th : Thresholds} (ht : th.floor < th.full) {p q : Nat} (h : p ≤ q) :
    baseWeight th p ≤ baseWeight th q := by
  rcases Nat.lt_or_ge p th.floor with hF | hF
  · rw [baseWeight_below hF ht]; exact Nat.zero_le _
  · rcases Nat.lt_or_ge q th.full with hU | hU
    · rw [baseWeight_between hF (by omega), baseWeight_between (by omega) hU]
      exact Nat.div_le_div_right (by omega)
    · rw [baseWeight_full hU]; exact baseWeight_le_256 ht p

/-- Settles O27: the weight below F, between F and U, and from U on. -/
theorem baseWeightRisesWithVisibility : Obligations.BaseWeightRisesWithVisibility := fun _ _ q ht hpq =>
  ⟨baseWeight_mono ht hpq, baseWeight_le_256 ht q, fun h => baseWeight_below h ht, baseWeight_full,
    baseWeight_le_255 ht⟩

end Sys2Proof.Machine
end


section
/-! PROOFS. Airings that are due, and the credit of a frame (O36). -/

namespace Sys2Proof.Machine

/-! ## Airings that are due (R75, R76) -/

/-- An airing is due for DWELL at D credited frames in SEEN, and at D shown frames in ON_AIR (R75). -/
theorem Airing.due_dwell (a : Airing) : (a.due == some .dwell) =
    if a.seen then decide (a.dwell ≤ a.credited) else decide (a.dwell ≤ a.shown) := by
  unfold Airing.due
  cases a.seen with
  | true =>
    by_cases hcredited : a.dwell ≤ a.credited
    · simp [hcredited]
    · by_cases hshown : 3 * a.dwell ≤ a.shown <;> simp [hcredited, hshown]
  | false => by_cases hshown : a.dwell ≤ a.shown <;> simp [hshown]

/-- An airing is due for HOLD_LIMIT in SEEN alone, short of D credited frames, at 3 × D shown frames (R75). -/
theorem Airing.due_holdLimit (a : Airing) : (a.due == some .holdLimit) =
    (a.seen && decide (a.credited < a.dwell) && decide (3 * a.dwell ≤ a.shown)) := by
  unfold Airing.due
  cases a.seen with
  | true =>
    by_cases hcredited : a.dwell ≤ a.credited
    · simp [hcredited, Nat.not_lt.mpr hcredited]
    · by_cases hshown : 3 * a.dwell ≤ a.shown <;> simp [hcredited, hshown, Nat.lt_of_not_le]
  | false => by_cases hshown : a.dwell ≤ a.shown <;> simp [hshown]

/-- On a live part the airings of a zone that are due for a reason leave the open airings, and the log takes the record of
one that so leaves (R75, R76, R79). -/
theorem State.endDue_ends {s : State} (hs : s.ready .rotation) (reason : AiringEnd) (zone : Nat) {test : Airing → Bool}
    (htest : ∀ a, (a.zone == zone && a.due == some reason) = test a) :
    ∃ t, (.next (s.onPart (·.whenLive (·.onBlk (·.endDue reason zone)))) : Answer) = .next t ∧
      t.blk.rot.airings = (s.blk.rot.airings.filter fun a => !test a) ∧
      (s.blk.rot.airings.filter test = [] → t.port = s.port) ∧
      (∀ a, s.blk.rot.airings.filter test = [a] → ∀ x, s.blk.rot.entry a.entry = some x →
        2 ≤ (s.port.area 7).first → 2 ≤ (s.port.area 8).first →
        s.port.recordTaken t.port
          { kind := 1, endCode := reason.code, place := a.zone, group := a.group, entry := a.entry, slot := x.image
            start := a.start, stop := s.port.showTick, shown := a.shown, credited := a.credited
            credits := a.credits, number := toWord a.number }) ∧
      t = s.onPart (·.onBlk fun b => { b with port := t.port
                                              rot := { b.rot with airings := t.blk.rot.airings } }) := by
  obtain ⟨hlive, hwf, -⟩ := hs
  have hdue : s.blk.endDue reason zone = s.blk.endAirings test reason := congrArg (s.blk.endAirings · reason) (funext htest)
  have hpart : s.part.whenLive (·.onBlk (·.endDue reason zone)) = { s.part with blk := s.blk.endAirings test reason } := by
    rw [← hdue]
    exact if_pos hlive
  have hport : (s.blk.endAirings test reason).port = (sortBy (·.zone) (s.blk.rot.airings.filter test)).foldl
    (fun p a => p.log (airingRecord s.blk.rot reason p.showTick a)) s.port := rfl
  refine ⟨{ s with part := _ }, State.next_onPart hpart, rfl, fun hnone => ?_, fun a hone x hx hlog hnotices => ?_, rfl⟩
  · exact hport.trans (by rw [hnone]; rfl)
  · have hrecord : airingRecord s.blk.rot reason s.port.showTick a =
        { kind := 1, endCode := reason.code, place := a.zone, group := a.group, entry := a.entry, slot := x.image
          start := a.start, stop := s.port.showTick, shown := a.shown, credited := a.credited
          credits := a.credits, number := toWord a.number } := by unfold airingRecord; rw [hx]; rfl
    have hlogged : (s.blk.endAirings test reason).port = s.port.log (airingRecord s.blk.rot reason s.port.showTick a) :=
      hport.trans (by rw [hone]; rfl)
    rw [← hrecord]
    show s.port.recordTaken (s.blk.endAirings test reason).port _
    rw [hlogged]
    exact s.port.log_recordTaken _ hwf hlog hnotices

/-! ## One entry's counting of a frame (R58, R66, R78) -/

theorem Blocks.putEntry_entry (b : Blocks) (e : Nat) (x : Entry) (f : Nat) :
    (b.putEntry e x).rot.entry f = if f = e then some x else b.rot.entry f := tget_tset ..

theorem Blocks.putEntry_edits (b : Blocks) (e : Nat) (x : Entry) {f : Nat} (h : f ≠ e) :
    tget 0 (b.putEntry e x).rot.edits f = tget 0 b.rot.edits f := tget_tset_ne _ _ _ _ _ h

section PutEntry

variable (b : Blocks) (e : Nat) (x : Entry)

@[simp] theorem Blocks.putEntry_airings : (b.putEntry e x).rot.airings = b.rot.airings := by
  unfold Blocks.putEntry Blocks.writeMeter; rfl
@[simp] theorem Blocks.putEntry_lanes : (b.putEntry e x).lanes = b.lanes := by
  unfold Blocks.putEntry Blocks.writeMeter; rfl
@[simp] theorem Blocks.putEntry_comp : (b.putEntry e x).comp = b.comp := by
  unfold Blocks.putEntry Blocks.writeMeter; rfl
@[simp] theorem Blocks.putEntry_showTick : (b.putEntry e x).port.showTick = b.port.showTick := by
  unfold Blocks.putEntry
  rw [Blocks.writeMeter_port, Blocks.onRot_port]

end PutEntry

/-- The writing of an entry that takes new values (R66). -/
theorem Blocks.putEntry_written (b : Blocks) (e : Nat) (x : Entry) (h : b.port.laid) :
    meterWritten e (tget 0 b.rot.edits e + 2) (some x) b.port (b.putEntry e x).port :=
  (b.onRot (·.setEntry e (some x))).writeMeter_set e x h.1

/-- What the counting of a frame does to the Port for one entry: the entry is written where it changes, and QUOTA_MET
follows where its meter crosses zero (R66, R78). -/
def Blocks.creditChanges (n c : Nat → Nat) (b : Blocks) (e : Nat) : List PortChange :=
  match b.rot.entry e with
  | none => []
  | some x =>
    if x.credit (n e) (c e) = x then []
    else meterWritten e (tget 0 b.rot.edits e + 2) (some (x.credit (n e) (c e))) ::
      if x.meter < 0 ∧ 0 ≤ (x.credit (n e) (c e)).meter then [noticed 4 e b.port.showTick] else []

section CreditEntry

variable (n c : Nat → Nat) (b : Blocks) (e : Nat)

/-- An UNSET entry, or one that no value changes of, is left as it is (R66). -/
theorem Blocks.creditEntry_fixed (h : ∀ x, b.rot.entry e = some x → x.credit (n e) (c e) = x) :
    b.creditEntry n c e = b := by
  unfold Blocks.creditEntry
  cases hx : b.rot.entry e with
  | none => rfl
  | some x => exact if_pos (h x hx)

/-- A SET entry that changes is written, and QUOTA_MET follows where its meter crosses zero (R66, R78). -/
theorem Blocks.creditEntry_moved {x y : Entry} (hx : b.rot.entry e = some x) (hy : x.credit (n e) (c e) = y)
    (h : y ≠ x) : b.creditEntry n c e = (b.putEntry e y).onPort fun p =>
      if x.meter < 0 ∧ 0 ≤ y.meter then p.notice .quotaMet e p.showTick else p := by
  unfold Blocks.creditEntry
  rw [hx]
  dsimp only
  rw [hy, if_neg h]
  split <;> rfl

/-- An entry is left as it is, or is written with new values. -/
theorem Blocks.creditEntry_cases : b.creditEntry n c e = b ∧ (∀ x, b.rot.entry e = some x → x.credit (n e) (c e) = x) ∨
    ∃ x y, b.rot.entry e = some x ∧ x.credit (n e) (c e) = y ∧ y ≠ x ∧
      b.creditEntry n c e = (b.putEntry e y).onPort fun p =>
        if x.meter < 0 ∧ 0 ≤ y.meter then p.notice .quotaMet e p.showTick else p := by
  by_cases h : ∀ x, b.rot.entry e = some x → x.credit (n e) (c e) = x
  · exact .inl ⟨b.creditEntry_fixed n c e h, h⟩
  · push Not at h
    obtain ⟨x, hx, hne⟩ := h
    exact .inr ⟨x, _, hx, rfl, hne, b.creditEntry_moved n c e hx rfl hne⟩

/-- It takes the entry's new values and leaves every other entry alone. -/
theorem Blocks.creditEntry_entry (f : Nat) : (b.creditEntry n c e).rot.entry f =
    if f = e then (b.rot.entry e).map fun x => x.credit (n e) (c e) else b.rot.entry f := by
  obtain ⟨hfixed, hsame⟩ | ⟨x, y, hx, hy, -, hmoved⟩ := b.creditEntry_cases n c e
  · rw [hfixed]
    by_cases hf : f = e
    · rw [if_pos hf, hf]
      cases hx : b.rot.entry e with
      | none => rfl
      | some x => rw [Option.map_some, hsame x hx]
    · rw [if_neg hf]
  · rw [hmoved, Blocks.onPort_rot, Blocks.putEntry_entry, hx, Option.map_some, hy]

/-- It leaves the edit count of every other entry alone. -/
theorem Blocks.creditEntry_edits {f : Nat} (h : f ≠ e) :
    tget 0 (b.creditEntry n c e).rot.edits f = tget 0 b.rot.edits f := by
  obtain ⟨hfixed, -⟩ | ⟨x, y, -, -, -, hmoved⟩ := b.creditEntry_cases n c e
  · rw [hfixed]
  · rw [hmoved, Blocks.onPort_rot, b.putEntry_edits e y h]

/-- It leaves the airings, the Lanes and the Compositor alone. -/
theorem Blocks.creditEntry_kept :
    ((b.creditEntry n c e).rot.airings, (b.creditEntry n c e).lanes, (b.creditEntry n c e).comp) =
      (b.rot.airings, b.lanes, b.comp) := by
  obtain ⟨hfixed, -⟩ | ⟨x, y, -, -, -, hmoved⟩ := b.creditEntry_cases n c e
  · rw [hfixed]
  · simp [hmoved]

theorem Blocks.creditEntry_showTick : (b.creditEntry n c e).port.showTick = b.port.showTick := by
  obtain ⟨-, -, htick, -⟩ := (closed_sameFixed b.port).creditEntry n c b e b.port.sameFixed_refl
  exact htick

/-- It goes through its changes of the Port. -/
theorem Blocks.creditEntry_through (h : b.port.laid) :
    Port.through (b.creditChanges n c e) b.port (b.creditEntry n c e).port := by
  obtain ⟨hfixed, hsame⟩ | ⟨x, y, hx, hy, hne, hmoved⟩ := b.creditEntry_cases n c e
  · have hnone : b.creditChanges n c e = [] := by
      unfold Blocks.creditChanges
      cases hx : b.rot.entry e with
      | none => rfl
      | some x => exact if_pos (hsame x hx)
    rw [hfixed, hnone]
    rfl
  · have hchanges : b.creditChanges n c e = meterWritten e (tget 0 b.rot.edits e + 2) (some y) ::
        if x.meter < 0 ∧ 0 ≤ y.meter then [noticed 4 e b.port.showTick] else [] := by
      unfold Blocks.creditChanges
      rw [hx]
      dsimp only
      rw [hy, if_neg hne]
    rw [hmoved, hchanges]
    refine ⟨_, b.putEntry_written e y h, ?_⟩
    rw [Blocks.onPort_port, Blocks.putEntry_showTick]
    split
    · exact Port.through_one ((b.putEntry e y).port.notice_noticed .quotaMet e _ (closed_laid.putEntry b e y h))
    · exact Port.through_nil _

/-- The changes of another entry are those it had. -/
theorem Blocks.creditChanges_creditEntry {f : Nat} (h : f ≠ e) :
    (b.creditEntry n c e).creditChanges n c f = b.creditChanges n c f := by
  unfold Blocks.creditChanges
  rw [b.creditEntry_entry n c e f, if_neg h, b.creditEntry_edits n c e h, b.creditEntry_showTick n c e]

end CreditEntry

/-! ## The entries counted one after another (log entry 8) -/

section CreditEntries

variable (n c : Nat → Nat)

/-- Each entry of a list takes its new values, and every other entry stays. -/
theorem Blocks.creditEntries_entry {l : List Nat} (hl : l.Nodup) (b : Blocks) (f : Nat) :
    (l.foldl (Blocks.creditEntry n c) b).rot.entry f =
      if f ∈ l then (b.rot.entry f).map fun x => x.credit (n f) (c f) else b.rot.entry f := by
  induction l generalizing b with
  | nil => rfl
  | cons e l ih =>
    obtain ⟨he, hl⟩ := List.nodup_cons.mp hl
    rw [List.foldl_cons, ih hl, b.creditEntry_entry n c e f]
    by_cases hf : f = e
    · subst hf; simp [he]
    · simp [hf]

/-- The Port goes through the changes of each entry in its turn. -/
theorem Blocks.creditEntries_through {l : List Nat} (hl : l.Nodup) (b : Blocks) (h : b.port.laid) :
    Port.through (l.flatMap (b.creditChanges n c)) b.port (l.foldl (Blocks.creditEntry n c) b).port := by
  induction l generalizing b with
  | nil => rfl
  | cons e l ih =>
    obtain ⟨he, hl⟩ := List.nodup_cons.mp hl
    have hrest := ih hl (b.creditEntry n c e) (closed_laid.creditEntry n c b e h)
    have hsame : l.flatMap ((b.creditEntry n c e).creditChanges n c) = l.flatMap (b.creditChanges n c) :=
      List.flatMap_congr fun f hf => b.creditChanges_creditEntry n c e fun hfe => he (hfe ▸ hf)
    rw [hsame] at hrest
    rw [List.flatMap_cons]
    exact Port.through_append (b.creditEntry_through n c e h) hrest

end CreditEntries

/-! ## The credit of a frame (R54, R57, R58, R74, R165) -/

/-- The weight a pass earns in a frame: that of its lane, nothing where no entry earns its frames (R165). -/
def Blocks.passWeight (b : Blocks) (p : Pass) : Nat :=
  if (b.lanes.earner p).isSome then b.laneWeight p.lane else 0

/-- How many airings of an entry are shown in a frame (R74). -/
def Blocks.shownAirings (b : Blocks) (e : Nat) : Nat :=
  (b.rot.airings.filter fun a => a.entry == e && b.airingShown a).length

/-- The credit an entry has of a frame: the weights of its airings and of the passes whose frames it earns (R58). -/
def Blocks.frameCredit (b : Blocks) (e : Nat) : Nat :=
  ((b.rot.airings.filter fun a => a.entry == e).map b.airingWeight).sum +
    ((b.lanes.passes.filter fun p => b.lanes.earner p == some e).map b.passWeight).sum

/-- The blocks with the frame counted by the passes and the airings, and by no entry yet. -/
def Blocks.countAirings (b : Blocks) : Blocks :=
  b.countPasses.onRot fun r =>
    { r with airings := r.airings.map fun a => a.count (b.airingShown a) (b.airingWeight a) }

/-- The credit that the Lanes hand for an entry is that of the passes whose frames it earns (R57, R165). -/
theorem Blocks.sum_laneCredit (b : Blocks) (e : Nat) : ((b.laneCredit.filter fun m => m.1 == e).map (·.2)).sum =
    ((b.lanes.passes.filter fun p => b.lanes.earner p == some e).map b.passWeight).sum := by
  unfold Blocks.laneCredit
  induction b.lanes.passes with
  | nil => rfl
  | cons p l ih =>
    cases hp : b.lanes.earner p with
    | none => simpa [hp] using ih
    | some f => by_cases hf : f = e <;> simpa [hp, hf, Blocks.passWeight] using ih

/-- The credit of a frame is the counting of the passes and the airings, then that of the entries by rising id. -/
theorem Blocks.credit_eq (b : Blocks) : b.credit =
    (List.range 128).foldl (Blocks.creditEntry b.shownAirings b.frameCredit) b.countAirings := by
  have hshown : b.shownAirings = fun e => ((b.rot.airings.map fun a => (a.entry, b.airingShown a, b.airingWeight a)).filter
      fun m => m.1 == e && m.2.1).length := by
    funext e
    rw [List.filter_map, List.length_map]
    rfl
  have hcredit : b.frameCredit = fun e => (((b.rot.airings.map fun a => (a.entry, b.airingShown a, b.airingWeight a)).filter
      fun m => m.1 == e).map (·.2.2)).sum + ((b.laneCredit.filter fun m => m.1 == e).map (·.2)).sum := by
    funext e
    rw [b.sum_laneCredit, List.filter_map, List.map_map]
    rfl
  rw [hshown, hcredit]
  rfl

/-- Every entry takes its credit of a frame. -/
theorem Blocks.credit_entry (b : Blocks) (e : Nat) : b.credit.rot.entry e =
    if e < 128 then (b.rot.entry e).map fun x => x.credit (b.shownAirings e) (b.frameCredit e) else b.rot.entry e := by
  rw [b.credit_eq, Blocks.creditEntries_entry _ _ List.nodup_range]
  simp only [List.mem_range]
  rfl

/-- The Port goes through the changes of every entry, by rising id (log entry 8). -/
theorem Blocks.credit_through (b : Blocks) (h : b.port.laid) :
    Port.through ((List.range 128).flatMap (b.creditChanges b.shownAirings b.frameCredit)) b.port b.credit.port := by
  rw [b.credit_eq]
  exact Blocks.creditEntries_through _ _ List.nodup_range b.countAirings h

/-- The counting of the entries leaves the airings, the Lanes and the Compositor as the frame's own counting leaves them. -/
theorem Blocks.credit_kept (b : Blocks) : (b.credit.rot.airings, b.credit.lanes, b.credit.comp) =
    (b.countAirings.rot.airings, b.countAirings.lanes, b.countAirings.comp) := by
  rw [b.credit_eq]
  exact foldl_kept (fun b : Blocks => (b.rot.airings, b.lanes, b.comp))
    (Blocks.creditEntry b.shownAirings b.frameCredit) (fun d e => d.creditEntry_kept _ _ e) (List.range 128) b.countAirings

/-! ## The weights of a frame (R54, R74) -/

/-- An entry's values after a frame, with the ceilings of meter and count (R58, R74). -/
theorem Entry.credit_eq (x : Entry) (n c : Nat) : x.credit n c =
    { x with meter := min 2147483647 (x.meter + c), onAir := min 4294967295 (x.onAir + n) } := by
  have hmeter : (if Config.meterTop < x.meter + c then Config.meterTop else x.meter + c) =
      min 2147483647 (x.meter + c) := by unfold Config.meterTop; split <;> omega
  have honAir : capAt Config.countTop (x.onAir + n) = min 4294967295 (x.onAir + n) := by
    unfold capAt Config.countTop; split <;> omega
  unfold Entry.credit
  rw [hmeter, honAir]

/-- While the part is RUNNING a zone weighs its base weight where it is SHOWN and has not yielded (R54). -/
theorem Blocks.weight_running {b : Blocks} (h : b.port.runState = .running) (z : ZoneRun) :
    b.weight z = if z.vis = .shown ∧ z.yielded = false then b.baseOf z.zone.id else 0 := by
  have hrunning : b.port.running = true := by unfold Port.running; rw [h]; rfl
  unfold Blocks.weight
  simp [hrunning]

/-- A zone that is drawn is not HIDDEN and has not yielded (R29). -/
theorem ZoneRun.drawn_eq (z : ZoneRun) : z.drawn = (z.vis != Visibility.hidden && !z.yielded) := by
  unfold ZoneRun.drawn
  cases z.vis <;> rfl

/-- A zone that is not drawn weighs nothing (R54). -/
theorem Blocks.weight_of_drawn (b : Blocks) (z : ZoneRun) : (if z.drawn then b.weight z else 0) = b.weight z := by
  unfold Blocks.weight ZoneRun.drawn
  cases z.vis <;> cases z.yielded <;> simp [Visibility.drawn]

/-- Settles O36: the airings due for a reason, and the credit of a frame. -/
theorem dwellAndHoldLimitEndTheAiring : Obligations.DwellAndHoldLimitEndTheAiring := by
  refine ⟨fun zone s hs => ⟨?_, ?_⟩, fun b hrun => ?_⟩
  · exact State.endDue_ends hs .dwell zone fun a => by rw [a.due_dwell]
  · exact State.endDue_ends hs .holdLimit zone fun a => by rw [a.due_holdLimit, ← Bool.and_assoc, ← Bool.and_assoc]
  · intro weight w seen earns v after
    have hweight : weight = b.weight := funext fun z => (Blocks.weight_running hrun z).symm
    have hw : w = b.airingWeight := by
      funext a
      dsimp only [w]
      unfold Blocks.airingWeight Blocks.airingZone
      cases b.comp.zone a.zone with
      | none => rfl
      | some z => rw [hweight]; exact (b.weight_of_drawn z).symm
    have hseen : seen = b.airingShown := by
      funext a
      dsimp only [seen]
      unfold Blocks.airingShown Blocks.airingZone
      cases b.comp.zone a.zone with
      | none => rfl
      | some z => exact z.drawn_eq.symm
    have hv : v = b.passWeight := by
      funext p
      dsimp only [v]
      unfold Blocks.passWeight Blocks.laneWeight
      rw [← hweight]
      rfl
    have hafter : after = fun e x => x.credit (b.shownAirings e) (b.frameCredit e) := by
      funext e x
      rw [Entry.credit_eq]
      unfold Blocks.shownAirings Blocks.frameCredit
      rw [← hw, ← hseen, ← hv]
      rfl
    clear_value after
    subst hafter
    clear_value v seen w
    subst hv hw hseen
    have hkept := b.credit_kept
    rw [Prod.mk.injEq, Prod.mk.injEq] at hkept
    obtain ⟨hairings, hlanes, hcomp⟩ := hkept
    refine ⟨fun e x he hx => ?_, fun hlaid => ?_, fun e he => ?_, hairings, ?_, ?_, hcomp⟩
    · rw [b.credit_entry, if_pos he, hx]; rfl
    · refine (congrArg (Port.through · b.port b.credit.port) (List.flatMap_congr fun e _ => ?_)).mp (b.credit_through hlaid)
      unfold Blocks.creditChanges
      cases b.rot.entry e <;> rfl
    · rw [b.credit_entry, he]; simp
    · rw [hlanes]; rfl
    · rw [hlanes]; rfl

end Sys2Proof.Machine
end


section
/-! PROOFS. The choice of a zone that selects (O37). -/

namespace Sys2Proof.Machine

/-! ## The search of a group's list (R70, R71) -/

/-- The position that a search of a group's list meets at place `k`, from the one behind the cursor on (R71). -/
def Group.searchPlace (g : Group) (k : Nat) : Nat :=
  ((match g.cursor with | none => 0 | some c => c + 1) + k) % g.ids.length

/-- A search meets the places of the list in turn (R71). -/
theorem searchOrder_eq (g : Group) : searchOrder g = (List.range g.ids.length).map g.searchPlace := by
  unfold searchOrder Group.searchPlace
  cases g.cursor with
  | some c => rfl
  | none =>
    have hplace : ∀ k ∈ List.range g.ids.length, (0 + k) % g.ids.length = k := fun k hk => by
      rw [Nat.zero_add, Nat.mod_eq_of_lt (List.mem_range.mp hk)]
    rw [List.map_congr_left hplace, List.map_id']

/-- The search meets every position of the list, and no other (R71). -/
theorem mem_searchOrder (g : Group) (i : Nat) : i ∈ searchOrder g ↔ i < g.ids.length := by
  rw [searchOrder_eq, List.mem_map]
  simp only [List.mem_range]
  constructor
  · rintro ⟨k, hk, rfl⟩
    exact Nat.mod_lt _ (by omega)
  · intro hi
    unfold Group.searchPlace
    generalize (match g.cursor with | none => 0 | some c => c + 1) = start
    generalize g.ids.length = n at hi
    have hlt := Nat.mod_lt start (show 0 < n by omega)
    have hround : start + (i + (n - start % n)) = i + n * (start / n + 1) := by
      have := Nat.div_add_mod start n
      rw [Nat.mul_add]
      omega
    exact ⟨(i + (n - start % n)) % n, Nat.mod_lt _ (by omega), by
      rw [Nat.add_mod_mod, hround, Nat.add_mul_mod_self_left, Nat.mod_eq_of_lt hi]⟩

/-- The position chosen is that of the largest need, the first met among equals (R71). -/
theorem Rotator.choose_eq_argmax (r : Rotator) (excluded : List Nat) (g : Group) : r.choose excluded g =
    ((searchOrder g).filter fun i => r.eligible excluded (tget 0 g.ids i)).argmax fun i => r.needOf (tget 0 g.ids i) := by
  have hbetter : betterOf r g.ids =
      List.argAux fun i j => r.needOf (tget 0 g.ids j) < r.needOf (tget 0 g.ids i) := by
    funext best i
    cases best <;> rfl
  unfold Rotator.choose List.argmax
  rw [hbetter]

/-- What stands before the first largest is smaller. -/
theorem argmax_first {f : Nat → Nat} {l : List Nat} {m : Nat} (h : l.argmax f = some m) :
    ∃ pre post, l = pre ++ m :: post ∧ ∀ a ∈ pre, f a < f m := by
  obtain ⟨pre, post, rfl, hm⟩ := List.eq_append_cons_of_mem (List.argmax_mem h)
  refine ⟨pre, post, rfl, fun a ha => Nat.lt_of_not_le fun hle => ?_⟩
  have hidx := List.index_of_argmax h (List.mem_append_left _ ha) hle
  rw [List.idxOf_append_of_notMem hm, List.idxOf_cons_self, List.idxOf_append_of_mem ha] at hidx
  have := List.idxOf_lt_length_of_mem ha
  omega

section Choose

variable {r : Rotator} {excluded : List Nat} {g : Group} {i : Nat}

/-- The position chosen is one of the list, eligible and of the largest need (R71). -/
theorem Rotator.choose_some (h : r.choose excluded g = some i) :
    i < g.ids.length ∧ r.eligible excluded (tget 0 g.ids i) = true ∧
    ∀ j, j < g.ids.length → r.eligible excluded (tget 0 g.ids j) = true →
      r.needOf (tget 0 g.ids j) ≤ r.needOf (tget 0 g.ids i) := by
  rw [Rotator.choose_eq_argmax] at h
  obtain ⟨hi, heligible⟩ := List.mem_filter.mp (List.argmax_mem h)
  exact ⟨(mem_searchOrder g i).mp hi, heligible, fun j hj hel =>
    List.le_of_mem_argmax (f := fun i => r.needOf (tget 0 g.ids i))
      (List.mem_filter.mpr ⟨(mem_searchOrder g j).mpr hj, hel⟩) h⟩

/-- None is chosen exactly where none is eligible (R71). -/
theorem Rotator.choose_none : r.choose excluded g = none ↔
    ∀ j, j < g.ids.length → r.eligible excluded (tget 0 g.ids j) = false := by
  rw [Rotator.choose_eq_argmax, List.argmax_eq_none, List.filter_eq_nil_iff]
  simp only [mem_searchOrder, Bool.not_eq_true]

/-- The position chosen is met before every other eligible one of its need (R71). -/
theorem Rotator.choose_first (h : r.choose excluded g = some i) :
    ∃ k, k < g.ids.length ∧ i = g.searchPlace k ∧
      ∀ j, j < k → r.eligible excluded (tget 0 g.ids (g.searchPlace j)) = true →
        r.needOf (tget 0 g.ids (g.searchPlace j)) < r.needOf (tget 0 g.ids i) := by
  rw [Rotator.choose_eq_argmax] at h
  obtain ⟨pre, post, hsplit, hless⟩ := argmax_first h
  obtain ⟨before, rest, horder, hpre, hrest⟩ := List.filter_eq_append_iff.mp hsplit
  obtain ⟨skipped, behind, rfl, hskip, -, -⟩ := List.filter_eq_cons_iff.mp hrest
  rw [searchOrder_eq, ← List.append_assoc] at horder
  have hmet : ∀ j, ((List.range g.ids.length).map g.searchPlace)[j]? =
      if j < g.ids.length then some (g.searchPlace j) else none := fun j => by
    by_cases hj : j < g.ids.length <;> simp [hj]
  have hk := hmet (before ++ skipped).length
  rw [horder, List.getElem?_append_right (Nat.le_refl _), Nat.sub_self] at hk
  have hlen : (before ++ skipped).length < g.ids.length := by
    have := congrArg List.length horder
    rw [List.length_map, List.length_range, List.length_append, List.length_cons] at this
    omega
  rw [if_pos hlen] at hk
  refine ⟨_, hlen, by simpa using hk, fun j hj hel => hless _ ?_⟩
  have hplace := hmet j
  rw [horder, List.getElem?_append_left hj, if_pos (by omega)] at hplace
  rcases List.mem_append.mp (List.mem_of_getElem? hplace) with hin | hin
  · rw [← hpre]
    exact List.mem_filter.mpr ⟨hin, hel⟩
  · exact absurd hel (hskip _ hin)

end Choose

end Sys2Proof.Machine
end


section
/-! PROOFS. The airing that a selection opens, and the pass of a mark (O37). -/

namespace Sys2Proof.Machine

/-! ## Eligibility against the open airings (R69, R72) -/

/-- No open airing's entry has a category; every entry may take category 0 (R69). -/
def Rotator.freeCategory (r : Rotator) (n : Nat) : Prop :=
  n = 0 ∨ ∀ a ∈ r.airings, ∀ y, r.entry a.entry = some y → y.category ≠ n

/-- An entry that a zone may select beside the open airings (R69, R72). -/
def Rotator.mayAir (r : Rotator) (e : Nat) : Prop := ∃ x, r.entry e = some x ∧ x.enabled = true ∧
  (r.slot x.image).isReady = true ∧ r.freeCategory x.category

/-- The exclusion set holds the categories that are not free (R72). -/
theorem Rotator.not_mem_exclusionSet (r : Rotator) (n : Nat) :
    n = 0 ∨ n ∉ r.exclusionSet ↔ r.freeCategory n := by
  unfold Rotator.freeCategory
  by_cases hn : n = 0
  · simp [hn]
  · have hcategory : ∀ e, r.categoryOf e ≠ n ↔ ∀ y, r.entry e = some y → y.category ≠ n := fun e => by
      unfold Rotator.categoryOf
      cases r.entry e with
      | none => simpa using Ne.symm hn
      | some y => simp
    simp only [hn, false_or, ← hcategory]
    simp [Rotator.exclusionSet, hn]

/-- Eligibility against the exclusion set of the open airings (R69, R72). -/
theorem Rotator.eligible_iff (r : Rotator) (e : Nat) : r.eligible r.exclusionSet e = true ↔ r.mayAir e := by
  unfold Rotator.eligible Rotator.mayAir
  cases r.entry e with
  | none => simp
  | some x => simp [← r.not_mem_exclusionSet, and_assoc]

/-- The need of an entry by id (R70). -/
theorem Rotator.needOf_eq (r : Rotator) (e : Nat) : r.needOf e = match r.entry e with
    | none => 0
    | some x => (-x.meter).toNat * 65536 / x.quota := by
  unfold Rotator.needOf
  cases r.entry e with
  | none => rfl
  | some x =>
    have hmax : (max 0 (-x.meter)).toNat = (-x.meter).toNat := by omega
    rw [Option.map_some, Option.getD_some, need, hmax]

/-! ## The airing that a zone opens (R66, R72, R73) -/

/-- The writing of an entry raises its edit count by two, and no other (R66). -/
theorem Blocks.writeMeter_edits (b : Blocks) (e : Nat) (bytes : List Byte) (f : Nat) :
    tget 0 (b.writeMeter e bytes).rot.edits f = tget 0 b.rot.edits f + if f = e then 2 else 0 := by
  refine (tget_tset ..).trans ?_
  by_cases h : f = e
  · rw [if_pos h, if_pos h, h]
  · rw [if_neg h, if_neg h]
    exact (BitVec.add_zero _).symm

theorem Blocks.putEntry_editCount (b : Blocks) (e : Nat) (x : Entry) (f : Nat) :
    tget 0 (b.putEntry e x).rot.edits f = tget 0 b.rot.edits f + if f = e then 2 else 0 :=
  (b.onRot (·.setEntry e (some x))).writeMeter_edits e (meterBytes x) f

/-- An entry whose count of airings a selection has raised (R73). -/
def Entry.aired (x : Entry) : Entry := { x with airings := min 4294967295 (x.airings + 1) }

/-- The airing that a zone opens of an entry, at a show tick (R73). -/
def Zone.airing (z : Zone) (g : Group) (e : Nat) (x : Entry) (tick : Word) : Airing :=
  { zone := z.id, entry := e, group := z.source, seen := g.seen, dwell := x.dwell, start := tick, shown := 0
    credited := 0, credits := 0, number := x.aired.airings }

/-- The blocks with an airing of a SET entry opened at a position of a group's list (R66, R73). -/
def Blocks.airs (b : Blocks) (z : Zone) (g : Group) (i : Nat) (x : Entry) : Blocks :=
  (b.putEntry (tget 0 g.ids i) x.aired).onRot fun r =>
    { r.setGroup z.source (some { g with cursor := some i }) with
      airings := b.rot.airings ++ [z.airing g (tget 0 g.ids i) x b.port.showTick] }

theorem Blocks.openAiring_eq (b : Blocks) (z : Zone) (g : Group) (i : Nat) {x : Entry}
    (hx : b.rot.entry (tget 0 g.ids i) = some x) : b.openAiring z g i = b.airs z g i x := by
  have hcap : capAt Config.countTop (x.airings + 1) = min 4294967295 (x.airings + 1) := by
    unfold capAt Config.countTop; split <;> omega
  unfold Blocks.openAiring
  dsimp only
  rw [hx]
  dsimp only
  rw [hcap, Blocks.putEntry_showTick]
  rfl

/-- A zone of an unset group, or with no eligible entry in its group, selects nothing (R71). -/
theorem Blocks.select_none (b : Blocks) (z : Zone)
    (h : ∀ g, b.rot.group z.source = some g → ∀ i, i < g.ids.length → ¬b.rot.mayAir (tget 0 g.ids i)) :
    b.select z = b := by
  unfold Blocks.select
  cases hg : b.rot.group z.source with
  | none => rfl
  | some g =>
    have hnone : b.rot.choose b.rot.exclusionSet g = none := Rotator.choose_none.mpr fun i hi =>
      Bool.eq_false_iff.mpr fun hel => h g hg i hi ((b.rot.eligible_iff _).mp hel)
    dsimp only
    rw [hnone]

/-- Any other zone opens an airing of an eligible entry with the largest need (R71, R73). -/
theorem Blocks.select_some (b : Blocks) (z : Zone) {g : Group} (hg : b.rot.group z.source = some g)
    (h : ∃ i, i < g.ids.length ∧ b.rot.mayAir (tget 0 g.ids i)) : ∃ i x, i < g.ids.length ∧
      b.rot.mayAir (tget 0 g.ids i) ∧
      (∀ j, j < g.ids.length → b.rot.mayAir (tget 0 g.ids j) →
        b.rot.needOf (tget 0 g.ids j) ≤ b.rot.needOf (tget 0 g.ids i)) ∧
      b.rot.entry (tget 0 g.ids i) = some x ∧ b.select z = b.airs z g i x := by
  cases hc : b.rot.choose b.rot.exclusionSet g with
  | none =>
    obtain ⟨j, hj, hopen⟩ := h
    have hnot := Rotator.choose_none.mp hc j hj
    rw [(b.rot.eligible_iff _).mpr hopen] at hnot
    cases hnot
  | some i =>
    obtain ⟨hi, hel, hmost⟩ := Rotator.choose_some hc
    have hopen := (b.rot.eligible_iff _).mp hel
    have ⟨x, hx, _⟩ := hopen
    refine ⟨i, x, hi, hopen, fun j hj hj' => hmost j hj ((b.rot.eligible_iff _).mpr hj'), hx, ?_⟩
    rw [← b.openAiring_eq z g i hx]
    unfold Blocks.select
    rw [hg]
    dsimp only
    rw [hc]

/-- A zone selects nothing for want of an eligible entry, or opens an airing (R71, R73). -/
theorem Blocks.select_cases (b : Blocks) (z : Zone) :
    (b.select z = b ∧ ∀ g, b.rot.group z.source = some g → ∀ i, i < g.ids.length → ¬b.rot.mayAir (tget 0 g.ids i)) ∨
    ∃ g i x, b.rot.group z.source = some g ∧ b.rot.entry (tget 0 g.ids i) = some x ∧ b.select z = b.airs z g i x := by
  by_cases h : ∀ g, b.rot.group z.source = some g → ∀ i, i < g.ids.length → ¬b.rot.mayAir (tget 0 g.ids i)
  · exact .inl ⟨b.select_none z h, h⟩
  · push Not at h
    obtain ⟨g, hg, hsome⟩ := h
    obtain ⟨i, x, -, -, -, hx, hselect⟩ := b.select_some z hg hsome
    exact .inr ⟨g, i, x, hg, hx, hselect⟩

section Airs

variable (b : Blocks) (z : Zone) (g : Group) (i : Nat) (x : Entry)

/-- An airing opened sets the cursor of its group alone (R73). -/
theorem Blocks.airs_group (k : Nat) : (b.airs z g i x).rot.group k =
    if k = z.source then some { g with cursor := some i } else b.rot.group k := tget_tset ..

/-- It raises the count of its entry alone (R73). -/
theorem Blocks.airs_entry (e : Nat) : (b.airs z g i x).rot.entry e =
    if e = tget 0 g.ids i then some x.aired else b.rot.entry e := b.putEntry_entry ..

/-- It raises the edit count of its entry alone (R66). -/
theorem Blocks.airs_edits (e : Nat) : tget 0 (b.airs z g i x).rot.edits e =
    tget 0 b.rot.edits e + if e = tget 0 g.ids i then 2 else 0 := b.putEntry_editCount ..

/-- It leaves all but the Port and the Rotator, and of that the image bank and the loads. -/
theorem Blocks.airs_eq : b.airs z g i x = { b with
    port := (b.airs z g i x).port
    rot := { b.rot with
      entries := (b.airs z g i x).rot.entries, edits := (b.airs z g i x).rot.edits
      groups := (b.airs z g i x).rot.groups
      airings := b.rot.airings ++ [z.airing g (tget 0 g.ids i) x b.port.showTick] } } := by
  unfold Blocks.airs Blocks.putEntry Blocks.writeMeter
  rfl

end Airs

/-! ## The pass of a mark (R72) -/

/-- The zones of a pass: the PLACEMENT zones without an open airing (R72). -/
theorem Blocks.selecting_perm (b : Blocks) : List.Perm b.selecting ((b.comp.zones.map (·.zone)).filter fun z =>
    z.kind == .placement && b.rot.airings.all fun a => a.zone != z.id) := by
  have hnot : (fun z : Zone => z.kind == .placement && b.rot.airings.all fun a => a.zone != z.id) =
      fun z => z.kind == .placement && !b.rot.airings.any fun a => a.zone == z.id := by
    funext z
    rw [List.not_any_eq_all_not]
    rfl
  rw [hnot]
  exact (sortBy_perm_sorted _ _).1

/-- A pass takes MAIN before RIBBON, and each canvas by descending rank (R72). -/
theorem Blocks.selecting_sorted (b : Blocks) (h : ∀ z ∈ b.selecting, z.rank ≤ 15) :
    b.selecting.Pairwise fun x y => if x.canvas = y.canvas then y.rank ≤ x.rank else x.canvas = .main := by
  refine List.Pairwise.imp_of_mem (fun {x y} hx hy hle => ?_) (sortBy_perm_sorted _ _).2
  have hrx := h x hx
  have hry := h y hy
  cases hcx : x.canvas <;> cases hcy : y.canvas <;> simp [hcx, hcy] at hle ⊢ <;> omega

/-! ## What a selection leaves of who may select (R72) -/

/-- A Rotator goes on from another: with its image bank, its lists, its airings by zone and entry, and of its entries the
image, category and enable. -/
def Rotator.carriesOn (r t : Rotator) : Prop :=
  t.bank = r.bank ∧ (∀ k, (t.group k).map (·.ids) = (r.group k).map (·.ids)) ∧
  (∀ a ∈ r.airings, ∃ c ∈ t.airings, c.zone = a.zone ∧ c.entry = a.entry) ∧
  ∀ e, (t.entry e).map (fun x => (x.image, x.category, x.enabled)) =
    (r.entry e).map fun x => (x.image, x.category, x.enabled)

theorem Rotator.carriesOn_refl (r : Rotator) : r.carriesOn r :=
  ⟨rfl, fun _ => rfl, fun a ha => ⟨a, ha, rfl, rfl⟩, fun _ => rfl⟩

theorem Rotator.carriesOn.trans {r t u : Rotator} (h : r.carriesOn t) (k : t.carriesOn u) : r.carriesOn u := by
  obtain ⟨hbank, hgroups, hairings, hentries⟩ := h
  obtain ⟨kbank, kgroups, kairings, kentries⟩ := k
  refine ⟨kbank.trans hbank, fun g => (kgroups g).trans (hgroups g), fun a ha => ?_,
    fun e => (kentries e).trans (hentries e)⟩
  obtain ⟨c, hc, hzone, hentry⟩ := hairings a ha
  obtain ⟨d, hd, kzone, kentry⟩ := kairings c hc
  exact ⟨d, hd, kzone.trans hzone, kentry.trans hentry⟩

/-- What a zone may select later it may have selected before: airings only shut categories out (R69, R72). -/
theorem Rotator.carriesOn.mayAir {r t : Rotator} (h : r.carriesOn t) {e : Nat} (ht : t.mayAir e) : r.mayAir e := by
  obtain ⟨hbank, -, hairings, hentries⟩ := h
  obtain ⟨x, hx, henabled, hready, hfree⟩ := ht
  have hlook := hentries e
  rw [hx, Option.map_some, eq_comm, Option.map_eq_some_iff] at hlook
  obtain ⟨y, hy, hsame⟩ := hlook
  simp only [Prod.mk.injEq] at hsame
  obtain ⟨himage, hcategory, henable⟩ := hsame
  refine ⟨y, hy, henable.trans henabled, ?_, ?_⟩
  · unfold Rotator.slot at hready ⊢
    rw [← hbank, himage]
    exact hready
  · rw [hcategory]
    refine hfree.imp_right fun hothers a ha y hya => ?_
    obtain ⟨c, hc, -, hentry⟩ := hairings a ha
    have hlook := hentries c.entry
    rw [hentry, hya, Option.map_some, Option.map_eq_some_iff] at hlook
    obtain ⟨w, hw, hsame⟩ := hlook
    simp only [Prod.mk.injEq] at hsame
    have hne := hothers c hc w (by rw [hentry]; exact hw)
    rwa [hsame.2.1] at hne

/-- A zone has an open airing, or its group has no eligible entry. -/
def Rotator.served (r : Rotator) (z : Zone) : Prop :=
  (∃ a ∈ r.airings, a.zone = z.id) ∨
  ∀ g, r.group z.source = some g → ∀ i, i < g.ids.length → ¬r.mayAir (tget 0 g.ids i)

/-- A zone once served stays so. -/
theorem Rotator.carriesOn.served {r t : Rotator} (h : r.carriesOn t) {z : Zone} (hz : r.served z) : t.served z := by
  obtain ⟨-, hgroups, hairings, -⟩ := id h
  obtain ⟨a, ha, hzone⟩ | hnone := hz
  · left
    obtain ⟨c, hc, hsame, -⟩ := hairings a ha
    exact ⟨c, hc, hsame.trans hzone⟩
  · right
    intro g hg i hi hopen
    have hids := hgroups z.source
    rw [hg, Option.map_some, eq_comm, Option.map_eq_some_iff] at hids
    obtain ⟨old, hold, hsame⟩ := hids
    rw [← hsame] at hi hopen
    exact hnone old hold i hi (h.mayAir hopen)

/-- A zone that selects is served, and the Rotator goes on (R72, R73). -/
theorem Blocks.select_served (b : Blocks) (z : Zone) : b.rot.carriesOn (b.select z).rot ∧ (b.select z).rot.served z := by
  obtain ⟨hselect, hnone⟩ | ⟨g, i, x, hg, hx, hselect⟩ := b.select_cases z
  · rw [hselect]
    exact ⟨b.rot.carriesOn_refl, .inr hnone⟩
  · rw [hselect]
    have hairings : (b.airs z g i x).rot.airings = b.rot.airings ++ [z.airing g (tget 0 g.ids i) x b.port.showTick] := rfl
    refine ⟨⟨by rw [b.airs_eq], fun k => ?_, fun a ha => ⟨a, ?_, rfl, rfl⟩, fun e => ?_⟩,
      .inl ⟨z.airing g (tget 0 g.ids i) x b.port.showTick, ?_, rfl⟩⟩
    · rw [b.airs_group]
      by_cases hk : k = z.source
      · rw [if_pos hk, hk, hg]; rfl
      · rw [if_neg hk]
    · rw [hairings]
      exact List.mem_append_left _ ha
    · rw [b.airs_entry]
      by_cases he : e = tget 0 g.ids i
      · rw [if_pos he, he, hx]; rfl
      · rw [if_neg he]
    · rw [hairings]
      exact List.mem_append_right _ (List.mem_singleton_self _)

/-- Every zone of a pass is served by its end. -/
theorem Blocks.selects_served (zones : List Zone) (b : Blocks) :
    b.rot.carriesOn (zones.foldl Blocks.select b).rot ∧ ∀ z ∈ zones, (zones.foldl Blocks.select b).rot.served z := by
  induction zones generalizing b with
  | nil => exact ⟨b.rot.carriesOn_refl, by simp⟩
  | cons z zones ih =>
    obtain ⟨hfirst, hserved⟩ := b.select_served z
    obtain ⟨hrest, hothers⟩ := ih (b.select z)
    exact ⟨hfirst.trans hrest, List.forall_mem_cons.mpr ⟨hrest.served hserved, hothers⟩⟩

/-- A pass leaves every PLACEMENT zone of the plan with an open airing, or with no eligible entry in its group (R72). -/
theorem Blocks.selectionPass_served (b : Blocks) {z : ZoneRun} (hz : z ∈ b.comp.zones)
    (hkind : z.zone.kind = .placement) : b.selectionPass.rot.served z.zone := by
  obtain ⟨hgoes, hserved⟩ := Blocks.selects_served b.selecting b
  by_cases hair : ∃ a ∈ b.rot.airings, a.zone = z.zone.id
  · exact hgoes.served (.inl hair)
  · push Not at hair
    refine hserved z.zone (b.selecting_perm.mem_iff.mpr (List.mem_filter.mpr ⟨List.mem_map_of_mem hz, ?_⟩))
    simpa [hkind] using hair

end Sys2Proof.Machine
end


section
/-! PROOFS. The selection of a RUNNING mark (O37). -/

namespace Sys2Proof.Machine

/-! ## What follows the pass leaves who airs what (R72, R123) -/

/-- A read of a frame leaves the Rotator and the Compositor. -/
theorem Blocks.readFrame_boards (b : Blocks) (bad : List (Nat × Nat)) (head i n : Nat) :
    ((b.readFrame bad head i n).2.rot, (b.readFrame bad head i n).2.comp) = (b.rot, b.comp) := by
  unfold Blocks.readFrame
  split
  · rfl
  · split
    · unfold Blocks.damage
      dsimp only
      split <;> rfl
    · rfl

/-- A blend leaves them. -/
theorem Blocks.blended_boards (b : Blocks) (bad : List (Nat × Nat)) (head : Nat) (h : Head) (x : Clip) (p : Picture) :
    ((b.blended bad head h x p).2.rot, (b.blended bad head h x p).2.comp) = (b.rot, b.comp) := by
  unfold Blocks.blended
  dsimp only
  split
  · have hread := b.readFrame_boards bad head x.input (h.position / 256 + 1)
    split <;> (next heq => rw [heq] at hread; exact hread)
  · rfl

/-- The output of a head leaves the Rotator and the Compositor (R123, R125). -/
theorem Blocks.outputHead_boards (b : Blocks) (bad : List (Nat × Nat)) (i : Nat) :
    ((b.outputHead bad i).rot, (b.outputHead bad i).comp) = (b.rot, b.comp) := by
  unfold Blocks.outputHead
  dsimp only
  split
  · rfl
  · next x _ =>
    split
    · rfl
    · split
      · have hread := b.readFrame_boards bad i x.input ((b.rep.head i).position / 256)
        split
        · next heq => rw [heq] at hread; exact hread
        · next heq => rw [heq] at hread; exact (Blocks.blended_boards _ bad i _ x _).trans hread
      · unfold Blocks.missFrame
        dsimp only
        split <;> rfl

/-- A selection leaves the Compositor (R73). -/
theorem Blocks.select_comp (b : Blocks) (z : Zone) : (b.select z).comp = b.comp := by
  obtain ⟨hselect, -⟩ | ⟨g, i, x, -, -, hselect⟩ := b.select_cases z
  · rw [hselect]
  · rw [hselect, b.airs_eq]

theorem Blocks.selectionPass_comp (b : Blocks) : b.selectionPass.comp = b.comp :=
  foldl_kept Blocks.comp Blocks.select Blocks.select_comp b.selecting b

/-- The composing of the frames leaves the Rotator and the plan (R29). -/
theorem Blocks.compose_kept (b : Blocks) (u : ClockUnit) :
    (b.compose u).rot = b.rot ∧ (b.compose u).comp.zones = b.comp.zones := ⟨rfl, rfl⟩

/-- The counting of a frame leaves the groups, the image bank and the loads (R66, R78). -/
theorem Blocks.credit_lists (b : Blocks) : (b.credit.rot.groups, b.credit.rot.bank, b.credit.rot.queue) =
    (b.rot.groups, b.rot.bank, b.rot.queue) := by
  rw [b.credit_eq]
  refine foldl_kept (fun b : Blocks => (b.rot.groups, b.rot.bank, b.rot.queue)) _ (fun d e => ?_) _ b.countAirings
  obtain ⟨hfixed, -⟩ | ⟨x, y, -, -, -, hmoved⟩ := d.creditEntry_cases b.shownAirings b.frameCredit e
  · rw [hfixed]
  · rw [hmoved]; rfl

/-- It leaves the plan (R78). -/
theorem Blocks.credit_comp (b : Blocks) : b.credit.comp = b.comp :=
  (Prod.mk.inj (Prod.mk.inj b.credit_kept).2).2

/-- It leaves who airs what (R74, R78). -/
theorem Blocks.credit_carriesOn (b : Blocks) : b.rot.carriesOn b.credit.rot := by
  have hlists := b.credit_lists
  have hkept := b.credit_kept
  simp only [Prod.mk.injEq] at hlists hkept
  obtain ⟨hgroups, hbank, -⟩ := hlists
  obtain ⟨hairings, -⟩ := hkept
  refine ⟨hbank, fun k => ?_, fun a ha => ?_, fun e => ?_⟩
  · unfold Rotator.group; rw [hgroups]
  · rw [hairings]
    exact ⟨_, List.mem_map_of_mem ha, rfl, rfl⟩
  · rw [b.credit_entry]
    split <;> cases b.rot.entry e <;> rfl

/-! ## The mark (R72) -/

/-- The Rotator behind a mark is that of its selection with the frame counted, and the plan is that of its work (R72, R78,
R123). -/
theorem MarkStages.ends_boards {g : MarkStages} {first entry : Bool} {m : MarkInput} {s t : State}
    (hworks : g.works first entry m s) (hends : g.ends t) :
    t.blk.rot = g.output.credit.rot ∧ g.output.rot = g.selected.rot ∧ t.blk.comp.zones = g.selected.comp.zones := by
  obtain ⟨-, -, -, -, houtput, hcredited⟩ := hworks
  obtain ⟨-, -, hblk, -⟩ := hends
  have hheads : ∀ i j, (((g.selected.outputHead m.uncorrectable i).outputHead m.uncorrectable j).rot,
      ((g.selected.outputHead m.uncorrectable i).outputHead m.uncorrectable j).comp) =
      (g.selected.rot, g.selected.comp) := fun i j =>
    (Blocks.outputHead_boards _ _ j).trans (Blocks.outputHead_boards _ _ i)
  have hboards : (g.output.rot, g.output.comp) = (g.selected.rot, g.selected.comp) := by
    rw [houtput]
    split
    · exact hheads 1 0
    · exact hheads 0 1
  simp only [Prod.mk.injEq] at hboards
  obtain ⟨hrot, hcomp⟩ := hboards
  rw [hblk, ← hcomp, ← g.output.credit_comp, ← hcredited]
  obtain ⟨hcomposed, hzones⟩ := Blocks.compose_kept { g.credited with
    port := (writeClockRecord (g.worked.clk, g.credited.port)).2 } (writeClockRecord (g.worked.clk, g.credited.port)).1
  exact ⟨hcomposed, hrot, hzones⟩

/-- Settles O37: the choice by the first largest need, the airing it opens, the pass and the mark that makes it. -/
theorem selectionTakesTheLargestNeed : Obligations.SelectionTakesTheLargestNeed := by
  refine ⟨fun r excluded g => ⟨fun i h => Rotator.choose_some h, Rotator.choose_none⟩,
    fun r excluded g i h => Rotator.choose_first h, fun b z => ?_,
    fun b => ⟨b.selecting, rfl, b.selecting_perm, b.selecting_sorted⟩, fun m s hl hc hr => ?_⟩
  · intro t free eligible need
    refine ⟨fun hnone => b.select_none z fun g hg => ?_, fun g hg => ⟨fun hnone => b.select_none z fun k hk => ?_,
      fun hsome => ?_⟩⟩
    · rw [hnone] at hg; cases hg
    · obtain rfl : g = k := Option.some.inj (hg.symm.trans hk)
      exact hnone
    · obtain ⟨i, x, hi, hopen, hmost, hx, hselect⟩ := b.select_some z hg hsome
      have hneed : b.rot.needOf = need := funext b.rot.needOf_eq
      rw [hneed] at hmost
      refine ⟨i, x, hi, hopen, hmost, ?_⟩
      have ht : t = b.airs z g i x := hselect
      clear_value t
      subst ht
      exact ⟨hx, (b.airs_entry z g i x _).trans (if_pos rfl), fun f hf => (b.airs_entry z g i x f).trans (if_neg hf),
        (b.airs_group z g i x _).trans (if_pos rfl), fun k hk => (b.airs_group z g i x k).trans (if_neg hk), rfl,
        rfl, rfl, b.airs_edits z g i x, fun hlaid => b.putEntry_written _ x.aired hlaid, b.airs_eq z g i x⟩
  · obtain ⟨b, hexec, hb⟩ := s.frameMark_begun m hl
    obtain ⟨-, -, -, -, -, -, -, -, -, -, g, hlink⟩ := hb.goesOn m hc hr
    refine ⟨_, g, hexec, hlink, ?_⟩
    obtain ⟨-, -, hworks, hends⟩ := hlink
    generalize ({ s with part := (b.sampleRun m).closeMark } : State) = t at hends
    obtain ⟨hrot, hchosen, hzones⟩ := MarkStages.ends_boards hworks hends
    obtain ⟨-, -, -, hselected, -⟩ := hworks
    dsimp only
    rw [hrot, ← hchosen]
    have hlists := g.output.credit_lists
    simp only [Prod.mk.injEq] at hlists
    obtain ⟨hgroups, hbank, hqueue⟩ := hlists
    refine ⟨by rw [← hgroups, ← hbank, ← hqueue], ?_, fun e => ?_, fun z hz hkind => ?_⟩
    · rw [(Prod.mk.inj g.output.credit_kept).1]
      exact (List.map_map ..).trans rfl
    · rw [g.output.credit_entry]
      split <;> cases g.output.rot.entry e <;> rfl
    · refine g.output.credit_carriesOn.served ?_
      rw [hchosen, hselected]
      refine Blocks.selectionPass_served _ ?_ hkind
      rw [hzones, hselected, Blocks.selectionPass_comp] at hz
      exact hz

end Sys2Proof.Machine
end


section
/-! PROOFS. SET_GROUP (O32). -/

namespace Sys2Proof.Machine

/-- On a live part a card leaves the blocks that its owner's step makes (R178). -/
theorem State.next_cardBlocks {s : State} (hl : s.part.live = true) {f : Blocks → Blocks} {x : Blocks} (hf : f s.blk = x) :
    (.next (s.onPart (·.card f)) : Answer) = .next (s.onPart (·.onBlk fun _ => x)) := by
  rw [State.next_card hl f, ← hf]
  rfl

/-! ## The first bad id of a list (R68) -/

/-- A list of ids to 127, each once, has no bad id. -/
theorem firstBadId_none (k : Nat) {earlier ids : List Nat} (hrange : ∀ e ∈ ids, e ≤ 127) (hn : (earlier ++ ids).Nodup) :
    firstBadId k earlier ids = none := by
  induction ids generalizing k earlier with
  | nil => rfl
  | cons e ids ih =>
    obtain ⟨he, hids⟩ := List.forall_mem_cons.mp hrange
    have hnew : e ∉ earlier := fun hmem => (List.nodup_append.mp hn).2.2 e hmem e List.mem_cons_self rfl
    rw [firstBadId, if_neg (by simp [hnew, he])]
    exact ih (k + 1) hids (by simpa using hn)

/-- The first id above 127, or equal to an earlier one, is the bad one. -/
theorem firstBadId_some (k : Nat) {earlier ids : List Nat} {i e : Nat} (hi : ids[i]? = some e)
    (hbad : 127 < e ∨ e ∈ earlier ++ ids.take i) (hrange : ∀ f ∈ ids.take i, f ≤ 127)
    (hn : (earlier ++ ids.take i).Nodup) : firstBadId k earlier ids = some (k + i) := by
  induction ids generalizing k i earlier with
  | nil => simp at hi
  | cons a ids ih =>
    cases i with
    | zero =>
      obtain rfl : a = e := by simpa using hi
      rw [firstBadId, if_pos (by simpa using hbad)]
      rfl
    | succ i =>
      rw [List.take_succ_cons] at hbad hrange hn
      obtain ⟨ha, hids⟩ := List.forall_mem_cons.mp hrange
      have hnew : a ∉ earlier := fun hmem => (List.nodup_append.mp hn).2.2 a hmem a List.mem_cons_self rfl
      rw [firstBadId, if_neg (by simp [hnew, ha]), ih (k + 1) hi (by simpa using hbad) hids (by simpa using hn)]
      exact congrArg some (by omega)

/-! ## The cursor carried over (R68) -/

/-- The first item of a table that satisfies a test, by its number. -/
theorem tfindFrom_head {α : Type} (p : α → Bool) (k : Nat) (l : List α) :
    (tfindFrom p k l).head? = (l.findIdx? p).map (k + ·) := by
  induction l generalizing k with
  | nil => rfl
  | cons a l ih =>
    rw [List.findIdx?_cons]
    unfold tfindFrom
    cases p a with
    | true => rfl
    | false =>
      refine (ih (k + 1)).trans ?_
      cases l.findIdx? p with
      | none => rfl
      | some j => exact congrArg some (Nat.add_right_comm k 1 j)

/-- In a list of different ids the first place of an id is its only one. -/
theorem findIdx?_of_nodup {ids : List Nat} (hn : ids.Nodup) (id : Option Nat) (j : Nat) :
    ids.findIdx? (fun e => some e == id) = some j ↔ ∃ e, id = some e ∧ ids[j]? = some e := by
  rw [List.findIdx?_eq_some_iff_getElem]
  constructor
  · rintro ⟨hj, hhere, -⟩
    exact ⟨ids[j], (beq_iff_eq.mp hhere).symm, List.getElem?_eq_getElem hj⟩
  · rintro ⟨e, rfl, he⟩
    obtain ⟨hj, rfl⟩ := List.getElem?_eq_some_iff.mp he
    refine ⟨hj, beq_self_eq_true _, fun k hk hthere => ?_⟩
    have := hn.getElem_inj_iff.mp (Option.some.inj (beq_iff_eq.mp hthere))
    omega

/-- The cursor stands on the entry it stood on, where a list of different ids has it (R68). -/
theorem carriedCursor_iff (old : Option Group) {ids : List Nat} (hn : ids.Nodup) (j : Nat) :
    carriedCursor old ids = some j ↔
      ∃ g c e, old = some g ∧ g.cursor = some c ∧ g.ids[c]? = some e ∧ ids[j]? = some e := by
  unfold carriedCursor
  cases old with
  | none => simp
  | some g => cases hc : g.cursor with
    | none => simp [hc]
    | some c => simp [hc, tfindFrom_head, findIdx?_of_nodup hn]

/-! ## The card (R67, R68) -/

/-- A card whose fields pass is decided by its ids (R68). -/
theorem setGroupOp_inRange {q : GroupCue} (h : ¬(7 < q.group ∨ 1 < q.mode ∨ q.count = 0 ∨ 16 < q.count))
    (hlen : q.ids.length = q.count) (slot : Nat) (b : Blocks) :
    setGroupOp slot q b = match firstBadId 0 [] q.ids with
      | some i => b.onPort (·.refuse .rotation slot .badField (toWord i))
      | none => (b.onRot (·.setGroup q.group
          (some ⟨q.ids, decide (q.mode = 1), carriedCursor (b.rot.group q.group) q.ids⟩))).onPort
        (·.complete .rotation slot .ok (toWord ((carriedCursor (b.rot.group q.group) q.ids).getD 16))) := by
  unfold setGroupOp
  rw [if_neg h, ← hlen, List.take_length]
  rfl

/-- Settles O32, by the first bad id of the list. -/
theorem setGroupReplacesTheList : Obligations.SetGroupReplacesTheList := by
  refine ⟨fun slot post q s hs hgroup hmode hmin hmax hlen hrange hn => ?_, fun slot post q s hs => ?_⟩
  · obtain ⟨hlive, hwf, harea⟩ := hs
    have hop := setGroupOp_inRange (q := q) (by omega) hlen slot s.blk
    rw [firstBadId_none 0 hrange (by simpa using hn)] at hop
    exact ⟨_, State.next_cardBlocks hlive hop,
      ⟨_, tget_tset_self .., carriedCursor_iff _ hn, s.port.complete_slotMoved .rotation slot .ok _ hwf harea⟩,
      fun g hg => tget_tset_ne _ _ _ _ _ hg, rfl⟩
  · intro outside refused
    have hrefused : ∀ r, setGroupOp slot q s.blk = s.blk.onPort (·.refuse .rotation slot .badField r) → refused r :=
      fun r hop => ⟨_, rfl, s.refused_onlyMoved .rotation slot .badField r (fun _ => setGroupOp slot q) hs hop⟩
    refine ⟨fun hout => hrefused 16 (if_pos hout), fun i e hin hlen hi hbad hrange hn => hrefused _ ?_⟩
    rw [setGroupOp_inRange hin hlen, firstBadId_some 0 hi hbad hrange hn, Nat.zero_add]

end Sys2Proof.Machine
end


section
/-! PROOFS. SET_ENTRY and DROP_ENTRY (O33, O34). -/

namespace Sys2Proof.Machine

/-! ## The airings of an entry ended (R63, R65, R76) -/

/-- The open airings of an entry. -/
def Rotator.airingsOf (r : Rotator) (e : Nat) : List Airing := r.airings.filter fun a => a.entry == e

/-- By rising zone, as their records are handed to the log (R76). -/
theorem Rotator.airingsOf_sorted (r : Rotator) (e : Nat) : List.Perm (sortBy (·.zone) (r.airingsOf e)) (r.airingsOf e) ∧
    (sortBy (·.zone) (r.airingsOf e)).Pairwise fun a b => a.zone ≤ b.zone := sortBy_perm_sorted _ _

/-- The blocks with a Port and without the airings of an entry. -/
def Blocks.without (b : Blocks) (e : Nat) (p : Port) : Blocks :=
  { b with port := p, rot := { b.rot with airings := b.rot.airings.filter fun a => a.entry != e } }

/-- A Port that the records of an entry's airings are handed to, for the reason of a code (R76, R79). -/
def Blocks.recordsEnded (b : Blocks) (e code : Nat) (p : Port) : Prop :=
  Port.laidAs b.port p ∧ (b.rot.airingsOf e = [] → p = b.port) ∧
  (b.port.laid → Port.through ((sortBy (·.zone) (b.rot.airingsOf e)).map (b.rot.airingLogged code)) b.port p)

/-- The end of an entry's airings: their records, and they leave the open airings (R76). -/
theorem Blocks.endAirings_ofEntry (b : Blocks) (e : Nat) (reason : AiringEnd) (hw : Memory.wf b.port.mem = true) :
    ∃ p, b.endAirings (fun a => a.entry == e) reason = b.without e p ∧ b.recordsEnded e reason.code p := by
  refine ⟨_, rfl, (closed_laidAs b.port).endAirings b _ reason ⟨hw, b.port.sameFixed_refl⟩, fun hnone => ?_,
    b.endAirings_through _ reason⟩
  have hnone : b.rot.airings.filter (fun a => a.entry == e) = [] := hnone
  rw [hnone]
  rfl

/-! ## The entry's words written and the slot finished (R66, R175) -/

/-- The areas and the slots lie where they did. -/
theorem Port.sameFixed.area {q p : Port} (h : Port.sameFixed q p) (i : Nat) : p.area i = q.area i := by
  obtain ⟨-, -, -, hareas, -⟩ := h
  unfold Port.area
  rw [hareas]

theorem Port.sameFixed.slotAddr {q p : Port} (h : Port.sameFixed q p) (d : Desk) (i : Nat) :
    p.slotAddr d i = q.slotAddr d i := congrArg (· + 512 * i) (h.areaBase (deskIndex d))

section MeterCard

variable (b : Blocks) (e : Nat) (bytes : List Byte) (slot : Nat) (o : CardOutcome) (r : Word)

/-- The slot reads as finished at the show tick in force, wherever the Port so lies (R175). -/
theorem Blocks.meterCard_reads {p : Port} (h : Port.laidAs p b.port) (ha : 2 ≤ (p.area (deskIndex .rotation)).first) :
    p.slotReads ((b.writeMeter e bytes).port.complete .rotation slot o r) .rotation slot 4 (toWord o.code) p.showTick r := by
  have hlies := (closed_laidAs p).writeMeter b e bytes h
  generalize (b.writeMeter e bytes).port = q at hlies
  rw [← hlies.2.area] at ha
  obtain ⟨hreads, -⟩ := q.complete_slotMoved .rotation slot o r hlies.1 ha
  unfold Port.slotReads at hreads ⊢
  rwa [hlies.2.slotAddr, hlies.showTick] at hreads

/-- Nothing is written but the entry's words and those of the slot's move (R66, R175). -/
theorem Blocks.meterCard_kept (hw : Memory.wf b.port.mem = true) (hlen : bytes.length ≤ 24) : bytesKept b.port.mem
    ((b.writeMeter e bytes).port.complete .rotation slot o r).mem (b.port.meterWords e ++ b.port.slotWords .rotation slot) := by
  intro a hout
  obtain ⟨hmeter, hslot⟩ := List.forall_mem_append.mp hout
  have hwf := closed_wf.writeMeter b e bytes hw
  refine ((b.writeMeter e bytes).port.moveOut_bytesKept .rotation slot _ o _ r hwf a hslot).trans ?_
  refine (meterMem_reads _ _ _ bytes hw).2.2 a ?_
  by_contra hin
  have hword := hmeter (b.port.meterAddr e + 4 * ((a - b.port.meterAddr e) / 4))
    (List.mem_map.mpr ⟨_, List.mem_range.mpr (by omega), rfl⟩)
  omega

end MeterCard

/-- The blocks without the airings of an entry, the entry set or made UNSET, and its words written (R63, R65, R66). -/
def Blocks.tableSet (b : Blocks) (e : Nat) (p : Port) (y : Option Entry) (bytes : List Byte) : Blocks :=
  ((b.without e p).onRot (·.setEntry e y)).writeMeter e bytes

/-- What a card that passes leaves of an entry's table, its airings and its words, behind the Port that took their
records. -/
structure Blocks.EntryDone (b : Blocks) (e slot : Nat) (y : Option Entry) (o : CardOutcome) (p : Port) (r : Rotator)
    (q : Port) : Prop where
  entry : ∀ f, r.entry f = if f = e then y else b.rot.entry f
  edits : ∀ f, tget 0 r.edits f = tget 0 b.rot.edits f + if f = e then 2 else 0
  airings : r.airings = b.rot.airings.filter fun a => a.entry != e
  groups : r.groups = b.rot.groups
  bank : r.bank = b.rot.bank
  queue : r.queue = b.rot.queue
  reads : b.port.slotReads q .rotation slot 4 (toWord o.code) b.port.showTick (toWord (b.rot.airingsOf e).length)
  kept : b.rot.airingsOf e = [] → bytesKept b.port.mem q.mem (b.port.meterWords e ++ b.port.slotWords .rotation slot)
  through : b.port.laid → Port.through [meterWritten e (tget 0 b.rot.edits e + 2) y,
    slotMoves .rotation slot 4 (toWord o.code) (toWord (b.rot.airingsOf e).length)] p q

theorem Blocks.tableSet_onPort (b : Blocks) (e : Nat) (p : Port) (y : Option Entry) (bytes : List Byte) (f : Port → Port) :
    (b.tableSet e p y bytes).onPort f =
      { b with port := f (b.tableSet e p y bytes).port, rot := (b.tableSet e p y bytes).rot } := rfl

theorem meterBytes_length (x : Entry) : (meterBytes x).length = 24 := rfl

theorem Blocks.tableSet_set (b : Blocks) (e : Nat) (x : Entry) {p : Port} (h : Memory.wf p.mem = true) :
    meterWritten e (tget 0 b.rot.edits e + 2) (some x) p (b.tableSet e p (some x) (meterBytes x)).port :=
  ((b.without e p).onRot (·.setEntry e (some x))).writeMeter_set e x h

theorem Blocks.tableSet_unset (b : Blocks) (e : Nat) {p : Port} (h : Memory.wf p.mem = true) :
    meterWritten e (tget 0 b.rot.edits e + 2) none p (b.tableSet e p none [0]).port :=
  ((b.without e p).onRot (·.setEntry e none)).writeMeter_unset e h

/-- The entry's words written and the slot finished (R66, R175; the order is log entry 25). -/
theorem Blocks.tableSet_done {b : Blocks} {e code : Nat} {p : Port} (h : b.recordsEnded e code p)
    (ha : 2 ≤ (b.port.area (deskIndex .rotation)).first) (y : Option Entry) {bytes : List Byte} (hlen : bytes.length ≤ 24)
    (hwritten : Memory.wf p.mem = true →
      meterWritten e (tget 0 b.rot.edits e + 2) y p (b.tableSet e p y bytes).port) (slot : Nat) (o : CardOutcome) :
    b.EntryDone e slot y o p (b.tableSet e p y bytes).rot
      ((b.tableSet e p y bytes).port.complete .rotation slot o (toWord (b.rot.airingsOf e).length)) := by
  obtain ⟨hlies, hnone, -⟩ := h
  refine ⟨fun f => tget_tset .., Blocks.writeMeter_edits _ e bytes, rfl, rfl, rfl, rfl,
    Blocks.meterCard_reads _ e bytes slot o _ hlies ha, fun hended => ?_,
    fun hlaid => ⟨_, hwritten hlies.1, Port.through_one ?_⟩⟩
  · obtain rfl := hnone hended
    exact Blocks.meterCard_kept _ e bytes slot o _ hlies.1 hlen
  · exact Port.complete_slotMoves _ .rotation slot o _ (closed_laid.writeMeter _ e bytes (hlies.laid hlaid))

/-! ## SET_ENTRY (R62 to R66) -/

/-- A field of a SET_ENTRY card lies outside its range (R62). -/
theorem entryCueFails_iff (q : EntryCue) : entryCueFails q = true ↔
    127 < q.entry ∨ 511 < q.image ∨ q.dwell < 60 ∨ 36000 < q.dwell ∨ q.quota = 0 ∨ 1073741824 < q.quota ∨
      31 < q.category ∨ 1 < q.enabled ∨ 1 < q.keepMeter := by
  simp [entryCueFails, or_assoc]

/-- The meter that the table holds for an entry (5.3). -/
def Port.storedMeter (p : Port) (e : Nat) : Int := (memWord p.mem (p.meterAddr e + 8)).toInt

/-- The entry that a card sets, from the meter table as the Port has it: with the meter and counts kept there, or with its
meter at −Q and its counts at 0 (R63, R64). -/
def Port.entrySet (p : Port) (q : EntryCue) : Entry :=
  if q.keepMeter = 1 then
    entryOf q (keptMeter q (memWord p.mem (p.meterAddr q.entry + 8)))
      (memWord p.mem (p.meterAddr q.entry + 16)).toNat (memWord p.mem (p.meterAddr q.entry + 20)).toNat
  else entryOf q (-(q.quota : Int)) 0 0

/-- The entry has the card's fields (R63). -/
theorem Port.entrySet_fields (p : Port) (q : EntryCue) : (p.entrySet q).image = q.image ∧ (p.entrySet q).dwell = q.dwell ∧
    (p.entrySet q).quota = q.quota ∧ (p.entrySet q).category = q.category ∧
    (p.entrySet q).enabled = decide (q.enabled = 1) := by
  unfold Port.entrySet
  split <;> exact ⟨rfl, rfl, rfl, rfl, rfl⟩

/-- With the keep-meter flag clear its meter is −Q and its counts are 0 (R63). -/
theorem Port.entrySet_fresh (p : Port) {q : EntryCue} (h : q.keepMeter = 0) :
    (p.entrySet q).meter = -(q.quota : Int) ∧ (p.entrySet q).onAir = 0 ∧ (p.entrySet q).airings = 0 := by
  have hset : p.entrySet q = entryOf q (-(q.quota : Int)) 0 0 := if_neg (by omega)
  rw [hset]
  exact ⟨rfl, rfl, rfl⟩

/-- With the flag set its meter is the stored one, clamped into −Q..2,147,483,647, and its counts are the stored ones
(R64). -/
theorem Port.entrySet_kept (p : Port) {q : EntryCue} (h : q.keepMeter = 1) (hquota : q.quota ≤ 1073741824) :
    (p.entrySet q).meter = max (-(q.quota : Int)) (min 2147483647 (p.storedMeter q.entry)) ∧
    (p.entrySet q).onAir = (memWord p.mem (p.meterAddr q.entry + 16)).toNat ∧
    (p.entrySet q).airings = (memWord p.mem (p.meterAddr q.entry + 20)).toNat := by
  have hset : p.entrySet q = entryOf q (keptMeter q (memWord p.mem (p.meterAddr q.entry + 8)))
    (memWord p.mem (p.meterAddr q.entry + 16)).toNat (memWord p.mem (p.meterAddr q.entry + 20)).toNat := if_pos h
  rw [hset]
  refine ⟨?_, rfl, rfl⟩
  show clampInt _ Config.meterTop (p.storedMeter q.entry) = _
  unfold clampInt Config.meterTop
  split
  · omega
  · split <;> omega

/-- The outcome of a card that passes: CLAMPED where it keeps a meter that is not the one stored (R64). -/
def Port.entryOutcome (p : Port) (q : EntryCue) : CardOutcome :=
  okOr (decide (q.keepMeter = 1 ∧ (p.entrySet q).meter ≠ p.storedMeter q.entry))

theorem Port.entryOutcome_code (p : Port) (q : EntryCue) : toWord (p.entryOutcome q).code =
    if q.keepMeter = 1 ∧ (p.entrySet q).meter ≠ p.storedMeter q.entry then 1 else 0 := by
  unfold Port.entryOutcome
  split
  · next h => rw [decide_eq_true h]; rfl
  · next h => rw [decide_eq_false h]; rfl

/-- A card that passes: the airings end, the entry is put, the slot is finished (R63, R64, R66; the order is log entry
25). -/
theorem setEntryOp_passes {q : EntryCue} (h : entryCueFails q = false) (slot : Nat) (b : Blocks)
    (hw : Memory.wf b.port.mem = true) (ha : 2 ≤ (b.port.area (deskIndex .rotation)).first) :
    ∃ p rot port, b.recordsEnded q.entry 3 p ∧
      b.EntryDone q.entry slot (some (p.entrySet q)) (p.entryOutcome q) p rot port ∧
      setEntryOp slot q b = { b with port := port, rot := rot } := by
  obtain ⟨p, hended, hrecords⟩ := b.endAirings_ofEntry q.entry .entryChanged hw
  refine ⟨p, _, _, hrecords, Blocks.tableSet_done hrecords ha _ (meterBytes_length (p.entrySet q)).le
    (b.tableSet_set q.entry (p.entrySet q)) slot (p.entryOutcome q), ?_⟩
  refine Eq.trans ?_ (b.tableSet_onPort q.entry p (some (p.entrySet q)) (meterBytes (p.entrySet q))
    (·.complete .rotation slot (p.entryOutcome q) (toWord (b.rot.airingsOf q.entry).length)))
  unfold setEntryOp
  rw [h, if_neg Bool.false_ne_true]
  dsimp only
  rw [hended]
  by_cases hkeep : q.keepMeter = 1
  · have hset : p.entrySet q = _ := if_pos hkeep
    have hout : p.entryOutcome q = okOr ((p.entrySet q).meter != p.storedMeter q.entry) := by
      unfold Port.entryOutcome
      simp only [hkeep, true_and, ne_eq, decide_not]
      rfl
    rw [if_pos hkeep, hout, hset]
    rfl
  · have hset : p.entrySet q = _ := if_neg hkeep
    have hout : p.entryOutcome q = .ok := by
      unfold Port.entryOutcome
      simp [hkeep, okOr]
    rw [if_neg hkeep, hout, hset]
    rfl

/-- Settles O33: the entry a card sets is `Port.entrySet`, from the meter table behind the records of the airings ended. -/
theorem setEntrySetsTheEntry : Obligations.SetEntrySetsTheEntry := by
  refine ⟨fun slot post q s hs hentry himage hdwell hdwell' hquota hquota' hcategory henabled hkeep => ?_,
    fun slot post q s hs hfails => ?_⟩
  · obtain ⟨hlive, hwf, harea⟩ := hs
    have hpasses : entryCueFails q = false := Bool.eq_false_iff.mpr fun hfails => by
      have := (entryCueFails_iff q).mp hfails
      omega
    obtain ⟨p, rot, port, ⟨hlies, hnone, hlogged⟩, ⟨hentry, hedits, hairings, hgroups, hbank, hqueue, hreads, hkept,
      hthrough⟩, hop⟩ :=
      setEntryOp_passes hpasses slot s.blk hwf harea
    obtain ⟨ximage, xdwell, xquota, xcategory, xenabled⟩ := p.entrySet_fields q
    rw [p.entryOutcome_code] at hreads hthrough
    have haddr : p.meterAddr q.entry = s.port.meterAddr q.entry := congrArg (· + 32 * q.entry) (hlies.2.areaBase 5)
    refine ⟨_, State.next_cardBlocks hlive hop, ⟨p.entrySet q, ?_, ximage, xdwell, xquota, xcategory, xenabled,
      fun hzero => ?_, fun hone hended => ?_⟩, fun e he => ?_, hairings, hgroups, hbank, hqueue,
      fun hended => ?_, fun hlaid => ?_, hedits, rfl⟩
    · exact (hentry _).trans (if_pos rfl)
    · obtain ⟨xmeter, xonAir, xairings⟩ := p.entrySet_fresh hzero
      rw [if_neg (by omega)] at hreads
      exact ⟨xmeter, xonAir, xairings, hreads⟩
    · obtain ⟨xmeter, -, -⟩ := p.entrySet_kept hone hquota'
      obtain rfl : p = s.port := hnone (List.length_eq_zero_iff.mp hended)
      refine ⟨xmeter, ?_⟩
      have hlen : (s.blk.rot.airingsOf q.entry).length = 0 := hended
      simp only [hone, true_and, ne_eq, ite_not, hlen] at hreads
      exact hreads
    · exact (hentry e).trans (if_neg he)
    · exact hkept (List.length_eq_zero_iff.mp hended)
    · obtain ⟨hperm, hsorted⟩ := s.blk.rot.airingsOf_sorted q.entry
      refine ⟨_, p, p.entrySet q, hperm, hsorted, hlogged hlaid, (hentry _).trans (if_pos rfl), ?_⟩
      rw [← haddr]
      exact ⟨fun hone => p.entrySet_kept hone hquota', hthrough hlaid⟩
  · exact ⟨_, rfl, s.refused_onlyMoved .rotation slot .badField 0 (fun _ => setEntryOp slot q) hs
      (if_pos ((entryCueFails_iff q).mpr hfails))⟩

/-! ## DROP_ENTRY (R65, R66) -/

/-- A card that drops a SET entry: the airings end, the entry is UNSET, the links to it are cut, the slot is finished (R65,
R66, R165). -/
theorem dropEntryOp_drops {e : Nat} (he : e ≤ 127) {b : Blocks} (hset : b.rot.entry e ≠ none) (slot : Nat)
    (hw : Memory.wf b.port.mem = true) (ha : 2 ≤ (b.port.area (deskIndex .rotation)).first) :
    ∃ p rot port, b.recordsEnded e 4 p ∧ b.EntryDone e slot none .ok p rot port ∧
      dropEntryOp slot e b = { b with port := port, rot := rot, lanes := b.lanes.cutLinks e } := by
  obtain ⟨x, hx⟩ := Option.ne_none_iff_exists'.mp hset
  obtain ⟨p, hended, hrecords⟩ := b.endAirings_ofEntry e .entryDropped hw
  refine ⟨p, _, _, hrecords, Blocks.tableSet_done hrecords ha none (by decide) (b.tableSet_unset e) slot .ok, ?_⟩
  unfold dropEntryOp
  rw [if_neg (by omega), hx]
  dsimp only
  rw [hended]
  rfl

/-- A card on an UNSET entry finishes its slot alone (R65). -/
theorem dropEntryOp_unset {e : Nat} (he : e ≤ 127) {b : Blocks} (hnone : b.rot.entry e = none) (slot : Nat) :
    dropEntryOp slot e b = b.onPort (·.complete .rotation slot .ok 0) := by
  unfold dropEntryOp
  rw [if_neg (by omega), hnone]

/-- Settles O34, by whether the entry is SET. -/
theorem dropEntryUnsetsTheEntry : Obligations.DropEntryUnsetsTheEntry := by
  refine ⟨fun slot post e s hs he => ?_, fun slot post e s hs he => ?_⟩
  · by_cases hset : s.blk.rot.entry e = none
    · refine ⟨_, rfl, fun _ => ?_, fun hne => absurd hset hne⟩
      exact s.completed_onlyMoved .rotation slot .ok 0 (fun _ => dropEntryOp slot e) hs (dropEntryOp_unset he hset slot)
    · obtain ⟨hlive, hwf, harea⟩ := hs
      obtain ⟨p, rot, port, ⟨-, -, hlogged⟩, ⟨hentry, hedits, hairings, hgroups, hbank, hqueue, hreads, hkept, hthrough⟩,
        hop⟩ := dropEntryOp_drops he hset slot hwf harea
      refine ⟨_, State.next_cardBlocks hlive hop, fun hnone => absurd hnone hset, fun _ => ⟨(hentry e).trans (if_pos rfl),
        fun f hf => (hentry f).trans (if_neg hf), hairings, hgroups, hbank, hqueue, rfl, hreads, fun hended => ?_,
        fun hlaid => ?_, hedits, rfl⟩⟩
      · exact hkept (List.filter_eq_nil_iff.mpr fun a ha => by simpa using hended a ha)
      · obtain ⟨hperm, hsorted⟩ := s.blk.rot.airingsOf_sorted e
        refine ⟨_, hperm, hsorted, Port.through_append (hlogged hlaid) ?_⟩
        rw [hperm.length_eq]
        exact hthrough hlaid
  · exact ⟨_, rfl, s.refused_onlyMoved .rotation slot .badField 0 (fun _ => dropEntryOp slot e) hs (if_pos he)⟩

end Sys2Proof.Machine
end


section
/-! PROOFS. Image loads (O35). -/

namespace Sys2Proof.Machine

/-! ## The checks of a card (R82) -/

/-- The image slot and the size of a card lie in their ranges (R82). -/
def loadSized (q : LoadCue) : Prop :=
  q.image ≤ 511 ∧ 16 ≤ q.width ∧ q.width ≤ 4096 ∧ 16 ≤ q.height ∧ q.height ≤ 2160

/-- The pages of a card lie in the staging area and hold the image (R82). -/
def Port.loadStaged (p : Port) (q : LoadCue) : Prop := (p.area 9).first ≤ q.first ∧
  q.first + q.pages ≤ (p.area 9).first + (p.area 9).count ∧ imagePages q.width q.height ≤ q.pages

/-- The image slot of a card is LOADING or on air (R82, R84). -/
def Blocks.loadBusy (b : Blocks) (q : LoadCue) : Prop :=
  (b.rot.slot q.image).isLoading = true ∨ b.imageOnAir q.image = true

/-- The blocks there are for the image of a card (R81, R82). -/
def Blocks.loadRoom (b : Blocks) (q : LoadCue) : Nat := b.rot.freeBlocks + (b.rot.slot q.image).blocks

section LoadFault

variable {b : Blocks} {q : LoadCue}

/-- The checks fail by their order: first the slot and the size (R82). -/
theorem Blocks.loadFault_unsized (h : ¬loadSized q) : b.loadFault q = some (.badField, 0) := by
  unfold Blocks.loadFault
  exact if_pos (by unfold loadSized at h; omega)

/-- A card whose slot and size pass is checked for its pages (R82). -/
theorem Blocks.loadFault_sized (h : loadSized q) : b.loadFault q =
    if !(PageRange.inside ⟨q.first, q.pages⟩ (b.port.area 9)) || decide (q.pages < imagePages q.width q.height) then
      some (.badField, imagePages q.width q.height)
    else if (b.rot.slot q.image).isLoading || b.imageOnAir q.image then some (.inUse, 0)
    else if b.loadRoom q < imageBlocks q.width q.height then some (.noRoom, b.loadRoom q) else none := by
  unfold Blocks.loadFault
  rw [if_neg (by unfold loadSized at h; omega)]
  rfl

theorem Port.loadStaged_iff (p : Port) (q : LoadCue) : (!(PageRange.inside ⟨q.first, q.pages⟩ (p.area 9)) ||
    decide (q.pages < imagePages q.width q.height)) = true ↔ ¬p.loadStaged q := by
  unfold Port.loadStaged PageRange.inside
  simp only [Bool.or_eq_true, Bool.not_eq_true', Bool.and_eq_false_iff, decide_eq_false_iff_not, decide_eq_true_eq]
  omega

theorem Blocks.loadFault_unstaged (h : loadSized q) (hstaged : ¬b.port.loadStaged q) :
    b.loadFault q = some (.badField, imagePages q.width q.height) := by
  rw [Blocks.loadFault_sized h, if_pos ((b.port.loadStaged_iff q).mpr hstaged)]

/-- A card whose pages pass is checked for its slot, then for room (R82). -/
theorem Blocks.loadFault_staged (h : loadSized q) (hstaged : b.port.loadStaged q) : b.loadFault q =
    if (b.rot.slot q.image).isLoading || b.imageOnAir q.image then some (.inUse, 0)
    else if b.loadRoom q < imageBlocks q.width q.height then some (.noRoom, b.loadRoom q) else none := by
  rw [Blocks.loadFault_sized h, if_neg fun hfails => (b.port.loadStaged_iff q).mp hfails hstaged]

theorem Blocks.loadFault_busy (h : loadSized q) (hstaged : b.port.loadStaged q) (hbusy : b.loadBusy q) :
    b.loadFault q = some (.inUse, 0) := by
  rw [Blocks.loadFault_staged h hstaged, if_pos (Bool.or_eq_true_iff.mpr hbusy)]

theorem Blocks.loadFault_free (h : loadSized q) (hstaged : b.port.loadStaged q) (hbusy : ¬b.loadBusy q) : b.loadFault q =
    if b.loadRoom q < imageBlocks q.width q.height then some (.noRoom, b.loadRoom q) else none := by
  rw [Blocks.loadFault_staged h hstaged, if_neg fun hor => hbusy (Bool.or_eq_true_iff.mp hor)]

end LoadFault

/-! ## The card taken (R82, R83) -/

/-- The load that a card which passes puts into flight, from Show Memory as its staging pages hold it (R83). -/
def Port.loadOf (p : Port) (slot : Nat) (q : LoadCue) : Load :=
  { deskSlot := slot, image := q.image, width := q.width, height := q.height, pages := ⟨q.first, q.pages⟩
    blocks := imageBlocks q.width q.height
    picture := .raster q.width (pixelsAt p.mem (Config.pageBytes * q.first) (q.width * q.height))
    framesLeft := max 1 (ceilDiv (imagePages q.width q.height) 256) }

/-- The Port as a card that passes leaves it: its pages under load locks, its slot ACTIVE with outcome OK and result 0 (R82,
R183; the outcome is log entry 45). -/
def Port.loadTaken (p : Port) (slot : Nat) (pages : PageRange) : Port :=
  (({ p with loadLocks := p.loadLocks ++ [pages] } : Port).provisional .rotation slot .ok 0).activate .rotation slot

/-- It moves those three words of Show Memory and the load locks alone. -/
theorem Port.loadTaken_reads (p : Port) (slot : Nat) (pages : PageRange) (hw : Memory.wf p.mem = true) :
    let q := p.loadTaken slot pages
    let a := p.slotAddr .rotation slot
    q.loadLocks = p.loadLocks ++ [pages] ∧ memWord q.mem a = 3 ∧ memWord q.mem (a + 12) = 0 ∧ memWord q.mem (a + 24) = 0 ∧
    bytesKept p.mem q.mem [a, a + 12, a + 24] ∧ q = { p with mem := q.mem, loadLocks := q.loadLocks } := by
  intro q a
  have hmem : q.mem = memWriteWord (memWriteWord (memWriteWord p.mem (a + 12) 0) (a + 24) 0) a 3 := rfl
  have w1 := wf_memWriteWord p.mem (a + 12) 0 hw
  have w2 := wf_memWriteWord _ (a + 24) 0 w1
  refine ⟨rfl, ?_, ?_, ?_, fun b hb => ?_, rfl⟩
  · rw [hmem, memWord_memWriteWord_self _ _ _ w2]
  · rw [hmem, memWord_memWriteWord_ne _ _ _ _ w2 (by omega), memWord_memWriteWord_ne _ _ _ _ w1 (by omega),
      memWord_memWriteWord_self _ _ _ hw]
  · rw [hmem, memWord_memWriteWord_ne _ _ _ _ w2 (by omega), memWord_memWriteWord_self _ _ _ w1]
  · simp only [List.mem_cons, List.not_mem_nil, or_false, forall_eq_or_imp, forall_eq] at hb
    obtain ⟨hstate, houtcome, hresult⟩ := hb
    rw [hmem, memRead_memWriteWord_ne _ _ _ _ w2 hstate, memRead_memWriteWord_ne _ _ _ _ w1 hresult,
      memRead_memWriteWord_ne _ _ _ _ hw houtcome]

/-- A card that passes every check (R82, R83). -/
theorem loadImageOp_passes {b : Blocks} {q : LoadCue} (h : b.loadFault q = none) (slot : Nat) : loadImageOp slot q b =
    { b with
      rot := { b.rot.setSlot q.image (.loading (imageBlocks q.width q.height)) with
        queue := b.rot.queue ++ [b.port.loadOf slot q] }
      port := b.port.loadTaken slot ⟨q.first, q.pages⟩ } := by
  unfold loadImageOp
  rw [h]
  rfl

/-- A card that fails a check moves its slot alone (R82). -/
theorem loadImageOp_fails {b : Blocks} {q : LoadCue} {o : CardOutcome} {r : Nat} (h : b.loadFault q = some (o, r))
    (slot : Nat) : loadImageOp slot q b = b.onPort (·.refuse .rotation slot o (toWord r)) := by
  unfold loadImageOp
  rw [h]

/-! ## The head load (R83) -/

/-- The head load, at its last frame of copying, completes (R83). -/
theorem finishLoad_head {b : Blocks} {l : Load} {rest : List Load} (hqueue : b.rot.queue = l :: rest)
    (hdue : l.framesLeft ≤ 1) : b.finishLoad =
      { b with
        rot := { b.rot.setSlot l.image (.ready l.width l.height l.blocks l.picture) with queue := rest }
        port := ({ b.port with loadLocks := b.port.loadLocks.erase l.pages } : Port).complete .rotation l.deskSlot .ok
          (toWord l.blocks) } := by
  unfold Blocks.finishLoad Blocks.completeLoad
  rw [hqueue]
  exact if_pos hdue

/-- On a live part a step of the mark taken by itself leaves the blocks that it makes (log entry 13). -/
theorem State.next_whenLive {s : State} (hl : s.part.live = true) {f : Blocks → Blocks} {x : Blocks} (hf : f s.blk = x) :
    (.next (s.onPart (·.whenLive (·.onBlk f))) : Answer) = .next (s.onPart (·.onBlk fun _ => x)) := by
  rw [← hf]
  exact State.next_onPart (if_pos hl)

/-- Settles O35: a card by the first check it fails, and the head load at its last frame. -/
theorem imageLoadsQueueAndComplete : Obligations.ImageLoadsQueueAndComplete := by
  refine ⟨fun slot post q s hs himage hw hw' hh hh' hfirst hlast hpages hloading hair hroom => ?_,
    fun s l rest hs hqueue hdue => ?_, fun slot post q s hs => ?_⟩
  · obtain ⟨hlive, hwf, -⟩ := hs
    have hfree : ¬s.blk.loadBusy q := by
      unfold Blocks.loadBusy
      simp [hloading, hair]
    have hnone : s.blk.loadFault q = none := by
      rw [Blocks.loadFault_free ⟨himage, hw, hw', hh, hh'⟩ ⟨hfirst, hlast, hpages⟩ hfree]
      exact if_neg (Nat.not_lt.mpr hroom)
    obtain ⟨hlocks, hstate, houtcome, hresult, hkept, hrest⟩ := s.port.loadTaken_reads slot ⟨q.first, q.pages⟩ hwf
    have hop := loadImageOp_passes hnone slot
    generalize s.port.loadTaken slot ⟨q.first, q.pages⟩ = port at hop hlocks hstate houtcome hresult hkept hrest
    exact ⟨_, State.next_cardBlocks hlive hop, tget_tset_self .., fun i hi => tget_tset_ne _ _ _ _ _ hi,
      ⟨_, rfl, rfl, rfl, rfl, rfl, rfl⟩, hlocks, hstate, houtcome, hresult, hkept, hrest, rfl⟩
  · obtain ⟨hlive, hwf, harea⟩ := hs
    have hmoved := Port.complete_slotMoved { s.port with loadLocks := s.port.loadLocks.erase l.pages } .rotation l.deskSlot
      .ok (toWord l.blocks) hwf harea
    have hpart := State.next_whenLive hlive (finishLoad_head hqueue hdue)
    generalize Port.complete { s.port with loadLocks := s.port.loadLocks.erase l.pages } .rotation l.deskSlot .ok
      (toWord l.blocks) = port at hmoved hpart
    exact ⟨_, hpart, tget_tset_self .., fun i hi => tget_tset_ne _ _ _ _ _ hi, rfl, hmoved, rfl⟩
  · intro pages room sized staged busy refused
    have hrefused : ∀ o r, s.blk.loadFault q = some (o, r) → refused (toWord o.code) (toWord r) := fun o r hfault =>
      ⟨_, rfl, s.refused_onlyMoved .rotation slot o (toWord r) (fun _ => loadImageOp slot q) hs
        (loadImageOp_fails hfault slot)⟩
    refine ⟨fun hsize => hrefused _ _ (Blocks.loadFault_unsized hsize),
      fun hsize hstage => hrefused _ _ (Blocks.loadFault_unstaged hsize hstage),
      fun hsize hstage hbusy => hrefused _ _ (Blocks.loadFault_busy hsize hstage hbusy),
      fun hsize hstage hfree hfull => hrefused .noRoom room ?_⟩
    rw [Blocks.loadFault_free hsize hstage hfree]
    exact if_pos hfull

end Sys2Proof.Machine
end


section
/-! PROOFS. The inputs, bays and clips by their numbers, and where a change of the Capture Unit reaches (for O38 to O42, O44). -/

namespace Sys2Proof.Machine

/-! ## Inputs, bays and clips by their numbers (R93, R95, R105) -/

@[simp] theorem Capture.input_setInput_self (c : Capture) (i : Nat) (x : Input) : (c.setInput i x).input i = x :=
  tget_tset_self ..

theorem Capture.input_setInput_ne (c : Capture) {i j : Nat} (x : Input) (h : j ≠ i) : (c.setInput i x).input j = c.input j :=
  tget_tset_ne _ _ _ _ _ h

@[simp] theorem Input.bay_setBay_self (x : Input) (k : Nat) (y : Bay) : (x.setBay k y).bay k = y := tget_tset_self ..

theorem Input.bay_setBay_ne (x : Input) {k j : Nat} (y : Bay) (h : j ≠ k) : (x.setBay k y).bay j = x.bay j :=
  tget_tset_ne _ _ _ _ _ h

/-- An item set twice is as it was set last. -/
@[simp] theorem tset_tset {α : Type} (d : α) (l : List α) (i : Nat) (x y : α) :
    tset d (tset d l i x) i y = tset d l i y := by
  induction i generalizing l with
  | zero => cases l <;> rfl
  | succ i ih => cases l <;> exact congrArg (List.cons _) (ih _)

theorem Replay.clip_setClip_ne (r : Replay) {c d : Nat} (x : Option Clip) (h : d ≠ c) : (r.setClip c x).clip d = r.clip d :=
  tget_tset_ne _ _ _ _ _ h

@[simp] theorem Replay.clip_setClip_self (r : Replay) (c : Nat) (x : Option Clip) : (r.setClip c x).clip c = x :=
  tget_tset_self ..

theorem Replay.clip_mapClips (r : Replay) (f : Nat → Clip → Clip) (c : Nat) :
    (r.mapClips f).clip c = (r.clip c).map (f c) := by
  refine (tget_tmapFrom_default none none (fun c x => x.map (f c)) (fun _ => rfl) 0 r.clips c).trans ?_
  rw [Nat.zero_add]
  rfl

/-- The numbers of the items that satisfy a test are those of the range that do. -/
theorem tfindFrom_eq_filter {α : Type} (d : α) (p : α → Bool) (l : List α) :
    tfindFrom p 0 l = (List.range l.length).filter fun j => p (tget d l j) := by
  have g (k : Nat) : tfindFrom p k l = ((List.range l.length).filter fun j => p (tget d l j)).map (k + ·) := by
    induction l generalizing k with
    | nil => rfl
    | cons a l ih =>
      have hrest : ((List.range l.length).map Nat.succ).filter (fun j => p (tget d (a :: l) j)) =
          ((List.range l.length).filter fun j => p (tget d l j)).map Nat.succ := List.filter_map
      unfold tfindFrom
      rw [List.length_cons, List.range_succ_eq_map, List.filter_cons, hrest, ih]
      show _ = List.map (k + ·) (if p a = true then _ else _)
      split <;> simp [Nat.add_assoc, Nat.add_comm 1]
  rw [g]
  simp

/-- The FILLING bay is a bay of the ring (R93). -/
theorem Input.filling_spec {x : Input} {k : Nat} (h : x.filling = some k) :
    k < x.bays.length ∧ (x.bay k).state = .filling := by
  unfold Input.filling at h
  rw [tfindFrom_eq_filter .empty, List.head?_filter] at h
  exact ⟨List.mem_range.mp (List.mem_of_find?_eq_some h), by simpa [Input.bay] using List.find?_some h⟩

/-- The choice of a bay, by the numbers of the bays (R95). -/
theorem Input.chooseBay_eq (x : Input) : x.chooseBay = x.bayChosen := by
  unfold Input.chooseBay Input.bayChosen
  rw [tfindFrom_eq_filter .empty, List.head?_filter]
  rfl

/-- No bay is chosen where none is EMPTY and every FILLED one is kept (R95). -/
theorem Input.chooseBay_none {x : Input} (hempty : ∀ j, j < x.bays.length → (x.bay j).state ≠ .empty)
    (hkept : ∀ j ∈ x.ages, (x.bay j).kept ≠ 0) : x.chooseBay = none := by
  have hnone : (List.range x.bays.length).find? (fun j => (x.bay j).state == .empty) = none :=
    List.find?_eq_none.mpr fun j hj => by simpa using hempty j (List.mem_range.mp hj)
  rw [Input.chooseBay_eq, Input.bayChosen, hnone]
  exact List.find?_eq_none.mpr fun j hj => by simpa using hkept j hj

/-- The choice of a bay leaves every other one (R95). -/
theorem Input.bay_takeBay_ne (x : Input) {k j : Nat} (n : Nat) (h : j ≠ k) : (x.takeBay k n).bay j = x.bay j :=
  x.bay_setBay_ne _ h

/-! ## Where a change of the Capture Unit reaches -/

/-- Of the blocks the Port, one input and the clips alone may have moved. -/
def Blocks.movesInput (i : Nat) (b t : Blocks) : Prop :=
  (∀ j, j ≠ i → t.cap.input j = b.cap.input j) ∧ t.rep.headA = b.rep.headA ∧ t.rep.headB = b.rep.headB ∧
  t = { b with port := t.port, cap := t.cap, rep := t.rep }

theorem Blocks.movesInput.trans {i : Nat} {a b c : Blocks} (h : a.movesInput i b) (k : b.movesInput i c) :
    a.movesInput i c := by
  obtain ⟨hin, hA, hB, hrest⟩ := h
  obtain ⟨kin, kA, kB, krest⟩ := k
  refine ⟨fun j hj => (kin j hj).trans (hin j hj), kA.trans hA, kB.trans hB, ?_⟩
  rw [hrest] at krest
  exact krest

theorem Blocks.onInput_movesInput (b : Blocks) (i : Nat) (f : Input → Input) : b.movesInput i (b.onInput i f) :=
  ⟨fun _ hj => b.cap.input_setInput_ne _ hj, rfl, rfl, rfl⟩

theorem Blocks.onPort_movesInput (b : Blocks) (i : Nat) (f : Port → Port) : b.movesInput i (b.onPort f) :=
  ⟨fun _ _ => rfl, rfl, rfl, rfl⟩

end Sys2Proof.Machine
end


section
/-! PROOFS. What a numbered frame does to the clips: claims, live edges, the clips that close, and their notices (O38 to O40). -/

namespace Sys2Proof.Machine

/-! ## Notices where only the notice area need lie clear -/

/-- Show Memory is in its canonical form, and the notice area lies clear of the host page and the part page: what the notices
of R189 need of a layout. -/
def Port.noticesClear (p : Port) : Prop := Memory.wf p.mem = true ∧ 2 ≤ (p.area 8).first

/-- Every small change of the part keeps it. -/
theorem closed_noticesClear : Port.Closed Port.noticesClear where
  write _ _ _ _ hp := ⟨wf_memWrite _ _ _ hp.1, hp.2⟩
  desks _ _ hp := hp
  setLatches p l hp := by
    refine ⟨by rw [Port.setLatches_mem]; exact hp.1, ?_⟩
    unfold Port.area; rw [Port.setLatches_areas]; exact hp.2
  evalConditions p hp := by rw [Port.evalConditions_eq]; exact hp
  noticeWrite _ _ hp := hp
  logWrite _ _ hp := hp
  overrun _ _ hp := hp
  logFull _ _ hp := hp
  unstated _ _ hp := hp
  loadLocks _ _ hp := hp

theorem Port.laid.noticesClear {p : Port} (h : p.laid) : p.noticesClear := ⟨h.1, h.2 8 (by omega)⟩

theorem Port.noticesClear.noticed {p : Port} (h : p.noticesClear) (k : NoticeKind) (n : Nat) (v : Word) :
    noticed k.code n v p (p.notice k n v) := p.notice_noticeTaken k n v h.1 h.2

/-! ## The clips that close (R109) -/

/-- An OPEN clip of input `i` closes as the input numbers frame `n` (R109). -/
def Clip.closes (x : Clip) (i n : Nat) : Bool := x.input == i && x.outPoint == none && x.closeNumber == n

/-- A clip closed at a number: its out-point, and no live edge (R109). -/
def Clip.closedAt (x : Clip) (n : Nat) : Clip := { x with outPoint := some n, edge := none }

theorem Clip.closes_iff (x : Clip) (i n : Nat) :
    x.closes i n = true ↔ x.input = i ∧ x.outPoint = none ∧ min (x.inPoint + 599) 4294967295 = n := by
  unfold Clip.closes Clip.closeNumber Config.lastNumber
  simp [and_assoc]

theorem Blocks.closing_eq (b : Blocks) (i n : Nat) : b.closing i n =
    (List.range b.rep.clips.length).filter fun c => ((b.rep.clip c).map fun x => x.closes i n).getD false :=
  tfindFrom_eq_filter none _ _

/-- The clips that close are those the close number says. -/
theorem Blocks.mem_closing (b : Blocks) (i n c : Nat) :
    c ∈ b.closing i n ↔ ∃ x, b.rep.clip c = some x ∧ x.closes i n = true := by
  rw [Blocks.closing_eq, List.mem_filter, List.mem_range]
  constructor
  · rintro ⟨-, h⟩
    cases hx : b.rep.clip c with
    | none => simp [hx] at h
    | some x => exact ⟨x, rfl, by simpa [hx] using h⟩
  · rintro ⟨x, hx, hc⟩
    refine ⟨?_, by simp [hx, hc]⟩
    by_contra hbeyond
    simp [Replay.clip, tget_beyond none b.rep.clips c (by omega)] at hx

/-- CLIP_CLOSED is given by the clips that close (R109). -/
theorem Blocks.clipsClosed_eq (b : Blocks) (i n : Nat) :
    b.clipsClosed i n = (b.closing i n).map fun c => noticed 9 c (toWord n) := by
  rw [Blocks.closing_eq, Blocks.clipsClosed]
  induction List.range b.rep.clips.length with
  | nil => rfl
  | cons c l ih =>
    rw [List.flatMap_cons, ih, List.filter_cons]
    cases b.rep.clip c with
    | none => rfl
    | some x =>
      simp only [← Clip.closes_iff, Option.map_some, Option.getD_some]
      split <;> rfl

/-- Which clips close is said by the numbers of the clips. -/
theorem Blocks.clipsClosed_congr {b t : Blocks} (hlen : t.rep.clips.length = b.rep.clips.length)
    (hclip : ∀ c, (t.rep.clip c).map (fun x => (x.input, x.inPoint, x.outPoint)) =
      (b.rep.clip c).map fun x => (x.input, x.inPoint, x.outPoint)) (i n : Nat) : t.clipsClosed i n = b.clipsClosed i n := by
  unfold Blocks.clipsClosed
  rw [hlen]
  refine congrArg (fun f => List.flatMap f _) (funext fun c => ?_)
  have h := hclip c
  cases ht : t.rep.clip c with
  | none => cases hb : b.rep.clip c with
    | none => rfl
    | some y => simp [ht, hb] at h
  | some x => cases hb : b.rep.clip c with
    | none => simp [ht, hb] at h
    | some y =>
      simp only [ht, hb, Option.map_some, Option.some.injEq, Prod.mk.injEq] at h
      obtain ⟨hin, hfrom, hout⟩ := h
      simp only [hin, hfrom, hout]

/-- One clip closed (R109). -/
theorem Blocks.closeClip_some {b : Blocks} {c : Nat} {x : Clip} (h : b.rep.clip c = some x) (n : Nat) : b.closeClip c n =
    { b with rep := b.rep.setClip c (some (x.closedAt n)), port := b.port.notice .clipClosed c (toWord n) } := by
  unfold Blocks.closeClip
  rw [h]
  rfl

/-- Some clips closed, one after another: the clips, and the notices on the Port (R109). -/
theorem Blocks.foldl_closeClip (n : Nat) (l : List Nat) (b : Blocks) (hl : ∀ c ∈ l, (b.rep.clip c).isSome) :
    let t := l.foldl (fun b c => b.closeClip c n) b
    t = { b with port := l.foldl (fun p c => p.notice .clipClosed c (toWord n)) b.port
                 rep := { b.rep with clips := t.rep.clips } } ∧
    ∀ d, t.rep.clip d = (b.rep.clip d).map fun x => if d ∈ l then x.closedAt n else x := by
  induction l generalizing b with
  | nil => exact ⟨rfl, fun d => by simp⟩
  | cons c l ih =>
    obtain ⟨x, hx⟩ := Option.isSome_iff_exists.mp (hl c List.mem_cons_self)
    have hone := Blocks.closeClip_some hx n
    have hclip (d : Nat) : (b.closeClip c n).rep.clip d = (b.rep.clip d).map fun x => if d = c then x.closedAt n else x := by
      rw [hone]
      by_cases hd : d = c
      · subst hd; simp [hx]
      · simp [Replay.clip_setClip_ne _ _ hd, hd]
    obtain ⟨hrest, hclips⟩ := ih (b.closeClip c n) fun d hd => by
      rw [hclip, Option.isSome_map]; exact hl d (List.mem_cons_of_mem _ hd)
    refine ⟨hrest.trans (by simp only [List.foldl_cons, hone]; rfl), fun d => (hclips d).trans ?_⟩
    rw [hclip, Option.map_map]
    refine congrArg (Option.map · _) (funext fun y => ?_)
    by_cases hd : d = c <;> by_cases hm : d ∈ l <;> simp [hd, hm, Clip.closedAt]

theorem Blocks.closing_isSome (b : Blocks) (i n : Nat) : ∀ c ∈ b.closing i n, (b.rep.clip c).isSome := fun c hc => by
  obtain ⟨x, hx, -⟩ := (b.mem_closing i n c).mp hc
  simp [hx]

/-- The closing of clips moves the clips and the Port alone (R109). -/
theorem Blocks.closeClips_eq (b : Blocks) (i n : Nat) : b.closeClips i n =
    { b with port := (b.closeClips i n).port, rep := { b.rep with clips := (b.closeClips i n).rep.clips } } := by
  have h := (Blocks.foldl_closeClip n _ b (b.closing_isSome i n)).1
  unfold Blocks.closeClips
  rw [h]

theorem Blocks.closeClips_cap (b : Blocks) (i n : Nat) : (b.closeClips i n).cap = b.cap := by rw [Blocks.closeClips_eq]

theorem Blocks.closeClips_movesInput (b : Blocks) (i n : Nat) : b.movesInput i (b.closeClips i n) := by
  rw [Blocks.closeClips_eq]
  exact ⟨fun _ _ => rfl, rfl, rfl, rfl⟩

/-- A clip once a frame is numbered and makes no claim (R96, R109). -/
theorem Clip.numbered_none (x : Clip) (i n : Nat) : x.numbered i n none = if x.closes i n = true then x.closedAt n else x := by
  simp only [Clip.closes_iff]
  rfl

/-- The clips once those of an input that end at a number are closed (R109). -/
theorem Blocks.closeClips_clip (b : Blocks) (i n c : Nat) :
    (b.closeClips i n).rep.clip c = (b.rep.clip c).map fun x => x.numbered i n none := by
  refine ((Blocks.foldl_closeClip n _ b (b.closing_isSome i n)).2 c).trans ?_
  cases hx : b.rep.clip c with
  | none => rfl
  | some x =>
    have hiff : c ∈ b.closing i n ↔ x.closes i n = true := by simp [Blocks.mem_closing, hx]
    simp [hiff, Clip.numbered_none]

/-- The closing of clips gives CLIP_CLOSED for each (R109). -/
theorem Blocks.closeClips_through {b : Blocks} (h : b.port.noticesClear) (i n : Nat) :
    Port.through (b.clipsClosed i n) b.port (b.closeClips i n).port := by
  have hport := congrArg Blocks.port (Blocks.foldl_closeClip n _ b (b.closing_isSome i n)).1
  rw [Blocks.clipsClosed_eq, List.map_eq_flatMap]
  unfold Blocks.closeClips
  rw [hport]
  exact Port.through_foldl Port.noticesClear _ _ (fun p c hp => closed_noticesClear.notice p .clipClosed c (toWord n) hp)
    (fun p c hp => Port.through_one (hp.noticed .clipClosed c (toWord n))) _ _ h

/-! ## Claims and live edges (R108) -/

theorem Clip.claims'_eq (x : Clip) (i n k : Nat) : x.claims' i n k = x.claimsAt i n k := by
  unfold Clip.claims' Clip.claimsAt Clip.inRange
  cases x.outPoint with
  | none => simp only [Bool.and_true]
  | some o => simp only [Bool.and_assoc]

/-- A clip once a frame of an input is written into a bay, before any closes (R108). -/
def Clip.recorded (x : Clip) (i n k : Nat) : Clip :=
  (if x.claims' i n k then { x with claims := x.claims ++ [k] } else x).raiseEdge i n

/-- It keeps all but its claims and its live edge. -/
theorem Clip.recorded_eq (x : Clip) (i n k : Nat) : x.recorded i n k =
    { x with
      claims := if x.claimsAt i n k then x.claims ++ [k] else x.claims
      edge := if x.input = i ∧ x.outPoint = none ∧ x.inPoint ≤ n ∧ (x.edge.all fun e => decide (e < n)) = true
        then some n else x.edge } := by
  have hedge (y : Clip) : y.raiseEdge i n = { y with
      edge := if y.input = i ∧ y.outPoint = none ∧ y.inPoint ≤ n ∧ (y.edge.all fun e => decide (e < n)) = true
        then some n else y.edge } := by
    unfold Clip.raiseEdge
    cases he : y.edge with
    | none => simp only [Option.getD_none, Option.all_none, Nat.zero_le, and_true]; split <;> simp [← he]
    | some e =>
      simp only [Option.getD_some, Option.all_some, decide_eq_true_eq]
      by_cases hn : e = n
      · subst hn
        simp [← he]
      · simp only [show e ≤ n ↔ e < n by omega]
        split <;> simp [← he]
  unfold Clip.recorded
  rw [Clip.claims'_eq, hedge]
  split <;> rfl

/-- A clip once a frame is written into a bay: its claim and its edge, then its end (R108, R109). -/
theorem Clip.numbered_some (x : Clip) (i n k : Nat) : (x.recorded i n k).numbered i n none = x.numbered i n (some k) := by
  rw [Clip.recorded_eq]
  rfl

theorem Blocks.claimFrame_clip (b : Blocks) (i n k c : Nat) :
    (b.claimFrame i n k).rep.clip c = (b.rep.clip c).map fun x => x.recorded i n k := b.rep.clip_mapClips _ c

theorem Blocks.claimFrame_movesInput (b : Blocks) (i n k : Nat) : b.movesInput i (b.claimFrame i n k) :=
  ⟨fun _ hj => b.cap.input_setInput_ne _ hj, rfl, rfl, rfl⟩

/-- The claims join the bay's pending count (R98, R108). -/
theorem Blocks.claimFrame_input (b : Blocks) (i n k : Nat) : (b.claimFrame i n k).cap.input i =
    (b.cap.input i).setBay k { (b.cap.input i).bay k with
      pending := ((b.cap.input i).bay k).pending + b.claimsMade i n k } := by
  have hcount : (b.rep.clips.filter fun c => (c.map (·.claims' i n k)).getD false).length = b.claimsMade i n k := by
    unfold Blocks.claimsMade
    refine congrArg (fun p => (b.rep.clips.filter p).length) (funext fun c => ?_)
    cases c with
    | none => rfl
    | some x => exact x.claims'_eq i n k
  unfold Blocks.claimFrame
  rw [hcount]
  exact Capture.input_setInput_self ..

/-- Which clips close is not moved by their claims. -/
theorem Blocks.claimFrame_clipsClosed (b : Blocks) (i n k : Nat) :
    (b.claimFrame i n k).clipsClosed i n = b.clipsClosed i n := by
  refine Blocks.clipsClosed_congr (length_tmapFrom ..) (fun c => ?_) i n
  rw [Blocks.claimFrame_clip, Option.map_map]
  refine congrArg (Option.map · _) (funext fun x => ?_)
  show ((x.recorded i n k).input, (x.recorded i n k).inPoint, (x.recorded i n k).outPoint) = _
  rw [Clip.recorded_eq]

end Sys2Proof.Machine
end


section
/-! PROOFS. What a conforming frame does to its input, the clips and the Port (R92, R94 to R97; O38 to O40). -/

namespace Sys2Proof.Machine

/-! ## The input, its bay by its bay -/

/-- An input with a frame written behind those of bay `k`, whose pending count `claims` clips raise (R94, R98). -/
def Input.stored (x : Input) (k claims : Nat) (p : Picture) : Input :=
  { x.setBay k { (x.bay k).write p with pending := (x.bay k).pending + claims } with
    state := .capturing, next := x.next + 1, live := some p }

/-- An input whose FILLING bay `k` is now FILLED, at the tail of the age list (R94). -/
def Input.filledBay (x : Input) (k : Nat) : Input := { x.setBay k (x.bay k).fill with ages := x.ages ++ [k] }

/-- The state and the flag of a STARVED input (R96). -/
def Input.starve (x : Input) : Input := { x with state := .starved, starved := true }

/-- An input whose full bay is FILLED, the next bay chosen at once (R94 to R96). -/
def Input.filledUp (x : Input) (k : Nat) : Input :=
  match (x.filledBay k).chooseBay with
  | some j => (x.filledBay k).takeBay j x.next
  | none => (x.filledBay k).starve

/-- An input that takes a chosen bay at an arrival (R97). -/
def Input.resumed (x : Input) (k : Nat) : Input := { x.takeBay k x.next with starved := false }

/-- An input that numbers a frame and discards it (R96). -/
def Input.discarded (x : Input) (p : Picture) : Input := { x.starve with next := x.next + 1, live := some p }

@[simp] theorem Input.stored_bay_self (x : Input) (k claims : Nat) (p : Picture) :
    (x.stored k claims p).bay k = { (x.bay k).write p with pending := (x.bay k).pending + claims } := x.bay_setBay_self ..

theorem Input.stored_bay_ne (x : Input) {k j : Nat} (claims : Nat) (p : Picture) (h : j ≠ k) :
    (x.stored k claims p).bay j = x.bay j := x.bay_setBay_ne _ h

@[simp] theorem Input.filledBay_bay_self (x : Input) (k : Nat) : (x.filledBay k).bay k = (x.bay k).fill := x.bay_setBay_self ..

theorem Input.filledBay_bay_ne (x : Input) {k j : Nat} (h : j ≠ k) : (x.filledBay k).bay j = x.bay j := x.bay_setBay_ne _ h

@[simp] theorem Input.resumed_bay_self (x : Input) (k : Nat) :
    (x.resumed k).bay k = { Bay.empty with state := .filling, first := x.next } := x.bay_setBay_self ..

theorem Input.resumed_bay_ne (x : Input) {k j : Nat} (h : j ≠ k) : (x.resumed k).bay j = x.bay j := x.bay_setBay_ne _ h

theorem Input.filledUp_next (x : Input) (k : Nat) : (x.filledUp k).next = x.next := by
  unfold Input.filledUp
  split <;> rfl

/-- An input has room for one more frame behind those of bay `k` (R94). -/
def Input.leavesRoom (x : Input) (k : Nat) : Prop := (x.bay k).frames.length + 1 < x.baySize

/-! ## A frame written -/

/-- A frame written into bay `k`, the claims made and the clips that end with it closed, before the bay is looked at
(R94, R108, R109). -/
def Blocks.written (b : Blocks) (i k : Nat) (p : Picture) : Blocks :=
  let n := (b.cap.input i).next
  let b := b.onInput i fun x =>
    { x.setBay k ((x.bay k).write p) with state := .capturing, next := n + 1, live := some p }
  (b.claimFrame i n k).closeClips i n

/-- A frame written fills its bay, or leaves room in it (R94). -/
theorem Blocks.storeFrame_eq (b : Blocks) (i k : Nat) (p : Picture) : b.storeFrame i k p =
    if ((b.written i k p).cap.input i).baySize ≤ (((b.written i k p).cap.input i).bay k).frames.length ∧
      (b.cap.input i).next ≠ 4294967295 then (b.written i k p).fillBay i k else b.written i k p := rfl

section Written

variable (b : Blocks) (i k : Nat) (p : Picture)

theorem Blocks.written_movesInput : b.movesInput i (b.written i k p) :=
  (b.onInput_movesInput i _).trans ((Blocks.claimFrame_movesInput _ i _ k).trans (Blocks.closeClips_movesInput _ i _))

theorem Blocks.written_input : (b.written i k p).cap.input i =
    (b.cap.input i).stored k (b.claimsMade i (b.cap.input i).next k) p := by
  unfold Blocks.written
  rw [Blocks.closeClips_cap, Blocks.claimFrame_input]
  simp only [Blocks.onInput_cap, Capture.input_setInput_self]
  simp only [Input.setBay, Input.bay, tget_tset_self, tset_tset]
  rfl

theorem Blocks.written_clip (c : Nat) : (b.written i k p).rep.clip c =
    (b.rep.clip c).map fun x => x.numbered i (b.cap.input i).next (some k) := by
  unfold Blocks.written
  rw [Blocks.closeClips_clip, Blocks.claimFrame_clip, Option.map_map]
  exact congrArg (Option.map · _) (funext fun x => x.numbered_some i _ k)

theorem Blocks.written_through (h : b.port.noticesClear) :
    Port.through (b.clipsClosed i (b.cap.input i).next) b.port (b.written i k p).port := by
  have hclosed := Blocks.closeClips_through (b := (b.onInput i fun x => { x.setBay k ((x.bay k).write p) with
    state := .capturing, next := (b.cap.input i).next + 1, live := some p }).claimFrame i (b.cap.input i).next k) h i
    (b.cap.input i).next
  rw [Blocks.claimFrame_clipsClosed] at hclosed
  exact hclosed

theorem Blocks.written_noticesClear (h : b.port.noticesClear) : (b.written i k p).port.noticesClear :=
  closed_noticesClear.closeClips _ _ _ h

end Written

/-! ## The steps of an arrival -/

section Steps

variable (b : Blocks) (i k : Nat) (p : Picture)

theorem Blocks.starve_eq (n : Nat) : b.starve i n =
    { b.onInput i Input.starve with
      port := if (b.cap.input i).starved then b.port else b.port.notice .captureStarved i (toWord n) } := by
  unfold Blocks.starve
  dsimp only
  split <;> rfl

theorem Blocks.resume_eq : b.resume i k =
    { b.onInput i (·.resumed k) with
      port := if (b.cap.input i).starved then b.port.notice .captureResumed i (toWord (b.cap.input i).next) else b.port } := by
  unfold Blocks.resume
  dsimp only
  split <;> rfl

/-- Where a bay is chosen behind the full one (R95). -/
theorem Blocks.fillBay_chosen {j : Nat} (h : ((b.cap.input i).filledBay k).chooseBay = some j) : b.fillBay i k =
    (b.onInput i (·.filledBay k)).onInput i fun x => x.takeBay j x.next := by
  unfold Blocks.fillBay
  have hx : ((b.onInput i (·.filledBay k)).cap.input i).chooseBay = some j :=
    (congrArg Input.chooseBay (Capture.input_setInput_self ..)).trans h
  unfold Input.filledBay at hx
  simp only [hx]
  rfl

/-- Where none can be chosen (R96). -/
theorem Blocks.fillBay_none (h : ((b.cap.input i).filledBay k).chooseBay = none) : b.fillBay i k =
    (b.onInput i (·.filledBay k)).starve i (b.cap.input i).next := by
  unfold Blocks.fillBay
  have hinput : (b.onInput i (·.filledBay k)).cap.input i = (b.cap.input i).filledBay k := Capture.input_setInput_self ..
  have hx := (congrArg Input.chooseBay hinput).trans h
  have hnext := congrArg Input.next hinput
  unfold Input.filledBay at hx hnext
  simp only [hx, hnext]
  rfl

theorem Blocks.fillBay_input : (b.fillBay i k).cap.input i = (b.cap.input i).filledUp k := by
  unfold Input.filledUp
  cases h : ((b.cap.input i).filledBay k).chooseBay with
  | none => rw [Blocks.fillBay_none b i k h, Blocks.starve_eq]; simp
  | some j => rw [Blocks.fillBay_chosen b i k h]; simp; rfl

theorem Blocks.fillBay_rep : (b.fillBay i k).rep = b.rep := by
  cases h : ((b.cap.input i).filledBay k).chooseBay with
  | none => rw [Blocks.fillBay_none b i k h, Blocks.starve_eq]; rfl
  | some j => rw [Blocks.fillBay_chosen b i k h]; rfl

theorem Blocks.starve_movesInput (n : Nat) : b.movesInput i (b.starve i n) := by
  rw [Blocks.starve_eq]
  exact ⟨fun _ hj => b.cap.input_setInput_ne _ hj, rfl, rfl, rfl⟩

theorem Blocks.fillBay_movesInput : b.movesInput i (b.fillBay i k) := by
  cases h : ((b.cap.input i).filledBay k).chooseBay with
  | none =>
    rw [Blocks.fillBay_none b i k h]
    exact (b.onInput_movesInput i _).trans (Blocks.starve_movesInput _ i _)
  | some j =>
    rw [Blocks.fillBay_chosen b i k h]
    exact (b.onInput_movesInput i _).trans (Blocks.onInput_movesInput _ i _)

theorem Blocks.resume_movesInput : b.movesInput i (b.resume i k) := by
  rw [Blocks.resume_eq]
  exact ⟨fun _ hj => b.cap.input_setInput_ne _ hj, rfl, rfl, rfl⟩

theorem Blocks.storeFrame_movesInput : b.movesInput i (b.storeFrame i k p) := by
  rw [Blocks.storeFrame_eq]
  split
  · exact (b.written_movesInput i k p).trans (Blocks.fillBay_movesInput _ i k)
  · exact b.written_movesInput i k p

theorem Blocks.storeFrame_clip (c : Nat) : (b.storeFrame i k p).rep.clip c =
    (b.rep.clip c).map fun x => x.numbered i (b.cap.input i).next (some k) := by
  rw [← b.written_clip i k p, Blocks.storeFrame_eq]
  split
  · rw [Blocks.fillBay_rep]
  · rfl

/-- A frame that leaves room in its bay, or that has the last number, is written and no more (R94, log entry 24). -/
theorem Blocks.storeFrame_roomy (h : (b.cap.input i).next ≠ 4294967295 → (b.cap.input i).leavesRoom k) :
    b.storeFrame i k p = b.written i k p := by
  rw [Blocks.storeFrame_eq, if_neg]
  rintro ⟨hfull, hlast⟩
  have hroom := h hlast
  rw [Blocks.written_input, Input.stored_bay_self] at hfull
  unfold Input.leavesRoom at hroom
  simp only [Bay.write, List.length_append, List.length_singleton] at hfull
  change (b.cap.input i).baySize ≤ _ at hfull
  omega

/-- A frame that fills its bay makes it FILLED, and the next bay is chosen (R94, R95). -/
theorem Blocks.storeFrame_full (hlast : (b.cap.input i).next ≠ 4294967295) (h : ¬(b.cap.input i).leavesRoom k) :
    b.storeFrame i k p = (b.written i k p).fillBay i k := by
  rw [Blocks.storeFrame_eq, if_pos]
  refine ⟨?_, hlast⟩
  rw [Blocks.written_input, Input.stored_bay_self]
  unfold Input.leavesRoom at h
  simp only [Bay.write, List.length_append, List.length_singleton]
  change (b.cap.input i).baySize ≤ _
  omega

theorem Blocks.storeFrame_next : ((b.storeFrame i k p).cap.input i).next = (b.cap.input i).next + 1 := by
  rw [Blocks.storeFrame_eq]
  split
  · rw [Blocks.fillBay_input, Input.filledUp_next, Blocks.written_input]; rfl
  · rw [Blocks.written_input]; rfl

theorem Blocks.discardFrame_movesInput : b.movesInput i (b.discardFrame i p) :=
  (b.starve_movesInput i _).trans ((Blocks.onInput_movesInput _ i _).trans (Blocks.closeClips_movesInput _ i _))

theorem Blocks.discardFrame_input : (b.discardFrame i p).cap.input i = (b.cap.input i).discarded p := by
  unfold Blocks.discardFrame
  rw [Blocks.closeClips_cap, Blocks.starve_eq]
  simp [Input.discarded, Input.starve]

theorem Blocks.discardFrame_clip (c : Nat) : (b.discardFrame i p).rep.clip c =
    (b.rep.clip c).map fun x => x.numbered i (b.cap.input i).next none := by
  unfold Blocks.discardFrame
  rw [Blocks.closeClips_clip, Blocks.starve_eq]
  rfl

theorem Blocks.starve_through (n : Nat) (h : b.port.noticesClear) :
    Port.through (if (b.cap.input i).starved then [] else [noticed 6 i (toWord n)]) b.port (b.starve i n).port := by
  rw [Blocks.starve_eq]
  dsimp only
  split
  · exact Port.through_nil _
  · exact Port.through_one (h.noticed .captureStarved i _)

theorem Blocks.resume_through (h : b.port.noticesClear) :
    Port.through (if (b.cap.input i).starved then [noticed 7 i (toWord (b.cap.input i).next)] else []) b.port
      (b.resume i k).port := by
  rw [Blocks.resume_eq]
  dsimp only
  split
  · exact Port.through_one (h.noticed .captureResumed i _)
  · exact Port.through_nil _

theorem Blocks.discardFrame_through (h : b.port.noticesClear) :
    Port.through ((if (b.cap.input i).starved then [] else [noticed 6 i (toWord (b.cap.input i).next)]) ++
      b.clipsClosed i (b.cap.input i).next) b.port (b.discardFrame i p).port := by
  have hstarve := b.starve_through i (b.cap.input i).next h
  have hclosed := Blocks.closeClips_through (b := (b.starve i (b.cap.input i).next).onInput i fun x =>
    { x with next := (b.cap.input i).next + 1, live := some p }) (closed_noticesClear.starve b i _ h) i (b.cap.input i).next
  have hsame : ((b.starve i (b.cap.input i).next).onInput i fun x =>
      { x with next := (b.cap.input i).next + 1, live := some p }).clipsClosed i (b.cap.input i).next =
      b.clipsClosed i (b.cap.input i).next := by
    rw [Blocks.starve_eq]
    rfl
  rw [hsame] at hclosed
  exact Port.through_append hstarve hclosed

end Steps

/-! ## The conforming frame (R92, R94 to R97) -/

section Number

variable (b : Blocks) (i : Nat) (p : Picture)

/-- A frame goes into the FILLING bay where there is one. -/
theorem Blocks.numberFrame_filling {k : Nat} (h : (b.cap.input i).filling = some k) :
    b.numberFrame i p = b.storeFrame i k p := by
  unfold Blocks.numberFrame
  rw [h]

/-- Else into the bay that is chosen. -/
theorem Blocks.numberFrame_chosen {k : Nat} (h : (b.cap.input i).filling = none) (hk : (b.cap.input i).chooseBay = some k) :
    b.numberFrame i p = (b.resume i k).storeFrame i k p := by
  unfold Blocks.numberFrame
  rw [h]
  dsimp only
  rw [hk]

/-- And where none can be chosen it is discarded. -/
theorem Blocks.numberFrame_discarded (h : (b.cap.input i).filling = none) (hk : (b.cap.input i).chooseBay = none) :
    b.numberFrame i p = b.discardFrame i p := by
  unfold Blocks.numberFrame
  rw [h]
  dsimp only
  rw [hk]

theorem Blocks.resume_input (k : Nat) : (b.resume i k).cap.input i = (b.cap.input i).resumed k := by
  rw [Blocks.resume_eq]
  exact Capture.input_setInput_self ..

/-- A frame that is written into the bay chosen for it leaves room there, where a bay holds two frames or more. -/
theorem Blocks.resume_leavesRoom {k : Nat} (hsize : 2 ≤ (b.cap.input i).baySize) :
    ((b.resume i k).cap.input i).leavesRoom k := by
  unfold Input.leavesRoom
  rw [Blocks.resume_input, Input.resumed_bay_self]
  exact hsize

theorem Blocks.resume_rep (k : Nat) : (b.resume i k).rep = b.rep := by rw [Blocks.resume_eq]; rfl

theorem Blocks.numberFrame_movesInput : b.movesInput i (b.numberFrame i p) := by
  cases h : (b.cap.input i).filling with
  | some k => rw [b.numberFrame_filling i p h]; exact b.storeFrame_movesInput i k p
  | none => cases hk : (b.cap.input i).chooseBay with
    | some k =>
      rw [b.numberFrame_chosen i p h hk]
      exact (b.resume_movesInput i k).trans (Blocks.storeFrame_movesInput _ i k p)
    | none => rw [b.numberFrame_discarded i p h hk]; exact b.discardFrame_movesInput i p

/-- The clips once a frame is numbered, by the bay it is written into (R108, R109). -/
theorem Blocks.numberFrame_clip (c : Nat) : (b.numberFrame i p).rep.clip c = (b.rep.clip c).map fun x =>
    x.numbered i (b.cap.input i).next ((b.cap.input i).filling.or (b.cap.input i).chooseBay) := by
  cases h : (b.cap.input i).filling with
  | some k => rw [b.numberFrame_filling i p h]; exact b.storeFrame_clip i k p c
  | none => cases hk : (b.cap.input i).chooseBay with
    | some k =>
      rw [b.numberFrame_chosen i p h hk, Blocks.storeFrame_clip, Blocks.resume_rep, Blocks.resume_input]
      rfl
    | none => rw [b.numberFrame_discarded i p h hk]; exact b.discardFrame_clip i p c

theorem Blocks.numberFrame_next : ((b.numberFrame i p).cap.input i).next = (b.cap.input i).next + 1 := by
  cases h : (b.cap.input i).filling with
  | some k => rw [b.numberFrame_filling i p h]; exact b.storeFrame_next i k p
  | none => cases hk : (b.cap.input i).chooseBay with
    | some k => rw [b.numberFrame_chosen i p h hk, Blocks.storeFrame_next, Blocks.resume_input]; rfl
    | none => rw [b.numberFrame_discarded i p h hk, Blocks.discardFrame_input]; rfl

/-- The bay a numbered frame finds has room for it and for one more, where it is not the last frame: so no bay is chosen
behind it. -/
def Input.roomy (x : Input) : Prop :=
  x.next < 4294967295 → 2 ≤ x.baySize ∧ ∀ k, x.filling = some k → (x.bay k).frames.length + 1 < x.baySize

theorem Blocks.bayNoticed_filling {k : Nat} (h : (b.cap.input i).filling = some k) : b.bayNoticed i = [] := by
  simp only [Blocks.bayNoticed, h]

theorem Blocks.bayNoticed_chosen {k : Nat} (h : (b.cap.input i).filling = none) (hk : (b.cap.input i).chooseBay = some k) :
    b.bayNoticed i = if (b.cap.input i).starved then [noticed 7 i (toWord (b.cap.input i).next)] else [] := by
  simp only [Blocks.bayNoticed, h, hk]

theorem Blocks.bayNoticed_none (h : (b.cap.input i).filling = none) (hk : (b.cap.input i).chooseBay = none) :
    b.bayNoticed i = if (b.cap.input i).starved then [] else [noticed 6 i (toWord (b.cap.input i).next)] := by
  simp only [Blocks.bayNoticed, h, hk]

/-- The notices of a frame that does not fill its bay: of the bay it finds, then of the clips it closes (R96, R97, R109). -/
theorem Blocks.numberFrame_through (h : b.port.noticesClear) (hlast : (b.cap.input i).next ≤ 4294967295)
    (hroom : (b.cap.input i).roomy) :
    Port.through (b.bayNoticed i ++ b.clipsClosed i (b.cap.input i).next) b.port (b.numberFrame i p).port := by
  cases hf : (b.cap.input i).filling with
  | some k =>
    rw [b.bayNoticed_filling i hf, b.numberFrame_filling i p hf, b.storeFrame_roomy i k p fun hn => (hroom (by omega)).2 k hf]
    exact b.written_through i k p h
  | none => cases hk : (b.cap.input i).chooseBay with
    | some k =>
      have hroom' : ((b.resume i k).cap.input i).next ≠ 4294967295 → ((b.resume i k).cap.input i).leavesRoom k := by
        intro hn
        rw [Blocks.resume_input] at hn
        exact b.resume_leavesRoom i (hroom (Nat.lt_of_le_of_ne hlast hn)).1
      have hwritten := (b.resume i k).written_through i k p (closed_noticesClear.resume b i k h)
      have hsame (n : Nat) : (b.resume i k).clipsClosed i n = b.clipsClosed i n := by rw [Blocks.resume_eq]; rfl
      rw [hsame, Blocks.resume_input] at hwritten
      rw [b.bayNoticed_chosen i hf hk, b.numberFrame_chosen i p hf hk, Blocks.storeFrame_roomy _ i k p hroom']
      exact Port.through_append (b.resume_through i k h) hwritten
    | none =>
      rw [b.bayNoticed_none i hf hk, b.numberFrame_discarded i p hf hk]
      exact b.discardFrame_through i p h

/-- A frame not given the last number is numbered and no more (R92). -/
theorem Blocks.conformingArrival_numbered (h : (b.cap.input i).next ≠ 4294967295) :
    b.conformingArrival i p = b.numberFrame i p := if_neg h

/-- The frame given the last number exhausts the numbers (R92). -/
theorem Blocks.conformingArrival_last (h : (b.cap.input i).next = 4294967295) :
    b.conformingArrival i p = (b.numberFrame i p).exhaust i := if_pos h

/-- The input of a frame written into its FILLING bay with room left. -/
theorem Blocks.numberFrame_input_roomy {k : Nat} (h : (b.cap.input i).filling = some k) (hroom : (b.cap.input i).leavesRoom k) :
    (b.numberFrame i p).cap.input i = (b.cap.input i).stored k (b.claimsMade i (b.cap.input i).next k) p := by
  rw [b.numberFrame_filling i p h, b.storeFrame_roomy i k p fun _ => hroom, Blocks.written_input]

/-- The input of a frame that fills its bay. -/
theorem Blocks.numberFrame_input_full {k : Nat} (h : (b.cap.input i).filling = some k)
    (hlast : (b.cap.input i).next ≠ 4294967295) (hfull : ¬(b.cap.input i).leavesRoom k) :
    (b.numberFrame i p).cap.input i =
      ((b.cap.input i).stored k (b.claimsMade i (b.cap.input i).next k) p).filledUp k := by
  rw [b.numberFrame_filling i p h, b.storeFrame_full i k p hlast hfull, Blocks.fillBay_input, Blocks.written_input]

/-- The input of a frame written into the bay chosen for it. -/
theorem Blocks.numberFrame_input_chosen {k : Nat} (h : (b.cap.input i).filling = none)
    (hk : (b.cap.input i).chooseBay = some k) (hsize : 2 ≤ (b.cap.input i).baySize) : (b.numberFrame i p).cap.input i =
      ((b.cap.input i).resumed k).stored k (b.claimsMade i (b.cap.input i).next k) p := by
  have hsame (n : Nat) : (b.resume i k).claimsMade i n k = b.claimsMade i n k := by
    unfold Blocks.claimsMade
    rw [Blocks.resume_rep]
  rw [b.numberFrame_chosen i p h hk, Blocks.storeFrame_roomy _ i k p fun _ => b.resume_leavesRoom i hsize,
    Blocks.written_input, hsame, Blocks.resume_input]
  rfl

/-- The input of a frame discarded. -/
theorem Blocks.numberFrame_input_discarded (h : (b.cap.input i).filling = none) (hk : (b.cap.input i).chooseBay = none) :
    (b.numberFrame i p).cap.input i = (b.cap.input i).discarded p := by
  rw [b.numberFrame_discarded i p h hk, Blocks.discardFrame_input]

/-- A frame that fills its bay where none can be chosen behind it gives CAPTURE_STARVED at the next number, behind the clips
it closes (R96, R109). -/
theorem Blocks.numberFrame_through_full {k : Nat} (hport : b.port.noticesClear) (h : (b.cap.input i).filling = some k)
    (hlast : (b.cap.input i).next ≠ 4294967295) (hfull : ¬(b.cap.input i).leavesRoom k)
    (hnone : (((b.cap.input i).stored k (b.claimsMade i (b.cap.input i).next k) p).filledBay k).chooseBay = none) :
    Port.through (b.clipsClosed i (b.cap.input i).next ++
      if (b.cap.input i).starved then [] else [noticed 6 i (toWord ((b.cap.input i).next + 1))]) b.port
      (b.numberFrame i p).port := by
  have hwritten := b.written_input i k p
  have hstarve := Blocks.starve_through ((b.written i k p).onInput i (·.filledBay k)) i ((b.cap.input i).next + 1)
    (b.written_noticesClear i k p hport)
  have hinput : ((b.written i k p).onInput i (·.filledBay k)).cap.input i =
      ((b.cap.input i).stored k (b.claimsMade i (b.cap.input i).next k) p).filledBay k :=
    (Capture.input_setInput_self ..).trans (congrArg (·.filledBay k) hwritten)
  rw [hinput] at hstarve
  rw [b.numberFrame_filling i p h, b.storeFrame_full i k p hlast hfull, Blocks.fillBay_none _ i k (by rw [hwritten]; exact hnone),
    hwritten]
  exact Port.through_append (b.written_through i k p hport) hstarve

end Number

/-! ## A ring given back (R91, R92, R114) -/

section Ring

variable (b : Blocks) (i : Nat)

theorem Blocks.dropRing_movesInput : b.movesInput i (b.dropRing i) :=
  ⟨fun _ hj => b.cap.input_setInput_ne _ hj, rfl, rfl, rfl⟩

theorem Blocks.dropRing_input : (b.dropRing i).cap.input i = .offAt (b.cap.input i).next := Capture.input_setInput_self ..

theorem Blocks.dropRing_clip (c : Nat) : (b.dropRing i).rep.clip c =
    (b.rep.clip c).map fun x => if x.input = i then { x with claims := [] } else x := b.rep.clip_mapClips _ c

theorem Blocks.exhaust_movesInput : b.movesInput i (b.exhaust i) :=
  (b.dropRing_movesInput i).trans (Blocks.onPort_movesInput _ i _)

theorem Blocks.conformingArrival_movesInput (p : Picture) : b.movesInput i (b.conformingArrival i p) := by
  unfold Blocks.conformingArrival
  dsimp only
  split
  · exact (b.numberFrame_movesInput i p).trans (Blocks.exhaust_movesInput _ i)
  · exact b.numberFrame_movesInput i p

/-- The clips once a frame is numbered; those of an exhausted input keep no bay (R108, R109, R114). -/
theorem Blocks.conformingArrival_clip (p : Picture) (c : Nat) : (b.conformingArrival i p).rep.clip c =
    (b.rep.clip c).map fun x =>
      let y := x.numbered i (b.cap.input i).next ((b.cap.input i).filling.or (b.cap.input i).chooseBay)
      if (b.cap.input i).next = 4294967295 ∧ y.input = i then { y with claims := [] } else y := by
  by_cases hn : (b.cap.input i).next = 4294967295
  · rw [b.conformingArrival_last i p hn]
    refine (Blocks.dropRing_clip _ i c).trans ?_
    rw [Blocks.numberFrame_clip, Option.map_map]
    simp only [hn, true_and]
    rfl
  · rw [b.conformingArrival_numbered i p hn, Blocks.numberFrame_clip]
    simp only [hn, false_and, if_false]

/-- The notices of an arrival that does not fill its bay: of the bay it finds, of the clips it closes, of the end of the
numbers (R92, R96, R97, R109). -/
theorem Blocks.conformingArrival_through (p : Picture) (h : b.port.noticesClear) 
    (hlast : (b.cap.input i).next ≤ 4294967295) (hroom : (b.cap.input i).roomy) :
    Port.through (b.bayNoticed i ++ b.clipsClosed i (b.cap.input i).next ++
      if (b.cap.input i).next = 4294967295 then [noticed 8 i 4294967295] else []) b.port (b.conformingArrival i p).port := by
  have hnumbered := b.numberFrame_through i p h hlast hroom
  by_cases hn : (b.cap.input i).next = 4294967295
  · rw [b.conformingArrival_last i p hn, if_pos hn]
    exact Port.through_append hnumbered
      (Port.through_one ((closed_noticesClear.numberFrame b i p h).noticed .inputEnded i (toWord Config.lastNumber)))
  · rw [b.conformingArrival_numbered i p hn, if_neg hn, List.append_nil]
    exact hnumbered

/-- An input whose numbers are used up is OFF, with the number behind the last (R91, R92). -/
theorem Blocks.conformingArrival_input_last (p : Picture) (hn : (b.cap.input i).next = 4294967295) :
    (b.conformingArrival i p).cap.input i = .offAt 4294967296 := by
  rw [b.conformingArrival_last i p hn]
  refine (Blocks.dropRing_input _ i).trans ?_
  rw [Blocks.numberFrame_next, hn]

end Ring

/-- A clip that a number ends: its out-point and no live edge, all else but its claims as before (R109). -/
theorem Clip.numbered_of_closes {x : Clip} {i n : Nat} (h : x.closes i n = true) (bay : Option Nat) :
    ∃ claims, x.numbered i n bay = { x with outPoint := some n, edge := none, claims } := by
  cases bay with
  | none => exact ⟨x.claims, by rw [Clip.numbered_none, if_pos h]; rfl⟩
  | some k =>
    refine ⟨(x.recorded i n k).claims, ?_⟩
    have hsame : (x.recorded i n k).closes i n = true := by rw [Clip.recorded_eq]; exact h
    rw [← Clip.numbered_some, Clip.numbered_none, if_pos hsame, Clip.recorded_eq]
    rfl

end Sys2Proof.Machine
end


section
/-! PROOFS. Arrivals and losses of signal in time (O38 to O41). -/

namespace Sys2Proof.Machine

/-! ## The blocks as an arrival finds them -/

/-- An input after some periods is the input but for its state and its silence timer (R88). -/
theorem Part.elapse_input (dt : Nat) (s : Part) (j : Nat) : (s.elapse dt).blk.cap.input j =
    { s.blk.cap.input j with state := ((s.elapse dt).blk.cap.input j).state
                             silence := ((s.elapse dt).blk.cap.input j).silence } := by
  rcases (s.elapse_inputs dt).2 j with h | h
  · rw [h]
  · rw [h]; exact (Input.elapse_eq dt _).1

/-- Time makes no input OFF (R88, R89). -/
theorem Input.elapse_notOff {x : Input} (h : x.state ≠ .off) (dt : Nat) : (x.elapse dt).state ≠ .off := by
  unfold Input.elapse Input.loseSignal
  split
  · exact h
  · rw [if_neg h]; split
    · simp
    · exact h

/-- An input whose timer does not run out keeps its state (R88). -/
theorem Input.elapse_state {x : Input} {dt : Nat} (h : ∀ r, x.silence = some r → dt < r) :
    (x.elapse dt).state = x.state := by
  unfold Input.elapse
  split
  · rfl
  · rename_i r hr
    rw [if_neg (Nat.not_le.mpr (h r hr))]

theorem Part.elapse_notOff {s : Part} {i : Nat} (h : (s.blk.cap.input i).state ≠ .off) (dt : Nat) :
    ((s.elapse dt).blk.cap.input i).state ≠ .off := by
  rcases (s.elapse_inputs dt).2 i with he | he <;> rw [he]
  · exact h
  · exact Input.elapse_notOff h dt

theorem Part.elapse_inputState {s : Part} {i dt : Nat} (h : ∀ r, (s.blk.cap.input i).silence = some r → dt < r) :
    ((s.elapse dt).blk.cap.input i).state = (s.blk.cap.input i).state := by
  rcases (s.elapse_inputs dt).2 i with he | he <;> rw [he]
  exact Input.elapse_state h

/-- The blocks some periods on, the silence timer of an input restarted at 3L: what an arrival there finds (R88). -/
def Part.heard (dt i : Nat) (s : Part) : Blocks :=
  (s.elapse dt).blk.onInput i fun x => { x with silence := some (3 * s.tb.rate.length) }

theorem Part.heard_input (dt i : Nat) (s : Part) : (s.heard dt i).cap.input i =
    { s.blk.cap.input i with state := ((s.elapse dt).blk.cap.input i).state, silence := some (3 * s.tb.rate.length) } := by
  refine (Capture.input_setInput_self ..).trans ?_
  rw [Part.elapse_input]

theorem Part.heard_rep (dt i : Nat) (s : Part) : (s.heard dt i).rep = s.blk.rep := by
  unfold Part.heard
  rw [Part.elapse_blk]
  rfl

theorem Part.heard_port {dt : Nat} (i : Nat) {s : Part} (h : ∀ r, s.tb.syncTimer = some r → dt < r) :
    (s.heard dt i).port = s.blk.port := s.elapse_port dt h

/-- What an arrival that moves its input alone leaves of the rest. -/
theorem Part.heard_moved {dt i : Nat} {s : Part} {t : Blocks} (h : (s.heard dt i).movesInput i t) :
    (∀ j, j ≠ i → t.cap.input j =
      { s.blk.cap.input j with state := (t.cap.input j).state, silence := (t.cap.input j).silence }) ∧
    t.rep.headA = s.blk.rep.headA ∧ t.rep.headB = s.blk.rep.headB ∧
    t = { s.blk with port := t.port, cap := t.cap, rep := t.rep } := by
  obtain ⟨hin, hA, hB, hrest⟩ := h
  refine ⟨fun j hj => ?_, hA.trans (by rw [Part.heard_rep]), hB.trans (by rw [Part.heard_rep]), ?_⟩
  · have hj' : t.cap.input j = (s.elapse dt).blk.cap.input j := (hin j hj).trans (Capture.input_setInput_ne _ _ hj)
    rw [hj']
    exact s.elapse_input dt j
  · unfold Part.heard at hrest
    rw [Part.elapse_blk] at hrest
    exact hrest

/-- A frame taken at an input that is not OFF (R88, R89). -/
theorem Part.takeFrame_blk {s : Part} {i : Nat} (h : (s.blk.cap.input i).state ≠ .off) (dt : Nat) (conforming : Bool)
    (p : Picture) : ((s.elapse dt).takeFrame i conforming p).blk =
      if conforming then (s.heard dt i).conformingArrival i p
      else (s.heard dt i).onInput i fun x => { x with state := .mismatch } := by
  unfold Part.takeFrame Part.heard
  rw [← (s.elapse_tb_kept dt).1]
  exact if_neg (Part.elapse_notOff h dt)

/-- Time and a frame taken leave the registers and the layout. -/
theorem Part.takeFrame_sameFixed (s : Part) (dt i : Nat) (conforming : Bool) (p : Picture) :
    Port.sameFixed s.blk.port ((s.elapse dt).takeFrame i conforming p).blk.port :=
  (closed_sameFixed s.blk.port).arrive _ i _ conforming p (s.elapse_sameFixed dt)

/-- What decides the bay and the notices of an arrival is not moved by time. -/
theorem Part.heard_clipsClosed (dt i n : Nat) (s : Part) : (s.heard dt i).clipsClosed i n = s.blk.clipsClosed i n := by
  unfold Blocks.clipsClosed
  rw [Part.heard_rep]

theorem Part.heard_bayNoticed (dt i : Nat) (s : Part) : (s.heard dt i).bayNoticed i = s.blk.bayNoticed i := by
  unfold Blocks.bayNoticed
  rw [Part.heard_input]
  rfl

theorem Part.heard_claimsMade (dt i n k : Nat) (s : Part) : (s.heard dt i).claimsMade i n k = s.blk.claimsMade i n k := by
  unfold Blocks.claimsMade
  rw [Part.heard_rep]

/-- An arrival where its condition is met (log entry 14). -/
theorem Part.arrivalWhen_met {cond : Blocks → Bool} {dt i : Nat} {p : Picture} {s : Part} (hl : s.tb.synthLocked = true)
    (h : cond (s.elapse dt).blk = true) : s.arrivalWhen cond dt i p = (s.elapse dt).takeFrame i true p := by
  unfold Part.arrivalWhen
  rw [Part.afterTime_locked _ _ _ hl]
  exact if_pos h

/-! ## Loss of signal (R89) -/

theorem Input.loseSignal_of_notOff {x : Input} (h : x.state ≠ .off) :
    x.loseSignal = { x with state := .seeking, silence := none } := if_neg h

/-- At a present reference the silence timers run with the time (R88). -/
theorem Part.elapse_timers {s : Part} (hl : s.tb.synthLocked = true) (hr : s.tb.reference = true) (dt i : Nat) :
    (s.elapse dt).blk.cap.input i = (s.blk.cap.input i).elapse dt := by
  have hadvanced : (s.referencePresent.tb.advance dt).synthLocked = true := by
    unfold Timebase.advance Part.referencePresent
    dsimp only
    split <;> exact hl
  unfold Part.elapse
  rw [if_neg (by simp [hr])]
  dsimp only
  rw [if_pos (by rw [Part.withTimebase_tb, elapseSync_synthLocked]; exact hadvanced)]
  exact Capture.elapse_input dt s.blk.cap i

/-- Settles O41, by the timer that runs out or by the receiver's word behind the time. -/
theorem lossOfSignalSeeks : Obligations.LossOfSignalSeeks := by
  intro i cause s hl hr hoff hrun
  cases cause with
  | timer =>
    obtain ⟨r, hsilence⟩ := Option.ne_none_iff_exists'.mp (hrun rfl)
    have hpart : s.part.loseSignal i .timer = s.part.elapse r := by
      unfold Part.loseSignal Part.expireSilence
      simp only [hl, if_true, hsilence]
    refine ⟨{ s with part := s.part.elapse r }, State.next_onPart hpart, ?_, s.part.elapse_sec r, s.part.elapse_blk r⟩
    refine (s.part.elapse_timers hl hr r i).trans ?_
    unfold Input.elapse
    rw [hsilence]
    exact (if_pos (Nat.le_refl r)).trans (Input.loseSignal_of_notOff hoff)
  | receiver dt =>
    have hpart : s.part.loseSignal i (.receiver dt) = (s.part.elapse dt).onBlk (·.onInput i Input.loseSignal) :=
      Part.afterTime_locked dt (·.onBlk (·.onInput i Input.loseSignal)) s.part hl
    refine ⟨{ s with part := _ }, State.next_onPart hpart, ?_, s.part.elapse_sec dt, ?_⟩
    · refine (Capture.input_setInput_self ..).trans ?_
      rw [Input.loseSignal_of_notOff (Part.elapse_notOff hoff dt), Part.elapse_input]
    · show (s.part.elapse dt).blk.onInput i Input.loseSignal = _
      rw [Part.elapse_blk]
      rfl

end Sys2Proof.Machine
end


section
/-! PROOFS. Conforming arrivals: numbered and written, resumed, exhausted (O38 to O40). -/

namespace Sys2Proof.Machine

/-! ## What an arrival finds of its input -/

section Heard

variable {dt i : Nat}

theorem Part.heard_filling (dt i : Nat) (s : Part) : ((s.heard dt i).cap.input i).filling = (s.blk.cap.input i).filling := by
  rw [Part.heard_input]; rfl

theorem Part.heard_chooseBay (dt i : Nat) (s : Part) :
    ((s.heard dt i).cap.input i).chooseBay = (s.blk.cap.input i).chooseBay := by
  rw [Part.heard_input]; rfl

theorem Part.heard_next (dt i : Nat) (s : Part) : ((s.heard dt i).cap.input i).next = (s.blk.cap.input i).next := by
  rw [Part.heard_input]

theorem Part.heard_roomy {s : Part} (h : (s.blk.cap.input i).roomy) : ((s.heard dt i).cap.input i).roomy := by
  rw [Part.heard_input]; exact h

/-- A conforming arrival at an input that is not OFF leaves the blocks so. -/
theorem Part.conforming_blk {s : Part} (h : (s.blk.cap.input i).state ≠ .off) (dt : Nat) (p : Picture) :
    ((s.elapse dt).takeFrame i true p).blk = (s.heard dt i).conformingArrival i p := Part.takeFrame_blk h dt true p

/-- The chain of an arrival that does not fill its bay, from the Port as it was before the time (R92, R96, R97, R109). -/
theorem Part.conforming_through {s : Part} (p : Picture) (h : s.blk.port.noticesClear)
    (hsync : ∀ r, s.tb.syncTimer = some r → dt < r) (hlast : (s.blk.cap.input i).next ≤ 4294967295)
    (hroom : (s.blk.cap.input i).roomy) :
    Port.through (s.blk.bayNoticed i ++ s.blk.clipsClosed i (s.blk.cap.input i).next ++
      if (s.blk.cap.input i).next = 4294967295 then [noticed 8 i 4294967295] else []) s.blk.port
      ((s.heard dt i).conformingArrival i p).port := by
  have hport := s.heard_port i hsync
  have hchain := (s.heard dt i).conformingArrival_through i p (by rw [hport]; exact h) (by rw [Part.heard_next]; exact hlast)
    (Part.heard_roomy hroom)
  rwa [Part.heard_bayNoticed, Part.heard_clipsClosed, Part.heard_next, hport] at hchain

end Heard

/-! ## A bay chosen at an arrival (R95, R97) -/

/-- An input with a frame written into the bay chosen for it, whatever time made of its state and its timer. -/
theorem Input.resumed_stored (x : Input) (st : InputState) (timer k claims : Nat) (p : Picture) {y : Input}
    (h : y = (({ x with state := st, silence := some timer } : Input).resumed k).stored k claims p) :
    y = { x with state := .capturing, starved := false, next := x.next + 1, live := some p, silence := some timer
                 ages := x.ages.erase k, bays := y.bays } ∧
    y.bay k = { state := .filling, first := x.next, pending := claims, kept := 0, damaged := [], frames := [p] } ∧
    ∀ j, j ≠ k → y.bay j = x.bay j := by
  subst h
  refine ⟨rfl, ?_, fun j hj => ?_⟩
  · rw [Input.stored_bay_self, Input.resumed_bay_self, Bay.write, Bay.empty, Nat.zero_add]
    rfl
  · rw [Input.stored_bay_ne _ _ _ hj, Input.resumed_bay_ne _ hj]
    rfl

/-- The input of an arrival that finds a bay to choose. -/
theorem Part.chosen_input {s : Part} {dt i k : Nat} (p : Picture) (hf : (s.blk.cap.input i).filling = none)
    (hk : (s.blk.cap.input i).chooseBay = some k) (hsize : 2 ≤ (s.blk.cap.input i).baySize)
    (hlast : (s.blk.cap.input i).next < 4294967295) :
    let x := s.blk.cap.input i
    let y := ((s.heard dt i).conformingArrival i p).cap.input i
    y = { x with state := .capturing, starved := false, next := x.next + 1, live := some p
                 silence := some (3 * s.tb.rate.length), ages := x.ages.erase k, bays := y.bays } ∧
    y.bay k = { state := .filling, first := x.next, pending := s.blk.claimsMade i x.next k, kept := 0
                damaged := [], frames := [p] } ∧
    ∀ j, j ≠ k → y.bay j = x.bay j := by
  refine Input.resumed_stored _ ((s.elapse dt).blk.cap.input i).state _ _ _ _ ?_
  rw [Blocks.conformingArrival_numbered _ i p (by rw [Part.heard_next]; omega),
    Blocks.numberFrame_input_chosen _ i p ((Part.heard_filling ..).trans hf) ((Part.heard_chooseBay ..).trans hk)
      (by rw [Part.heard_input]; exact hsize), Part.heard_claimsMade, Part.heard_next, Part.heard_input]

/-- The clips of an arrival whose number is not the last, by the bay it is written into (R108, R109). -/
theorem Part.conforming_clip {s : Part} {dt i : Nat} (p : Picture) (hlast : (s.blk.cap.input i).next < 4294967295) (c : Nat) :
    ((s.heard dt i).conformingArrival i p).rep.clip c = (s.blk.rep.clip c).map fun x =>
      x.numbered i (s.blk.cap.input i).next ((s.blk.cap.input i).filling.or (s.blk.cap.input i).chooseBay) := by
  rw [Blocks.conformingArrival_numbered _ i p (by rw [Part.heard_next]; omega), Blocks.numberFrame_clip, Part.heard_next,
    Part.heard_filling, Part.heard_chooseBay, Part.heard_rep]

/-- Settles O39: the arrival is the frame written into the bay chosen for it. -/
theorem captureResumesInTheChosenBay : Obligations.CaptureResumesInTheChosenBay := by
  intro dt i k p s hl hstate hfilling htimer hchoose hsize hlast
  have hoff : (s.blk.cap.input i).state ≠ .off := by rw [hstate]; decide
  have hdue : resumable i (s.part.elapse dt).blk = true := by
    have hbay : ((s.part.elapse dt).blk.cap.input i).chooseBay = some k := by rw [Part.elapse_input]; exact hchoose
    unfold resumable
    rw [Part.elapse_inputState htimer, hbay]
    simp only [hstate]
    rfl
  have hblk := Part.conforming_blk hoff dt p
  obtain ⟨hinput, hbay, hbays⟩ := Part.chosen_input (dt := dt) p hfilling hchoose hsize hlast
  obtain ⟨-, -, -, hrest⟩ := Part.heard_moved (Blocks.conformingArrival_movesInput (s.part.heard dt i) i p)
  have hclips := Part.conforming_clip (dt := dt) p hlast
  rw [hfilling, hchoose] at hclips
  have hchain := fun hlaid hsync => Part.conforming_through (i := i) (dt := dt) p (s := s.part) (Port.laid.noticesClear hlaid)
    hsync (Nat.le_of_lt hlast) (fun _ => ⟨hsize, by simp [hfilling]⟩)
  rw [if_neg (Nat.ne_of_lt hlast), List.append_nil, Blocks.bayNoticed_chosen _ i hfilling hchoose] at hchain
  refine ⟨{ s with part := _ }, State.next_onPart (Part.arrivalWhen_met hl hdue), ?_⟩
  generalize (s.part.elapse dt).takeFrame i true p = t at hblk
  rw [← hblk] at hinput hbay hbays hrest hclips hchain
  exact ⟨congrArg Input.state hinput, congrArg Input.starved hinput, congrArg Input.next hinput, congrArg Input.live hinput,
    congrArg Bay.state hbay, congrArg Bay.first hbay, congrArg Bay.frames hbay, congrArg Input.ages hinput, hbays,
    congrArg Bay.pending hbay, congrArg Bay.kept hbay, hclips, hchain, hrest⟩

/-! ## The last number, and the number that ends a clip (R92, R109) -/

/-- Settles O40: the frame with the last number, and the frame that ends an OPEN clip. -/
theorem lastNumbersEndInputsAndClips : Obligations.LastNumbersEndInputsAndClips := by
  refine ⟨fun dt i p s hl hoff hlast => ?_, fun dt c p s x hl hclip hopen hoff hlast => ?_⟩
  · have hdue : exhausting i (s.part.elapse dt).blk = true := by
      have hnext : ((s.part.elapse dt).blk.cap.input i).next = 4294967295 := by rw [Part.elapse_input]; exact hlast
      unfold exhausting Config.lastNumber
      simpa [hnext] using Part.elapse_notOff hoff dt
    have hblk := Part.conforming_blk hoff dt p
    have hinput := Blocks.conformingArrival_input_last (s.part.heard dt i) i p ((Part.heard_next ..).trans hlast)
    obtain ⟨-, -, -, hrest⟩ := Part.heard_moved (Blocks.conformingArrival_movesInput (s.part.heard dt i) i p)
    have hclips := Blocks.conformingArrival_clip (s.part.heard dt i) i p
    have hchain := fun hlaid hsync => Part.conforming_through (i := i) (dt := dt) p (s := s.part)
      (Port.laid.noticesClear hlaid) hsync (Nat.le_of_eq hlast) (fun hn => absurd hlast (Nat.ne_of_lt hn))
    rw [if_pos hlast, hlast] at hchain
    refine ⟨{ s with part := _ }, State.next_onPart (Part.arrivalWhen_met hl hdue), ?_⟩
    generalize (s.part.elapse dt).takeFrame i true p = t at hblk
    rw [← hblk] at hinput hrest hclips hchain
    refine ⟨congrArg Input.state hinput, congrArg Input.next hinput, congrArg Input.bays hinput, fun c x hx hon => ?_, hchain,
      hrest⟩
    obtain ⟨y, -, hy⟩ := Option.map_eq_some_iff.mp ((hclips c).symm.trans hx)
    rw [Part.heard_next] at hy
    subst hy
    dsimp only at hon ⊢
    split
    · rfl
    · rename_i hkept
      rw [if_neg hkept] at hon
      exact absurd ⟨hlast, hon⟩ hkept
  · have hle : (s.blk.cap.input x.input).next ≤ 4294967295 := by rw [hlast]; exact Nat.min_le_right _ _
    have hrep : (s.part.elapse dt).blk.rep.clip c = some x := by rw [Part.elapse_blk]; exact hclip
    have hdue : closingNext c (s.part.elapse dt).blk = true := by
      have hnext : ((s.part.elapse dt).blk.cap.input x.input).next = x.closeNumber := by rw [Part.elapse_input]; exact hlast
      unfold closingNext
      simpa [hrep, hopen, hnext] using Part.elapse_notOff hoff dt
    have hon : s.part.blk.clipInput c = x.input := by
      unfold Blocks.clipInput
      rw [hclip]
      rfl
    have hpart : s.part.arrivalWhen (closingNext c) dt (s.part.blk.clipInput c) p =
        (s.part.elapse dt).takeFrame x.input true p := by rw [hon]; exact Part.arrivalWhen_met hl hdue
    have hblk := Part.conforming_blk hoff dt p
    obtain ⟨-, hA, hB, hrest⟩ := Part.heard_moved (Blocks.conformingArrival_movesInput (s.part.heard dt x.input) x.input p)
    have hclips := Blocks.conformingArrival_clip (s.part.heard dt x.input) x.input p c
    have hchain := fun hlaid hsync hroom => Part.conforming_through (i := x.input) (dt := dt) p (s := s.part)
      (Port.laid.noticesClear hlaid) hsync hle hroom
    rw [Part.heard_rep, hclip, Part.heard_next] at hclips
    obtain ⟨claims, hnumbered⟩ := Clip.numbered_of_closes (x := x) (i := x.input) (n := (s.blk.cap.input x.input).next)
      ((x.closes_iff _ _).mpr ⟨rfl, hopen, hlast.symm⟩)
      (((s.part.heard dt x.input).cap.input x.input).filling.or ((s.part.heard dt x.input).cap.input x.input).chooseBay)
    rw [Option.map_some, hnumbered] at hclips
    refine ⟨{ s with part := _ }, State.next_onPart hpart, ?_⟩
    generalize (s.part.elapse dt).takeFrame x.input true p = t at hblk
    rw [← hblk] at hA hB hrest hclips hchain
    refine ⟨⟨_, hclips, ?_⟩, hchain, hA, hB, hrest⟩
    rw [← hlast]
    dsimp only
    split <;> exact ⟨rfl, rfl, rfl, rfl, rfl⟩

end Sys2Proof.Machine
end


section
/-! PROOFS. Frame arrivals (O38). -/

namespace Sys2Proof.Machine

theorem conforms_iff (r : Rate) (f : CameraFrame) : conforms r f = true ↔
    f.width = 1920 ∧ f.height = 1080 ∧ f.progressive = true ∧
      f.rate = (match r with | .fps50 => .fps50 | .fps5994 => .fps5994 | .fps60 => .fps60) := by
  have hrate : (match r, f.rate with
      | .fps50, .fps50 => true | .fps5994, .fps5994 => true | .fps60, .fps60 => true | _, _ => false) = true ↔
      f.rate = (match r with | .fps50 => .fps50 | .fps5994 => .fps5994 | .fps60 => .fps60) := by
    cases r <;> cases f.rate <;> simp
  unfold conforms
  rw [Bool.and_eq_true, Bool.and_eq_true, Bool.and_eq_true, beq_iff_eq, beq_iff_eq, and_assoc, and_assoc]
  exact and_congr_right' (and_congr_right' (and_congr_right' hrate))

/-! ## A frame into the FILLING bay (R94 to R96) -/

/-- The input of a frame that fills bay `k`, the bay FILLED and none chosen yet. -/
def Input.filledBy (x : Input) (st : InputState) (timer k claims : Nat) (p : Picture) : Input :=
  (({ x with state := st, silence := some timer } : Input).stored k claims p).filledBay k

/-- Its bays: the full one FILLED, the claims of its last frame and its pending count joining its kept count (R98). -/
theorem Input.filledBy_bay (x : Input) (st : InputState) (timer k claims : Nat) (p : Picture) (j : Nat) :
    (x.filledBy st timer k claims p).bay j = if j = k then
      { state := .filled, first := (x.bay k).first, pending := 0
        kept := (x.bay k).kept + ((x.bay k).pending + claims)
        damaged := (x.bay k).damaged.filter (· != (x.bay k).frames.length)
        frames := (x.bay k).frames ++ [p] }
    else x.bay j := by
  unfold Input.filledBy
  split
  · subst j
    rw [Input.filledBay_bay_self, Input.stored_bay_self]
    rfl
  · rename_i hj
    rw [Input.filledBay_bay_ne _ hj, Input.stored_bay_ne _ _ _ hj]
    rfl

section Filling

variable {x : Input} {k : Nat} (hk : x.filling = some k) (st : InputState) (timer claims : Nat) (p : Picture)
include hk

/-- An input with a frame written behind those of its FILLING bay, whatever time made of its state and its timer. -/
theorem Input.stored_heard {y : Input} (h : y = ({ x with state := st, silence := some timer } : Input).stored k claims p) :
    y.bay k = { x.bay k with pending := (x.bay k).pending + claims
                             damaged := (x.bay k).damaged.filter (· != (x.bay k).frames.length)
                             frames := (x.bay k).frames ++ [p] } ∧
    y.state = .capturing ∧ y.next = x.next + 1 ∧ y.live = some p ∧ y.silence = some timer ∧ y.baySize = x.baySize ∧
    y.ages = x.ages ∧ (y.bay k).frames = (x.bay k).frames ++ [p] ∧ (y.bay k).first = (x.bay k).first ∧
    (y.bay k).state = .filling ∧ ∀ j, j ≠ k → y.bay j = x.bay j := by
  subst h
  have hbay : (({ x with state := st, silence := some timer } : Input).stored k claims p).bay k =
      { (x.bay k).write p with pending := (x.bay k).pending + claims } := Input.stored_bay_self ..
  exact ⟨hbay, rfl, rfl, rfl, rfl, rfl, rfl, congrArg Bay.frames hbay, (congrArg Bay.first hbay).trans rfl,
    (congrArg Bay.state hbay).trans (Input.filling_spec hk).2, fun j hj => Input.stored_bay_ne _ _ _ hj⟩

/-- The bay chosen behind it, by its bays and the age list with the full one at the tail (R95). -/
theorem Input.filledBy_chooseBay {bay : Nat → Bay} (hbay : ∀ j, (x.filledBy st timer k claims p).bay j = bay j) :
    (x.filledBy st timer k claims p).chooseBay =
      match (List.range x.bays.length).find? fun j => (bay j).state == .empty with
      | some j => some j
      | none => (x.ages ++ [k]).find? fun j => (bay j).kept == 0 := by
  have hlt := (Input.filling_spec hk).1
  have hlen : (x.filledBy st timer k claims p).bays.length = x.bays.length := by
    have hstored : (tset Bay.empty x.bays k { (x.bay k).write p with pending := (x.bay k).pending + claims }).length =
      x.bays.length := length_tset _ _ _ _ hlt
    exact (length_tset _ _ _ _ (by rw [← hstored] at hlt; exact hlt)).trans hstored
  rw [Input.chooseBay_eq, Input.bayChosen, hlen]
  simp only [hbay]
  rfl

/-- An input whose frame fills its bay, by the bay chosen behind it (R94 to R96). -/
theorem Input.filledUp_heard {y : Input} (bay : Nat → Bay) (hbay : ∀ j, (x.filledBy st timer k claims p).bay j = bay j)
    (h : y = (({ x with state := st, silence := some timer } : Input).stored k claims p).filledUp k) :
    let chosen : Option Nat :=
      match (List.range x.bays.length).find? fun j => (bay j).state == .empty with
      | some j => some j
      | none => (x.ages ++ [k]).find? fun j => (bay j).kept == 0
    (∀ j, chosen = some j →
      y = { x with state := .capturing, next := x.next + 1, live := some p
                   silence := some timer, ages := (x.ages ++ [k]).erase j, bays := y.bays } ∧
      y.bay j = { state := .filling, first := x.next + 1, pending := 0, kept := 0, damaged := [], frames := [] } ∧
      ∀ n, n ≠ j → y.bay n = bay n) ∧
    (chosen = none →
      y = { x with state := .starved, starved := true, next := x.next + 1, live := some p
                   silence := some timer, ages := x.ages ++ [k], bays := y.bays } ∧
      ∀ n, y.bay n = bay n) := by
  have hchosen := Input.filledBy_chooseBay hk st timer claims p hbay
  unfold Input.filledUp at h
  change y = match (x.filledBy st timer k claims p).chooseBay with
    | some j => (x.filledBy st timer k claims p).takeBay j (x.next + 1)
    | none => (x.filledBy st timer k claims p).starve at h
  refine ⟨fun j hj => ?_, fun hnone => ?_⟩
  · rw [hchosen.trans hj] at h
    subst h
    exact ⟨rfl, Input.bay_setBay_self .., fun n hn => (Input.bay_takeBay_ne _ _ hn).trans (hbay n)⟩
  · rw [hchosen.trans hnone] at h
    subst h
    exact ⟨rfl, hbay⟩

end Filling

/-! ## The arrival -/

/-- Where no clip ends at a number none closes at it (R109). -/
theorem Blocks.clipsClosed_nil {b : Blocks} {i n : Nat} (h : ∀ c z, b.rep.clip c = some z → z.input = i →
    z.outPoint = none → min (z.inPoint + 599) 4294967295 ≠ n) : b.clipsClosed i n = [] := by
  rw [Blocks.clipsClosed_eq, List.map_eq_nil_iff, List.eq_nil_iff_forall_not_mem]
  intro c hc
  obtain ⟨z, hz, hcloses⟩ := (b.mem_closing i n c).mp hc
  obtain ⟨hon, hopen, hend⟩ := (z.closes_iff i n).mp hcloses
  exact h c z hz hon hopen hend

section Arrival

variable {s : Part} {dt i : Nat} (p : Picture)

/-- The input of an arrival into its FILLING bay with room left. -/
theorem Part.roomy_input {k : Nat} (hk : (s.blk.cap.input i).filling = some k)
    (hroom : (s.blk.cap.input i).leavesRoom k) (hlast : (s.blk.cap.input i).next < 4294967295) :
    ((s.heard dt i).conformingArrival i p).cap.input i =
      ({ s.blk.cap.input i with state := ((s.elapse dt).blk.cap.input i).state
                                silence := some (3 * s.tb.rate.length) } : Input).stored k
        (s.blk.claimsMade i (s.blk.cap.input i).next k) p := by
  rw [Blocks.conformingArrival_numbered _ i p (by rw [Part.heard_next]; omega),
    Blocks.numberFrame_input_roomy _ i p ((Part.heard_filling ..).trans hk) (by rw [Part.heard_input]; exact hroom),
    Part.heard_claimsMade, Part.heard_next, Part.heard_input]

/-- The input of an arrival that fills its bay. -/
theorem Part.full_input {k : Nat} (hk : (s.blk.cap.input i).filling = some k)
    (hfull : ¬(s.blk.cap.input i).leavesRoom k) (hlast : (s.blk.cap.input i).next < 4294967295) :
    ((s.heard dt i).conformingArrival i p).cap.input i =
      (({ s.blk.cap.input i with state := ((s.elapse dt).blk.cap.input i).state
                                 silence := some (3 * s.tb.rate.length) } : Input).stored k
        (s.blk.claimsMade i (s.blk.cap.input i).next k) p).filledUp k := by
  have hnext : ((s.heard dt i).cap.input i).next ≠ 4294967295 := by rw [Part.heard_next]; omega
  rw [Blocks.conformingArrival_numbered _ i p hnext, Blocks.numberFrame_input_full _ i p ((Part.heard_filling ..).trans hk) hnext
      (by rw [Part.heard_input]; exact hfull), Part.heard_claimsMade, Part.heard_next, Part.heard_input]

/-- CAPTURE_STARVED at the next number, of an arrival that fills its bay where none can be chosen behind it and that closes no
clip (R96). -/
theorem Part.full_noticed {k : Nat} (h : s.blk.port.noticesClear) (hsync : ∀ r, s.tb.syncTimer = some r → dt < r)
    (hk : (s.blk.cap.input i).filling = some k) (hfull : ¬(s.blk.cap.input i).leavesRoom k)
    (hlast : (s.blk.cap.input i).next < 4294967295)
    (hnone : ((s.blk.cap.input i).filledBy ((s.elapse dt).blk.cap.input i).state (3 * s.tb.rate.length) k
      (s.blk.claimsMade i (s.blk.cap.input i).next k) p).chooseBay = none)
    (hflag : (s.blk.cap.input i).starved = false) (hcloses : s.blk.clipsClosed i (s.blk.cap.input i).next = []) :
    s.blk.port.noticeTaken ((s.heard dt i).conformingArrival i p).port 6 i (toWord ((s.blk.cap.input i).next + 1)) := by
  have hport := s.heard_port i hsync
  have hnext : ((s.heard dt i).cap.input i).next ≠ 4294967295 := by rw [Part.heard_next]; omega
  have hchain := Blocks.numberFrame_through_full (s.heard dt i) i p (k := k) (by rw [hport]; exact h)
    ((Part.heard_filling ..).trans hk) hnext (by rw [Part.heard_input]; exact hfull)
    (by rw [Part.heard_claimsMade, Part.heard_next, Part.heard_input]; exact hnone)
  rw [Part.heard_clipsClosed, Part.heard_next, hcloses, hport, Part.heard_input] at hchain
  simp only [hflag] at hchain
  rw [Blocks.conformingArrival_numbered _ i p hnext]
  obtain ⟨q, hq, rfl⟩ := hchain
  exact hq

/-- The input of an arrival that is discarded (R96). -/
theorem Part.discarded_input (hf : (s.blk.cap.input i).filling = none) (hk : (s.blk.cap.input i).chooseBay = none)
    (hlast : (s.blk.cap.input i).next < 4294967295) :
    ((s.heard dt i).conformingArrival i p).cap.input i =
      { s.blk.cap.input i with state := .starved, starved := true, next := (s.blk.cap.input i).next + 1, live := some p
                               silence := some (3 * s.tb.rate.length) } := by
  rw [Blocks.conformingArrival_numbered _ i p (by rw [Part.heard_next]; omega), Blocks.numberFrame_input_discarded _ i p
    ((Part.heard_filling ..).trans hf) ((Part.heard_chooseBay ..).trans hk), Part.heard_input]
  rfl

/-- CAPTURE_STARVED at the number of an arrival that is discarded and closes no clip (R96). -/
theorem Part.discarded_noticed (h : s.blk.port.noticesClear) (hsync : ∀ r, s.tb.syncTimer = some r → dt < r)
    (hf : (s.blk.cap.input i).filling = none) (hk : (s.blk.cap.input i).chooseBay = none)
    (hlast : (s.blk.cap.input i).next < 4294967295) (hflag : (s.blk.cap.input i).starved = false)
    (hcloses : s.blk.clipsClosed i (s.blk.cap.input i).next = []) :
    s.blk.port.noticeTaken ((s.heard dt i).conformingArrival i p).port 6 i (toWord (s.blk.cap.input i).next) := by
  have hport := s.heard_port i hsync
  have hchain := Blocks.discardFrame_through (s.heard dt i) i p (by rw [hport]; exact h)
  rw [Part.heard_clipsClosed, Part.heard_next, hcloses, hport, Part.heard_input] at hchain
  simp only [hflag] at hchain
  rw [Blocks.conformingArrival_numbered _ i p (by rw [Part.heard_next]; omega), Blocks.numberFrame_discarded _ i p
    ((Part.heard_filling ..).trans hf) ((Part.heard_chooseBay ..).trans hk)]
  obtain ⟨q, hq, rfl⟩ := hchain
  exact hq

end Arrival

/-- Settles O38: a frame of another form, and a conforming one by the bay it finds and by what that leaves in it. -/
theorem frameArrivalIsNumberedAndWritten : Obligations.FrameArrivalIsNumberedAndWritten := by
  intro dt i f s hl hoff
  have hpart : s.part.arrival dt i (conforms s.part.tb.rate f) f.picture =
      (s.part.elapse dt).takeFrame i (conforms s.part.tb.rate f) f.picture :=
    Part.afterTime_locked dt (·.takeFrame i (conforms s.part.tb.rate f) f.picture) s.part hl
  have hconforms := conforms_iff s.part.tb.rate f
  refine ⟨{ s with part := _ }, State.next_onPart hpart, ?_⟩
  have hblk := Part.takeFrame_blk hoff dt (conforms s.part.tb.rate f) f.picture
  have hsec : ((s.part.elapse dt).takeFrame i (conforms s.part.tb.rate f) f.picture).sec = s.part.sec := s.part.elapse_sec dt
  obtain ⟨-, -, htick, -⟩ := s.part.takeFrame_sameFixed dt i (conforms s.part.tb.rate f) f.picture
  have hmoves : (s.part.heard dt i).movesInput i ((s.part.elapse dt).takeFrame i (conforms s.part.tb.rate f) f.picture).blk := by
    rw [hblk]
    split
    · exact Blocks.conformingArrival_movesInput _ i _
    · exact Blocks.onInput_movesInput _ i _
  generalize (s.part.elapse dt).takeFrame i (conforms s.part.tb.rate f) f.picture = t at hblk hsec htick hmoves ⊢
  obtain ⟨hothers, hA, hB, hrest⟩ := Part.heard_moved hmoves
  intro x y conforming timer starvedNotice clips
  have hyes : conforming → t.blk = (s.part.heard dt i).conformingArrival i f.picture := fun hc => by
    rw [hblk, if_pos (hconforms.mpr hc)]
  have hclips (hc : conforming) (hlast : x.next < 4294967295) : clips (x.filling.or x.chooseBay) := fun c => by
    show t.blk.rep.clip c = _
    rw [hyes hc]
    exact Part.conforming_clip f.picture hlast c
  refine ⟨hothers, fun hc k hk hlast => ?_, fun hc hf hk hlast => ?_, fun hc k hf hk hsize hlast => ?_,
    fun hc k hk hroom hlast => ?_, fun hc k hk hfull hlast => ?_, fun hc hf hlast hempty hkept => ?_, fun hno => ?_,
    hA, hB, hsec, htick, hrest⟩
  · have h := hclips hc hlast
    rwa [hk] at h
  · have h := hclips hc hlast
    rwa [hf, Input.chooseBay_eq, hk] at h
  · rw [← Input.chooseBay_eq] at hk
    have h := hclips hc hlast
    rw [hf, hk] at h
    have hinput := Part.chosen_input (dt := dt) f.picture hf hk hsize hlast
    rw [← hyes hc] at hinput
    obtain ⟨hy, hbay, hbays⟩ := hinput
    exact ⟨hy, hbay, hbays, h⟩
  · exact Input.stored_heard hk _ timer _ f.picture
      ((congrArg (fun b => b.cap.input i) (hyes hc)).trans (Part.roomy_input f.picture hk hroom hlast))
  · have hroom : ¬x.leavesRoom k := by unfold Input.leavesRoom; omega
    intro full bay chosen
    have hbay := Input.filledBy_bay x ((s.part.elapse dt).blk.cap.input i).state timer k (s.blk.claimsMade i x.next k) f.picture
    have hy : y = _ := (congrArg (fun b => b.cap.input i) (hyes hc)).trans (Part.full_input f.picture hk hroom hlast)
    obtain ⟨hsome, hnone⟩ := Input.filledUp_heard hk _ timer _ f.picture bay hbay hy
    refine ⟨hsome, fun hno => ⟨(hnone hno).1, (hnone hno).2, fun hflag hsync hcloses hwf harea => ⟨_, ?_, rfl⟩⟩⟩
    have hn := Part.full_noticed (s := s.part) (dt := dt) f.picture ⟨hwf, harea⟩ hsync hk hroom hlast
      ((Input.filledBy_chooseBay hk _ timer _ f.picture hbay).trans hno) hflag (Blocks.clipsClosed_nil hcloses)
    rw [← hyes hc] at hn
    rw [hk, if_neg (by simp)]
    exact hn
  · have hk := Input.chooseBay_none hempty hkept
    refine ⟨?_, fun hflag hsync hcloses hwf harea => ⟨_, ?_, rfl⟩⟩
    · exact (congrArg (fun b => b.cap.input i) (hyes hc)).trans (Part.discarded_input f.picture hf hk hlast)
    · have hn := Part.discarded_noticed (s := s.part) (dt := dt) f.picture ⟨hwf, harea⟩ hsync hf hk hlast hflag
        (Blocks.clipsClosed_nil hcloses)
      rw [← hyes hc] at hn
      rw [if_pos hf]
      exact hn
  · have hblk' : t.blk = _ := hblk.trans (if_neg fun hc => hno (hconforms.mp hc))
    have hy : y = { x with state := .mismatch, silence := some timer } := by
      show t.blk.cap.input i = _
      rw [hblk']
      refine (Capture.input_setInput_self ..).trans ?_
      rw [Part.heard_input]
    rw [hy]
    refine ⟨rfl, rfl, rfl, rfl, rfl, ?_⟩
    show t.blk.rep = _
    rw [hblk']
    exact Part.heard_rep dt i s.part

end Sys2Proof.Machine
end


section
/-! PROOFS. Host writes (O11). -/

namespace Sys2Proof.Machine

/-! ## Host writes (R102, R184, R191) -/

/-- A write is dropped where its page is locked and it is not the clear of the error slot word (R184). -/
theorem Port.hostWrite_dropped {p : Port} {w : HostWrite} (hlock : p.locked (hostWriteAddr w / 4096) = true)
    (hclear : isErrorClear w = false) : p.hostWrite w = p.faultWrite (hostWriteAddr w / 4096) := by
  unfold Port.hostWrite Config.pageBytes
  simp only [hlock, hclear, Bool.not_false, Bool.and_self, if_true]

/-- Else it is performed (R102, R184). -/
theorem Port.hostWrite_performed {p : Port} {w : HostWrite}
    (h : p.locked (hostWriteAddr w / 4096) = false ∨ isErrorClear w = true) : p.hostWrite w = p.performWrite w := by
  unfold Port.hostWrite Config.pageBytes
  refine if_neg ?_
  rcases h with h | h <;> simp [h]

theorem touchesReadMark_iff (w : HostWrite) :
    touchesReadMark w = true ↔ hostWriteAddr w / 4 = 5 ∨ hostWriteAddr w / 4 = 6 := by
  unfold touchesReadMark
  rw [Bool.or_eq_true, beq_iff_eq, beq_iff_eq]

/-- A performed write moves Show Memory, and where it lands in a read mark the conditions and the interrupt (R191). -/
theorem Port.performWrite_eq (p : Port) (w : HostWrite) : p.performWrite w =
    { p with mem := memHostWrite p.mem w, noticeWaiting := (p.performWrite w).noticeWaiting
             logWaiting := (p.performWrite w).logWaiting, irq := (p.performWrite w).irq
             messages := (p.performWrite w).messages } := by
  unfold Port.performWrite
  dsimp only
  split
  · exact Port.evalConditions_eq _
  · rfl

theorem Port.performWrite_mem (p : Port) (w : HostWrite) : (p.performWrite w).mem = memHostWrite p.mem w := by
  rw [Port.performWrite_eq]

/-- In a read mark it evaluates the conditions (R191). -/
theorem Port.performWrite_readMark (p : Port) {w : HostWrite} (h : touchesReadMark w = true) :
    (p.performWrite w).conditionsFollow ∧ p.interruptFollows (p.performWrite w) := by
  unfold Port.performWrite
  dsimp only
  rw [if_pos h]
  exact ⟨Port.evalConditions_conditions _, Port.evalConditions_follows rfl rfl⟩

/-- Elsewhere it moves Show Memory alone. -/
theorem Port.performWrite_plain (p : Port) {w : HostWrite} (h : ¬touchesReadMark w = true) :
    p.performWrite w = { p with mem := memHostWrite p.mem w } := if_neg h

/-- A dropped write where PAGE_FAULT is set changes nothing (R184). -/
theorem Port.faultWrite_latched {p : Port} (h : p.latches.pageFault = true) (page : Nat) : p.faultWrite page = p := if_pos h

/-- A dropped write where PAGE_FAULT is clear captures the page and sets it (R184, R191, R192). -/
theorem Port.faultWrite_clear {p q : Port} {page : Nat} (h : p.latches.pageFault = false) (hq : p.faultWrite page = q) :
    q.mem = p.mem ∧ q.latches = { p.latches with pageFault := true } ∧ q.faultPage = page ∧ p.interruptFollows q ∧
    q = { p with latches := q.latches, faultPage := q.faultPage, irq := q.irq, messages := q.messages } := by
  have hfault : p.faultWrite page =
      ({ p with faultPage := page, latches := { p.latches with pageFault := true } } : Port).settle := if_neg (by simp [h])
  rw [hfault] at hq
  have hrest : q = { p with latches := { p.latches with pageFault := true }, faultPage := page
                            irq := q.irq, messages := q.messages } := by
    rw [← hq]
    exact Port.settle_eq _
  have hfollows : p.interruptFollows q := by
    rw [← hq]
    exact Port.settle_follows rfl rfl
  have hlatches : q.latches = { p.latches with pageFault := true } := by rw [hrest]
  have hpage : q.faultPage = page := by rw [hrest]
  exact ⟨by rw [hrest], hlatches, hpage, hfollows, by rw [hlatches, hpage]; exact hrest⟩

/-- What a performed write reads as: the word or the byte, and every other byte as before. -/
theorem memHostWrite_reads (m : List Host.Cell) (w : HostWrite) (h : Memory.wf m = true) : match w with
    | .word i v => memWord (memHostWrite m w) (4 * i.toNat) = v ∧ bytesKept m (memHostWrite m w) [4 * i.toNat]
    | .byte a v => memRead (memHostWrite m w) a.toNat = v ∧
        ∀ b, b ≠ a.toNat → memRead (memHostWrite m w) b = memRead m b := by
  cases w with
  | word i v =>
    exact ⟨memWord_memWriteWord_self _ _ _ h, fun a ha => memRead_memWriteWord_ne _ _ _ _ h (ha _ List.mem_cons_self)⟩
  | byte a v => exact ⟨memRead_memWrite_self _ _ _ h, fun b hb => memRead_memWrite_ne _ _ _ _ h hb⟩

/-- A write is the clear of the error slot word where it is a word 0 written there (R102). -/
theorem isErrorClear_iff (w : HostWrite) : isErrorClear w = true ↔ ∃ i, w = .word i 0 ∧ 4 * i.toNat = 4176 := by
  cases w with
  | word i v =>
    unfold isErrorClear errorSlotAddr partPage
    simp only [Bool.and_eq_true, beq_iff_eq, HostWrite.word.injEq]
    exact ⟨fun ⟨ha, hv⟩ => ⟨i, ⟨rfl, hv⟩, ha⟩, fun ⟨j, ⟨hi, hv⟩, ha⟩ => ⟨hi ▸ ha, hv⟩⟩
  | byte a v => simp [isErrorClear]

theorem State.next_hostWrite {s : State} {w : HostWrite} {q : Port} (h : s.port.hostWrite w = q) :
    exec (.hostWrite w) s = .next (s.onPart (·.onPort fun _ => q)) := by
  rw [← h]
  rfl

/-- Settles O11: a write that is performed, one that is dropped, and the clear of the error slot word. -/
theorem hostWritesObeyTheLocks : Obligations.HostWritesObeyTheLocks := by
  refine ⟨fun w s hwf hfree => ?_, fun w s hlock => ⟨fun hno => ?_, fun i hw ha hwf => ?_⟩⟩
  · have hreads := memHostWrite_reads s.port.mem w hwf
    have hrest := s.port.performWrite_eq w
    rw [← s.port.performWrite_mem w] at hreads hrest
    refine ⟨_, State.next_hostWrite (Port.hostWrite_performed (.inl hfree)), ?_,
      fun hmark => s.port.performWrite_readMark ((touchesReadMark_iff w).mpr hmark), fun h5 h6 => ?_,
      congrArg (fun q => s.onPart (·.onPort fun _ => q)) hrest⟩
    · cases w <;> exact hreads
    · have hplain := s.port.performWrite_plain fun h => (not_or.mpr ⟨h5, h6⟩) ((touchesReadMark_iff w).mp h)
      rw [← s.port.performWrite_mem w] at hplain
      exact hplain
  · have hclear : isErrorClear w = false := Bool.eq_false_iff.mpr fun h => by
      obtain ⟨i, hw, ha⟩ := (isErrorClear_iff w).mp h
      exact hno i hw ha
    have hport := Port.hostWrite_dropped hlock hclear
    cases hfault : s.port.latches.pageFault with
    | true =>
      rw [Port.faultWrite_latched hfault] at hport
      have hsame : s.port.latches = { s.port.latches with pageFault := true } := by rw [← hfault]
      exact ⟨s, State.next_hostWrite hport, rfl, hsame, rfl, fun h => by simp at h, fun _ => rfl, rfl⟩
    | false =>
      generalize hq : s.port.faultWrite (hostWriteAddr w / 4096) = q at hport
      obtain ⟨hmem, hlatches, hpage, hfollows, hrest⟩ := Port.faultWrite_clear hfault hq
      exact ⟨_, State.next_hostWrite hport, hmem, hlatches, hpage, fun _ => hfollows, fun h => by simp at h,
        congrArg (fun q => s.onPart (·.onPort fun _ => q)) hrest⟩
  · have hmark : ¬touchesReadMark w = true := fun h => by
      have hword := (touchesReadMark_iff w).mp h
      subst hw
      change 4 * i.toNat / 4 = 5 ∨ 4 * i.toNat / 4 = 6 at hword
      omega
    have hreads := memHostWrite_reads s.port.mem w hwf
    have hplain := s.port.performWrite_plain hmark
    rw [← s.port.performWrite_mem w] at hreads hplain
    subst hw
    dsimp only at hreads
    rw [ha] at hreads
    obtain ⟨hword, hkept⟩ := hreads
    have hport := Port.hostWrite_performed (p := s.port) (.inr ((isErrorClear_iff (.word i 0)).mpr ⟨i, rfl, ha⟩))
    exact ⟨_, State.next_hostWrite hport, hword, hkept, congrArg (fun q => s.onPart (·.onPort fun _ => q)) hplain⟩

end Sys2Proof.Machine
end


section
/-! PROOFS. SET_INPUT (O42). -/

namespace Sys2Proof.Machine

/-! ## The frame slots (R90) -/

/-- The frame slots a ring takes (R90). -/
def Input.slotsTaken (x : Input) : Nat := if x.state = .off then 0 else 64 * x.baySize

/-- A sum over a table whose default counts nothing, after one item is set. -/
theorem sum_map_tset {α : Type} (d : α) (f : α → Nat) (hd : f d = 0) (l : List α) (i : Nat) (x : α) :
    ((tset d l i x).map f).sum + f (tget d l i) = (l.map f).sum + f x := by
  induction i generalizing l with
  | zero => cases l with
    | nil => simp [tset, tget, hd]
    | cons a l =>
      simp only [tset, tget, List.map_cons, List.sum_cons]
      omega
  | succ i ih => cases l with
    | nil =>
      have h := ih []
      simp only [tset, tget, List.map_cons, List.map_nil, List.sum_cons, List.sum_nil, hd] at h ⊢
      cases i <;> simpa [tget, hd] using h
    | cons a l =>
      have h := ih l
      simp only [tset, tget, List.map_cons, List.sum_cons]
      omega

/-- A ring allocated to an OFF input takes its 64 bays out of the free frame slots (R90). -/
theorem Blocks.allocate_freeSlots {b : Blocks} {i : Nat} (h : (b.cap.input i).state = .off) (size timer : Nat) :
    (b.allocate i size timer).cap.freeSlots = b.cap.freeSlots - 64 * size := by
  have hfree : (b.cap.input i).slotsTaken = 0 := if_pos h
  have hsum := sum_map_tset (.offAt 0) Input.slotsTaken rfl b.cap.inputs i ((b.allocate i size timer).cap.input i)
  have hnew : ((b.allocate i size timer).cap.input i).slotsTaken = 64 * size := by
    rw [show (b.allocate i size timer).cap.input i = _ from Capture.input_setInput_self ..]
    rfl
  have hlist : (b.allocate i size timer).cap.inputs =
      tset (.offAt 0) b.cap.inputs i ((b.allocate i size timer).cap.input i) := by
    rw [show (b.allocate i size timer).cap.input i = _ from Capture.input_setInput_self ..]
    rfl
  rw [← hlist, hnew] at hsum
  change _ + (b.cap.input i).slotsTaken = _ at hsum
  rw [hfree, Nat.add_zero] at hsum
  unfold Capture.freeSlots
  change Config.frameSlots - ((b.allocate i size timer).cap.inputs.map Input.slotsTaken).sum =
    Config.frameSlots - (b.cap.inputs.map Input.slotsTaken).sum - 64 * size
  rw [hsum, Nat.sub_sub]

/-! ## The card by its fields (R90, R91) -/

section Card

variable {q : InputCue} (timer slot : Nat) (b : Blocks)

theorem setInputOp_turnsOff (hin : q.input ≤ 3) (hoff : q.action = 0) :
    setInputOp timer slot q b = setInputOff slot q.input b := by
  unfold setInputOp
  rw [if_neg (by omega), if_neg (by omega), if_pos hoff]

theorem setInputOp_turnsOn (hin : q.input ≤ 3) (hon : q.action = 1) (hmin : 4 ≤ q.bay) (hmax : q.bay ≤ 40) :
    setInputOp timer slot q b = setInputOn slot q.input q.bay timer b := by
  unfold setInputOp
  rw [if_neg (by omega), if_neg (by omega), if_neg (by omega), if_neg (by omega)]

/-- The fields out of range, in the order of the checks (R90; the order is log entry 46). -/
theorem setInputOp_badField :
    (3 < q.input → setInputOp timer slot q b = b.onPort (·.refuse .replay slot .badField 0)) ∧
    (q.input ≤ 3 → 1 < q.action → setInputOp timer slot q b = b.onPort (·.refuse .replay slot .badField 1)) ∧
    (q.input ≤ 3 → q.action = 1 → q.bay < 4 ∨ 40 < q.bay →
      setInputOp timer slot q b = b.onPort (·.refuse .replay slot .badField 2)) := by
  unfold setInputOp
  refine ⟨fun hin => if_pos hin, fun hin hact => ?_, fun hin hact hbay => ?_⟩
  · rw [if_neg (by omega), if_pos hact]
  · rw [if_neg (by omega), if_neg (by omega), if_neg (by omega), if_pos hbay]

/-- ON of an OFF input, by its numbers and the free frame slots (R90). -/
theorem setInputOn_off {i size : Nat} (hoff : (b.cap.input i).state = .off) :
    (4294967295 < (b.cap.input i).next →
      setInputOn slot i size timer b = b.onPort (·.refuse .replay slot .badField 3)) ∧
    ((b.cap.input i).next ≤ 4294967295 → b.cap.freeSlots < 64 * size →
      setInputOn slot i size timer b = b.onPort (·.refuse .replay slot .noRoom (toWord b.cap.freeSlots))) ∧
    ((b.cap.input i).next ≤ 4294967295 → 64 * size ≤ b.cap.freeSlots →
      setInputOn slot i size timer b = (b.allocate i size timer).onPort
        (·.complete .replay slot .ok (toWord (b.cap.freeSlots - 64 * size)))) := by
  unfold setInputOn Config.lastNumber
  dsimp only
  rw [if_pos hoff]
  refine ⟨fun hnext => if_pos hnext, fun hnext hfree => ?_, fun hnext hfree => ?_⟩
  · rw [if_neg (by omega), if_pos hfree]
  · rw [if_neg (by omega), if_neg (by omega), Blocks.allocate_freeSlots hoff]

/-- ON of an input that is not OFF, by its bay size (R90). -/
theorem setInputOn_notOff {i size : Nat} (hoff : (b.cap.input i).state ≠ .off) :
    (size = (b.cap.input i).baySize → setInputOn slot i size timer b =
      b.onPort (·.complete .replay slot .ok (toWord (b.cap.input i).state.code))) ∧
    (size ≠ (b.cap.input i).baySize → setInputOn slot i size timer b =
      b.onPort (·.refuse .replay slot .inUse (toWord (b.cap.input i).baySize))) := by
  unfold setInputOn
  dsimp only
  rw [if_neg hoff]
  exact ⟨fun hsize => if_pos hsize, fun hsize => if_neg hsize⟩

/-- OFF finishes its slot on a Port that nothing else has moved (R91). -/
theorem setInputOff_port (i : Nat) : (setInputOff slot i b).port = b.port.completeOff slot (b.cap.input i).next := by
  unfold setInputOff
  dsimp only
  split <;> rfl

/-- OFF moves the Port, its input and the clips on it alone (R91, R114). -/
theorem setInputOff_movesInput (i : Nat) : b.movesInput i (setInputOff slot i b) := by
  unfold setInputOff
  dsimp only
  split
  · exact b.onPort_movesInput i _
  · exact (b.dropRing_movesInput i).trans (Blocks.onPort_movesInput _ i _)

end Card

/-- The slot of an OFF card: DONE OK with the next number, or with a free value where there is none (R91, log entry 4). -/
theorem Port.completeOff_slotMoved (p : Port) (slot next : Nat) (hw : Memory.wf p.mem = true)
    (hf : 2 ≤ (p.area (deskIndex .replay)).first) :
    (next ≤ 4294967295 → p.slotMoved (p.completeOff slot next) .replay slot 4 0 (toWord next)) ∧
    (4294967295 < next → ∃ r, ({ p with unstated := (p.completeOff slot next).unstated } : Port).slotMoved
      (p.completeOff slot next) .replay slot 4 0 r) := by
  refine ⟨fun hnext => ?_, fun hnext => ?_⟩
  · have hport : p.completeOff slot next = p.complete .replay slot .ok (toWord next) := if_neg (Nat.not_lt.mpr hnext)
    rw [hport]
    exact p.complete_slotMoved .replay slot .ok _ hw hf
  · have hport : p.completeOff slot next = p.drawUnstated.2.complete .replay slot .ok p.drawUnstated.1 := if_pos hnext
    have hdrawn : (p.drawUnstated.2.complete .replay slot .ok p.drawUnstated.1).unstated = p.drawUnstated.2.unstated := by
      unfold Port.complete
      rw [Port.moveOut_eq]
    rw [hport, hdrawn]
    exact ⟨_, p.drawUnstated.2.complete_slotMoved .replay slot .ok p.drawUnstated.1 hw hf⟩

/-- On a live part a card whose step depends on the part leaves the blocks that the step makes (R178). -/
theorem State.next_cardOf {s : State} (hl : s.part.live = true) {f : Part → Blocks → Blocks} {x : Blocks}
    (hf : f s.part s.blk = x) :
    (.next (s.onPart fun p => p.card (f p)) : Answer) = .next (s.onPart (·.onBlk fun _ => x)) :=
  State.next_cardBlocks (f := f s.part) hl hf

theorem State.next_setInput {s : State} {slot : Nat} {post : Word} {q : InputCue} {x : Blocks} (hl : s.part.live = true)
    (hop : setInputOp (3 * s.part.tb.rate.length) slot q s.blk = x) :
    exec (.setInput slot post q) s = .next (s.onPart (·.onBlk fun _ => x)) :=
  State.next_cardOf (f := fun p => setInputOp (3 * p.tb.rate.length) slot q) hl hop

/-- Settles O42: ON of an OFF input, OFF, and the cards that move their slot alone. -/
theorem setInputAllocatesAndFrees : Obligations.SetInputAllocatesAndFrees := by
  refine ⟨fun slot post q s hs hin hlen => ⟨fun hon hmin hmax hoff hnext hfree => ?_, fun hact => ?_⟩,
    fun slot post q s hs => ?_⟩
  · obtain ⟨hlive, hwf, harea⟩ := hs
    have hop := (setInputOp_turnsOn (3 * s.part.tb.rate.length) slot s.blk hin hon hmin hmax).trans
      ((setInputOn_off _ slot s.blk hoff).2.2 hnext hfree)
    have hinput : (s.blk.allocate q.input q.bay (3 * s.part.tb.rate.length)).cap.input q.input = _ :=
      Capture.input_setInput_self ..
    exact ⟨_, State.next_setInput hlive hop,
      ⟨congrArg Input.state hinput, congrArg Input.baySize hinput, congrArg Input.bays hinput, congrArg Input.ages hinput,
        (congrArg Input.next hinput).trans rfl, congrArg Input.starved hinput, congrArg Input.silence hinput⟩,
      fun j hj => Capture.input_setInput_ne _ _ hj, s.port.complete_slotMoved .replay slot .ok _ hwf harea, rfl⟩
  · obtain ⟨hlive, hwf, harea⟩ := hs
    have hop := setInputOp_turnsOff (3 * s.part.tb.rate.length) slot s.blk hin hact
    obtain ⟨hothers, hA, hB, hrest⟩ := setInputOff_movesInput slot s.blk q.input
    obtain ⟨hnumber, hfree⟩ := s.port.completeOff_slotMoved slot (s.blk.cap.input q.input).next hwf harea
    rw [← setInputOff_port slot s.blk q.input] at hnumber hfree
    refine ⟨_, State.next_setInput hlive hop, fun hoff => ?_, fun hoff => ?_, hnumber, hfree,
      congrArg (fun b => s.onPart (·.onBlk fun _ => b)) hrest⟩
    · have hoff' : setInputOff slot q.input s.blk = s.blk.onPort (·.completeOff slot (s.blk.cap.input q.input).next) := by
        unfold setInputOff
        dsimp only
        rw [if_pos hoff]
      exact ⟨(congrArg Blocks.cap hoff').trans rfl, (congrArg Blocks.rep hoff').trans rfl⟩
    · have hon : setInputOff slot q.input s.blk =
          (s.blk.dropRing q.input).onPort (·.completeOff slot (s.blk.cap.input q.input).next) := by
        unfold setInputOff
        dsimp only
        rw [if_neg hoff]
      exact ⟨(congrArg (fun b => b.cap.input q.input) hon).trans (s.blk.dropRing_input q.input), hothers,
        fun c => (congrArg (fun b => b.rep.clip c) hon).trans (s.blk.dropRing_clip q.input c), hA, hB⟩
  · intro x moved
    have hrefused : ∀ o r, setInputOp (3 * s.part.tb.rate.length) slot q s.blk = s.blk.onPort (·.refuse .replay slot o r) →
        moved 5 (toWord o.code) r := fun o r hop =>
      ⟨_, rfl, s.refused_onlyMoved .replay slot o r (fun p => setInputOp (3 * p.tb.rate.length) slot q) hs hop⟩
    have hdone : ∀ r, setInputOp (3 * s.part.tb.rate.length) slot q s.blk = s.blk.onPort (·.complete .replay slot .ok r) →
        moved 4 0 r := fun r hop =>
      ⟨_, rfl, s.completed_onlyMoved .replay slot .ok r (fun p => setInputOp (3 * p.tb.rate.length) slot q) hs hop⟩
    obtain ⟨hinput, haction, hbay⟩ := setInputOp_badField (q := q) (3 * s.part.tb.rate.length) slot s.blk
    refine ⟨fun h => hrefused .badField 0 (hinput h), fun hin h => hrefused .badField 1 (haction hin h),
      fun hin hon h => hrefused .badField 2 (hbay hin hon h), fun hin hon hmin hmax => ?_⟩
    have hop := setInputOp_turnsOn (3 * s.part.tb.rate.length) slot s.blk hin hon hmin hmax
    refine ⟨fun hoff hnext => hrefused .badField 3 (hop.trans ((setInputOn_off _ slot s.blk hoff).1 hnext)),
      fun hoff hnext hfull => hrefused .noRoom _ (hop.trans ((setInputOn_off _ slot s.blk hoff).2.1 hnext hfull)),
      fun hoff hsize => ?_,
      fun hoff hsize => hrefused .inUse _ (hop.trans ((setInputOn_notOff _ slot s.blk hoff).2 hsize))⟩
    have hcode : toWord x.state.code = match x.state with
        | .off => 0 | .seeking => 1 | .mismatch => 2 | .capturing => 3 | .starved => 4 := by
      cases x.state <;> rfl
    have h := hdone _ (hop.trans ((setInputOn_notOff _ slot s.blk hoff).1 hsize))
    rw [show (s.blk.cap.input q.input).state = x.state from rfl, hcode] at h
    exact h

end Sys2Proof.Machine
end


section
/-! PROOFS. Clips freed, and the expiry of a keep (O44). -/

namespace Sys2Proof.Machine

/-! ## The words a notice and a slot move write -/

/-- A notice writes within its words, wherever the notice area lies (R189, R190). -/
theorem Port.notice_bytesKept (p : Port) (k : NoticeKind) (n : Nat) (v : Word) (h : Memory.wf p.mem = true) :
    bytesKept p.mem (p.notice k n v).mem p.noticeWords := by
  intro b hb
  simp only [Port.noticeWords, List.mem_cons, List.not_mem_nil, or_false, forall_eq_or_imp, forall_eq] at hb
  obtain ⟨hkind, hvalue, htick, hcount, hflag⟩ := hb
  have htest : Memory.wf p.testOverrun.mem = true ∧ memRead p.testOverrun.mem b = memRead p.mem b := by
    rw [Port.testOverrun_mem]
    split
    · exact ⟨wf_memWriteWord _ _ _ h, memRead_memWriteWord_ne _ _ _ _ h hflag⟩
    · exact ⟨h, rfl⟩
  obtain ⟨hwf, hread⟩ := htest
  have harea : p.testOverrun.areaBase 8 + 16 * (p.testOverrun.noticeWrite.toNat % 256) =
      p.areaBase 8 + 16 * (p.noticeWrite.toNat % 256) := by rw [Port.testOverrun_eq]; rfl
  unfold Port.notice
  split
  · dsimp only
    split
    · rw [Port.writeNotice_mem, harea]
      have w1 := wf_memWriteHalf _ (p.areaBase 8 + 16 * (p.noticeWrite.toNat % 256)) k.code hwf
      have w2 := wf_memWriteHalf _ (p.areaBase 8 + 16 * (p.noticeWrite.toNat % 256) + 2) n w1
      have w3 := wf_memWriteWord _ (p.areaBase 8 + 16 * (p.noticeWrite.toNat % 256) + 4) v w2
      have w4 := wf_memWriteWord _ (p.areaBase 8 + 16 * (p.noticeWrite.toNat % 256) + 8) p.testOverrun.showTick w3
      rw [memRead_memWriteWord_ne _ _ _ _ w4 hcount, memRead_memWriteWord_ne _ _ _ _ w3 htick,
        memRead_memWriteWord_ne _ _ _ _ w2 hvalue, memRead_memWriteHalf_ne _ _ _ _ w1 (by omega),
        memRead_memWriteHalf_ne _ _ _ _ hwf (by omega), hread]
    · split
      · exact hread
      · exact (memRead_memWriteWord_ne _ _ _ _ hwf hflag).trans hread
  · rfl

/-- What two changes keep. -/
theorem bytesKept.trans {m m' m'' : List Host.Cell} {ws vs : List Nat} (h : bytesKept m m' ws) (k : bytesKept m' m'' vs) :
    bytesKept m m'' (vs ++ ws) := fun a ha =>
  (k a fun w hw => ha w (List.mem_append_left _ hw)).trans (h a fun w hw => ha w (List.mem_append_right _ hw))

/-! ## The releases of a freed clip (R98, R113) -/

/-- A bay whose kept count, or pending count while it is FILLING, is lowered by some releases (R98). -/
def Bay.lowered (y : Bay) (n : Nat) : Bay :=
  match y.state with
  | .empty => y
  | .filling => { y with pending := y.pending - n }
  | .filled => { y with kept := y.kept - n }

theorem Bay.lowered_zero (y : Bay) : y.lowered 0 = y := by
  obtain ⟨state, first, pending, kept, damaged, frames⟩ := y
  cases state <;> rfl

/-- A release is one of them. -/
theorem Bay.release_lowered (y : Bay) (n : Nat) : y.release.lowered n = y.lowered (n + 1) := by
  obtain ⟨state, first, pending, kept, damaged, frames⟩ := y
  cases state <;> simp [Bay.release, Bay.lowered, Nat.sub_sub, Nat.add_comm]

theorem Input.releaseAll_cons (x : Input) (k : Nat) (claims : List Nat) :
    x.releaseAll (k :: claims) = (x.setBay k (x.bay k).release).releaseAll claims := rfl

/-- The releases move the bays alone. -/
theorem Input.releaseAll_eq (x : Input) (claims : List Nat) :
    x.releaseAll claims = { x with bays := (x.releaseAll claims).bays } := by
  induction claims generalizing x with
  | nil => rfl
  | cons k claims ih =>
    rw [Input.releaseAll_cons]
    exact ih _

/-- Each bay is lowered by the claims on it. -/
theorem Input.releaseAll_bay (x : Input) (claims : List Nat) (k : Nat) :
    (x.releaseAll claims).bay k = (x.bay k).lowered (claims.count k) := by
  induction claims generalizing x with
  | nil => exact (Bay.lowered_zero _).symm
  | cons j claims ih =>
    rw [Input.releaseAll_cons, ih]
    by_cases hj : k = j
    · subst j
      rw [Input.bay_setBay_self, List.count_cons_self, Bay.release_lowered]
    · rw [Input.bay_setBay_ne _ _ hj, List.count_cons_of_ne (Ne.symm hj)]

/-! ## A clip freed (R98, R113) -/

/-- The code of OK or CLAMPED (10.5). -/
theorem okOr_code (clamped : Bool) : toWord (okOr clamped).code = if clamped then 1 else 0 := by cases clamped <;> rfl

section Freed

variable {b : Blocks} {c : Nat} {x : Clip} (h : b.rep.clip c = some x) (cause : Nat)
include h

/-- A clip freed, in one piece. -/
theorem Blocks.freeClip_some : b.freeClip c cause =
    ((b.onInput x.input (·.releaseAll x.claims)).onPort fun p =>
      (p.notice .clipLapsed c (toWord cause)).complete .replay x.slot (okOr x.clamped) (toWord c)).onRep (·.setClip c none) := by
  unfold Blocks.freeClip
  rw [h]

theorem Blocks.freeClip_port : (b.freeClip c cause).port =
    (b.port.notice .clipLapsed c (toWord cause)).complete .replay x.slot (okOr x.clamped) (toWord c) := by
  rw [Blocks.freeClip_some h]
  rfl

/-- The clips, the heads and the inputs a freed clip leaves, and its notice and slot (R98, R113). -/
theorem Blocks.freeClip_clipFreed : b.clipFreed (b.freeClip c cause) c cause x := by
  have hport := Blocks.freeClip_port h cause
  rw [Blocks.freeClip_some h] at hport ⊢
  have hinput : ((b.onInput x.input (·.releaseAll x.claims)).cap.input x.input) = (b.cap.input x.input).releaseAll x.claims :=
    Capture.input_setInput_self ..
  refine ⟨Replay.clip_setClip_self .., fun d hd => Replay.clip_setClip_ne _ _ hd, rfl, rfl,
    fun i hi => Capture.input_setInput_ne _ _ hi, rfl, ?_, fun k => ?_, fun hlaid => ?_, rfl⟩
  · show (b.onInput x.input (·.releaseAll x.claims)).cap.input x.input =
      { b.cap.input x.input with bays := ((b.onInput x.input (·.releaseAll x.claims)).cap.input x.input).bays }
    rw [hinput]
    exact Input.releaseAll_eq _ _
  · exact (congrArg (·.bay k) hinput).trans (Input.releaseAll_bay _ _ k)
  · have hlaid' : (b.port.notice .clipLapsed c (toWord cause)).laid := closed_laid.notice _ _ _ _ hlaid
    have hdone := Port.complete_slotMoves _ .replay x.slot (okOr x.clamped) (toWord c) hlaid'
    refine ⟨_, b.port.notice_noticed .clipLapsed c (toWord cause) hlaid, Port.through_one ?_⟩
    rw [okOr_code] at hdone
    rw [hport]
    exact hdone

/-- The slot of its MARK_CLIP card, DONE with the outcome and the clip number of its take, and every byte but its words and
those of the notice, on any layout whose REPLAY desk lies clear (R113). -/
theorem Blocks.freeClip_slotReads (hw : Memory.wf b.port.mem = true) (hf : 2 ≤ (b.port.area (deskIndex .replay)).first) :
    b.port.slotReads (b.freeClip c cause).port .replay x.slot 4 (if x.clamped then 1 else 0) b.port.showTick (toWord c) ∧
    bytesKept b.port.mem (b.freeClip c cause).port.mem (b.port.slotWords .replay x.slot ++ b.port.noticeWords) := by
  rw [Blocks.freeClip_port h]
  have hkept := b.port.notice_bytesKept .clipLapsed c (toWord cause) hw
  have hwf := closed_wf.notice b.port .clipLapsed c (toWord cause) hw
  obtain ⟨-, -, htick, hareas, -⟩ :=
    (closed_sameFixed b.port).notice b.port .clipLapsed c (toWord cause) b.port.sameFixed_refl
  generalize b.port.notice .clipLapsed c (toWord cause) = p at hkept hwf htick hareas
  have hslot : p.slotAddr .replay x.slot = b.port.slotAddr .replay x.slot := Port.slotAddr_congr hareas _ _
  have hreads := p.moveOut_slotReads .replay x.slot slotDone (okOr x.clamped) p.showTick (toWord c) hwf
    (by unfold Port.area; rw [hareas]; exact hf)
  have hmoved := p.moveOut_bytesKept .replay x.slot slotDone (okOr x.clamped) p.showTick (toWord c) hwf
  unfold Port.slotReads at hreads ⊢
  unfold Port.slotWords at hmoved ⊢
  rw [hslot, htick] at hreads
  rw [hslot] at hmoved
  rw [okOr_code] at hreads
  unfold Port.complete
  rw [htick] at hmoved ⊢
  exact ⟨hreads, hkept.trans hmoved⟩

end Freed

/-- A clip released that no head uses is freed; one that a head uses is LAPSING (R110, R112). -/
theorem Blocks.releaseClip_eq {b : Blocks} {c : Nat} {x : Clip} (h : b.rep.clip c = some x) (cause : Nat) :
    b.releaseClip c cause = if b.rep.userHeads c = 0 then b.freeClip c cause
      else b.onRep (·.setClip c (some { x with state := .lapsing, cause })) := by
  unfold Blocks.releaseClip
  rw [h]

/-- Settles O44, by whether a head uses the clip. -/
theorem clipExpiryFreesOrLapses : Obligations.ClipExpiryFreesOrLapses := by
  intro c s x hs hclip hkept hkeep
  obtain ⟨hlive, hwf, harea⟩ := hs
  have hdue : Blocks.expireClip c s.blk = s.blk.releaseClip c 0 := by
    unfold Blocks.expireClip
    rw [hclip]
    exact if_pos ⟨hkept, hkeep⟩
  have hreleased := hdue.trans (Blocks.releaseClip_eq hclip 0)
  by_cases hused : s.blk.rep.userHeads c = 0
  · have hfreed := Blocks.freeClip_clipFreed hclip 0
    obtain ⟨hreads, hbytes⟩ := Blocks.freeClip_slotReads hclip 0 hwf harea
    obtain ⟨hfree, hothers, hA, hB, -, -, -, -, -, hrest⟩ := id hfreed
    rw [if_pos hused] at hreleased
    exact ⟨_, State.next_whenLive hlive hreleased, fun _ => ⟨hfree, hreads, hfreed⟩, fun h => absurd hused h, hothers,
      hA, hB, hbytes, congrArg (fun b => s.onPart (·.onBlk fun _ => b)) hrest⟩
  · rw [if_neg hused] at hreleased
    exact ⟨_, State.next_whenLive hlive hreleased, fun h => absurd h hused, fun _ => ⟨Replay.clip_setClip_self .., rfl⟩,
      fun d hd => Replay.clip_setClip_ne _ _ hd, rfl, rfl, fun _ _ => rfl, rfl⟩

end Sys2Proof.Machine
end


section
/-! PROOFS. KEEP_CLIP and DROP_CLIP (O45). -/

namespace Sys2Proof.Machine

/-! ## Cards that move their slot, or the Replay Unit's tables and their slot -/

section Cards

variable {s : State} {slot : Nat} {f : Blocks → Blocks} {o : CardOutcome} {r : Word} (hs : s.ready .replay)
include hs

/-- A REPLAY card refused moves its slot alone (R175). -/
theorem State.replayCard_refused (hop : f s.blk = s.blk.onPort (·.refuse .replay slot o r)) :
    ∃ t, (.next (s.onPart (·.card f)) : Answer) = .next t ∧ s.onlyMoved t .replay slot 5 (toWord o.code) r :=
  ⟨_, rfl, s.refused_onlyMoved .replay slot o r (fun _ => f) hs hop⟩

/-- A REPLAY card that completes with no other effect moves its slot alone (R175). -/
theorem State.replayCard_completed (hop : f s.blk = s.blk.onPort (·.complete .replay slot o r)) :
    ∃ t, (.next (s.onPart (·.card f)) : Answer) = .next t ∧ s.onlyMoved t .replay slot 4 (toWord o.code) r :=
  ⟨_, rfl, s.completed_onlyMoved .replay slot o r (fun _ => f) hs hop⟩

/-- A REPLAY card that changes the Replay Unit and completes moves that unit and its slot alone. -/
theorem State.replayCard_onRep {g : Replay → Replay}
    (hop : f s.blk = (s.blk.onRep g).onPort (·.complete .replay slot o r)) :
    ∃ t, (.next (s.onPart (·.card f)) : Answer) = .next t ∧ t.blk.rep = g s.blk.rep ∧
      s.port.slotMoved t.port .replay slot 4 (toWord o.code) r ∧
      t = s.onPart (·.onBlk fun b => { b with port := t.port, rep := t.blk.rep }) := by
  obtain ⟨hlive, hwf, harea⟩ := hs
  exact ⟨_, State.next_cardBlocks hlive hop, rfl, s.port.complete_slotMoved .replay slot o r hwf harea, rfl⟩

/-- The slot of a card that completes behind other changes of a Port that lies as it did: its own words (R175). -/
theorem State.ready.slotReads_behind {p : Port} (hp : s.port.laidAs p) :
    p.slotMoved (p.complete .replay slot o r) .replay slot 4 (toWord o.code) r ∧
    s.port.slotReads (p.complete .replay slot o r) .replay slot 4 (toWord o.code) s.port.showTick r := by
  obtain ⟨-, -, harea⟩ := hs
  obtain ⟨hwf, -, -, htick, hareas, -⟩ := hp
  have hmoved := p.complete_slotMoved .replay slot o r hwf (by unfold Port.area; rw [hareas]; exact harea)
  obtain ⟨hreads, -⟩ := id hmoved
  unfold Port.slotReads at hreads ⊢
  rw [Port.slotAddr_congr hareas, htick] at hreads
  exact ⟨hmoved, hreads⟩

end Cards

/-- The Port of a ready part, canonical, lies as itself. -/
theorem State.ready.laidAs {s : State} {d : Desk} (hs : s.ready d) : s.port.laidAs s.port :=
  ⟨hs.2.1, s.port.sameFixed_refl⟩

/-! ## The clip a card names (R111) -/

theorem Replay.named_some {r : Replay} {c : Nat} {post : Word} {x : Clip} (h : r.clip c = some x) (hp : x.post = post) :
    r.named c post = some x := by
  unfold Replay.named
  rw [h]
  exact Option.filter_eq_some_iff.mpr ⟨rfl, by simpa using hp⟩

theorem Replay.named_none {r : Replay} {c : Nat} {post : Word} (h : ∀ x, r.clip c = some x → x.post ≠ post) :
    r.named c post = none :=
  Option.filter_eq_none_iff.mpr fun x hx => by simpa using h x hx

/-! ## KEEP_CLIP by its checks (R111) -/

/-- The fields of a KEEP_CLIP card are within their encoding (R111). -/
def keepCueCoded (q : KeepCue) : Prop := q.clip ≤ 31 ∧ q.action ≤ 1 ∧ (q.action = 0 → 1 ≤ q.frames ∧ q.frames ≤ 2160000)

section KeepClip

variable {q : KeepCue} (slot : Nat) {b : Blocks}

theorem keepClipOp_uncoded (h : ¬keepCueCoded q) : keepClipOp slot q b = b.onPort (·.refuse .replay slot .badField 0) := by
  refine if_pos ?_
  unfold keepCueCoded at h
  unfold Config.keepTop
  omega

/-- A coded card goes by the clip it names. -/
theorem keepClipOp_coded (h : keepCueCoded q) : keepClipOp slot q b = match b.rep.named q.clip q.post with
    | none => b.onPort (·.refuse .replay slot .badField 3)
    | some x =>
      if x.state = .lapsing then b.onPort (·.refuse .replay slot .badField 4)
      else (b.onRep (·.setClip q.clip (some (x.keepOn q).1))).onPort
        (·.complete .replay slot (x.keepOn q).2.1 (toWord (x.keepOn q).2.2)) := by
  refine if_neg ?_
  obtain ⟨hclip, haction, hframes⟩ := h
  unfold Config.keepTop
  omega

theorem keepClipOp_unnamed (h : keepCueCoded q) (hnone : ∀ x, b.rep.clip q.clip = some x → x.post ≠ q.post) :
    keepClipOp slot q b = b.onPort (·.refuse .replay slot .badField 3) := by
  rw [keepClipOp_coded slot h, Replay.named_none hnone]

theorem keepClipOp_lapsing (h : keepCueCoded q) {x : Clip} (hx : b.rep.clip q.clip = some x) (hp : x.post = q.post)
    (hl : x.state = .lapsing) : keepClipOp slot q b = b.onPort (·.refuse .replay slot .badField 4) := by
  rw [keepClipOp_coded slot h, Replay.named_some hx hp]
  exact if_pos hl

theorem keepClipOp_keeps (h : keepCueCoded q) {x : Clip} (hx : b.rep.clip q.clip = some x) (hp : x.post = q.post)
    (hl : x.state ≠ .lapsing) : keepClipOp slot q b = (b.onRep (·.setClip q.clip (some (x.keepOn q).1))).onPort
      (·.complete .replay slot (x.keepOn q).2.1 (toWord (x.keepOn q).2.2)) := by
  rw [keepClipOp_coded slot h, Replay.named_some hx hp]
  exact if_neg hl

end KeepClip

/-- The state, keep, outcome code and result that a KEEP_CLIP card leaves of a clip that is not LAPSING (R111; the keep of a
HELD clip is log entry 47). -/
def Clip.afterKeep (x : Clip) (q : KeepCue) : ClipState × Nat × Nat × Nat :=
  if q.action = 1 then (.held, 0, 0, 0)
  else if x.state = .kept then
    (.kept, min (x.keep + q.frames) 2160000, (if x.keep + q.frames ≤ 2160000 then 0 else 1),
      min (x.keep + q.frames) 2160000)
  else (.kept, q.frames, 0, q.frames)

/-- A number lowered to a top is the smaller of the two. -/
theorem capAt_eq_min (top n : Nat) : capAt top n = min n top := by
  unfold capAt
  split <;> omega

theorem Clip.keepOn_afterKeep (x : Clip) (q : KeepCue) :
    (x.keepOn q).1 = { x with state := (x.afterKeep q).1, keep := (x.afterKeep q).2.1 } ∧
    toWord (x.keepOn q).2.1.code = toWord (x.afterKeep q).2.2.1 ∧ (x.keepOn q).2.2 = (x.afterKeep q).2.2.2 := by
  unfold Clip.keepOn Clip.afterKeep
  split
  · exact ⟨rfl, rfl, rfl⟩
  · split
    · next hkept =>
      have hcap : capAt Config.keepTop (x.keep + q.frames) = min (x.keep + q.frames) 2160000 := capAt_eq_min _ _
      dsimp only
      rw [hcap, okOr_code]
      refine ⟨by rw [← hkept], ?_, rfl⟩
      by_cases hsum : x.keep + q.frames ≤ 2160000 <;> simp [hsum, toWord]
    · exact ⟨rfl, rfl, rfl⟩

/-! ## DROP_CLIP by its checks (R112) -/

section DropClip

variable {q : DropClipCue} (slot : Nat) {b : Blocks}

theorem dropClipOp_uncoded (h : 31 < q.clip) : dropClipOp slot q b = b.onPort (·.refuse .replay slot .badField 0) := if_pos h

/-- A coded card goes by the clip it names. -/
theorem dropClipOp_coded (h : q.clip ≤ 31) : dropClipOp slot q b = match b.rep.named q.clip q.post with
    | none => b.onPort (·.complete .replay slot .ok 3)
    | some x => (if x.state = .lapsing then b else b.releaseClip q.clip 1).onPort
        (·.complete .replay slot .ok (toWord (b.rep.userHeads q.clip))) :=
  if_neg (by omega)

theorem dropClipOp_unnamed (h : q.clip ≤ 31) (hnone : ∀ x, b.rep.clip q.clip = some x → x.post ≠ q.post) :
    dropClipOp slot q b = b.onPort (·.complete .replay slot .ok 3) := by
  rw [dropClipOp_coded slot h, Replay.named_none hnone]

theorem dropClipOp_lapsing (h : q.clip ≤ 31) {x : Clip} (hx : b.rep.clip q.clip = some x) (hp : x.post = q.post)
    (hl : x.state = .lapsing) : dropClipOp slot q b =
      b.onPort (·.complete .replay slot .ok (toWord (b.rep.userHeads q.clip))) := by
  rw [dropClipOp_coded slot h, Replay.named_some hx hp]
  exact congrArg (fun y : Blocks => y.onPort _) (if_pos hl)

theorem dropClipOp_drops (h : q.clip ≤ 31) {x : Clip} (hx : b.rep.clip q.clip = some x) (hp : x.post = q.post)
    (hl : x.state ≠ .lapsing) : dropClipOp slot q b = (b.releaseClip q.clip 1).onPort
      (·.complete .replay slot .ok (toWord (b.rep.userHeads q.clip))) := by
  rw [dropClipOp_coded slot h, Replay.named_some hx hp]
  exact congrArg (fun y : Blocks => y.onPort _) (if_neg hl)

end DropClip

/-! ## A clip released (R110, R112, R113) -/

section Released

variable {b : Blocks} {c : Nat} {x : Clip} (hx : b.rep.clip c = some x) (cause : Nat)
include hx

/-- A clip that no head uses is freed. -/
theorem Blocks.releaseClip_frees (hused : b.rep.userHeads c = 0) : b.clipFreed (b.releaseClip c cause) c cause x := by
  rw [Blocks.releaseClip_eq hx, if_pos hused]
  exact Blocks.freeClip_clipFreed hx cause

/-- One that a head uses is LAPSING. -/
theorem Blocks.releaseClip_lapses (hused : b.rep.userHeads c ≠ 0) :
    b.releaseClip c cause = b.onRep (·.setClip c (some { x with state := .lapsing, cause })) := by
  rw [Blocks.releaseClip_eq hx, if_neg hused]

/-- Either way the other clips, the heads and the other blocks stand. -/
theorem Blocks.releaseClip_rest :
    (∀ d, d ≠ c → (b.releaseClip c cause).rep.clip d = b.rep.clip d) ∧
    b.releaseClip c cause = { b with
      port := (b.releaseClip c cause).port, cap := (b.releaseClip c cause).cap
      rep := { b.rep with clips := (b.releaseClip c cause).rep.clips } } := by
  by_cases hused : b.rep.userHeads c = 0
  · obtain ⟨-, hothers, hA, hB, -, -, -, -, -, hrest⟩ := Blocks.releaseClip_frees hx cause hused
    refine ⟨hothers, hrest.trans ?_⟩
    dsimp only
    rw [← hA, ← hB]
  · rw [Blocks.releaseClip_lapses hx cause hused]
    exact ⟨fun d hd => Replay.clip_setClip_ne _ _ hd, rfl⟩

end Released

/-- Settles O45: each card on the clip it names, and the cards that move their slot alone, by the first check they meet. -/
theorem keepAndDropClip : Obligations.KeepAndDropClip := by
  refine ⟨fun slot post s c x hs hc hx hl => ⟨fun q hqc hqp haction hframes => ?_, ?_⟩,
    fun slot post q s hs => ⟨fun h => s.replayCard_refused hs (keepClipOp_uncoded slot h),
      fun h => s.replayCard_refused hs (dropClipOp_uncoded slot h),
      fun hnone => ⟨fun h => s.replayCard_refused hs (keepClipOp_unnamed slot h hnone),
        fun h => s.replayCard_completed hs (dropClipOp_unnamed slot h hnone)⟩,
      fun x hx hp hl => ⟨fun h => s.replayCard_refused hs (keepClipOp_lapsing slot h hx hp hl),
        fun h => s.replayCard_completed hs (dropClipOp_lapsing slot h hx hp hl)⟩⟩⟩
  · subst c
    obtain ⟨t, hexec, hrep, hmoved, hrest⟩ := s.replayCard_onRep hs
      (keepClipOp_keeps slot ⟨hc, haction, hframes⟩ hx hqp.symm hl)
    obtain ⟨hclip, houtcome, hresult⟩ := x.keepOn_afterKeep q
    rw [houtcome, hresult] at hmoved
    refine ⟨t, hexec, ?_, fun d hd => ?_, hmoved, ?_⟩
    · rw [hrep, Replay.clip_setClip_self, hclip]
      rfl
    · rw [hrep]
      exact Replay.clip_setClip_ne _ _ hd
    · rw [hrep] at hrest ⊢
      exact hrest
  · have hop := dropClipOp_drops (q := ⟨c, x.post⟩) slot hc hx rfl hl
    have hfrees := Blocks.releaseClip_frees hx 1
    have hlapses := Blocks.releaseClip_lapses hx 1
    obtain ⟨hothers, hrest⟩ := Blocks.releaseClip_rest hx 1
    obtain ⟨hmoved, hreads⟩ := hs.slotReads_behind (slot := slot) (o := .ok) (r := toWord (s.blk.rep.userHeads c))
      ((closed_laidAs s.port).releaseClip s.blk c 1 hs.laidAs)
    dsimp only at hop
    generalize s.blk.releaseClip c 1 = m at hop hfrees hlapses hothers hrest hmoved hreads
    refine ⟨_, State.next_cardBlocks hs.1 hop, fun hused => (hfrees hused).1, fun hused => ?_, hothers, hreads,
      fun hused => ⟨m, hfrees hused, fun _ => ?_, rfl⟩, fun hused => ?_,
      congrArg (fun b : Blocks => s.onPart (·.onBlk fun _ =>
        b.onPort (·.complete .replay slot .ok (toWord (s.blk.rep.userHeads c))))) hrest⟩
    · rw [hlapses hused]
      exact Replay.clip_setClip_self ..
    · rw [hused] at hmoved ⊢
      exact hmoved
    · rw [hlapses hused] at hmoved ⊢
      exact ⟨rfl, hmoved⟩

end Sys2Proof.Machine
end


section
/-! PROOFS. The heads by their numbers, a head that leaves its clip, and CUE_HEAD (O46). -/

namespace Sys2Proof.Machine

/-! ## The heads by their numbers (R105, R115) -/

@[simp] theorem Replay.head_setHead_self (r : Replay) (i : Nat) (k : Head) : (r.setHead i k).head i = k := by
  unfold Replay.head Replay.setHead
  split <;> rfl

theorem Replay.head_setHead_other (r : Replay) {i : Nat} (hi : i ≤ 1) (k : Head) :
    (r.setHead i k).head (1 - i) = r.head (1 - i) := by
  obtain rfl | rfl : i = 0 ∨ i = 1 := by omega
  · rfl
  · rfl

@[simp] theorem Replay.clips_setHead (r : Replay) (i : Nat) (k : Head) : (r.setHead i k).clips = r.clips := by
  unfold Replay.setHead
  split <;> rfl

@[simp] theorem Replay.clip_setHead (r : Replay) (i : Nat) (k : Head) (c : Nat) : (r.setHead i k).clip c = r.clip c := by
  unfold Replay.clip
  rw [Replay.clips_setHead]

/-- The heads are read by their fields alone. -/
theorem Replay.head_congr {r q : Replay} (hA : q.headA = r.headA) (hB : q.headB = r.headB) (i : Nat) :
    q.head i = r.head i := by
  unfold Replay.head
  rw [hA, hB]

/-- A clip is without users where neither head uses it (R105). -/
theorem Replay.userHeads_eq_zero (r : Replay) {i : Nat} (hi : i ≤ 1) (c : Nat) :
    r.userHeads c = 0 ↔ (r.head i).uses c = false ∧ (r.head (1 - i)).uses c = false := by
  have hcount : r.userHeads c = 0 ↔ r.headA.uses c = false ∧ r.headB.uses c = false := by
    unfold Replay.userHeads flagNat
    cases r.headA.uses c <;> cases r.headB.uses c <;> decide
  obtain rfl | rfl : i = 0 ∨ i = 1 := by omega
  · exact hcount
  · exact hcount.trans and_comm

/-! ## A head that leaves its clip (R113) -/

theorem Blocks.freeIfLeft_some {b : Blocks} {c : Nat} {z : Clip} (h : b.rep.clip c = some z) :
    b.freeIfLeft c = if z.state = .lapsing ∧ b.rep.userHeads c = 0 then b.freeClip c z.cause else b := by
  unfold Blocks.freeIfLeft
  rw [h]

/-- A head turns from what it is into another: the clip it held, LAPSING and left without users, is freed (R113). -/
def Blocks.turnHead (b : Blocks) (i : Nat) (k : Head) : Blocks :=
  match (b.rep.head i).clip with
  | some c => (b.onRep (·.setHead i k)).freeIfLeft c
  | none => b.onRep (·.setHead i k)

/-- The clip of head `i` is LAPSING and the other head does not use it: it goes where the head leaves it (R113). -/
def Blocks.turnFrees (b : Blocks) (i d : Nat) (z : Clip) : Prop :=
  (b.rep.head i).clip = some d ∧ b.rep.clip d = some z ∧ z.state = .lapsing ∧ (b.rep.head (1 - i)).uses d = false

section Turn

variable {b : Blocks} {i : Nat} {k : Head} (hi : i ≤ 1)
include hi

/-- Where no clip goes, the head alone turns. -/
theorem Blocks.turnHead_stays
    (h : ∀ d z, (b.rep.head i).clip = some d → b.rep.clip d = some z → z.state = .lapsing →
      (b.rep.head (1 - i)).uses d = true) : b.turnHead i k = b.onRep (·.setHead i k) := by
  unfold Blocks.turnHead
  split
  · next d hd =>
    cases hz : b.rep.clip d with
    | none =>
      unfold Blocks.freeIfLeft
      rw [Blocks.onRep_rep, Replay.clip_setHead, hz]
    | some z =>
      rw [Blocks.freeIfLeft_some ((Replay.clip_setHead ..).trans hz)]
      refine if_neg fun hleft => ?_
      obtain ⟨hlapsing, hunused⟩ := hleft
      obtain ⟨-, hother⟩ := ((b.rep.setHead i k).userHeads_eq_zero hi d).mp hunused
      rw [Replay.head_setHead_other _ hi, h d z hd hz hlapsing] at hother
      cases hother
  · rfl

/-- A LAPSING clip that neither the other head nor the turned one uses is freed with its lapse cause (R113). -/
theorem Blocks.turnHead_frees {d : Nat} {z : Clip} (h : b.turnFrees i d z) (hk : k.uses d = false) :
    b.turnHead i k = (b.onRep (·.setHead i k)).freeClip d z.cause := by
  obtain ⟨hd, hz, hlapsing, hother⟩ := h
  unfold Blocks.turnHead
  rw [hd]
  refine (Blocks.freeIfLeft_some ((Replay.clip_setHead ..).trans hz)).trans (if_pos ⟨hlapsing, ?_⟩)
  exact ((b.rep.setHead i k).userHeads_eq_zero hi d).mpr
    ⟨by rw [Replay.head_setHead_self]; exact hk, by rw [Replay.head_setHead_other _ hi]; exact hother⟩

theorem Blocks.turnHead_clipFreed {d : Nat} {z : Clip} (h : b.turnFrees i d z) (hk : k.uses d = false) :
    (b.onRep (·.setHead i k)).clipFreed (b.turnHead i k) d z.cause z := by
  rw [Blocks.turnHead_frees hi h hk]
  obtain ⟨-, hz, -⟩ := h
  exact Blocks.freeClip_clipFreed ((Replay.clip_setHead ..).trans hz) _

/-- The heads behind the turn, and the blocks that stand (R113). -/
theorem Blocks.turnHead_rest (hk : ∀ d z, b.turnFrees i d z → k.uses d = false) :
    (b.turnHead i k).rep.head i = k ∧ (b.turnHead i k).rep.head (1 - i) = b.rep.head (1 - i) ∧
    b.turnHead i k = { b with port := (b.turnHead i k).port, cap := (b.turnHead i k).cap, rep := (b.turnHead i k).rep } := by
  by_cases hfrees : ∃ d z, b.turnFrees i d z
  · obtain ⟨d, z, hdz⟩ := hfrees
    obtain ⟨-, -, hA, hB, -, -, -, -, -, hrest⟩ := Blocks.turnHead_clipFreed hi hdz (hk d z hdz)
    exact ⟨(Replay.head_congr hA hB i).trans (Replay.head_setHead_self ..),
      (Replay.head_congr hA hB (1 - i)).trans (Replay.head_setHead_other _ hi k), hrest⟩
  · have hstays : b.turnHead i k = b.onRep (·.setHead i k) := Blocks.turnHead_stays hi (fun d z hd hz hl => by
      by_contra hother
      exact hfrees ⟨d, z, hd, hz, hl, by simpa using hother⟩)
    rw [hstays]
    exact ⟨Replay.head_setHead_self .., Replay.head_setHead_other _ hi k, rfl⟩

end Turn

/-- The Port behind the turn lies as it did. -/
theorem Blocks.turnHead_laidAs {b : Blocks} (i : Nat) (k : Head) {p : Port} (h : p.laidAs b.port) :
    p.laidAs (b.turnHead i k).port := by
  unfold Blocks.turnHead
  split
  · exact (closed_laidAs p).freeIfLeft _ _ h
  · exact h

/-- A card that turns a head and completes (R113, R117, R119): both heads, its slot, and what becomes of the clip left. -/
theorem State.replayCard_turnsHead {s : State} {slot i : Nat} {k : Head} {r : Word} {f : Blocks → Blocks}
    (hs : s.ready .replay) (hi : i ≤ 1) (hk : ∀ d z, s.blk.turnFrees i d z → k.uses d = false)
    (hop : f s.blk = (s.blk.turnHead i k).onPort (·.complete .replay slot .ok r)) :
    ∃ t, (.next (s.onPart (·.card f)) : Answer) = .next t ∧ t.blk.rep.head i = k ∧
      t.blk.rep.head (1 - i) = s.blk.rep.head (1 - i) ∧
      s.port.slotReads t.port .replay slot 4 0 s.port.showTick r ∧
      ((∀ d z, (s.blk.rep.head i).clip = some d → s.blk.rep.clip d = some z → z.state = .lapsing →
          (s.blk.rep.head (1 - i)).uses d = true) →
        s.port.slotMoved t.port .replay slot 4 0 r ∧ t.blk.rep.clips = s.blk.rep.clips ∧ t.blk.cap = s.blk.cap) ∧
      (∀ d z, (s.blk.rep.head i).clip = some d → s.blk.rep.clip d = some z → z.state = .lapsing →
        (s.blk.rep.head (1 - i)).uses d = false →
        ∃ m, (s.blk.onRep (·.setHead i k)).clipFreed m d z.cause z ∧
          (s.port.laid → m.port.slotMoved t.port .replay slot 4 0 r) ∧ t.blk = { m with port := t.port }) ∧
      t = s.onPart (·.onBlk fun b => { b with port := t.port, cap := t.blk.cap, rep := t.blk.rep }) := by
  obtain ⟨hmoved, hreads⟩ := hs.slotReads_behind (slot := slot) (o := .ok) (r := r)
    (Blocks.turnHead_laidAs i k hs.laidAs)
  obtain ⟨hhead, hother, hrest⟩ := Blocks.turnHead_rest hi hk
  refine ⟨_, State.next_cardBlocks hs.1 hop, hhead, hother, hreads, fun hused => ?_, fun d z hd hz hl hunused => ?_,
    congrArg (fun b : Blocks => s.onPart (·.onBlk fun _ => b.onPort (·.complete .replay slot .ok r))) hrest⟩
  · have hstays := Blocks.turnHead_stays (k := k) hi hused
    rw [hstays] at hmoved
    refine ⟨?_, (congrArg (fun b : Blocks => b.rep.clips) hstays).trans (Replay.clips_setHead ..),
      (congrArg Blocks.cap hstays).trans rfl⟩
    show s.port.slotMoved ((s.blk.turnHead i k).port.complete .replay slot .ok r) .replay slot 4 0 r
    rw [hstays]
    exact hmoved
  · have hfrees : s.blk.turnFrees i d z := ⟨hd, hz, hl, hunused⟩
    exact ⟨_, Blocks.turnHead_clipFreed hi hfrees (hk d z hfrees), fun _ => hmoved, rfl⟩

/-! ## CUE_HEAD by its checks (R117) -/

/-- The codes of a CUE_HEAD card are within their encoding (R117). -/
def cueHeadCoded (q : CueHeadCue) : Prop := q.head ≤ 1 ∧ q.clip ≤ 31 ∧ q.blend ≤ 1 ∧ q.start ≤ 1

theorem Clip.startOutside_iff (x : Clip) (n : Nat) : x.startOutside n = true ↔
    n < x.inPoint ∨ (match x.outPoint with | some o => o | none => x.edge.getD x.inPoint) < n := by
  unfold Clip.startOutside
  cases x.outPoint <;> simp

section CueHead

variable {q : CueHeadCue}

theorem Replay.cueFault_uncoded {r : Replay} (h : ¬cueHeadCoded q) : r.cueFault q = some 0 := by
  refine if_pos ?_
  unfold cueHeadCoded at h
  omega

/-- A coded card goes by the clip it names. -/
theorem Replay.cueFault_coded {r : Replay} (h : cueHeadCoded q) : r.cueFault q = match r.named q.clip q.post with
    | none => some 3
    | some x => if x.state = .lapsing then some 4 else if q.start = 1 ∧ x.startOutside q.frame then some 2 else none := by
  refine if_neg ?_
  obtain ⟨hhead, hclip, hblend, hstart⟩ := h
  omega

theorem Replay.cueFault_unnamed {r : Replay} (h : cueHeadCoded q) (hnone : ∀ x, r.clip q.clip = some x → x.post ≠ q.post) :
    r.cueFault q = some 3 := by
  rw [Replay.cueFault_coded h, Replay.named_none hnone]

theorem Replay.cueFault_lapsing {r : Replay} {x : Clip} (h : cueHeadCoded q) (hx : r.clip q.clip = some x)
    (hp : x.post = q.post) (hl : x.state = .lapsing) : r.cueFault q = some 4 := by
  rw [Replay.cueFault_coded h, Replay.named_some hx hp]
  exact if_pos hl

/-- On a clip it may cue, the start frame alone may refuse the card. -/
theorem Replay.cueFault_named {r : Replay} {x : Clip} (h : cueHeadCoded q) (hx : r.clip q.clip = some x)
    (hp : x.post = q.post) (hl : x.state ≠ .lapsing) :
    r.cueFault q = if q.start = 1 ∧ x.startOutside q.frame then some 2 else none := by
  rw [Replay.cueFault_coded h, Replay.named_some hx hp]
  exact if_neg hl

theorem Replay.cuedFrame_eq {r : Replay} {x : Clip} (hx : r.clip q.clip = some x) :
    r.cuedFrame q = if q.start = 1 then q.frame else x.inPoint := by
  unfold Replay.cuedFrame
  rw [hx]
  rfl

theorem cueHeadOp_refused (slot : Nat) {b : Blocks} {r : Word} (h : b.rep.cueFault q = some r) :
    cueHeadOp slot q b = b.onPort (·.refuse .replay slot .badField r) := by
  unfold cueHeadOp
  rw [h]

/-- The head a card cues (R117). -/
def Head.cuedAt (h : Head) (q : CueHeadCue) (f : Nat) : Head :=
  { h with state := .cued, clip := some q.clip, position := f * 256, blend := decide (q.blend = 1) }

theorem cueHeadOp_cues (slot : Nat) {b : Blocks} (h : b.rep.cueFault q = none) : cueHeadOp slot q b =
    (b.turnHead q.head ((b.rep.head q.head).cuedAt q (b.rep.cuedFrame q))).onPort
      (·.complete .replay slot .ok (toWord (b.rep.cuedFrame q))) := by
  unfold cueHeadOp Blocks.turnHead
  rw [h]
  cases hclip : (b.rep.head q.head).clip <;> simp only [hclip] <;> rfl

end CueHead

/-- Settles O46, by the first check the card meets. -/
theorem cueHeadCuesTheClip : Obligations.CueHeadCuesTheClip := by
  refine ⟨fun slot post q s x hs hhead hclip hblend hstart hx hp hl hrange => ?_,
    fun slot post q s hs => ⟨fun h => s.replayCard_refused hs (cueHeadOp_refused slot (Replay.cueFault_uncoded h)),
      fun h hnone => s.replayCard_refused hs (cueHeadOp_refused slot (Replay.cueFault_unnamed h hnone)),
      fun x h hx hp hl => s.replayCard_refused hs (cueHeadOp_refused slot (Replay.cueFault_lapsing h hx hp hl)),
      fun x h hx hp hl hstart hout => s.replayCard_refused hs (cueHeadOp_refused slot ?_)⟩⟩
  · have hfault : s.blk.rep.cueFault q = none := by
      rw [Replay.cueFault_named ⟨hhead, hclip, hblend, hstart⟩ hx hp.symm hl]
      refine if_neg fun hfails => ?_
      obtain ⟨hgiven, houtside⟩ := hfails
      obtain ⟨hlow, hhigh⟩ := hrange hgiven
      rcases (x.startOutside_iff q.frame).mp houtside with h | h
      · omega
      · exact absurd hhigh (Nat.not_le.mpr h)
    have hframe : s.blk.rep.cuedFrame q = if q.start = 1 then q.frame else x.inPoint := Replay.cuedFrame_eq hx
    have hop := cueHeadOp_cues slot hfault
    rw [hframe] at hop
    have huses : ∀ d z, s.blk.turnFrees q.head d z →
        ((s.blk.rep.head q.head).cuedAt q (if q.start = 1 then q.frame else x.inPoint)).uses d = false := by
      rintro d z ⟨-, hz, hlapsing, -⟩
      have hd : q.clip ≠ d := by
        rintro rfl
        obtain rfl : x = z := Option.some.inj (hx.symm.trans hz)
        exact hl hlapsing
      simpa [Head.uses, Head.cuedAt] using hd
    obtain ⟨t, hexec, hcued, hother, hreads, hstays, hfrees, hrest⟩ := s.replayCard_turnsHead hs hhead huses hop
    refine ⟨t, hexec, hcued, hother, hreads, hstays, fun d z hd hz hlapsing hunused => ?_, hrest⟩
    rw [hcued]
    exact hfrees d z hd hz hlapsing hunused
  · rw [Replay.cueFault_named h hx hp hl]
    exact if_pos ⟨hstart, (x.startOutside_iff q.frame).mpr hout⟩

end Sys2Proof.Machine
end


section
/-! PROOFS. MARK_CLIP (O43). -/

namespace Sys2Proof.Machine

/-! ## The frames present (R100) -/

/-- The present numbers of a bay are those it holds under no damage mark. -/
theorem Bay.mem_presentNumbers (y : Bay) (n : Nat) :
    n ∈ y.presentNumbers ↔ (y.holds n && !y.damaged.contains (n - y.first)) = true := by
  unfold Bay.presentNumbers Bay.holds
  by_cases hempty : y.state = .empty
  · simp [hempty]
  · rw [if_neg hempty]
    simp only [List.mem_map, List.mem_filter, List.mem_range, Bool.and_eq_true, bne_iff_ne, ne_eq, hempty,
      not_false_eq_true, true_and, decide_eq_true_eq]
    constructor
    · rintro ⟨p, ⟨hp, hundamaged⟩, rfl⟩
      exact ⟨⟨by omega, by omega⟩, by rwa [Nat.add_sub_cancel_left]⟩
    · rintro ⟨⟨hlow, hhigh⟩, hundamaged⟩
      exact ⟨n - y.first, ⟨by omega, hundamaged⟩, by omega⟩

theorem Input.mem_presentNumbers (x : Input) (n : Nat) : n ∈ x.bays.flatMap Bay.presentNumbers ↔ x.present n = true := by
  unfold Input.present
  rw [List.mem_flatMap, List.any_eq_true]
  exact exists_congr fun y => and_congr_right fun _ => y.mem_presentNumbers n

/-- The newest present frame is the largest present number. -/
theorem Input.newestPresent_eq_some (x : Input) (n : Nat) :
    x.newestPresent = some n ↔ x.present n = true ∧ ∀ m, x.present m = true → m ≤ n := by
  unfold Input.newestPresent
  rw [List.max?_eq_some_iff]
  simp only [Input.mem_presentNumbers]

/-! ## The claims of a new clip (R107) -/

/-- The bays a new clip claims, each once, are those that hold a number of its range. -/
theorem Input.mem_claimable (x : Input) {lo : Nat} {hi : Option Nat} (hrange : ∀ o, hi = some o → lo ≤ o) (k : Nat) :
    k ∈ x.claimable lo hi ↔ (x.bay k).state ≠ .empty ∧
      ∃ n, (x.bay k).first ≤ n ∧ n < (x.bay k).first + (x.bay k).frames.length ∧ lo ≤ n ∧ ∀ o, hi = some o → n ≤ o := by
  have hbeyond : x.bays.length ≤ k → (tget .empty x.bays k).state = .empty := fun h => by
    rw [tget_beyond _ _ _ h]
    rfl
  unfold Input.claimable Input.bay
  rw [tfindFrom_eq_filter .empty, List.mem_filter, List.mem_range]
  generalize tget .empty x.bays k = y at hbeyond ⊢
  simp only [Bool.and_eq_true, bne_iff_ne, decide_eq_true_eq]
  constructor
  · rintro ⟨-, ⟨⟨hstate, hframes⟩, hlow⟩, hhigh⟩
    refine ⟨hstate, max y.first lo, by omega, by omega, by omega, fun o ho => ?_⟩
    subst ho
    have hlo := hrange o rfl
    simp only [decide_eq_true_eq] at hhigh
    omega
  · rintro ⟨hstate, n, hfirst, hlast, hlow, hhigh⟩
    refine ⟨by by_contra h; exact hstate (hbeyond (by omega)), ⟨⟨hstate, by omega⟩, by omega⟩, ?_⟩
    cases hi with
    | none => rfl
    | some o => exact decide_eq_true (hfirst.trans (hhigh o rfl))

theorem Input.claimable_nodup (x : Input) (lo : Nat) (hi : Option Nat) : (x.claimable lo hi).Nodup := by
  unfold Input.claimable
  rw [tfindFrom_eq_filter .empty]
  exact List.nodup_range.filter _

/-- A claim raises the kept count of a FILLED bay, and the pending count of any other (R98). -/
theorem Bay.claim_eq (y : Bay) : y.claim = match y.state with
    | .filled => { y with kept := y.kept + 1 }
    | _ => { y with pending := y.pending + 1 } := by
  unfold Bay.claim
  cases y.state <;> rfl

/-- An input whose bays take the claims of a new clip (R98, R107). -/
def Input.claimAll (x : Input) (claims : List Nat) : Input := claims.foldl (fun x k => x.setBay k (x.bay k).claim) x

theorem Input.claimAll_cons (x : Input) (k : Nat) (claims : List Nat) :
    x.claimAll (k :: claims) = (x.setBay k (x.bay k).claim).claimAll claims := rfl

/-- The claims move the bays alone. -/
theorem Input.claimAll_eq (x : Input) (claims : List Nat) :
    x.claimAll claims = { x with bays := (x.claimAll claims).bays } := by
  induction claims generalizing x with
  | nil => rfl
  | cons k claims ih =>
    rw [Input.claimAll_cons]
    exact ih _

/-- Each bay claimed takes one claim, and every other bay none. -/
theorem Input.claimAll_bay (x : Input) {claims : List Nat} (h : claims.Nodup) (k : Nat) :
    (x.claimAll claims).bay k = if k ∈ claims then (x.bay k).claim else x.bay k := by
  induction claims generalizing x with
  | nil => rfl
  | cons j claims ih =>
    obtain ⟨hj, hrest⟩ := List.nodup_cons.mp h
    rw [Input.claimAll_cons, ih _ hrest]
    by_cases hk : k = j
    · subst k
      simp [hj]
    · rw [Input.bay_setBay_ne _ _ hk]
      simp [hk]

/-! ## The checks of a MARK_CLIP card (R106) -/

/-- The codes and the keep of a MARK_CLIP card are within their encoding. -/
def markCoded (q : MarkCue) : Prop := q.input ≤ 3 ∧ q.range ≤ 1 ∧ q.keep ≤ 2160000

/-- The in-point of a fixed range is not above its out-point. -/
def markOrdered (q : MarkCue) : Prop := q.range = 0 → q.inPoint ≤ q.outPoint

/-- The input can still supply a number of the range. -/
def Input.supplies (x : Input) (q : MarkCue) : Prop :=
  (q.range = 0 → x.earliest ≤ q.outPoint) ∧ (4294967295 < x.next → x.oldestPresent ≠ none)

section MarkFault

variable {b : Blocks} {q : MarkCue}

theorem Blocks.markFault_uncoded (h : ¬markCoded q) : b.markFault q = some (.badField, 0) := by
  refine if_pos ?_
  unfold markCoded at h
  unfold Config.keepTop
  omega

section Coded

variable (hcoded : markCoded q)
include hcoded

theorem markCoded.inRange : ¬(3 < q.input ∨ 1 < q.range ∨ Config.keepTop < q.keep) := by
  obtain ⟨hinput, hrange, hkeep⟩ := hcoded
  unfold Config.keepTop
  omega

theorem Blocks.markFault_unordered (h : ¬markOrdered q) : b.markFault q = some (.badField, 1) := by
  unfold Blocks.markFault
  unfold markOrdered at h
  dsimp only
  rw [if_neg hcoded.inRange, if_pos (by omega)]

variable (hordered : markOrdered q)
include hordered

theorem Blocks.markFault_unsupplied (h : ¬(b.cap.input q.input).supplies q) : b.markFault q = some (.badField, 2) := by
  unfold Blocks.markFault
  unfold markOrdered at hordered
  unfold Input.supplies at h
  dsimp only
  rw [if_neg hcoded.inRange, if_neg (by omega), if_pos]
  by_cases hlate : q.range = 0 ∧ q.outPoint < (b.cap.input q.input).earliest
  · exact .inl hlate
  · refine .inr ?_
    by_contra hother
    exact h ⟨by omega, fun hnext hnone => hother ⟨hnext, hnone⟩⟩

/-- A card whose fields pass is refused where no clip is FREE, and else passes. -/
theorem Blocks.markFault_supplied (h : (b.cap.input q.input).supplies q) :
    b.markFault q = if b.rep.clips.all Option.isSome then some (.noRoom, 0) else none := by
  obtain ⟨hrange, hpresent⟩ := h
  unfold Blocks.markFault
  unfold markOrdered at hordered
  dsimp only
  rw [if_neg hcoded.inRange, if_neg (by omega), if_neg]
  rintro (hlate | ⟨hnext, hnone⟩)
  · omega
  · exact hpresent hnext hnone

end Coded

end MarkFault

/-- No clip of the table is FREE. -/
theorem Replay.clips_all_isSome (r : Replay) :
    r.clips.all Option.isSome = true ↔ ∀ c, c < r.clips.length → r.clip c ≠ none := by
  have hlist : ∀ l : List (Option Clip), l.all Option.isSome = true ↔ ∀ c, c < l.length → tget none l c ≠ none := by
    intro l
    induction l with
    | nil => simp
    | cons a l ih =>
      rw [List.all_cons, Bool.and_eq_true, ih]
      constructor
      · rintro ⟨ha, hl⟩ c hc
        cases c with
        | zero => exact Option.isSome_iff_ne_none.mp ha
        | succ c => exact hl c (Nat.lt_of_succ_lt_succ hc)
      · exact fun h => ⟨Option.isSome_iff_ne_none.mpr (h 0 (Nat.succ_pos _)), fun c hc => h (c + 1) (Nat.succ_lt_succ hc)⟩
  exact hlist r.clips

/-- The lowest FREE clip is the one that a card takes (R107). -/
theorem Replay.lowestFree {r : Replay} {c : Nat} (hc : c < r.clips.length) (hfree : r.clip c = none)
    (hlowest : ∀ d, d < c → r.clip d ≠ none) : (tfindFrom Option.isNone 0 r.clips).headD 0 = c := by
  have hfind : (List.range r.clips.length).find? (fun j => (r.clip j).isNone) = some c :=
    List.find?_range_eq_some.mpr ⟨by rw [hfree]; rfl, List.mem_range.mpr hc, fun d hd => by
      simpa [Option.isSome_iff_ne_none] using hlowest d hd⟩
  rw [tfindFrom_eq_filter none, List.headD_eq_head?_getD, List.head?_filter]
  exact congrArg (Option.getD · 0) hfind

/-! ## The card taken (R107, R108) -/

/-- The Port as a card that goes ACTIVE leaves it, with the outcome and result it will end with (R174, R175). -/
def Port.activated (p : Port) (d : Desk) (i : Nat) (o : CardOutcome) (r : Word) : Port :=
  (p.provisional d i o r).activate d i

/-- It moves those three words of Show Memory alone. -/
theorem Port.activated_reads (p : Port) (d : Desk) (i : Nat) (o : CardOutcome) (r : Word) (hw : Memory.wf p.mem = true) :
    let q := p.activated d i o r
    let a := p.slotAddr d i
    memWord q.mem a = 3 ∧ memWord q.mem (a + 12) = toWord o.code ∧ memWord q.mem (a + 24) = r ∧
    bytesKept p.mem q.mem [a, a + 12, a + 24] ∧ q = { p with mem := q.mem } := by
  intro q a
  have hmem : q.mem = memWriteWord (memWriteWord (memWriteWord p.mem (a + 12) (toWord o.code)) (a + 24) r) a 3 := rfl
  have w1 := wf_memWriteWord p.mem (a + 12) (toWord o.code) hw
  have w2 := wf_memWriteWord _ (a + 24) r w1
  refine ⟨?_, ?_, ?_, fun b hb => ?_, rfl⟩
  · rw [hmem, memWord_memWriteWord_self _ _ _ w2]
  · rw [hmem, memWord_memWriteWord_ne _ _ _ _ w2 (by omega), memWord_memWriteWord_ne _ _ _ _ w1 (by omega),
      memWord_memWriteWord_self _ _ _ hw]
  · rw [hmem, memWord_memWriteWord_ne _ _ _ _ w2 (by omega), memWord_memWriteWord_self _ _ _ w1]
  · simp only [List.mem_cons, List.not_mem_nil, or_false, forall_eq_or_imp, forall_eq] at hb
    obtain ⟨hstate, houtcome, hresult⟩ := hb
    rw [hmem, memRead_memWriteWord_ne _ _ _ _ w2 hstate, memRead_memWriteWord_ne _ _ _ _ w1 hresult,
      memRead_memWriteWord_ne _ _ _ _ hw houtcome]

/-- The blocks as a card leaves them that makes clip `c`: the clip, its claims, and the card's slot ACTIVE. -/
def Blocks.marks (b : Blocks) (slot c : Nat) (q : MarkCue) (x : Clip) : Blocks :=
  ((b.onRep (·.setClip c (some x))).onInput q.input (·.claimAll x.claims)).onPort
    (·.activated .replay slot (okOr x.clamped) (toWord c))

/-- A card that passes, of a fixed range or on an input that has not yet numbered its last frame (R107, R109). -/
theorem markClipOp_marks (slot : Nat) (post : Word) {q : MarkCue} {b : Blocks} {c : Nat} (hfault : b.markFault q = none)
    (hc : (tfindFrom Option.isNone 0 b.rep.clips).headD 0 = c) (hrange : q.range ≤ 1)
    (hopen : q.range = 1 → (b.cap.input q.input).next ≤ max q.inPoint (b.cap.input q.input).earliest + 599) :
    markClipOp slot post q b = b.marks slot c q (markedClip (b.cap.input q.input) slot post q) := by
  have hstays : ∀ n, (b.cap.input q.input).newestNumber = some n →
      ¬((markedClip (b.cap.input q.input) slot post q).outPoint = none ∧
        (markedClip (b.cap.input q.input) slot post q).inPoint + 599 ≤ n) := by
    rintro n hn ⟨hout, hin⟩
    have hone : q.range = 1 := by
      by_contra hzero
      have hout' : (if q.range = 0 then some q.outPoint else none) = none := hout
      rw [if_pos (by omega)] at hout'
      cases hout'
    have hin' : max q.inPoint (b.cap.input q.input).earliest + 599 ≤ n := hin
    have hnext := hopen hone
    unfold Input.newestNumber at hn
    split at hn
    · cases hn
    · obtain rfl := Option.some.inj hn
      omega
  unfold markClipOp
  rw [hfault]
  dsimp only
  rw [hc]
  split
  · rfl
  · next n hn => exact if_neg (hstays n hn)

section Marked

variable (x : Input) (slot : Nat) (post : Word) {q : MarkCue}

/-- The live edge of a new clip: of an OPEN one the newest present frame at or above its in-point (R108). -/
theorem markedClip_edge : (q.range = 0 → (markedClip x slot post q).edge = none) ∧
    (q.range = 1 → ∀ n, (markedClip x slot post q).edge = some n ↔ max q.inPoint x.earliest ≤ n ∧ x.present n = true ∧
      ∀ m, x.present m = true → m ≤ n) := by
  refine ⟨fun hzero => if_pos hzero, fun hone n => ?_⟩
  have hedge : (markedClip x slot post q).edge = x.newestPresent.filter (max q.inPoint x.earliest ≤ ·) := if_neg (by omega)
  rw [hedge, Option.filter_eq_some_iff, Input.newestPresent_eq_some, decide_eq_true_eq]
  exact and_comm

/-- The claims of a new clip (R107). -/
theorem markedClip_claims (hsupplied : q.range = 0 → q.inPoint ≤ q.outPoint ∧ x.earliest ≤ q.outPoint) (k : Nat) :
    k ∈ (markedClip x slot post q).claims ↔ (x.bay k).state ≠ .empty ∧
      ∃ n, (x.bay k).first ≤ n ∧ n < (x.bay k).first + (x.bay k).frames.length ∧ max q.inPoint x.earliest ≤ n ∧
        (q.range = 0 → n ≤ q.outPoint) := by
  have hhi : ∀ o, (if q.range = 0 then some q.outPoint else none) = some o ↔ q.range = 0 ∧ q.outPoint = o := by
    intro o
    by_cases hzero : q.range = 0 <;> simp [hzero]
  refine (x.mem_claimable (fun o ho => ?_) k).trans ?_
  · obtain ⟨hzero, rfl⟩ := (hhi o).mp ho
    have := hsupplied hzero
    omega
  · simp only [hhi, and_imp, forall_apply_eq_imp_iff]

end Marked

/-- Settles O43: a card that passes and makes its clip, and one that fails, by the first check it fails. -/
theorem markClipKeepsAClip : Obligations.MarkClipKeepsAClip := by
  refine ⟨fun slot post q s c hs hinput hrange hkeep hsupplied hnext hc hfree hlowest hopen => ?_,
    fun slot post q s hs => ?_⟩
  · obtain ⟨hlive, hwf, harea⟩ := hs
    have hfault : s.blk.markFault q = none := by
      rw [Blocks.markFault_supplied ⟨hinput, hrange, hkeep⟩ (fun hzero => (hsupplied hzero).1)
        ⟨fun hzero => (hsupplied hzero).2, fun h => absurd hnext (Nat.not_le.mpr h)⟩]
      exact if_neg fun hfull => (s.blk.rep.clips_all_isSome.mp hfull) c hc hfree
    have hop := markClipOp_marks slot post hfault (Replay.lowestFree hc hfree hlowest) hrange hopen
    obtain ⟨hfixed, hedge⟩ := markedClip_edge (s.blk.cap.input q.input) slot post (q := q)
    have hclaims := markedClip_claims (s.blk.cap.input q.input) slot post hsupplied
    have hnodup : (markedClip (s.blk.cap.input q.input) slot post q).claims.Nodup := Input.claimable_nodup ..
    have hclamped : toWord (okOr (markedClip (s.blk.cap.input q.input) slot post q).clamped).code =
        if q.inPoint < (s.blk.cap.input q.input).earliest then 1 else 0 := by
      rw [okOr_code]
      exact if_congr decide_eq_true_iff rfl rfl
    obtain ⟨hstate, houtcome, hresult, hbytes, hport⟩ := s.port.activated_reads .replay slot
      (okOr (markedClip (s.blk.cap.input q.input) slot post q).clamped) (toWord c) hwf
    rw [hclamped] at houtcome
    have hin : (s.blk.marks slot c q (markedClip (s.blk.cap.input q.input) slot post q)).cap.input q.input =
        (s.blk.cap.input q.input).claimAll (markedClip (s.blk.cap.input q.input) slot post q).claims :=
      Capture.input_setInput_self ..
    have hbay := (s.blk.cap.input q.input).claimAll_bay hnodup
    refine ⟨_, State.next_cardBlocks hlive hop, ⟨_, Replay.clip_setClip_self .., rfl, rfl, rfl, rfl, rfl, rfl, rfl, rfl,
        hfixed, hedge, hnodup, hclaims⟩, fun k hk => ?_, fun k hk => ?_, ?_, fun i hi => Capture.input_setInput_ne _ _ hi,
      rfl, fun d hd => Replay.clip_setClip_ne _ _ hd, rfl, rfl, hstate, houtcome, hresult, hbytes, hport, rfl⟩
    · refine (congrArg (·.bay k) hin).trans ((hbay k).trans ((if_pos ((hclaims k).mpr hk)).trans ?_))
      exact Bay.claim_eq _
    · exact (congrArg (·.bay k) hin).trans ((hbay k).trans (if_neg fun h => hk ((hclaims k).mp h)))
    · refine hin.trans ((Input.claimAll_eq _ _).trans ?_)
      rw [← hin]
      rfl
  · intro x coded ordered supplied refused
    have hfails : ∀ o r, s.blk.markFault q = some (o, r) → refused (toWord o.code) r := fun o r hfault =>
      s.replayCard_refused hs (by unfold markClipOp; rw [hfault])
    refine ⟨fun h => hfails .badField 0 (Blocks.markFault_uncoded h),
      fun hc h => hfails .badField 1 (Blocks.markFault_unordered hc h),
      fun hc ho h => hfails .badField 2 (Blocks.markFault_unsupplied hc ho h), fun hc ho h hfull => ?_⟩
    refine hfails .noRoom 0 ((Blocks.markFault_supplied hc ho h).trans (if_pos ?_))
    exact s.blk.rep.clips_all_isSome.mpr hfull

end Sys2Proof.Machine
end


section
/-! PROOFS. PLAY, SET_RATE, PAUSE and STOP_HEAD as cards (O47). -/

namespace Sys2Proof.Machine

/-- A card that sets a head and completes moves that head and its slot alone. -/
theorem State.replayCard_setsHead {s : State} {slot i : Nat} {k : Head} {o : CardOutcome} {r : Word} {f : Blocks → Blocks}
    (hs : s.ready .replay) (hi : i ≤ 1)
    (hop : f s.blk = (s.blk.onRep (·.setHead i k)).onPort (·.complete .replay slot o r)) :
    ∃ t, (.next (s.onPart (·.card f)) : Answer) = .next t ∧ t.blk.rep.head i = k ∧
      t.blk.rep.head (1 - i) = s.blk.rep.head (1 - i) ∧ t.blk.rep.clips = s.blk.rep.clips ∧
      s.port.slotMoved t.port .replay slot 4 (toWord o.code) r ∧
      t = s.onPart (·.onBlk fun b => { b with port := t.port, rep := t.blk.rep }) := by
  obtain ⟨t, hexec, hrep, hmoved, hrest⟩ := s.replayCard_onRep hs hop
  refine ⟨t, hexec, ?_, ?_, ?_, hmoved, hrest⟩
  · rw [hrep, Replay.head_setHead_self]
  · rw [hrep, Replay.head_setHead_other _ hi]
  · rw [hrep, Replay.clips_setHead]

/-! ## The rate taken (R118) -/

theorem clampRate_eq (z : Int) : clampRate z = max (-512) (min 512 z) := by
  unfold clampRate clampInt
  split
  · omega
  · split <;> omega

/-- The outcome of a card whose rate was changed or not. -/
theorem okOr_rate_code (z : Int) : toWord (okOr (clampRate z != z)).code = if max (-512) (min 512 z) = z then 0 else 1 := by
  rw [okOr_code, ← clampRate_eq]
  by_cases h : clampRate z = z <;> simp [h]

/-! ## The cards by their checks (R118, R119) -/

section Cards

variable (slot : Nat) {b : Blocks}

theorem playOp_uncoded {q : PlayCue} (h : 1 < q.head ∨ 1 < q.loop) :
    playOp slot q b = b.onPort (·.refuse .replay slot .badField 0) := if_pos h

theorem playOp_idle {q : PlayCue} (hhead : q.head ≤ 1) (hloop : q.loop ≤ 1) (h : (b.rep.head q.head).state = .idle) :
    playOp slot q b = b.onPort (·.refuse .replay slot .badField 1) :=
  (if_neg (by omega)).trans (if_pos h)

theorem playOp_plays {q : PlayCue} (hhead : q.head ≤ 1) (hloop : q.loop ≤ 1) (h : (b.rep.head q.head).state ≠ .idle) :
    playOp slot q b = (b.onRep (·.setHead q.head { b.rep.head q.head with
        state := .playing, rate := clampRate q.rate, loop := q.loop == 1 })).onPort
      (·.complete .replay slot (okOr (clampRate q.rate != q.rate)) (intWord (clampRate q.rate))) :=
  (if_neg (by omega)).trans (if_neg h)

theorem setRateOp_uncoded {q : RateCue} (h : 1 < q.head) :
    setRateOp slot q b = b.onPort (·.refuse .replay slot .badField 0) := if_pos h

theorem setRateOp_idle {q : RateCue} (hhead : q.head ≤ 1) (h : (b.rep.head q.head).state = .idle) :
    setRateOp slot q b = b.onPort (·.refuse .replay slot .badField 1) :=
  (if_neg (by omega)).trans (if_pos h)

theorem setRateOp_sets {q : RateCue} (hhead : q.head ≤ 1) (h : (b.rep.head q.head).state ≠ .idle) :
    setRateOp slot q b = (b.onRep (·.setHead q.head { b.rep.head q.head with rate := clampRate q.rate })).onPort
      (·.complete .replay slot (okOr (clampRate q.rate != q.rate)) (intWord (clampRate q.rate))) :=
  (if_neg (by omega)).trans (if_neg h)

theorem pauseOp_uncoded {i : Nat} (h : 1 < i) : pauseOp slot i b = b.onPort (·.refuse .replay slot .badField 0) := if_pos h

theorem pauseOp_idle {i : Nat} (hhead : i ≤ 1) (h : (b.rep.head i).state = .idle) :
    pauseOp slot i b = b.onPort (·.refuse .replay slot .badField 1) :=
  (if_neg (by omega)).trans (if_pos h)

theorem pauseOp_pauses {i : Nat} (hhead : i ≤ 1) (h : (b.rep.head i).state ≠ .idle) :
    pauseOp slot i b = (b.onRep (·.setHead i (b.rep.head i).paused)).onPort
      (·.complete .replay slot .ok (toWord ((b.rep.head i).position / 256))) :=
  (if_neg (by omega)).trans (if_neg h)

theorem stopHeadOp_uncoded {i : Nat} (h : 1 < i) :
    stopHeadOp slot i b = b.onPort (·.refuse .replay slot .badField 0) := if_pos h

theorem stopHeadOp_stops {i : Nat} (hhead : i ≤ 1) :
    stopHeadOp slot i b = (b.turnHead i .idle).onPort (·.complete .replay slot .ok 0) := by
  refine (if_neg (by omega)).trans ?_
  unfold Blocks.turnHead
  cases hclip : (b.rep.head i).clip <;> simp only [hclip]

end Cards

/-- PAUSE changes the state alone (R119). -/
theorem Head.paused_eq (h : Head) :
    h.paused = { h with state := if h.state = .playing ∨ h.state = .atLive then .paused else h.state } := by
  unfold Head.paused
  split <;> rfl

end Sys2Proof.Machine
end


section
/-! PROOFS. What the work of a mark leaves of the Replay Unit (O47). -/

namespace Sys2Proof.Machine

/-! ## The Rotator leaves it -/

@[simp] theorem Blocks.putEntry_rep (b : Blocks) (e : Nat) (x : Entry) : (b.putEntry e x).rep = b.rep := by
  unfold Blocks.putEntry Blocks.writeMeter
  rfl

@[simp] theorem Blocks.endAirings_rep (b : Blocks) (test : Airing → Bool) (reason : AiringEnd) :
    (b.endAirings test reason).rep = b.rep := rfl

@[simp] theorem Blocks.copyFrame_rep (b : Blocks) : b.copyFrame.rep = b.rep := by
  unfold Blocks.copyFrame
  split
  · rfl
  · split
    · unfold Blocks.completeLoad
      split <;> rfl
    · rfl

@[simp] theorem Blocks.dwellWork_rep (b : Blocks) : b.dwellWork.rep = b.rep :=
  foldl_kept Blocks.rep (fun b z => (b.endDue .dwell z).endDue .holdLimit z) (fun _ _ => rfl) (List.range 16) b

theorem Blocks.applyRotation_rep (b : Blocks) (t : Taken RotationCard) : (b.applyRotation t).rep = b.rep := by
  unfold Blocks.applyRotation
  cases t.card with
  | setGroup q =>
    dsimp only
    unfold setGroupOp
    split
    · rfl
    · split <;> rfl
  | setEntry q =>
    dsimp only
    unfold setEntryOp
    split
    · rfl
    · dsimp only
      split <;> simp only [Blocks.onPort_rep, Blocks.putEntry_rep, Blocks.endAirings_rep]
  | dropEntry e =>
    dsimp only
    unfold dropEntryOp
    split
    · rfl
    · split <;> rfl
  | loadImage q =>
    dsimp only
    unfold loadImageOp
    split <;> rfl

@[simp] theorem Blocks.selectionPass_rep (b : Blocks) : b.selectionPass.rep = b.rep := by
  refine foldl_kept Blocks.rep Blocks.select (fun b z => ?_) b.selecting b
  obtain ⟨hselect, -⟩ | ⟨g, i, x, -, -, hselect⟩ := b.select_cases z
  · rw [hselect]
  · rw [hselect, b.airs_eq]

@[simp] theorem Blocks.credit_rep (b : Blocks) : b.credit.rep = b.rep := by
  rw [b.credit_eq]
  refine foldl_kept Blocks.rep (Blocks.creditEntry b.shownAirings b.frameCredit) (fun d e => ?_) (List.range 128)
    b.countAirings
  obtain ⟨hfixed, -⟩ | ⟨x, y, -, -, -, hmoved⟩ := d.creditEntry_cases b.shownAirings b.frameCredit e
  · rw [hfixed]
  · rw [hmoved, Blocks.onPort_rep, Blocks.putEntry_rep]

/-! ## The plans leave it -/

theorem Blocks.applyCue_rep (b : Blocks) (slot : Nat) (cut : Bool) (e : Option (ZoneRun × Nat)) :
    (b.applyCue slot cut e).rep = b.rep := by
  unfold Blocks.applyCue
  split <;> rfl

theorem Work.applyPlan_rep (w : Work) (t : Taken PlanCard) : (w.applyPlan t).blk.rep = w.blk.rep := by
  unfold Work.applyPlan
  cases t.card with
  | postPlan q =>
    dsimp only [Work.onBlk]
    unfold postPlanOp
    split
    · rfl
    · unfold Blocks.supersede
      split <;> rfl
  | showZone q =>
    dsimp only [Work.onBlk]
    unfold showZoneOp
    split
    · rfl
    · split
      · rfl
      · exact Blocks.applyCue_rep ..
  | hideZone q =>
    dsimp only [Work.onBlk]
    unfold hideZoneOp
    split
    · rfl
    · exact Blocks.applyCue_rep ..
  | setSection q => rfl

@[simp] theorem Blocks.adopt_rep (b : Blocks) : b.adopt.rep = b.rep := by
  unfold Blocks.adopt
  split
  · rfl
  · split <;> rfl

/-! ## The Lanes leave it -/

theorem Blocks.rep_of_offLanes {x b : Blocks} (h : x.offLanes = b.offLanes) : x.rep = b.rep := by
  rw [Blocks.eq_of_offLanes h]

theorem Blocks.advancePasses_rep (b : Blocks) : b.advancePasses.rep = b.rep := by
  refine foldl_kept Blocks.rep _ (fun d p => ?_) b.lanes.passesByLane b
  have hend : ∀ c q e, (d.endPass c q e).rep = d.rep := fun c q e => Blocks.rep_of_offLanes (Blocks.endPass_offLanes ..)
  unfold Blocks.applyJudgement
  split
  · rfl
  · split
    · rfl
    · unfold Blocks.completePass
      dsimp only
      split <;> exact hend _ _ _
    · exact hend _ _ _

theorem Blocks.applyMessage_rep (b : Blocks) (t : Taken MessageCue) : (b.applyMessage t).rep = b.rep := by
  unfold Blocks.applyMessage messageOp
  split
  · rfl
  · split
    · rfl
    · dsimp only
      split
      · rfl
      · split
        · rfl
        · unfold Blocks.offer
          split
          · rfl
          · split
            · split <;> rfl
            · rfl

theorem Blocks.expireCard_rep (b : Blocks) (slot : Nat) : (b.expireCard slot).rep = b.rep := by
  unfold Blocks.expireCard
  split
  · rfl
  · split <;> rfl

theorem Blocks.urgentStage_rep (b : Blocks) : b.urgentStage.rep = b.rep := by
  unfold Blocks.urgentStage
  split
  · next c _ =>
    have htaken : (b.takeLanes c).rep = b.rep :=
      Blocks.rep_of_offLanes (b.preempts_kept b.lanes.passesByLane).1
    unfold Blocks.urgentOn
    split
    · exact htaken
    · exact htaken
  · unfold Blocks.urgentOff
    split
    · rfl
    · split <;> rfl

theorem Blocks.serveLanes_rep (b : Blocks) : b.serveLanes.rep = b.rep := by
  refine foldl_kept Blocks.rep Blocks.serveLane (fun d k => ?_) (List.range 4) b
  unfold Blocks.serveLane
  split
  · rfl
  · split <;> rfl

/-- The Lanes' work, whatever cards they take (R156). -/
theorem Blocks.lanesWork_rep (cards : List (Taken MessageCue)) (b : Blocks) :
    (b.lanesWork fun b => cards.foldl Blocks.applyMessage b).rep = b.rep := by
  unfold Blocks.lanesWork
  rw [Blocks.serveLanes_rep, Blocks.urgentStage_rep, Blocks.expireCards,
    foldl_kept Blocks.rep Blocks.expireCard Blocks.expireCard_rep,
    foldl_kept Blocks.rep Blocks.applyMessage Blocks.applyMessage_rep, Blocks.advancePasses_rep]

/-! ## The keep timers leave the heads (R110) -/

/-- Both heads. -/
def Replay.heads (r : Replay) : Head × Head := (r.headA, r.headB)

theorem Replay.head_of_heads {r q : Replay} (h : q.heads = r.heads) (i : Nat) : q.head i = r.head i :=
  Replay.head_congr (Prod.mk.inj h).1 (Prod.mk.inj h).2 i

theorem Blocks.releaseClip_heads (b : Blocks) (c cause : Nat) : (b.releaseClip c cause).rep.heads = b.rep.heads := by
  cases hx : b.rep.clip c with
  | none =>
    unfold Blocks.releaseClip
    rw [hx]
  | some x =>
    rw [Blocks.releaseClip_eq hx]
    split
    · obtain ⟨-, -, hA, hB, -⟩ := Blocks.freeClip_clipFreed hx cause
      unfold Replay.heads
      rw [hA, hB]
    · rfl

theorem Blocks.keepWork_heads (b : Blocks) : b.keepWork.rep.heads = b.rep.heads := by
  refine foldl_kept (fun b : Blocks => b.rep.heads) Blocks.keepTick (fun d c => ?_) (List.range 32) b
  unfold Blocks.keepTick
  split
  · rfl
  · split
    · split
      · exact Blocks.releaseClip_heads ..
      · rfl
    · rfl

/-! ## The open work of a mark (R116) -/

/-- A piece of open work with no REPLAY card leaves the heads. -/
theorem Work.task_heads (timer : Nat) {c : Cards} (hc : c.replay = []) (w : Work) (k : MarkTask) :
    (w.task timer c k).blk.rep.heads = w.blk.rep.heads := by
  cases k with
  | clips => exact w.blk.keepWork_heads
  | plan =>
    refine congrArg Replay.heads ((c.plan.foldl Work.applyPlan w).blk.adopt_rep.trans ?_)
    exact foldl_kept (fun w : Work => w.blk.rep) Work.applyPlan Work.applyPlan_rep c.plan w
  | replay =>
    unfold Work.task
    rw [hc]
    rfl
  | rotation =>
    exact congrArg Replay.heads (foldl_kept Blocks.rep Blocks.applyRotation Blocks.applyRotation_rep c.rotation w.blk)
  | clock => rfl
  | messages => exact congrArg Replay.heads (Blocks.lanesWork_rep c.message w.blk)
  | dwell => exact congrArg Replay.heads w.blk.dwellWork_rep

end Sys2Proof.Machine
end


section
/-! PROOFS. The advance of the heads at a mark (O47). -/

namespace Sys2Proof.Machine

/-! ## A head on its clip (R120 to R122) -/

section AdvanceFixed

variable (h : Head) (lo o : Nat)

/-- A head on a fixed clip whose new position is past an end: it wraps where it loops, and is ENDED at that end where it does
not (R120, R122). -/
theorem Head.advanceFixed_past (hpast : (((o + 1) * 256 : Nat) : Int) ≤ h.position + h.rate) :
    h.advanceFixed lo o = if h.loop then
      ({ h with state := .playing, position := wrapPosition lo (o + 1 - lo) (h.position + h.rate) }, none)
    else (h.endAt o, some (.headEnded, o)) :=
  if_pos hpast

theorem Head.advanceFixed_before (hpast : ¬(((o + 1) * 256 : Nat) : Int) ≤ h.position + h.rate)
    (hbefore : (h.position : Int) + h.rate < ((lo * 256 : Nat) : Int)) :
    h.advanceFixed lo o = if h.loop then
      ({ h with state := .playing, position := wrapPosition lo (o + 1 - lo) (h.position + h.rate) }, none)
    else (h.endAt lo, some (.headEnded, lo)) :=
  (if_neg hpast).trans (if_pos hbefore)

theorem Head.advanceFixed_within (hpast : ¬(((o + 1) * 256 : Nat) : Int) ≤ h.position + h.rate)
    (hbefore : ¬(h.position : Int) + h.rate < ((lo * 256 : Nat) : Int)) :
    h.advanceFixed lo o =
      ({ h with state := .playing, position := ((h.position : Int) + h.rate).toNat }, none) :=
  (if_neg hpast).trans (if_neg hbefore)

end AdvanceFixed

/-- A PLAYING head on an OPEN clip: ENDED at the in-point, AT_LIVE at the live edge, else on its way (R121). -/
theorem Head.advanceOpen_playing (h : Head) (lo e : Nat) (hplay : h.state = .playing) : h.advanceOpen lo e =
    if (h.position : Int) + h.rate < ((lo * 256 : Nat) : Int) then (h.endAt lo, some (.headEnded, lo))
    else if ((e * 256 : Nat) : Int) < h.position + h.rate then
      ({ h with state := .atLive, position := e * 256 }, some (.headAtLive, e))
    else ({ h with position := ((h.position : Int) + h.rate).toNat }, none) :=
  if_neg (by rw [hplay]; decide)

/-- An AT_LIVE head: held there while its rate keeps it there, else PLAYING back or ENDED at the in-point (R121). -/
theorem Head.advanceOpen_atLive (h : Head) (lo e : Nat) (hlive : h.state = .atLive) : h.advanceOpen lo e =
    if 256 ≤ h.rate ∨ ((e * 256 : Nat) : Int) ≤ h.position + h.rate then ({ h with position := e * 256 }, none)
    else if (h.position : Int) + h.rate < ((lo * 256 : Nat) : Int) then (h.endAt lo, some (.headEnded, lo))
    else ({ h with state := .playing, position := ((h.position : Int) + h.rate).toNat }, none) :=
  if_pos hlive

/-! ## The first stage of one head (R116) -/

/-- A head as the first stage of a mark leaves it on a clip. -/
def Head.moved (h : Head) (x : Option Clip) : Head :=
  if h.state = .playing ∨ h.state = .atLive then
    match x with
    | none => h
    | some x => (h.advance x).1
  else h

@[simp] theorem Replay.setHead_self (r : Replay) (i : Nat) : r.setHead i (r.head i) = r := by
  unfold Replay.setHead Replay.head
  split <;> rfl

/-- A head is set, and the Port takes a notice of it with a frame number (R120, R121, R189). -/
def Blocks.headNoted (b t : Blocks) (i : Nat) (k : Head) (kind n : Nat) : Prop :=
  t = { b with port := t.port, rep := b.rep.setHead i k } ∧
  (Memory.wf b.port.mem = true → 2 ≤ (b.port.area 8).first → b.port.noticeTaken t.port kind i (toWord n))

section Advance

variable (b : Blocks) (i : Nat)

/-- The first stage of a head moves that head, as its clip lets it (R116). -/
theorem Blocks.advanceHead_rep :
    (b.advanceHead i).rep = b.rep.setHead i ((b.rep.head i).moved ((b.rep.head i).clip.bind b.rep.clip)) := by
  unfold Blocks.advanceHead Head.moved
  dsimp only
  cases (b.rep.head i).clip.bind b.rep.clip with
  | none =>
    dsimp only
    split <;> exact (b.rep.setHead_self i).symm
  | some x =>
    dsimp only
    split
    · split <;> rfl
    · exact (b.rep.setHead_self i).symm

/-- A head neither PLAYING nor AT_LIVE stands. -/
theorem Blocks.advanceHead_stands (hplay : (b.rep.head i).state ≠ .playing) (hlive : (b.rep.head i).state ≠ .atLive) :
    b.advanceHead i = b := if_neg (not_or.mpr ⟨hplay, hlive⟩)

variable {b i} {c : Nat} {x : Clip} {k : Head} (hclip : (b.rep.head i).clip = some c) (hx : b.rep.clip c = some x)
  (hmoving : (b.rep.head i).state = .playing ∨ (b.rep.head i).state = .atLive)
include hclip hx hmoving

/-- An advance that reaches no end moves the head alone. -/
theorem Blocks.advanceHead_goes (hk : (b.rep.head i).advance x = (k, none)) :
    b.advanceHead i = b.onRep (·.setHead i k) := by
  have hbind : (b.rep.head i).clip.bind b.rep.clip = some x := by rw [hclip]; exact hx
  unfold Blocks.advanceHead
  dsimp only
  rw [if_pos hmoving, hbind]
  dsimp only
  rw [hk]

/-- An advance that reaches an end gives its notice (R120, R121). -/
theorem Blocks.advanceHead_notes {kind : NoticeKind} {n : Nat}
    (hk : (b.rep.head i).advance x = (k, some (kind, n))) : b.headNoted (b.advanceHead i) i k kind.code n := by
  have hbind : (b.rep.head i).clip.bind b.rep.clip = some x := by rw [hclip]; exact hx
  have heq : b.advanceHead i = (b.onRep (·.setHead i k)).onPort (·.notice kind i (toWord n)) := by
    unfold Blocks.advanceHead
    dsimp only
    rw [if_pos hmoving, hbind]
    dsimp only
    rw [hk]
  rw [heq]
  exact ⟨rfl, fun hw ha => b.port.notice_noticeTaken kind i (toWord n) hw ha⟩

/-- On a fixed clip (R120, R122). -/
theorem Blocks.advanceHead_fixed {o : Nat} (ho : x.outPoint = some o) :
    let h := b.rep.head i
    let p : Int := h.position + h.rate
    let wrapped : Head := { h with state := .playing, position := wrapPosition x.inPoint (o + 1 - x.inPoint) p }
    if (((o + 1) * 256 : Nat) : Int) ≤ p then
      if h.loop then b.advanceHead i = b.onRep (·.setHead i wrapped) else b.headNoted (b.advanceHead i) i (h.endAt o) 11 o
    else if p < ((x.inPoint * 256 : Nat) : Int) then
      if h.loop then b.advanceHead i = b.onRep (·.setHead i wrapped)
      else b.headNoted (b.advanceHead i) i (h.endAt x.inPoint) 11 x.inPoint
    else b.advanceHead i = b.onRep (·.setHead i { h with state := .playing, position := p.toNat }) := by
  intro h p wrapped
  have hadvance : h.advance x = h.advanceFixed x.inPoint o := by unfold Head.advance; rw [ho]
  split
  · next hpast =>
    have hfixed := hadvance.trans (h.advanceFixed_past x.inPoint o hpast)
    split
    · next hloop => exact Blocks.advanceHead_goes hclip hx hmoving (hfixed.trans (if_pos hloop))
    · next hloop => exact Blocks.advanceHead_notes hclip hx hmoving (hfixed.trans (if_neg hloop))
  · next hpast =>
    split
    · next hbefore =>
      have hfixed := hadvance.trans (h.advanceFixed_before x.inPoint o hpast hbefore)
      split
      · next hloop => exact Blocks.advanceHead_goes hclip hx hmoving (hfixed.trans (if_pos hloop))
      · next hloop => exact Blocks.advanceHead_notes hclip hx hmoving (hfixed.trans (if_neg hloop))
    · next hbefore =>
      exact Blocks.advanceHead_goes hclip hx hmoving (hadvance.trans (h.advanceFixed_within x.inPoint o hpast hbefore))

end Advance

section AdvanceOpen

variable {b : Blocks} {i c : Nat} {x : Clip} (hclip : (b.rep.head i).clip = some c) (hx : b.rep.clip c = some x)
  (ho : x.outPoint = none)
include hclip hx ho

/-- A PLAYING head on an OPEN clip (R121). -/
theorem Blocks.advanceHead_openPlaying (hplay : (b.rep.head i).state = .playing) :
    let h := b.rep.head i
    let p : Int := h.position + h.rate
    let edge := x.edge.getD x.inPoint
    if p < ((x.inPoint * 256 : Nat) : Int) then b.headNoted (b.advanceHead i) i (h.endAt x.inPoint) 11 x.inPoint
    else if ((edge * 256 : Nat) : Int) < p then
      b.headNoted (b.advanceHead i) i { h with state := .atLive, position := edge * 256 } 12 edge
    else b.advanceHead i = b.onRep (·.setHead i { h with position := p.toNat }) := by
  intro h p edge
  have hadvance : h.advance x = h.advanceOpen x.inPoint edge := by unfold Head.advance; rw [ho]
  have hopen := hadvance.trans (h.advanceOpen_playing x.inPoint edge hplay)
  split
  · next hbefore => exact Blocks.advanceHead_notes hclip hx (.inl hplay) (hopen.trans (if_pos hbefore))
  · next hbefore =>
    have hopen := hopen.trans (if_neg hbefore)
    split
    · next hpast => exact Blocks.advanceHead_notes hclip hx (.inl hplay) (hopen.trans (if_pos hpast))
    · next hpast => exact Blocks.advanceHead_goes hclip hx (.inl hplay) (hopen.trans (if_neg hpast))

/-- An AT_LIVE head (R121). -/
theorem Blocks.advanceHead_openAtLive (hlive : (b.rep.head i).state = .atLive) :
    let h := b.rep.head i
    let p : Int := h.position + h.rate
    let edge := x.edge.getD x.inPoint
    if 256 ≤ h.rate ∨ ((edge * 256 : Nat) : Int) ≤ p then
      b.advanceHead i = b.onRep (·.setHead i { h with position := edge * 256 })
    else if p < ((x.inPoint * 256 : Nat) : Int) then b.headNoted (b.advanceHead i) i (h.endAt x.inPoint) 11 x.inPoint
    else b.advanceHead i = b.onRep (·.setHead i { h with state := .playing, position := p.toNat }) := by
  intro h p edge
  have hadvance : h.advance x = h.advanceOpen x.inPoint edge := by unfold Head.advance; rw [ho]
  have hopen := hadvance.trans (h.advanceOpen_atLive x.inPoint edge hlive)
  split
  · next hheld => exact Blocks.advanceHead_goes hclip hx (.inr hlive) (hopen.trans (if_pos hheld))
  · next hheld =>
    have hopen := hopen.trans (if_neg hheld)
    split
    · next hbefore => exact Blocks.advanceHead_notes hclip hx (.inr hlive) (hopen.trans (if_pos hbefore))
    · next hbefore => exact Blocks.advanceHead_goes hclip hx (.inr hlive) (hopen.trans (if_neg hbefore))

end AdvanceOpen

/-! ## The first stage of both heads (R116) -/

/-- A change of what a clip ran leaves the advance. -/
theorem Head.moved_ran (h : Head) (x : Option Clip) (f : Clip → Bool) :
    h.moved (x.map fun x => { x with ran := f x }) = h.moved x := by
  unfold Head.moved
  cases x <;> rfl

/-- Each head moves as its own clip lets it, whatever the other does. -/
theorem Blocks.advanceHeads_head (b : Blocks) {i : Nat} (hi : i ≤ 1) : ((b.advanceHead 0).advanceHead 1).rep.head i =
    (b.rep.head i).moved ((b.rep.head i).clip.bind b.rep.clip) := by
  have hclip : (b.advanceHead 0).rep.clip = b.rep.clip := by
    funext c
    rw [Blocks.advanceHead_rep, Replay.clip_setHead]
  obtain rfl | rfl : i = 0 ∨ i = 1 := by omega
  · rw [Blocks.advanceHead_rep _ 1]
    exact (Replay.head_setHead_other _ (Nat.le_refl 1) _).trans (by rw [Blocks.advanceHead_rep, Replay.head_setHead_self])
  · have hother : (b.advanceHead 0).rep.head 1 = b.rep.head 1 := by
      rw [Blocks.advanceHead_rep]
      exact Replay.head_setHead_other _ (Nat.zero_le 1) _
    rw [Blocks.advanceHead_rep _ 1, Replay.head_setHead_self, hother, hclip]

end Sys2Proof.Machine
end


section
/-! PROOFS. The output of a head, and the reads that fail (O47). -/

namespace Sys2Proof.Machine

/-! ## The error location (R102) -/

/-- The recording of an error writes its three words, where the error slot word is 0 (R102). -/
theorem Port.recordError_reads (p : Port) (slot : Word) (i n : Nat) (hw : Memory.wf p.mem = true) :
    let q := p.recordError slot i n
    (memWord p.mem 4176 = 0 → memWord q.mem 4176 = slot ∧ memWord q.mem 4180 = toWord i ∧
      memWord q.mem 4184 = toWord n) ∧
    (memWord p.mem 4176 ≠ 0 → q.mem = p.mem) ∧ bytesKept p.mem q.mem [4176, 4180, 4184] ∧
    q = { p with mem := q.mem } := by
  intro q
  by_cases hclear : memWord p.mem 4176 = 0
  · have hq : q = ((p.pokePart 84 (toWord i)).pokePart 88 (toWord n)).pokePart 80 slot := if_pos hclear
    have hmem : q.mem = memWriteWord (memWriteWord (memWriteWord p.mem 4180 (toWord i)) 4184 (toWord n)) 4176 slot := by
      rw [hq]; rfl
    have w1 := wf_memWriteWord p.mem 4180 (toWord i) hw
    have w2 := wf_memWriteWord _ 4184 (toWord n) w1
    refine ⟨fun _ => ⟨?_, ?_, ?_⟩, fun h => absurd hclear h, fun a ha => ?_, by rw [hq]; rfl⟩
    · rw [hmem, memWord_memWriteWord_self _ _ _ w2]
    · rw [hmem, memWord_memWriteWord_ne _ _ _ _ w2 (by omega), memWord_memWriteWord_ne _ _ _ _ w1 (by omega),
        memWord_memWriteWord_self _ _ _ hw]
    · rw [hmem, memWord_memWriteWord_ne _ _ _ _ w2 (by omega), memWord_memWriteWord_self _ _ _ w1]
    · simp only [List.mem_cons, List.not_mem_nil, or_false, forall_eq_or_imp, forall_eq] at ha
      obtain ⟨hslot, hinput, hnumber⟩ := ha
      rw [hmem, memRead_memWriteWord_ne _ _ _ _ w2 hslot, memRead_memWriteWord_ne _ _ _ _ w1 hnumber,
        memRead_memWriteWord_ne _ _ _ _ hw hinput]
  · have hq : q = p := if_neg hclear
    exact ⟨fun h => absurd h hclear, fun _ => by rw [hq], fun a _ => by rw [hq], by rw [hq]⟩

/-- The number of a frame slot is not 0 (R102). -/
theorem frameSlot_word_ne_zero (n : Fin 5120) : toWord (n.val + 1) ≠ 0 := by
  intro h
  have hn := n.isLt
  have := congrArg BitVec.toNat h
  simp [toWord] at this
  omega

/-! ## An uncorrectable read (R101, R102) -/

theorem mem_tset_self {α : Type} (d : α) (l : List α) (i : Nat) (x : α) : x ∈ tset d l i x := by
  induction i generalizing l with
  | zero => cases l <;> exact List.mem_cons_self
  | succ i ih => cases l <;> exact List.mem_cons_of_mem _ (ih _)

/-- An item of a table is read at one of its numbers. -/
theorem exists_tget_of_mem {α : Type} (d : α) {l : List α} {x : α} (h : x ∈ l) : ∃ j, j < l.length ∧ tget d l j = x := by
  induction l with
  | nil => cases h
  | cons a l ih =>
    rcases List.mem_cons.mp h with rfl | h
    · exact ⟨0, Nat.succ_pos _, rfl⟩
    · obtain ⟨j, hj, hx⟩ := ih h
      exact ⟨j + 1, Nat.succ_lt_succ hj, hx⟩

/-- The bay of a present frame holds it. -/
theorem Input.bayOf_present {x : Input} {n : Nat} (h : x.present n = true) :
    ∃ k, x.bayOf n = some k ∧ (x.bay k).holds n = true := by
  have hfind : x.bayOf n = (List.range x.bays.length).find? fun j => (x.bay j).holds n := by
    unfold Input.bayOf
    rw [tfindFrom_eq_filter .empty, List.head?_filter]
    rfl
  obtain ⟨y, hy, hholds⟩ := List.any_eq_true.mp h
  obtain ⟨hholds, -⟩ := Bool.and_eq_true_iff.mp hholds
  obtain ⟨j, hj, rfl⟩ := exists_tget_of_mem .empty hy
  have hsome : ((List.range x.bays.length).find? fun j => (x.bay j).holds n).isSome :=
    List.find?_isSome.mpr ⟨j, List.mem_range.mpr hj, hholds⟩
  obtain ⟨k, hk⟩ := Option.isSome_iff_exists.mp hsome
  exact ⟨k, hfind.trans hk, (List.find?_some hk :)⟩

/-- A read of a present frame that fails: the damage mark, the error location, and FRAME_DAMAGED (R101, R102, R125). -/
def Blocks.failedRead (b : Blocks) (head input n : Nat) : Blocks :=
  (b.damage input n).onPort (·.notice .frameDamaged head (toWord n))

/-- A frame under a damage mark after a read of it that fails, the error location, and the notice of a head (R101, R102,
R125). -/
def Blocks.damageNoted (b t : Blocks) (i input n : Nat) : Prop :=
  (t.cap.input input).damagedFrame n = true ∧ t = { b with port := t.port, cap := t.cap, rep := t.rep } ∧
  (Memory.wf b.port.mem = true → 2 ≤ (b.port.area 8).first →
    (memWord b.port.mem 4176 = 0 → memWord t.port.mem 4176 ≠ 0 ∧
      memWord t.port.mem 4180 = toWord input ∧ memWord t.port.mem 4184 = toWord n) ∧
    ∃ m, (memWord b.port.mem 4176 ≠ 0 → m = b.port.mem) ∧ bytesKept b.port.mem m [4176, 4180, 4184] ∧
      ({ b.port with mem := m } : Port).noticeTaken t.port 14 i (toWord n))

section FailedRead

variable {b : Blocks} (head : Nat) {input n : Nat} (h : (b.cap.input input).present n = true)
include h

/-- The damage of a present frame, in one piece: its input and the error location. -/
theorem Blocks.damage_present : ∃ w, w ≠ 0 ∧ ∃ x : Input, x.damagedFrame n = true ∧
    b.damage input n = { b with port := b.port.recordError w input n, cap := b.cap.setInput input x } := by
  obtain ⟨k, hk, hholds⟩ := Input.bayOf_present h
  unfold Blocks.damage
  dsimp only
  rw [hk]
  refine ⟨_, frameSlot_word_ne_zero _, _, ?_, rfl⟩
  refine List.any_eq_true.mpr ⟨_, mem_tset_self .., ?_⟩
  rw [Bool.and_eq_true]
  exact ⟨hholds, by simp⟩

/-- What a failed read leaves (that a mark names the frames whose reads fail is log entry 44). -/
theorem Blocks.failedRead_damages :
    (b.failedRead head input n).rep = b.rep ∧ b.damageNoted (b.failedRead head input n) head input n := by
  obtain ⟨w, hw0, x, hdamaged, hdamage⟩ := Blocks.damage_present h
  have ht : b.failedRead head input n = { b with
      port := (b.port.recordError w input n).notice .frameDamaged head (toWord n), cap := b.cap.setInput input x } :=
    congrArg (fun y : Blocks => y.onPort (·.notice .frameDamaged head (toWord n))) hdamage
  rw [ht]
  refine ⟨rfl, ?_, rfl, fun hwf harea => ?_⟩
  · rw [Capture.input_setInput_self]
    exact hdamaged
  · obtain ⟨hclear, hset, hkept, hrest⟩ := b.port.recordError_reads w input n hwf
    have hwq := closed_wf.recordError b.port w input n hwf
    have hnotice := (b.port.recordError w input n).notice_bytesKept .frameDamaged head (toWord n) hwq
    have hword : ∀ a, 4172 ≤ a → a ≤ 4184 →
        memWord ((b.port.recordError w input n).notice .frameDamaged head (toWord n)).mem a =
          memWord (b.port.recordError w input n).mem a :=
      fun a hlow hhigh => memWord_congr fun o ho => by
        refine hnotice _ fun v hv => ?_
        have hbase : 8192 ≤ (b.port.recordError w input n).areaBase 8 := by
          rw [hrest]
          show 8192 ≤ 4096 * (b.port.area 8).first
          omega
        simp only [Port.noticeWords, List.mem_cons, List.not_mem_nil, or_false, partPage] at hv
        omega
    refine ⟨fun hzero => ?_, (b.port.recordError w input n).mem, hset, hkept, ?_⟩
    · obtain ⟨hslot, hinput, hnumber⟩ := hclear hzero
      dsimp only
      rw [hword 4176 (by omega) (by omega), hword 4180 (by omega) (by omega), hword 4184 (by omega) (by omega), hslot]
      exact ⟨hw0, hinput, hnumber⟩
    · rw [← hrest]
      refine Port.notice_noticeTaken _ .frameDamaged head (toWord n) hwq ?_
      rw [hrest]
      exact harea

/-- So it does where the head is then set. -/
theorem Blocks.failedRead_sets (k : Head) :
    let t := (b.failedRead head input n).onRep (·.setHead head k)
    t.rep = b.rep.setHead head k ∧ b.damageNoted t head input n := by
  intro t
  obtain ⟨hrep, hdamaged, hrest, hport⟩ := Blocks.failedRead_damages head h
  refine ⟨congrArg (Replay.setHead · head k) hrep, hdamaged, ?_, hport⟩
  exact congrArg (fun y : Blocks => y.onRep (·.setHead head k)) hrest

end FailedRead

/-! ## The read of a frame (R101, R125) -/

section Read

variable {b : Blocks} (bad : List (Nat × Nat)) (head : Nat) {input n : Nat}

theorem Blocks.readFrame_absent (h : (b.cap.input input).present n = false) :
    b.readFrame bad head input n = (none, b) := if_pos (by rw [h]; rfl)

theorem Blocks.readFrame_fails {bad : List (Nat × Nat)} (h : (b.cap.input input).present n = true)
    (hbad : (input, n) ∈ bad) :
    b.readFrame bad head input n = (none, b.failedRead head input n) :=
  (if_neg (by rw [h]; decide)).trans (if_pos (List.contains_iff_mem.mpr hbad))

theorem Blocks.readFrame_reads {bad : List (Nat × Nat)} (h : (b.cap.input input).present n = true)
    (hbad : (input, n) ∉ bad) :
    b.readFrame bad head input n = ((b.cap.input input).picture n, b) :=
  (if_neg (by rw [h]; decide)).trans (if_neg fun hin => hbad (List.contains_iff_mem.mp hin))

end Read

/-! ## The output of a head (R123 to R125) -/

section Output

variable (bad : List (Nat × Nat)) {b : Blocks} {i : Nat}

/-- An IDLE head has no output. -/
theorem Blocks.outputHead_idle (hidle : (b.rep.head i).state = .idle) :
    b.outputHead bad i = b.onRep (·.setHead i { b.rep.head i with output := none }) := by
  unfold Blocks.outputHead
  dsimp only
  split
  · rfl
  · exact if_pos hidle

variable {c : Nat} {x : Clip} (hidle : (b.rep.head i).state ≠ .idle) (hclip : (b.rep.head i).clip = some c)
  (hx : b.rep.clip c = some x)
include hidle hclip hx

/-- A head on a clip whose frame is absent (R123, R125). -/
theorem Blocks.outputHead_absent (h : (b.cap.input x.input).present ((b.rep.head i).position / 256) = false) :
    b.outputHead bad i = b.missFrame i x := by
  have hbind : (b.rep.head i).clip.bind b.rep.clip = some x := by rw [hclip]; exact hx
  unfold Blocks.outputHead
  dsimp only
  rw [hbind]
  exact (if_neg hidle).trans (if_neg (by rw [h]; decide))

variable (h : (b.cap.input x.input).present ((b.rep.head i).position / 256) = true)
include h

/-- A head on a clip whose frame is present, by what its read gives. -/
theorem Blocks.outputHead_present : b.outputHead bad i =
    match b.readFrame bad i x.input ((b.rep.head i).position / 256) with
    | (none, b') => b'.onRep (·.setHead i { b.rep.head i with output := (b.rep.head i).heldPicture })
    | (some pic, b') =>
      (b'.blended bad i (b.rep.head i) x pic).2.onRep (·.setHead i { b.rep.head i with
        output := some (b'.blended bad i (b.rep.head i) x pic).1
        heldPicture := some (b'.blended bad i (b.rep.head i) x pic).1 }) := by
  have hbind : (b.rep.head i).clip.bind b.rep.clip = some x := by rw [hclip]; exact hx
  unfold Blocks.outputHead
  dsimp only
  rw [hbind]
  exact (if_neg hidle).trans (if_pos h)

theorem Blocks.outputHead_fails {bad : List (Nat × Nat)} (hbad : (x.input, (b.rep.head i).position / 256) ∈ bad) :
    b.outputHead bad i = (b.failedRead i x.input ((b.rep.head i).position / 256)).onRep
      (·.setHead i { b.rep.head i with output := (b.rep.head i).heldPicture }) := by
  rw [Blocks.outputHead_present bad hidle hclip hx h, Blocks.readFrame_fails i h hbad]

/-- A head whose frame is read outputs it, blended with the next where R124 applies. -/
theorem Blocks.outputHead_reads {bad : List (Nat × Nat)} {pic : Picture}
    (hbad : (x.input, (b.rep.head i).position / 256) ∉ bad)
    (hpic : (b.cap.input x.input).picture ((b.rep.head i).position / 256) = some pic) :
    b.outputHead bad i = (b.blended bad i (b.rep.head i) x pic).2.onRep (·.setHead i { b.rep.head i with
      output := some (b.blended bad i (b.rep.head i) x pic).1
      heldPicture := some (b.blended bad i (b.rep.head i) x pic).1 }) := by
  rw [Blocks.outputHead_present bad hidle hclip hx h, Blocks.readFrame_reads i h hbad, hpic]

end Output

/-! ## The blend (R124) -/

section Blend

variable (bad : List (Nat × Nat)) (b : Blocks) (i : Nat) (k : Head) (x : Clip) (pic : Picture)

/-- Without a blend, or without a next frame, the frame stands alone. -/
theorem Blocks.blended_alone (h : k.blend = false ∨ k.position % 256 = 0 ∨ x.blendLimit ≤ k.position / 256 ∨
      (b.cap.input x.input).present (k.position / 256 + 1) = false) :
    b.blended bad i k x pic = (pic, b) := by
  unfold Blocks.blended
  dsimp only
  split
  · next hblends =>
    simp only [Bool.and_eq_true, bne_iff_ne, decide_eq_true_eq] at hblends
    obtain ⟨⟨hblend, hphi⟩, hlimit⟩ := hblends
    rcases h with h | h | h | h
    · rw [h] at hblend; cases hblend
    · exact absurd h hphi
    · omega
    · rw [Blocks.readFrame_absent bad i h]
  · rfl

variable (hblend : k.blend = true) (hphi : k.position % 256 ≠ 0) (hlimit : k.position / 256 < x.blendLimit)
include hblend hphi hlimit

/-- With a blend the next frame is read. -/
theorem Blocks.blended_reads : b.blended bad i k x pic =
    match b.readFrame bad i x.input (k.position / 256 + 1) with
    | (some q, b') => (.blend pic q (k.position % 256), b')
    | (none, b') => (pic, b') :=
  if_pos (by simp [hblend, hphi, hlimit])

variable (hnext : (b.cap.input x.input).present (k.position / 256 + 1) = true)
include hnext

theorem Blocks.blended_next {bad : List (Nat × Nat)} {next : Picture} (hbad : (x.input, k.position / 256 + 1) ∉ bad)
    (hpic : (b.cap.input x.input).picture (k.position / 256 + 1) = some next) :
    b.blended bad i k x pic = (.blend pic next (k.position % 256), b) := by
  rw [Blocks.blended_reads bad b i k x pic hblend hphi hlimit, Blocks.readFrame_reads i hnext hbad, hpic]

theorem Blocks.blended_fails {bad : List (Nat × Nat)} (hbad : (x.input, k.position / 256 + 1) ∈ bad) :
    b.blended bad i k x pic = (pic, b.failedRead i x.input (k.position / 256 + 1)) := by
  rw [Blocks.blended_reads bad b i k x pic hblend hphi hlimit, Blocks.readFrame_fails i hnext hbad]

end Blend

end Sys2Proof.Machine
end


section
/-! PROOFS. The heads at a RUNNING mark, and the cards and stages of a head together (O47). -/

namespace Sys2Proof.Machine

/-! ## What the output of a head leaves (R123) -/

/-- A head that differs in what it shows alone: output, held picture and the frame reported missing. -/
def Head.shows (h k : Head) : Prop :=
  k = { h with output := k.output, heldPicture := k.heldPicture, reported := k.reported }

theorem Head.shows.trans {h k l : Head} (hk : h.shows k) (kl : k.shows l) : h.shows l := by
  unfold Head.shows at *
  rw [hk] at kl
  exact kl

theorem Blocks.readFrame_rep (b : Blocks) (bad : List (Nat × Nat)) (head i n : Nat) :
    (b.readFrame bad head i n).2.rep = b.rep := by
  cases hpresent : (b.cap.input i).present n with
  | false => rw [Blocks.readFrame_absent bad head hpresent]
  | true =>
    by_cases hbad : (i, n) ∈ bad
    · rw [Blocks.readFrame_fails head hpresent hbad]
      exact (Blocks.failedRead_damages head hpresent).1
    · rw [Blocks.readFrame_reads head hpresent hbad]

theorem Blocks.blended_rep (b : Blocks) (bad : List (Nat × Nat)) (head : Nat) (h : Head) (x : Clip) (p : Picture) :
    (b.blended bad head h x p).2.rep = b.rep := by
  unfold Blocks.blended
  dsimp only
  split
  · have hread := b.readFrame_rep bad head x.input (h.position / 256 + 1)
    split <;> (next heq => rw [heq] at hread; exact hread)
  · rfl

/-- The output of a head moves that head, and of it what it shows. -/
theorem Blocks.outputHead_sets (b : Blocks) (bad : List (Nat × Nat)) (i : Nat) :
    ∃ k, (b.outputHead bad i).rep = b.rep.setHead i k ∧ (b.rep.head i).shows k := by
  unfold Blocks.outputHead
  dsimp only
  split
  · exact ⟨_, rfl, rfl⟩
  · next x _ =>
    split
    · exact ⟨_, rfl, rfl⟩
    · split
      · have hread := b.readFrame_rep bad i x.input ((b.rep.head i).position / 256)
        split
        · next heq =>
          rw [heq] at hread
          exact ⟨_, congrArg (Replay.setHead · i _) hread, rfl⟩
        · next heq =>
          rw [heq] at hread
          exact ⟨_, congrArg (Replay.setHead · i _) ((Blocks.blended_rep _ bad i _ x _).trans hread), rfl⟩
      · unfold Blocks.missFrame
        dsimp only
        split <;> exact ⟨_, rfl, rfl⟩

theorem Blocks.outputHead_shows (b : Blocks) (bad : List (Nat × Nat)) {i j : Nat} (hi : i ≤ 1) (hj : j ≤ 1) :
    (b.rep.head i).shows ((b.outputHead bad j).rep.head i) := by
  obtain ⟨k, hrep, hshows⟩ := b.outputHead_sets bad j
  rw [hrep]
  by_cases hij : i = j
  · subst hij
    rw [Replay.head_setHead_self]
    exact hshows
  · obtain rfl : i = 1 - j := by omega
    rw [Replay.head_setHead_other _ hj]
    rfl

/-! ## The output of a head, by its frame (R123 to R125) -/

/-- An absent frame: the held picture, and FRAME_MISSING once for each that lies under no damage mark (R123, R125). -/
theorem Blocks.missFrame_shows (b : Blocks) (i : Nat) (x : Clip) :
    let h := b.rep.head i
    let t := b.missFrame i x
    let f := h.position / 256
    let y := b.cap.input x.input
    t.rep = b.rep.setHead i { h with output := h.heldPicture
                                     reported := if y.damagedFrame f then h.reported else some f } ∧
    t.cap = b.cap ∧
    (y.damagedFrame f = true ∨ h.reported = some f → t.port = b.port) ∧
    (y.damagedFrame f = false → h.reported ≠ some f → Memory.wf b.port.mem = true → 2 ≤ (b.port.area 8).first →
      b.port.noticeTaken t.port 13 i (toWord f)) := by
  intro h t f y
  by_cases hquiet : y.damagedFrame f = true ∨ h.reported = some f
  · have ht : t = b.onRep (·.setHead i { h with output := h.heldPicture }) :=
      if_pos (by simpa only [Bool.or_eq_true, beq_iff_eq] using hquiet)
    have hreported : (if y.damagedFrame f then h.reported else some f) = h.reported := by
      rcases hquiet with hdamaged | hreported
      · exact if_pos hdamaged
      · rw [hreported, ite_self]
    rw [hreported, ht]
    refine ⟨rfl, rfl, fun _ => rfl, fun hdamaged hunreported => ?_⟩
    rcases hquiet with h1 | h1
    · rw [hdamaged] at h1; cases h1
    · exact absurd h1 hunreported
  · have ht : t = (b.onRep (·.setHead i { h with output := h.heldPicture, reported := some f })).onPort
        (·.notice .frameMissing i (toWord f)) :=
      if_neg (by simpa only [Bool.or_eq_true, beq_iff_eq] using hquiet)
    obtain ⟨hdamaged, -⟩ := not_or.mp hquiet
    rw [if_neg hdamaged, ht]
    exact ⟨rfl, rfl, fun h => absurd h hquiet,
      fun _ _ hw ha => b.port.notice_noticeTaken .frameMissing i (toWord f) hw ha⟩

section ByFrame

variable {bad : List (Nat × Nat)} {b : Blocks} {i c : Nat} {x : Clip} {pic : Picture}
  (hidle : (b.rep.head i).state ≠ .idle) (hclip : (b.rep.head i).clip = some c) (hx : b.rep.clip c = some x)
  (hpresent : (b.cap.input x.input).present ((b.rep.head i).position / 256) = true)
include hidle hclip hx hpresent

/-- A read of the frame that fails gives the held picture (R101, R125). -/
theorem Blocks.outputHead_damages (hbad : (x.input, (b.rep.head i).position / 256) ∈ bad) :
    (b.outputHead bad i).rep = b.rep.setHead i { b.rep.head i with output := (b.rep.head i).heldPicture } ∧
    b.damageNoted (b.outputHead bad i) i x.input ((b.rep.head i).position / 256) := by
  rw [Blocks.outputHead_fails hidle hclip hx hpresent hbad]
  exact Blocks.failedRead_sets i hpresent _

variable (hread : (x.input, (b.rep.head i).position / 256) ∉ bad)
  (hpic : (b.cap.input x.input).picture ((b.rep.head i).position / 256) = some pic)
include hread hpic

/-- Where the blend does not apply the frame is output (R123, R124). -/
theorem Blocks.outputHead_alone (h : (b.rep.head i).blend = false ∨ (b.rep.head i).position % 256 = 0 ∨
      x.blendLimit ≤ (b.rep.head i).position / 256 ∨
      (b.cap.input x.input).present ((b.rep.head i).position / 256 + 1) = false) :
    b.outputHead bad i = b.onRep (·.setHead i { b.rep.head i with output := some pic, heldPicture := some pic }) := by
  rw [Blocks.outputHead_reads hidle hclip hx hpresent hread hpic, Blocks.blended_alone bad b i _ x pic h]

variable (hblend : (b.rep.head i).blend = true) (hphi : (b.rep.head i).position % 256 ≠ 0)
  (hlimit : (b.rep.head i).position / 256 < x.blendLimit)
  (hnext : (b.cap.input x.input).present ((b.rep.head i).position / 256 + 1) = true)
include hblend hphi hlimit hnext

/-- Where it applies the frame is output blended with the next (R124). -/
theorem Blocks.outputHead_blends {next : Picture} (hread' : (x.input, (b.rep.head i).position / 256 + 1) ∉ bad)
    (hpic' : (b.cap.input x.input).picture ((b.rep.head i).position / 256 + 1) = some next) :
    b.outputHead bad i = b.onRep (·.setHead i { b.rep.head i with
      output := some (.blend pic next ((b.rep.head i).position % 256))
      heldPicture := some (.blend pic next ((b.rep.head i).position % 256)) }) := by
  rw [Blocks.outputHead_reads hidle hclip hx hpresent hread hpic,
    Blocks.blended_next b i _ x pic hblend hphi hlimit hnext hread' hpic']

/-- A read of the next frame that fails leaves the frame unblended (R101, R125). -/
theorem Blocks.outputHead_blendDamages (hbad : (x.input, (b.rep.head i).position / 256 + 1) ∈ bad) :
    (b.outputHead bad i).rep =
      b.rep.setHead i { b.rep.head i with output := some pic, heldPicture := some pic } ∧
    b.damageNoted (b.outputHead bad i) i x.input ((b.rep.head i).position / 256 + 1) := by
  rw [Blocks.outputHead_reads hidle hclip hx hpresent hread hpic,
    Blocks.blended_fails b i _ x pic hblend hphi hlimit hnext hbad]
  exact Blocks.failedRead_sets i hnext _

end ByFrame

/-! ## The heads at a RUNNING mark (R116) -/

section Mark

variable {g : MarkStages} {s t : State} {m : MarkInput} {first : Bool}

/-- The heads as the advance of a mark leaves them are the heads advanced from where the mark finds them. -/
theorem MarkStages.advanced_head (hfinds : g.finds false s) (htakes : g.takes s) {i : Nat} (hi : i ≤ 1) :
    g.advanced.rep.head i = (s.blk.advanceHead i).rep.head i := by
  obtain ⟨-, -, hrep, hclips, -⟩ := hfinds
  obtain ⟨-, hadvanced⟩ := htakes
  have hheads : g.read.rep.head i = s.blk.rep.head i := by
    rw [hrep]
    rfl
  have hbind : (s.blk.rep.head i).clip.bind g.read.rep.clip =
      ((s.blk.rep.head i).clip.bind s.blk.rep.clip).map fun x => { x with ran := x.state == .kept } := by
    cases (s.blk.rep.head i).clip with
    | none => rfl
    | some c => exact hclips c
  rw [hadvanced, Blocks.advanceHeads_head _ hi, Blocks.onComp_rep, Blocks.copyFrame_rep]
  dsimp only
  rw [hheads, hbind, Head.moved_ran, Blocks.advanceHead_rep, Replay.head_setHead_self]

/-- With no REPLAY card taken, the work of a mark behind the advance changes what the heads show alone (R116, R123). -/
theorem MarkStages.output_shows (hworks : g.works first false m s) (hnone : g.cards.replay = []) {i : Nat} (hi : i ≤ 1) :
    (g.advanced.rep.head i).shows (g.output.rep.head i) := by
  obtain ⟨-, ⟨order, -, -, -, hdone⟩, hsettles, hselected, houtput, -⟩ := hworks
  obtain ⟨-, -, -, -, -, hworked⟩ := hsettles
  have hheads : g.selected.rep.head i = g.advanced.rep.head i := by
    have hopen : g.done.blk.rep.heads = g.advanced.rep.heads := by
      rw [hdone]
      exact foldl_kept (fun w : Work => w.blk.rep.heads) _ (Work.task_heads _ hnone) order _
    rw [hselected, Blocks.selectionPass_rep, Blocks.measure_rep, Blocks.onComp_rep, hworked]
    exact Replay.head_of_heads hopen i
  rw [← hheads, houtput]
  split
  · exact (Blocks.outputHead_shows _ _ hi (Nat.le_refl 1)).trans (Blocks.outputHead_shows _ _ hi (Nat.zero_le 1))
  · exact (Blocks.outputHead_shows _ _ hi (Nat.zero_le 1)).trans (Blocks.outputHead_shows _ _ hi (Nat.le_refl 1))

/-- The credit of the frame and the end of a mark leave the Replay Unit as the outputs leave it (R123). -/
theorem MarkStages.ends_rep (hworks : g.works first false m s) (hends : g.ends t) : t.blk.rep = g.output.rep := by
  obtain ⟨-, -, -, -, -, hcredited⟩ := hworks
  obtain ⟨-, -, hblk, -⟩ := hends
  have hcomposed : ∀ (b : Blocks) (u : ClockUnit), (b.compose u).rep = b.rep := fun _ _ => rfl
  have hcounted : g.credited.rep = g.output.rep := by rw [hcredited, Blocks.credit_rep]
  rw [hblk]
  exact (hcomposed { g.credited with port := (writeClockRecord (g.worked.clk, g.credited.port)).2 }
    (writeClockRecord (g.worked.clk, g.credited.port)).1).trans hcounted

end Mark

/-- A RUNNING mark advances both heads before its cards and makes their output behind all its other work (R116). -/
theorem State.mark_movesHeads (m : MarkInput) (s : State) (hl : s.part.tb.synthLocked = true)
    (hc : s.port.runState = .running) (hr : s.port.runRequest = true) :
    ∃ t g, exec (.frameMark m) s = .next t ∧ MarkStages.link g false s.toMark m s t ∧ t.blk.rep = g.output.rep ∧
      (g.cards.replay = [] → ∀ i, i ≤ 1 → ((s.blk.advanceHead i).rep.head i).shows (t.blk.rep.head i)) := by
  obtain ⟨b, hexec, hb⟩ := s.frameMark_begun m hl
  obtain ⟨-, -, -, -, -, -, -, -, -, -, g, hlink⟩ := hb.goesOn m hc hr
  refine ⟨_, g, hexec, hlink, ?_⟩
  obtain ⟨hopens, htakes, hworks, hends⟩ := hlink
  obtain ⟨-, -, -, -, -, -, -, -, hfinds⟩ := hopens
  have hrep := MarkStages.ends_rep hworks hends
  refine ⟨hrep, fun hnone i hi => ?_⟩
  rw [hrep, ← MarkStages.advanced_head hfinds htakes hi]
  exact MarkStages.output_shows hworks hnone hi

/-- Settles O47: the cards, the mark, the advance of a head and its output. -/
theorem headCardsPlayPauseAndStop : Obligations.HeadCardsPlayPauseAndStop := by
  refine ⟨fun slot post head rate s hs hhead hidle => ?_, fun slot post head s hs hhead => ⟨fun hidle => ?_, ?_⟩,
    fun slot post q s hs => ⟨fun h => s.replayCard_refused hs (playOp_uncoded slot h),
      fun h => ⟨s.replayCard_refused hs (setRateOp_uncoded (q := ⟨q.head, q.rate⟩) slot h),
        s.replayCard_refused hs (pauseOp_uncoded slot h), s.replayCard_refused hs (stopHeadOp_uncoded slot h)⟩,
      fun hhead hidle => ⟨fun hloop => s.replayCard_refused hs (playOp_idle slot hhead hloop hidle),
        s.replayCard_refused hs (setRateOp_idle (q := ⟨q.head, q.rate⟩) slot hhead hidle),
        s.replayCard_refused hs (pauseOp_idle slot hhead hidle)⟩⟩,
    State.mark_movesHeads,
    fun b i c x _ hclip hx => ⟨fun hplay hlive => b.advanceHead_stands i hplay hlive,
      fun hmoving o ho => Blocks.advanceHead_fixed hclip hx hmoving ho,
      fun ho => ⟨Blocks.advanceHead_openPlaying hclip hx ho, Blocks.advanceHead_openAtLive hclip hx ho⟩⟩,
    fun bad b i _ => ⟨fun hidle => Blocks.outputHead_idle bad hidle, fun c x hidle hclip hx =>
      ⟨fun pic hpresent hread hpic => ⟨Blocks.outputHead_alone hidle hclip hx hpresent hread hpic,
        fun next hblend hphi hlimit hnext =>
          Blocks.outputHead_blends hidle hclip hx hpresent hread hpic hblend hphi hlimit hnext⟩,
      fun habsent => ?_, Blocks.outputHead_damages hidle hclip hx,
      fun pic hpresent hread hpic => Blocks.outputHead_blendDamages hidle hclip hx hpresent hread hpic⟩⟩⟩
  · have hcode := okOr_rate_code rate
    have hplay := fun loop (hloop : loop ≤ 1) =>
      s.replayCard_setsHead hs hhead (playOp_plays (q := ⟨head, loop, rate⟩) slot hhead hloop hidle)
    have hset := s.replayCard_setsHead hs hhead (setRateOp_sets (q := ⟨head, rate⟩) slot hhead hidle)
    rw [clampRate_eq] at hcode
    simp only [clampRate_eq, hcode] at hplay hset
    exact ⟨hplay, hset⟩
  · have hpause := s.replayCard_setsHead hs hhead (pauseOp_pauses slot hhead hidle)
    rw [Head.paused_eq] at hpause
    exact hpause
  · exact s.replayCard_turnsHead hs hhead (fun _ _ _ => rfl) (stopHeadOp_stops slot hhead)
  · rw [Blocks.outputHead_absent bad hidle hclip hx habsent]
    exact b.missFrame_shows i x

end Sys2Proof.Machine
end


section
/-! PROOFS. The words of the console line: CLOCK, HORN and PERIOD (O48, O49). -/

namespace Sys2Proof.Machine

/-! ## What arrives on the line -/

/-- What arrives on the console line at a LOCKED synthesiser finds the Clock Unit and the Port as the time has left them; of
all else only the silence timers have run (R5, R88, R129). -/
theorem State.next_onLine {s : State} (hl : s.part.tb.synthLocked = true) (dt : Nat) {f : ClockPort → ClockPort}
    (hf : ∀ {P : Port → Prop}, Port.Closed P → ∀ x : ClockPort, P x.2 → P (f x).2) :
    let y := s.part.elapse dt
    ∃ t : State, (.next (s.onPart (·.onLine dt f)) : Answer) = .next t ∧
      t.part.clk = (f (y.clk, y.blk.port)).1 ∧ t.port = (f (y.clk, y.blk.port)).2 ∧ t.part.sec = s.part.sec ∧
      t.blk = { s.blk with port := t.port, cap := t.blk.cap } ∧ t.port.showTick = s.port.showTick := by
  have hblk := s.part.elapse_blk dt
  obtain ⟨-, -, htick, -⟩ := hf (closed_sameFixed s.port) ((s.part.elapse dt).clk, (s.part.elapse dt).blk.port)
    (s.part.elapse_sameFixed dt)
  refine ⟨{ s with part := (s.part.elapse dt).onClock f }, State.next_onPart (s.part.afterTime_locked dt _ hl), rfl,
    rfl, s.part.elapse_sec dt, ?_, htick⟩
  exact congrArg (fun b : Blocks => { b with port := (f ((s.part.elapse dt).clk, (s.part.elapse dt).blk.port)).2 }) hblk

/-- A valid word makes the line HEARD, with CONSOLE_BACK first where it was LOST (R131, R148). -/
theorem hearWord_through (kind : Nat) (x : ClockPort) (h : x.2.laidWhenRunning) :
    Port.through (if x.1.heard then [] else [noticed 19 kind (toWord x.1.silence)]) x.2 (hearWord kind x).2 := by
  unfold hearWord
  dsimp only
  split
  · rfl
  · exact Port.through_one (h.notice .consoleBack kind _)

/-! ## The CLOCK word (R132, R133) -/

/-- The value a CLOCK word is taken for (R132). -/
theorem takenValue_eq (c : Clock) (run : Bool) (v : Nat) : takenValue c run v =
    min (if run then (if c.up then v + c.comp else v - c.comp) else v) (if c.up then 11999999 else 5999999) := by
  unfold takenValue
  rw [capAt_eq_min]
  rfl

theorem takenValue_le (c : Clock) (run : Bool) (v : Nat) : takenValue c run v ≤ rangeTop c.up := by
  unfold takenValue
  rw [capAt_eq_min]
  exact Nat.min_le_right _ _

/-- A DOWN clock not yet EXPIRED expires by a CLOCK word that runs and is taken for 0 (R132). -/
def Clock.expiresBy (c : Clock) (run : Bool) (v : Nat) : Bool :=
  !c.up && run && decide (v = 0) && decide (c.state ≠ .expired)

/-- A clock after a CLOCK word it adopts, by the value taken (R132). -/
def Clock.adopted (c : Clock) (run : Bool) (v : Nat) : Clock :=
  if c.up then { c with state := if run = true ∧ v < 11999999 then .running else .stopped, value := v }
  else if c.state = .expired ∧ run = true ∧ v = 0 then c
  else { c with state := if run = false then .stopped else if v = 0 then .expired else .running, value := v }

/-- The horn request of a CLOCK word a clock adopts (R132, R144). -/
def Clock.adoptAsks (c : Clock) (run : Bool) (v : Nat) : Nat :=
  if c.expiresBy run v = true ∧ c.hornOn = true then c.hornLength else 0

/-- What a CLOCK word that a clock adopts gives: CLOCK_LIMIT, CLOCK_REVIVED, or CLOCK_EXPIRED and, where its horn is on and
finds the line released, the HORN latch (R132, R144, R148). -/
def Clock.adoptNoticed (c : Clock) (id : Nat) (run : Bool) (v horn : Nat) : List PortChange :=
  if c.up then (if run = true ∧ v = 11999999 then [noticed 17 id 1] else [])
  else if c.state = .expired then (if v = 0 then [] else [noticed 16 id (toWord v)])
  else if run = true ∧ v = 0 then
    noticed 15 id 1 :: if c.hornOn = true ∧ horn = 0 ∧ 0 < c.hornLength then [hornLatched] else []
  else []

/-- The Clock Unit with a clock moved, and the horn count raised by a request (R144). -/
def ClockUnit.moved (u : ClockUnit) (i : ClockId) (c : Clock) (n : Nat) : ClockUnit :=
  { u.setClock i c with horn := max u.horn n }

/-- Without a request the clock alone moves. -/
theorem ClockUnit.moved_zero (u : ClockUnit) (i : ClockId) (c : Clock) : u.moved i c 0 = u.setClock i c := by
  unfold ClockUnit.moved
  rw [Nat.max_zero]
  cases i <;> rfl

theorem ClockUnit.setClock_clock (u : ClockUnit) (i : ClockId) : u.setClock i (u.clock i) = u := by
  cases i <;> rfl

/-- A clock that expires is at 0, and raises the horn count by its request (R132, R135, R144). -/
theorem expireClock_moves (i : ClockId) (w : Word) (x : ClockPort) : (expireClock i w x).1 =
    x.1.moved i { x.1.clock i with state := .expired, value := 0 }
      (if (x.1.clock i).hornOn then (x.1.clock i).hornLength else 0) := by
  unfold expireClock
  dsimp only
  generalize x.1.clock i = c
  cases ho : c.hornOn
  · exact (x.1.moved_zero i _).symm
  · unfold requestHorn ClockUnit.moved
    dsimp only
    rw [ClockUnit.setClock_horn]
    rfl

/-- A clock that expires gives CLOCK_EXPIRED, and HORN is latched where its request starts the horn (R144, R148). -/
theorem expireClock_through (i : ClockId) (w : Word) (x : ClockPort) (h : x.2.laidWhenRunning) :
    Port.through (noticed 15 (clockCode i) w ::
      if (x.1.clock i).hornOn = true ∧ x.1.horn = 0 ∧ 0 < (x.1.clock i).hornLength then [hornLatched] else []) x.2
      (expireClock i w x).2 := by
  have hn := h.notice .clockExpired (clockCode i) w
  unfold expireClock
  dsimp only
  generalize x.1.clock i = c
  cases ho : c.hornOn
  · exact ⟨_, hn, rfl⟩
  · have hq := requestHorn_through c.hornLength
      (x.1.setClock i { c with state := .expired, value := 0 }, x.2.notice .clockExpired (clockCode i) w)
    rw [ClockUnit.setClock_horn, ho] at hq
    exact ⟨_, hn, by simpa only [true_and, if_true] using hq⟩

/-- A CLOCK word adopted moves its clock, and raises the horn count by its request (R132, R144). -/
theorem adoptWord_moves (i : ClockId) (run : Bool) (v : Nat) (x : ClockPort) :
    let c := x.1.clock i
    let v' := takenValue c run v
    (adoptWord i run v x).1 = x.1.moved i (c.adopted run v') (c.adoptAsks run v') := by
  have hle := takenValue_le (x.1.clock i) run v
  have hexpire := expireClock_moves i 1 x
  have hstay := x.1.setClock_clock i
  have hzero := x.1.moved_zero i
  unfold adoptWord limitClock Clock.adopted Clock.adoptAsks Clock.expiresBy
  dsimp only
  generalize takenValue (x.1.clock i) run v = w at hle ⊢
  generalize x.1.clock i = c at hle hexpire hstay ⊢
  cases hu : c.up with
  | true =>
    rw [hu] at hle
    have htop : w = 11999999 ∨ w < 11999999 := by
      rcases Nat.lt_or_eq_of_le hle with h | h
      · exact .inr h
      · exact .inl h
    cases run with
    | false => simp [hzero]
    | true => rcases htop with h | h <;> simp [hzero, h, Config.upTop, Nat.ne_of_lt]
  | false =>
    by_cases he : c.state = .expired
    · cases run <;> by_cases hw : w = 0 <;> simp [hzero, he, hw, hstay]
    · cases run with
      | false => simp [hzero, he]
      | true =>
        by_cases hw : w = 0
        · simpa [he, hw, hu] using hexpire
        · simp [hzero, he, hw]

/-- A CLOCK word adopted gives what the clock, the value taken and the horn it finds say (R132, R144, R148). -/
theorem adoptWord_through (i : ClockId) (run : Bool) (v : Nat) (x : ClockPort) (h : x.2.laidWhenRunning) :
    let c := x.1.clock i
    Port.through (c.adoptNoticed (clockCode i) run (takenValue c run v) x.1.horn) x.2 (adoptWord i run v x).2 := by
  have hexpire := expireClock_through i 1 x h
  have hlimit : noticed 17 (clockCode i) 1 x.2 _ := h.notice .clockLimit (clockCode i) 1
  have hrevived : ∀ w, noticed 16 (clockCode i) w x.2 _ := fun w => h.notice .clockRevived (clockCode i) w
  unfold adoptWord limitClock Clock.adoptNoticed
  dsimp only
  generalize takenValue (x.1.clock i) run v = w
  generalize x.1.clock i = c at hexpire ⊢
  cases hu : c.up with
  | true =>
    cases run with
    | false => rfl
    | true =>
      by_cases hw : w = 11999999
      · simpa [hw, Config.upTop] using Port.through_one hlimit
      · simp [hw, Config.upTop, Port.through]
  | false =>
    by_cases he : c.state = .expired
    · by_cases hw : w = 0
      · cases run <;> simp [he, hw, Port.through]
      · simpa [he, hw] using Port.through_one (hrevived (toWord w))
    · cases run with
      | false => simp [he, Port.through]
      | true =>
        by_cases hw : w = 0
        · simpa [he, hw] using hexpire
        · simp [he, hw, Port.through]

/-- The Clock Unit after a valid CLOCK word: the line is HEARD, the receiver HUNTING, and a CONSOLE clock has adopted the
word (R130 to R133). -/
theorem clockWordOp_unit (i : ClockId) (run : Bool) (v : Nat) (x : ClockPort) :
    let c := x.1.clock i
    let v' := takenValue c run v
    (clockWordOp i run v x).1 =
      { x.1.moved i (if c.localSource then c else c.adopted run v') (if c.localSource then 0 else c.adoptAsks run v') with
        silence := 0, heard := true, word := none, gap := 0, discards := 0 } := by
  have hc : (hearWord 1 x).1.clock i = x.1.clock i := by cases i <;> rfl
  have hadopt := adoptWord_moves i run v (hearWord 1 x)
  unfold clockWordOp clearDiscards
  dsimp only at hadopt ⊢
  rw [hc] at hadopt ⊢
  split
  · rw [ClockUnit.moved_zero, ClockUnit.setClock_clock]
    rfl
  · rw [hadopt]
    cases i <;> rfl

/-- A valid CLOCK word gives CONSOLE_BACK where the line was LOST, and behind it what its adoption gives (R131 to R133,
R148). -/
theorem clockWordOp_through (i : ClockId) (run : Bool) (v : Nat) (x : ClockPort) (h : x.2.laidWhenRunning) :
    let c := x.1.clock i
    Port.through ((if x.1.heard then [] else [noticed 19 1 (toWord x.1.silence)]) ++
      if c.localSource then [] else c.adoptNoticed (clockCode i) run (takenValue c run v) x.1.horn) x.2
      (clockWordOp i run v x).2 := by
  have hc : (hearWord 1 x).1.clock i = x.1.clock i := by cases i <;> rfl
  have hback := hearWord_through 1 x h
  have hadopt := adoptWord_through i run v (hearWord 1 x) (closed_laidWhenRunning.hearWord 1 x h)
  unfold clockWordOp clearDiscards
  dsimp only at hadopt ⊢
  rw [hc] at hadopt ⊢
  refine Port.through_append hback ?_
  split
  · rfl
  · exact hadopt

/-- Settles O48: the time passes, and the word then moves its clock as `Clock.adopted` says, with the notices of
`clockWordOp_through`. -/
theorem clockWordIsAdoptedByAConsoleClock : Obligations.ClockWordIsAdoptedByAConsoleClock := by
  intro dt i run v s hl
  obtain ⟨t, ht, hclk, hport, hsec, hblk, htick⟩ :=
    s.next_onLine hl dt fun hP x hx => hP.clockWordOp i run v.toNat x hx
  have htime := s.part.elapse_clk dt
  have hlaid := closed_laidWhenRunning.elapse dt s.part
  have hsync := fun h => s.part.elapse_through dt h hl
  generalize s.part.elapse dt = y at hclk hport htime hlaid hsync
  have hthrough := fun h => clockWordOp_through i run v.toNat (y.clk, y.blk.port) (hlaid h)
  have hc : y.clk.clock i = s.part.clk.clock i := by rw [htime]; cases i <;> rfl
  have hhorn : y.clk.horn = s.part.clk.horn := by rw [htime]
  have hheard : y.clk.heard = s.part.clk.heard := by rw [htime]
  have hsilence : y.clk.silence = s.part.clk.silence := by rw [htime]
  have hscore : y.clk.score = s.part.clk.score := by rw [htime]
  have hother : ∀ j, y.clk.clock j = s.part.clk.clock j := fun j => by rw [htime]; cases j <;> rfl
  rw [clockWordOp_unit] at hclk
  dsimp only at hclk hthrough
  rw [hc, hhorn, hheard, hsilence, ← hport] at hthrough
  rw [hc] at hclk
  refine ⟨t, ht, ?_⟩
  intro c d top raw v' expires
  have hv : takenValue c run v.toNat = v' := takenValue_eq c run v.toNat
  have hd : d = if c.localSource then c else c.adopted run v' := by
    show t.part.clk.clock i = _
    rw [hclk, ← hv]
    cases i <;> rfl
  have hadopts : c.localSource = false → d = c.adopted run v' := fun hloc => by rw [hd, hloc]; rfl
  have hask : t.part.clk.horn = max s.part.clk.horn (if c.localSource then 0 else c.adoptAsks run v') := by
    rw [hclk, ← hhorn, ← hv]
    rfl
  have hexpires : expires ↔ c.localSource = false ∧ c.expiresBy run v' = true := by
    simp [expires, Clock.expiresBy, and_assoc]
  refine ⟨fun hloc => by rw [hd, hloc]; rfl, fun hloc hup => ?_, fun hloc hup he hr hz => ?_, fun hloc hup hno => ?_,
    fun hex hon => ?_, fun hno => ?_, by rw [hclk], by rw [hclk], by rw [hclk], by rw [hclk], fun j hj => ?_, ?_, hsec,
    fun h => ?_, hblk, htick⟩
  · rw [hadopts hloc, Clock.adopted, if_pos hup]
  · rw [hadopts hloc, Clock.adopted, if_neg (by simp [hup]), if_pos ⟨he, hr, hz⟩]
  · rw [hadopts hloc, Clock.adopted, if_neg (by simp [hup]), if_neg hno]
  · obtain ⟨hloc, hex⟩ := hexpires.mp hex
    simp only [hask, hloc, Bool.false_eq_true, if_false, Clock.adoptAsks, hex, hon, and_self, if_true]
  · rw [hask]
    split
    · exact Nat.max_zero _
    · next hloc =>
      rw [Clock.adoptAsks, if_neg fun hh => hno ⟨hexpires.mpr ⟨by simpa using hloc, hh.1⟩, hh.2⟩]
      exact Nat.max_zero _
  · rw [hclk, ← hother j, ← ClockUnit.clock_setClock_ne y.clk i j _ hj]
    cases j <;> rfl
  · rw [hclk, ← hscore]
    exact ClockUnit.setClock_score _ _ _
  · have hall := Port.through_append (hsync h) (hthrough h)
    rw [hv, ← List.append_assoc] at hall
    cases i <;> exact hall

/-! ## The HORN and PERIOD words (R134) -/

/-- A valid word leaves the latches. -/
theorem hearWord_latches (kind : Nat) (x : ClockPort) : (hearWord kind x).2.latches = x.2.latches := by
  unfold hearWord
  split
  · rfl
  · exact x.2.notice_latches _ _ _

/-- A horn request that starts the horn latches HORN (R144, R191). -/
theorem requestHorn_latches (n : Nat) (x : ClockPort) : (requestHorn n x).2.latches =
    if x.1.horn = 0 ∧ 0 < n then { x.2.latches with horn := true } else x.2.latches := by
  unfold requestHorn
  split
  · exact Port.setLatches_latches _ _
  · rfl

/-- Settles O49: the time passes, the word is heard, and its own action follows. -/
theorem hornAndPeriodWordsAct : Obligations.HornAndPeriodWordsAct := by
  intro dt s hl heard back
  have htime := s.part.elapse_clk dt
  have hlatches := s.part.elapse_latches dt
  have hback : ∀ kind, s.port.laidWhenRunning → Port.through (s.part.tb.syncLost dt ++ back kind) s.port
      (hearWord kind ((s.part.elapse dt).clk, (s.part.elapse dt).blk.port)).2 := fun kind h => by
    refine Port.through_append (s.part.elapse_through dt h hl) ?_
    have hb := hearWord_through kind ((s.part.elapse dt).clk, (s.part.elapse dt).blk.port)
      (closed_laidWhenRunning.elapse dt s.part h)
    rw [htime] at hb ⊢
    exact hb
  refine ⟨fun n => ?_, fun n => ?_⟩
  · obtain ⟨t, ht, hclk, hport, hsec, hblk, htick⟩ :=
      s.next_onLine hl dt fun hP x hx => hP.hornWordOp n.toNat x hx
    replace hback := hback 2
    generalize s.part.elapse dt = y at hclk hport htime hlatches hback
    have hhorn : (hearWord 2 (y.clk, y.blk.port)).1.horn = s.part.clk.horn := by rw [htime]; rfl
    have hrequest := requestHorn_through n.toNat (hearWord 2 (y.clk, y.blk.port))
    have hlatch := requestHorn_latches n.toNat (hearWord 2 (y.clk, y.blk.port))
    rw [hhorn] at hrequest hlatch
    rw [hearWord_latches, hlatches] at hlatch
    have hrung : t.port = (requestHorn n.toNat (hearWord 2 (y.clk, y.blk.port))).2 := hport
    rw [← hrung] at hrequest hlatch
    rw [htime] at hclk
    refine ⟨t, ht, ?_⟩
    dsimp only [heard]
    rw [hclk]
    exact ⟨⟨rfl, rfl, rfl, rfl, rfl, rfl, hsec, hblk, htick⟩, rfl, rfl, hlatch,
      fun h => Port.through_append (hback h) hrequest⟩
  · obtain ⟨t, ht, hclk, hport, hsec, hblk, htick⟩ :=
      s.next_onLine hl dt fun hP x hx => hP.periodWordOp (n.val + 1) x hx
    replace hback := hback 3
    generalize s.part.elapse dt = y at hclk hport htime hlatches hback
    have hlatch := hearWord_latches 3 (y.clk, y.blk.port)
    have hquiet : t.port = (hearWord 3 (y.clk, y.blk.port)).2 := hport
    rw [hlatches, ← hquiet] at hlatch
    rw [← hquiet] at hback
    rw [htime] at hclk
    refine ⟨t, ht, ?_⟩
    dsimp only [heard]
    rw [hclk]
    exact ⟨⟨rfl, rfl, rfl, rfl, rfl, rfl, hsec, hblk, htick⟩, rfl, rfl, hlatch, hback⟩

end Sys2Proof.Machine
end


section
/-! PROOFS. The receiver of the console line (O50, O51). -/

namespace Sys2Proof.Machine

/-! ## A byte, by what the receiver holds (R129) -/

/-- A word in progress is discarded, and the discard counted (R129). -/
theorem discardWord_some {u : ClockUnit} {bs : List Byte} (h : u.word = some bs) : discardWord u =
    { u with word := none, gap := 0, discards := min (u.discards + 1) 4294967295 } := by
  unfold discardWord
  rw [h]
  dsimp only
  rw [capAt_eq_min]
  rfl

section Byte

variable (b : Byte) (ok : Bool) {x : ClockPort} {bs : List Byte}

/-- While HUNTING a sound byte of 126 begins a word, and any other is dropped (R129, log entry 42). -/
theorem receiveByte_hunting (h : x.1.word = none) : receiveByte b ok x =
    ({ x.1 with word := if ok = true ∧ b = 126 then some [126] else none
                gap := if ok = true ∧ b = 126 then 0 else x.1.gap }, x.2) := by
  unfold receiveByte
  rw [h]
  by_cases hb : ok = true ∧ b = 126
  · obtain ⟨rfl, rfl⟩ := hb
    rfl
  · rw [if_neg hb, if_neg hb]
    dsimp only
    rw [if_neg (by simpa using hb), ← h]

/-- A framing error, and a length byte above 8, discard the word in progress (R129). -/
theorem receiveByte_discards (h : x.1.word = some bs) (hb : ok = false ∨ (bs.length = 2 ∧ 8 < b.toNat)) :
    receiveByte b ok x = (discardWord x.1, x.2) := by
  unfold receiveByte
  rw [h]
  dsimp only
  cases ok with
  | false => rfl
  | true =>
    have hlong : bs.length = 2 ∧ 8 < b.toNat := by simpa using hb
    rw [if_neg (by simp), if_pos (by rw [List.length_append, hlong.1]; exact ⟨rfl, hlong.2⟩)]

/-- Any other byte that does not complete the word is appended to it (R129). -/
theorem receiveByte_appends (h : x.1.word = some bs) (hlong : bs.length = 2 → b.toNat ≤ 8)
    (hpart : bs.length < 3 ∨ bs.length + 1 ≠ 4 + wordAt (bs ++ [b]) 2) :
    receiveByte b true x = ({ x.1 with word := some (bs ++ [b]), gap := 0 }, x.2) := by
  have hlen : (bs ++ [b]).length = bs.length + 1 := by simp
  unfold receiveByte
  rw [h]
  dsimp only
  rw [if_neg (by simp), hlen, if_neg (by omega), if_neg (by omega)]

/-- The byte that completes the word has it judged (R129, R130). -/
theorem receiveByte_completes (h : x.1.word = some bs) (hlong : 3 ≤ bs.length)
    (hwhole : bs.length + 1 = 4 + wordAt (bs ++ [b]) 2) :
    receiveByte b true x = judgeWord (bs ++ [b]) ({ x.1 with word := some (bs ++ [b]), gap := 0 }, x.2) := by
  have hlen : (bs ++ [b]).length = bs.length + 1 := by simp
  unfold receiveByte
  rw [h]
  dsimp only
  rw [if_neg (by simp), hlen, if_neg (by omega), if_pos ⟨by omega, hwhole⟩]

end Byte

/-! ## The receiver over a time and a byte (R129) -/

/-- A state in which, but for what time moves, the receiver alone has moved: its word and the discard count. -/
structure State.ReceiverMoved (s t : State) (word : Option (List Byte)) (discards : Nat) : Prop where
  clk : t.part.clk = { s.part.clk with word, gap := t.part.clk.gap, discards }
  sec : t.part.sec = s.part.sec
  blk : t.blk = { s.blk with port := t.port, cap := t.blk.cap }
  tick : t.port.showTick = s.port.showTick

/-- A byte that moves the receiver alone, by the receiver as the time has left it. -/
theorem State.next_byte {s : State} (hl : s.part.tb.synthLocked = true) (dt : Nat) (b : Byte) (ok : Bool)
    {w : Option (List Byte)} {n : Nat} (h : ∃ g, (receiveByte b ok ((s.part.elapse dt).clk, (s.part.elapse dt).blk.port)).1 =
      { (s.part.elapse dt).clk with word := w, gap := g, discards := n }) :
    ∃ t, exec (.consoleByte dt b ok) s = .next t ∧ s.ReceiverMoved t w n := by
  obtain ⟨g, hg⟩ := h
  obtain ⟨t, ht, hclk, -, hsec, hblk, htick⟩ := s.next_onLine hl dt fun hP x hx => hP.receiveByte b ok x hx
  refine ⟨t, ht, ?_, hsec, hblk, htick⟩
  rw [hclk, hg, s.part.elapse_clk dt]

/-- WORD_DISCARD is the very byte, where the byte discards the word in progress (log entry 14). -/
theorem exec_wordDiscard_eq {s : State} (hl : s.part.tb.synthLocked = true) (dt : Nat) (b : Byte) (ok : Bool)
    (h : discards (s.part.elapse dt).clk
      (receiveByte b ok ((s.part.elapse dt).clk, (s.part.elapse dt).blk.port)).1 = true) :
    exec (.wordDiscard dt b ok) s = exec (.consoleByte dt b ok) s := by
  refine State.next_onPart ?_
  show s.part.discardByte dt b ok = s.part.onLine dt (receiveByte b ok)
  unfold Part.discardByte Part.onLine
  rw [s.part.afterTime_locked dt _ hl, s.part.afterTime_locked dt _ hl]
  exact if_pos h

/-- Time by itself moves but the receiver of the Clock Unit (R129). -/
theorem State.receiverMoved_elapse (s : State) (dt : Nat) :
    s.ReceiverMoved { s with part := s.part.elapse dt } (s.part.elapse dt).clk.word (s.part.elapse dt).clk.discards := by
  obtain ⟨-, -, htick, -⟩ := s.part.elapse_sameFixed dt
  exact ⟨s.part.elapse_clk dt, s.part.elapse_sec dt, s.part.elapse_blk dt, htick⟩

/-- INTER_BYTE_GAP is the time in which the gap of a word in progress passes 4 ms (R129). -/
theorem State.next_interByteGap (s : State) (hl : s.part.tb.synthLocked = true) {bs : List Byte}
    (hw : s.part.clk.word = some bs) :
    ∃ dt, exec .interByteGap s = .next { s with part := s.part.elapse dt } ∧ 108000 < s.part.clk.gap + dt := by
  refine ⟨108001 - s.part.clk.gap, State.next_onPart ?_, by omega⟩
  unfold Part.expireGap
  rw [if_pos (by simp [hl, hw])]
  rfl

/-- Settles O50, each clause by what the receiver holds as the byte comes. -/
theorem consoleBytesMakeWords : Obligations.ConsoleBytesMakeWords := by
  intro dt b framingOk s hl same start u raised
  have hsame : ∀ {t w n}, s.ReceiverMoved t w n → same t ∧ t.part.clk.word = w ∧ t.part.clk.discards = n :=
    fun {t w n} h => by
      obtain ⟨hclk, hsec, hblk, htick⟩ := h
      dsimp only [same]
      rw [hclk]
      exact ⟨⟨rfl, rfl, rfl, rfl, rfl, rfl, hsec, hblk, htick⟩, rfl, rfl⟩
  have hmoves : ∀ {w g n}, (receiveByte b framingOk ((s.part.elapse dt).clk, (s.part.elapse dt).blk.port)).1 =
      { (s.part.elapse dt).clk with word := w, gap := g, discards := n } →
      ∃ t, exec (.consoleByte dt b framingOk) s = .next t ∧ same t ∧ t.part.clk.word = w ∧ t.part.clk.discards = n :=
    fun h => by
      obtain ⟨t, ht, hm⟩ := s.next_byte hl dt b framingOk ⟨_, h⟩
      exact ⟨t, ht, hsame hm⟩
  refine ⟨fun hnone => ?_, fun bs hw hgap hok hlong hpart => ?_, fun bs hw hgap hbad => ?_,
    fun bs hw href => ⟨?_, fun hgap => ?_⟩⟩
  · obtain ⟨hword, -, hcount⟩ := s.part.elapse_hunting dt hnone
    refine hmoves (g := if framingOk = true ∧ b = 126 then 0 else (s.part.elapse dt).clk.gap) ?_
    replace hcount : (s.part.elapse dt).clk.discards = u.discards := hcount
    rw [receiveByte_hunting b framingOk hword, ← hcount]
  · obtain ⟨hword, hcount⟩ := s.part.elapse_word dt (.inr hgap)
    refine hmoves (g := 0) ?_
    replace hcount : (s.part.elapse dt).clk.discards = u.discards := hcount
    rw [hok, receiveByte_appends b (hword.trans hw) hlong hpart, ← hcount]
  · obtain ⟨hword, hcount⟩ := s.part.elapse_word dt (.inr hgap)
    have hbyte := receiveByte_discards (x := ((s.part.elapse dt).clk, (s.part.elapse dt).blk.port)) b framingOk
      (hword.trans hw) hbad
    rw [discardWord_some (hword.trans hw), hcount] at hbyte
    obtain ⟨t, ht, hdone⟩ := hmoves (congrArg Prod.fst hbyte)
    refine ⟨t, (exec_wordDiscard_eq hl dt b framingOk ?_).trans ht, ht, hdone⟩
    rw [hbyte, discards, hword, hw]
    simp
  · obtain ⟨dt', ht, hlong⟩ := s.next_interByteGap hl hw
    obtain ⟨hword, hcount⟩ := s.part.elapse_gap dt' bs hw href hl hlong
    have hm := s.receiverMoved_elapse dt'
    rw [hword, hcount, capAt_eq_min] at hm
    exact ⟨_, ht, hsame hm⟩
  · obtain ⟨hword, hcount⟩ := s.part.elapse_gap dt bs hw href hl hgap
    rw [capAt_eq_min] at hcount
    refine hmoves (g := if framingOk = true ∧ b = 126 then 0 else (s.part.elapse dt).clk.gap) ?_
    replace hcount : (s.part.elapse dt).clk.discards = raised := hcount
    rw [receiveByte_hunting b framingOk hword, ← hcount]

/-! ## The check byte (R130) -/

/-- A word of kind CLOCK is judged by its sum alone, where its clock id and run flag are in their ranges (R130). -/
theorem judgeWord_clock (id flag v0 v1 v2 check : Byte) (hid : id.toNat ≤ 1) (hflag : flag.toNat ≤ 1) (x : ClockPort) :
    judgeWord [126, 1, 5, id, flag, v0, v1, v2, check] x =
      if (1 + 5 + id.toNat + flag.toNat + v0.toNat + v1.toNat + v2.toNat + check.toNat) % 256 = 0 then
        clockWordOp (clockOfCode id.toNat) (flag.toNat == 1) (v0.toNat + 256 * v1.toNat + 65536 * v2.toNat) x
      else (discardWord x.1, x.2) := by
  have hsum : checkHolds [126, 1, 5, id, flag, v0, v1, v2, check] =
      decide ((1 + 5 + id.toNat + flag.toNat + v0.toNat + v1.toNat + v2.toNat + check.toNat) % 256 = 0) :=
    Bool.eq_iff_iff.mpr (beq_iff_eq.trans decide_eq_true_iff.symm)
  unfold judgeWord
  dsimp only
  rw [hsum]
  split
  · next h => rw [if_neg (by simpa using h)]
  · next h =>
    rw [if_pos ⟨rfl, rfl, hid, hflag⟩, if_pos (by simpa using h)]
    rfl

/-- The three value bytes of a CLOCK word, low byte first (8.3). -/
theorem clockValue_toNat (v0 v1 v2 : Byte) :
    (v2 ++ v1 ++ v0).toNat = v0.toNat + 256 * v1.toNat + 65536 * v2.toNat := by
  rw [BitVec.toNat_append, BitVec.toNat_append, ← Nat.shiftLeft_add_eq_or_of_lt v1.isLt,
    ← Nat.shiftLeft_add_eq_or_of_lt v0.isLt, Nat.shiftLeft_eq, Nat.shiftLeft_eq]
  omega

/-- A CLOCK word acts alike whatever the receiver holds as it comes (R129, R130). -/
theorem clockWordOp_receiver (i : ClockId) (run : Bool) (v : Nat) (u : ClockUnit) (p : Port) (w : Option (List Byte))
    (g : Nat) : clockWordOp i run v ({ u with word := w, gap := g }, p) = clockWordOp i run v (u, p) := rfl

/-- The check byte of a word of kind CLOCK, by the sum it makes (R130). -/
theorem receiveByte_clockCheck {u : ClockUnit} (p : Port) {id flag v0 v1 v2 : Byte} (check : Byte)
    (hw : u.word = some [126, 1, 5, id, flag, v0, v1, v2]) (hid : id.toNat ≤ 1) (hflag : flag.toNat ≤ 1) :
    receiveByte check true (u, p) =
      if (1 + 5 + id.toNat + flag.toNat + v0.toNat + v1.toNat + v2.toNat + check.toNat) % 256 = 0 then
        clockWordOp (clockOfCode id.toNat) (flag.toNat == 1) (v2 ++ v1 ++ v0).toNat (u, p)
      else (discardWord u, p) := by
  have hjudged := judgeWord_clock id flag v0 v1 v2 check hid hflag
    ({ u with word := some [126, 1, 5, id, flag, v0, v1, v2, check], gap := 0 }, p)
  rw [clockWordOp_receiver, ← clockValue_toNat, discardWord_some rfl, ← discardWord_some hw] at hjudged
  have hlong : 3 ≤ [126, 1, 5, id, flag, v0, v1, v2].length := by simp
  exact (receiveByte_completes check hw hlong rfl).trans hjudged

/-- Settles O51: the check byte completes the word, and its sum says what it does. -/
theorem theCheckByteMakesTheClockWord : Obligations.TheCheckByteMakesTheClockWord := by
  intro dt id flag v0 v1 v2 check s hl hw hgap hid hflag sum
  obtain ⟨hword, hcount⟩ := s.part.elapse_word dt (.inr hgap)
  rw [hw] at hword
  have hbyte : ∀ p, receiveByte check true ((s.part.elapse dt).clk, p) = if sum % 256 = 0 then _ else _ := fun p =>
    receiveByte_clockCheck p check hword hid hflag
  refine ⟨fun hsum => ?_, fun hsum => ?_⟩
  · refine State.next_onPart ?_
    have hclock : clockOfCode id.toNat = if id = 0 then .game else .aux := by
      unfold clockOfCode
      exact if_congr (BitVec.toNat_eq (x := id) (y := 0)).symm rfl rfl
    have hrun : (flag.toNat == 1) = decide (flag = 1) :=
      Bool.eq_iff_iff.mpr (beq_iff_eq.trans ((BitVec.toNat_eq (x := flag) (y := 1)).symm.trans decide_eq_true_iff.symm))
    show s.part.onLine dt (receiveByte check true) = s.part.onLine dt (clockWordOp _ _ (v2 ++ v1 ++ v0).toNat)
    unfold Part.onLine
    rw [s.part.afterTime_locked dt _ hl, s.part.afterTime_locked dt _ hl]
    unfold Part.onClock
    rw [hbyte, if_pos hsum, hclock, hrun]
  · obtain ⟨t, ht, hclk, hm⟩ := s.next_byte hl dt check true (w := none) (n := min (s.part.clk.discards + 1) 4294967295)
      ⟨0, by rw [hbyte, if_neg hsum, discardWord_some hword, ← hcount]⟩
    refine ⟨t, ht, ?_⟩
    rw [hclk]
    exact ⟨rfl, rfl, rfl, rfl, rfl⟩

end Sys2Proof.Machine
end


section
/-! PROOFS. The counts of the Clock Unit that run out by themselves (O52). -/

namespace Sys2Proof.Machine

/-! ## A count that is due -/

/-- A count that is due at a LOCKED synthesiser moves the Clock Unit and the Port, and nothing else (R10). -/
theorem State.next_onTick {s : State} {due : ClockUnit → Bool} (hl : s.part.tb.synthLocked = true)
    (hd : due s.part.clk = true) (f : ClockPort → ClockPort) :
    (.next (s.onPart (·.onTick due f)) : Answer) = .next (s.onPart (·.onClock f)) :=
  State.next_onPart (if_pos (by rw [hl, hd]; rfl))

/-- A CONSOLE clock that is RUNNING is what a silence puts into HOLDOVER (R131). -/
theorem Clock.followed_iff (c : Clock) : c.followed = true ↔ c.localSource = false ∧ c.state = .running := by
  simp [Clock.followed]

theorem Clock.counting_iff (c : Clock) : c.counting = true ↔ c.state = .running ∨ c.state = .holdover := by
  simp [Clock.counting]

/-! ## A clock that runs out (R135) -/

section RunsOut

variable {c : Clock}

/-- A DOWN clock that counts to 0: it is EXPIRED, requests its horn, and gives CLOCK_EXPIRED (R135, R144, R148). -/
theorem Clock.counted_down (hc : c.counting = true) (hup : c.up = false) (hv : c.value ≤ 1) :
    c.counted = { c with state := .expired, value := 0 } ∧ c.asks = (if c.hornOn then c.hornLength else 0) ∧
    ∀ id horn, c.countNoticed id horn =
      noticed 15 id 0 :: if c.hornOn = true ∧ horn = 0 ∧ 0 < c.hornLength then [hornLatched] else [] := by
  have hruns : c.runsOut = true := by
    rw [Clock.counting] at hc
    rw [Clock.runsOut, hc, hup]
    simpa using hv
  refine ⟨?_, ?_, fun id horn => ?_⟩
  · rw [Clock.counted, if_pos hc, if_neg (by simp [hup]), if_pos hv]
  · simp only [Clock.asks, hruns, hup, true_and]
  · rw [Clock.countNoticed, if_pos hruns, if_neg (by simp [hup])]

/-- An UP clock that counts to its limit: it is STOPPED there, requests no horn, and gives CLOCK_LIMIT (R135, R148). -/
theorem Clock.counted_up (hc : c.counting = true) (hup : c.up = true) (hv : 11999999 ≤ c.value + 1) :
    c.counted = { c with state := .stopped, value := 11999999 } ∧ c.asks = 0 ∧
    ∀ id horn, c.countNoticed id horn = [noticed 17 id 0] := by
  have hruns : c.runsOut = true := by
    rw [Clock.counting] at hc
    rw [Clock.runsOut, hc, hup]
    simpa using hv
  refine ⟨?_, ?_, fun id horn => ?_⟩
  · rw [Clock.counted, if_pos hc, if_pos hup, if_pos hv]
  · simp only [Clock.asks, hup, Bool.true_eq_false, false_and, and_false, if_false]
  · rw [Clock.countNoticed, if_pos hruns, if_pos hup]

end RunsOut

/-! ## The line lost (R131) -/

/-- A tick that loses the line, on the Clock Unit (R131). -/
theorem silenceTick_loses {x : ClockPort} (hh : x.1.heard = true) (hs : 499 ≤ x.1.silence) : (silenceTick x).1 =
    { x.1 with silence := min (x.1.silence + 1) 4294967295, heard := false
               game := x.1.game.toHoldover, aux := x.1.aux.toHoldover } := by
  have hlosing : x.1.losing = true := by
    rw [ClockUnit.losing, hh, Bool.true_and, decide_eq_true_eq]
    omega
  rw [silenceTick_clock, hlosing, Bool.not_true, Bool.and_false]
  rfl

/-- Settles O52, each count by what it does to the Clock Unit and the chain of its notices. -/
theorem theClockUnitsCountsRunOut : Obligations.TheClockUnitsCountsRunOut := by
  refine ⟨fun s hl => ?_, fun u p h => ⟨?_, clockEntryNotice_through u p h⟩⟩
  · intro u id held
    have hid : ∀ i, clockCode i = id i := fun i => by cases i <;> rfl
    refine ⟨fun hh hs => ?_, fun i hup hv hc => ?_, fun i hup hv hc => ?_, fun hu => ?_, fun hf => ?_, fun hf => ?_⟩
    · have hdue : silenceDue s.part.clk = true := by
        rw [silenceDue, hh, Bool.true_and, decide_eq_true_eq]
        exact Nat.succ_le_succ hs
      have hheld : ∀ c : Clock, c.toHoldover = held c := fun c => by
        unfold Clock.toHoldover
        exact if_congr c.followed_iff rfl rfl
      refine ⟨_, State.next_onTick hl hdue silenceTick, ?_, fun h => ?_, rfl⟩
      · rw [← hheld, ← hheld]
        exact silenceTick_loses hh hs
      · have hlost := silenceTick_through (s.part.clk, s.port) h rfl rfl
        rw [if_pos ⟨hh, Nat.succ_le_succ hs⟩] at hlost
        simp only [Clock.followed_iff] at hlost
        exact hlost
    · have hcounts := (Clock.counting_iff _).mpr hc
      obtain ⟨hcounted, hasks, hnoticed⟩ := Clock.counted_down hcounts hup hv
      have hdue : expiryDue i s.part.clk = true := by
        show ((u.clock i).counting && !(u.clock i).up && decide ((u.clock i).value ≤ 1)) = true
        rw [hcounts, hup, decide_eq_true hv]
        rfl
      refine ⟨_, State.next_onTick hl hdue (countClock i), ?_, fun h => ?_, rfl⟩
      · refine (countClock_clock i (u, s.port)).trans ?_
        rw [hcounted, hasks]
        have hraised : max u.horn (if (u.clock i).hornOn then (u.clock i).hornLength else 0) =
            if (u.clock i).hornOn then max u.horn (u.clock i).hornLength else u.horn := by
          split
          · rfl
          · exact Nat.max_zero _
        rw [← hraised]
      · have hgone := countClock_through i (u, s.port) h
        rw [hnoticed, hid] at hgone
        exact hgone
    · have hcounts := (Clock.counting_iff _).mpr hc
      obtain ⟨hcounted, hasks, hnoticed⟩ := Clock.counted_up hcounts hup hv
      have hdue : limitDue i s.part.clk = true := by
        show ((u.clock i).counting && (u.clock i).up && decide (11999999 ≤ (u.clock i).value + 1)) = true
        rw [hcounts, hup, decide_eq_true hv]
        rfl
      refine ⟨_, State.next_onTick hl hdue (countClock i), ?_, fun h => ?_, rfl⟩
      · refine (countClock_clock i (u, s.port)).trans ?_
        rw [hcounted, hasks]
        exact u.moved_zero i _
      · have hgone := countClock_through i (u, s.port) h
        rw [hnoticed, hid] at hgone
        exact hgone
    · refine (State.next_onTick (due := fun u => u.horn == 1) hl (beq_iff_eq.mpr hu) _).trans (State.next_onPart ?_)
      unfold Part.onClock hornTick
      dsimp only
      rw [hu]
    · exact State.next_onTick (due := fun u => u.score.flash .home == 1) hl (beq_iff_eq.mpr hf) _
    · exact State.next_onTick (due := fun u => u.score.flash .guest == 1) hl (beq_iff_eq.mpr hf) _
  · unfold clockEntryNotice
    split <;> rfl

end Sys2Proof.Machine
end


section
/-! PROOFS. The cards of the CLOCK desk (O53, O54, O55, O56). -/

namespace Sys2Proof.Machine

/-! ## A CLOCK card by its answer (R137, R175) -/

section Card

variable {s : State} (hs : s.ready .clock) {f : ClockPort → ClockPort} {slot : Nat} {o : CardOutcome} {r : Word}
include hs

/-- A CLOCK card that is refused moves only its slot (R175). -/
theorem State.clockCard_refused (hf : f (s.part.clk, s.port) = (s.part.clk, s.port.refuse .clock slot o r)) :
    ∃ t, (.next (s.onPart (·.clockCard f)) : Answer) = .next t ∧ s.onlyMoved t .clock slot 5 (toWord o.code) r := by
  obtain ⟨hl, hw, ha⟩ := hs
  refine ⟨s.onPart (·.onPort fun _ => s.port.refuse .clock slot o r), State.next_onPart ?_,
    Port.refuse_slotMoved _ _ _ _ _ hw ha, rfl⟩
  unfold Part.clockCard Part.whenLive
  rw [if_pos hl]
  exact congrArg (fun x : ClockPort => { s.part with clk := x.1, blk := { s.blk with port := x.2 } }) hf

/-- A CLOCK card that acts moves the Clock Unit and its slot (R137, R175). -/
theorem State.clockCard_acts {u : ClockUnit} (hf : f (s.part.clk, s.port) = (u, s.port.complete .clock slot o r)) :
    ∃ t, (.next (s.onPart (·.clockCard f)) : Answer) = .next t ∧ t.part.clk = u ∧
      s.port.slotMoved t.port .clock slot 4 (toWord o.code) r ∧
      t = s.onPart (fun p => { p with clk := t.part.clk, blk := { p.blk with port := t.port } }) := by
  obtain ⟨hl, hw, ha⟩ := hs
  refine ⟨{ s with part := { s.part with clk := u, blk := { s.blk with port := s.port.complete .clock slot o r } } },
    State.next_onPart ?_, rfl, Port.complete_slotMoved _ _ _ _ _ hw ha, rfl⟩
  unfold Part.clockCard Part.whenLive
  rw [if_pos hl]
  exact congrArg (fun x : ClockPort => { s.part with clk := x.1, blk := { s.blk with port := x.2 } }) hf

end Card

/-! ## A RUNNING clock at the next ms tick (R135) -/

/-- A clock at an ms tick of a LOCKED synthesiser (R131, R135). -/
theorem State.next_msTick_clock {s : State} (hl : s.part.tb.synthLocked = true) (i : ClockId) (silenceFirst : Bool) :
    ∃ t, exec (.msTick silenceFirst) s = .next t ∧
      t.part.clk.clock i = (s.part.clk.clock i).counted.silenced s.part.clk.losing := by
  refine ⟨{ s with part := s.part.msTick silenceFirst }, State.next_onPart rfl, ?_⟩
  obtain ⟨hclk, -, -⟩ := s.part.msTick_eq silenceFirst hl _ rfl
  obtain ⟨hticked, -, -, -⟩ := s.part.elapse_ticked silenceFirst (27000 - s.part.tb.sinceMs) hl
  show (s.part.msTick silenceFirst).clk.clock i = _
  rw [hclk, hticked, ClockUnit.ticked_clock]

/-- The value of a RUNNING clock after a tick (R135). -/
theorem Clock.ticked_value {c : Clock} (h : c.state = .running) (lost : Bool) :
    (c.counted.silenced lost).value = if c.up then min 11999999 (c.value + 1) else c.value - 1 := by
  obtain ⟨-, -, hdown, hdone, hup, htop⟩ := c.ticked_cases lost
  cases hu : c.up with
  | true =>
    rw [if_pos rfl]
    by_cases hv : c.value + 1 < 11999999
    · rw [(hup (.inl h) hu hv).1]; omega
    · rw [(htop (.inl h) hu (by omega)).1]; omega
  | false =>
    rw [if_neg (by simp)]
    by_cases hv : 2 ≤ c.value
    · exact (hdown (.inl h) hu hv).1
    · rw [(hdone (.inl h) hu (by omega)).1]; omega

/-- A RUNNING clock counts at the next ms tick after a card, which leaves the Timebase (R139, R140). -/
theorem State.next_msTick_value {s t : State} (hs : s.ready .clock) {u : ClockUnit} {p : Port}
    (ht : t = s.onPart (fun x => { x with clk := u, blk := { x.blk with port := p } })) (i : ClockId)
    (hr : (u.clock i).state = .running) (silenceFirst : Bool) :
    ∃ z, exec (.msTick silenceFirst) t = .next z ∧ (z.part.clk.clock i).value =
      if (u.clock i).up then min 11999999 ((u.clock i).value + 1) else (u.clock i).value - 1 := by
  have hl : t.part.tb.synthLocked = true := by
    obtain ⟨hlive, -⟩ := hs
    rw [Part.live, Bool.and_eq_true] at hlive
    rw [ht]
    exact hlive.2
  obtain ⟨z, hz, hclock⟩ := State.next_msTick_clock hl i silenceFirst
  have hu : t.part.clk = u := by rw [ht]; rfl
  rw [hu] at hclock
  exact ⟨z, hz, by rw [hclock, Clock.ticked_value hr]⟩

/-! ## CLOCK_SETUP (R138) -/

/-- A field of a CLOCK_SETUP lies outside its encoding, by its byte offset (R138). -/
def clockSetupFails (q : ClockSetupCue) : Nat → Prop
  | 0 => 1 < q.clock
  | 1 => 1 < q.source
  | 2 => 1 < q.direction
  | 3 => 1 < q.horn
  | 4 => q.tenths < 1000 ∨ 600000 < q.tenths
  | 8 => q.hornLength < 500 ∨ 3000 < q.hornLength
  | 10 => 50 < q.comp
  | _ => False

/-- The fault of a CLOCK_SETUP is its first bad field (R138). -/
theorem clockSetupFault_first {q : ClockSetupCue} {offset : Nat} (hf : clockSetupFails q offset)
    (hfirst : ∀ n, n < offset → ¬clockSetupFails q n) : clockSetupFault q = some offset := by
  have h0 : 0 < offset → ¬1 < q.clock := hfirst 0
  have h1 : 1 < offset → ¬1 < q.source := hfirst 1
  have h2 : 2 < offset → ¬1 < q.direction := hfirst 2
  have h3 : 3 < offset → ¬1 < q.horn := hfirst 3
  have h4 : 4 < offset → ¬(q.tenths < 1000 ∨ 600000 < q.tenths) := hfirst 4
  have h8 : 8 < offset → ¬(q.hornLength < 500 ∨ 3000 < q.hornLength) := hfirst 8
  unfold clockSetupFault
  match offset, hf with
  | 0, hf => exact if_pos hf
  | 1, hf => rw [if_neg (h0 (by decide))]; exact if_pos hf
  | 2, hf => rw [if_neg (h0 (by decide)), if_neg (h1 (by decide))]; exact if_pos hf
  | 3, hf => rw [if_neg (h0 (by decide)), if_neg (h1 (by decide)), if_neg (h2 (by decide))]; exact if_pos hf
  | 4, hf =>
    rw [if_neg (h0 (by decide)), if_neg (h1 (by decide)), if_neg (h2 (by decide)), if_neg (h3 (by decide))]
    exact if_pos hf
  | 8, hf =>
    rw [if_neg (h0 (by decide)), if_neg (h1 (by decide)), if_neg (h2 (by decide)), if_neg (h3 (by decide)),
      if_neg (h4 (by decide))]
    exact if_pos hf
  | 10, hf =>
    rw [if_neg (h0 (by decide)), if_neg (h1 (by decide)), if_neg (h2 (by decide)), if_neg (h3 (by decide)),
      if_neg (h4 (by decide)), if_neg (h8 (by decide))]
    exact if_pos hf
  | 5, hf | 6, hf | 7, hf | 9, hf | _ + 11, hf => exact hf.elim

/-- State and value after a CLOCK_SETUP, by the table of R138. -/
theorem setupState_eq (c : Clock) (toLocal up : Bool) : setupState c toLocal up =
    if toLocal = false then
      (if c.localSource = false ∧ c.up = up then (c.state, c.value) else (.noTime, 0))
    else if c.up ≠ up then
      (if c.state = .noTime then (.noTime, c.value)
       else (.stopped, min c.value (if up then 11999999 else 5999999)))
    else if c.localSource = false ∧ c.state = .holdover then (.running, c.value)
    else (c.state, c.value) := by
  unfold setupState
  rw [capAt_eq_min]
  cases toLocal with
  | false =>
    by_cases hk : c.localSource = false ∧ c.up = up
    · simp [hk]
    · have hleaves : (c.localSource || c.up != up) = true := by
        rw [Bool.or_eq_true, bne_iff_ne]
        cases hl : c.localSource with
        | false => exact .inr fun hu => hk ⟨hl, hu⟩
        | true => exact .inl rfl
      simp [hk, hleaves]
  | true =>
    by_cases hu : c.up = up
    · cases c.state <;> simp [hu]
    · simp [hu, rangeTop, Config.upTop, Config.downTop]

/-- Settles O53: no field bad, the table of `setupState_eq`; else the first bad field. -/
theorem clockSetupSetsTheClock : Obligations.ClockSetupSetsTheClock := by
  refine ⟨fun slot post q s hs hc hsrc hdir hh ht1 ht2 hl1 hl2 hcomp => ?_, fun slot post q s hs => ?_⟩
  · intro i c toLocal up after
    have hnone : clockSetupFault q = none := by
      unfold clockSetupFault
      repeat rw [if_neg (by omega)]
    have hafter : setupState (s.part.clk.clock (clockOfCode q.clock)) (q.source == 1) (q.direction == 1) = after :=
      setupState_eq c toLocal up
    have hcode : ∀ k : ClockState, toWord k.code = (match k with
         | .noTime => 0 | .stopped => 1 | .running => 2 | .expired => 3 | .holdover => 4 : Word) := fun k => by
      cases k <;> rfl
    refine State.clockCard_acts (o := .ok) hs ?_
    unfold clockSetupOp
    rw [hnone]
    dsimp only
    rw [hafter]
    exact Prod.ext rfl (congrArg (s.port.complete .clock slot .ok) (hcode after.1))
  · intro fails offset hf hfirst
    have hfault : clockSetupFault q = some offset := clockSetupFault_first hf hfirst
    refine State.clockCard_refused (o := .badField) hs ?_
    unfold clockSetupOp
    rw [hfault]

/-! ## CLOCK_SET, CLOCK_RUN and CLOCK_STOP (R139, R140) -/

/-- The state of a LOCAL clock set to a value: RUNNING goes on unless the value is at its end (R139). -/
theorem setState_eq (c : Clock) (v : Nat) : setState c v =
    if c.state = .running ∧ v ≠ (if c.up then 11999999 else 0) then .running else .stopped := by
  unfold setState Config.upTop
  by_cases hr : c.state = .running
  · cases c.up
    · by_cases hv : v = 0 <;> simp [hr, hv]
    · by_cases hv : v = 11999999 <;> simp [hr, hv]
  · simp [hr]

/-- A card that acts on a LOCAL clock alone, by its first two checks: the clock code, and the clock's source (R139, R140). -/
theorem State.localCard {s : State} (hs : s.ready .clock) {f : ClockPort → ClockPort} {slot n : Nat} {Q : State → Prop}
    (hbad : 1 < n → f (s.part.clk, s.port) = (s.part.clk, s.port.refuse .clock slot .badField 0))
    (hnot : ¬1 < n → (s.part.clk.clock (clockOfCode n)).localSource = false → f (s.part.clk, s.port) =
      (s.part.clk, s.port.refuse .clock slot .notLocal (toWord (s.part.clk.clock (clockOfCode n)).state.code)))
    (hacts : ¬1 < n → (s.part.clk.clock (clockOfCode n)).localSource = true →
      ∃ t, (.next (s.onPart (·.clockCard f)) : Answer) = .next t ∧ Q t) :
    ∃ t, (.next (s.onPart (·.clockCard f)) : Answer) = .next t ∧
      (1 < n → s.onlyMoved t .clock slot 5 19 0) ∧
      (n ≤ 1 → (s.part.clk.clock (clockOfCode n)).localSource = false →
        s.onlyMoved t .clock slot 5 22 (toWord (s.part.clk.clock (clockOfCode n)).state.code)) ∧
      (n ≤ 1 → (s.part.clk.clock (clockOfCode n)).localSource = true → Q t) := by
  by_cases hn : 1 < n
  · obtain ⟨t, ht, hmoved⟩ := State.clockCard_refused hs (hbad hn)
    exact ⟨t, ht, fun _ => hmoved, fun h => absurd hn (by omega), fun h => absurd hn (by omega)⟩
  cases hloc : (s.part.clk.clock (clockOfCode n)).localSource with
  | false =>
    obtain ⟨t, ht, hmoved⟩ := State.clockCard_refused hs (hnot hn hloc)
    exact ⟨t, ht, fun h => absurd h hn, fun _ _ => hmoved, fun _ h => nomatch h⟩
  | true =>
    obtain ⟨t, ht, hdone⟩ := hacts hn hloc
    exact ⟨t, ht, fun h => absurd h hn, fun _ h => (nomatch h), fun _ _ => hdone⟩

/-- Settles O54, by the checks of the card. -/
theorem clockSetTakesTheValue : Obligations.ClockSetTakesTheValue := by
  intro slot post q s hs i c v code
  have hcode : toWord c.state.code = code := by
    dsimp only [code]
    cases c.state <;> rfl
  rw [← hcode]
  refine State.localCard hs (fun hn => if_pos hn) (fun hn hloc => ?_) (fun hn hloc => ?_)
  · unfold clockSetOp
    rw [if_neg hn]
    exact if_pos (congrArg not hloc)
  · have hv : capAt (rangeTop c.up) q.value = v := capAt_eq_min _ _
    have hf : clockSetOp slot q (s.part.clk, s.port) =
        (s.part.clk.setClock i { c with state := setState c v, value := v },
          s.port.complete .clock slot (okOr (v != q.value)) (toWord v)) := by
      unfold clockSetOp
      rw [if_neg hn, ← hv]
      exact if_neg (by simp [hloc])
    have hoc : toWord (okOr (v != q.value)).code = if q.value = v then 0 else 1 := by
      rw [okOr_code]
      by_cases h : q.value = v
      · simp [h]
      · simp [h, Ne.symm h]
    obtain ⟨t, ht, hclk, hmoved, hrest⟩ := State.clockCard_acts hs hf
    rw [setState_eq] at hclk
    rw [hoc] at hmoved
    refine ⟨t, ht, hclk, hmoved, hrest, fun hr b => ?_⟩
    obtain ⟨z, hz, hval⟩ := State.next_msTick_value hs hrest i hr b
    refine ⟨z, hz, hval.trans ?_⟩
    rw [hclk, ClockUnit.clock_setClock_self] at hr ⊢
    have hgoes : c.state = .running ∧ v ≠ (if c.up then 11999999 else 0) := by
      by_contra h
      exact absurd (hr.symm.trans (if_neg h)) (by decide)
    have htop : c.up = true → v ≤ 11999999 := fun hu => by
      dsimp only [v]
      rw [hu]
      exact Nat.min_le_right _ _
    dsimp only
    cases hu : c.up with
    | true =>
      have hend := hgoes.2
      rw [hu, if_pos rfl] at hend
      have hle := htop hu
      simp only [if_true]
      omega
    | false => rfl

/-- CLOCK_RUN leaves the direction and the value (R140). -/
theorem runClock_kept (c : Clock) : (runClock c).up = c.up ∧ (runClock c).value = c.value := by
  unfold runClock
  rw [apply_ite Clock.up, apply_ite Clock.value]
  exact ⟨ite_self _, ite_self _⟩

/-- Settles O55: each card by its checks, then by the clock it leaves. -/
theorem clockRunAndStopMoveTheClock : Obligations.ClockRunAndStopMoveTheClock := by
  intro slot post n s hs i c code ran halted
  have hcode : ∀ k : ClockState, toWord k.code = code k := fun k => by cases k <;> rfl
  rw [← hcode, ← hcode, ← hcode]
  refine ⟨?_, State.localCard hs (fun hn => if_pos hn) (fun hn hloc => ?_) (fun hn hloc => ?_)⟩
  · have hacts : ¬1 < n → c.localSource = true →
        ∃ t, exec (.clockRun slot post n) s = .next t ∧ (c.state = .noTime → s.onlyMoved t .clock slot 5 19 1) ∧
        (c.state ≠ .noTime → t.part.clk = s.part.clk.setClock i ran ∧
          s.port.slotMoved t.port .clock slot 4 0 (toWord ran.state.code) ∧
          t = s.onPart (fun p => { p with clk := t.part.clk, blk := { p.blk with port := t.port } }) ∧
          (ran.state = .running → ∀ b, ∃ u, exec (.msTick b) t = .next u ∧
            (u.part.clk.clock i).value = if c.up then min 11999999 (c.value + 1) else c.value - 1)) := fun hn hloc => by
      have hlocal : clockRunOp slot n (s.part.clk, s.port) =
          if c.state = .noTime then (s.part.clk, s.port.refuse .clock slot .badField 1)
          else (s.part.clk.setClock i ran, s.port.complete .clock slot .ok (toWord ran.state.code)) := by
        unfold clockRunOp
        rw [if_neg hn]
        exact if_neg (by rw [show (s.part.clk.clock (clockOfCode n)).localSource = true from hloc]; simp)
      by_cases hno : c.state = .noTime
      · obtain ⟨t, ht, hmoved⟩ := State.clockCard_refused hs (hlocal.trans (if_pos hno))
        exact ⟨t, ht, fun _ => hmoved, fun h => absurd hno h⟩
      · obtain ⟨t, ht, hclk, hmoved, hrest⟩ := State.clockCard_acts hs (hlocal.trans (if_neg hno))
        refine ⟨t, ht, fun h => absurd h hno, fun _ => ⟨hclk, hmoved, hrest, fun hr b => ?_⟩⟩
        obtain ⟨hup, hvalue⟩ : ran.up = c.up ∧ ran.value = c.value := runClock_kept c
        have hself : t.part.clk.clock i = ran := by rw [hclk, ClockUnit.clock_setClock_self]
        obtain ⟨z, hz, hval⟩ := State.next_msTick_value hs hrest i (by rw [hself]; exact hr) b
        exact ⟨z, hz, by rw [hval, hself, hup, hvalue]⟩
    have hnot : ¬1 < n → c.localSource = false → clockRunOp slot n (s.part.clk, s.port) =
        (s.part.clk, s.port.refuse .clock slot .notLocal (toWord c.state.code)) := fun hn hloc => by
      unfold clockRunOp
      rw [if_neg hn]
      exact if_pos (congrArg not hloc)
    obtain ⟨t, ht, hbad, hlocal, hdone⟩ := State.localCard hs (f := clockRunOp slot n) (fun hn => if_pos hn) hnot hacts
    exact ⟨t, ht, hbad, hlocal, fun hn hloc => (hdone hn hloc).1, fun hn hloc => (hdone hn hloc).2⟩
  · unfold clockStopOp
    rw [if_neg hn]
    exact if_pos (congrArg not hloc)
  · have hf : clockStopOp slot n (s.part.clk, s.port) = (s.part.clk.setClock i halted,
        s.port.complete .clock slot .ok (toWord halted.state.code)) := by
      unfold clockStopOp
      rw [if_neg hn]
      exact if_neg (by simp [hloc])
    exact State.clockCard_acts hs hf

/-! ## SCORE (R145, R146) -/

/-- A period is brought into 1..9 (R145). -/
theorem clampPeriod_eq (n : Nat) : clampPeriod n = max 1 (min n 9) := by
  unfold clampPeriod
  rw [capAt_eq_min]
  split <;> omega

/-- The flags of a list that are set, counted one after another. -/
theorem count_true_cons (b : Bool) (l : List Bool) : (b :: l).count true = flagNat b + l.count true := by
  cases b
  · exact (List.count_cons_of_ne (by decide)).trans (Nat.zero_add _).symm
  · exact List.count_cons_self.trans (Nat.add_comm _ _)

/-- A field of a SCORE card is clamped where it is above its top (R145). -/
theorem capAt_bne (top n : Nat) : (capAt top n != n) = decide (top < n) := by
  unfold capAt
  by_cases h : top < n
  · simp [h, Nat.ne_of_lt h]
  · simp [h]

/-- Settles O56: the possession code first, then the record field by field. -/
theorem scoreCardSetsTheRecord : Obligations.ScoreCardSetsTheRecord := by
  intro slot post q s hs old home guest period n
  have hhome : capAt 999 q.home = home := capAt_eq_min _ _
  have hguest : capAt 999 q.guest = guest := capAt_eq_min _ _
  have hperiod : clampPeriod q.period = period := clampPeriod_eq _
  have hn : scoreClamped q = n := by
    have hne : ∀ a b : Nat, decide (b ≠ a) = (a != b) := fun a b => by
      rw [decide_not, bne_comm]
      rfl
    simp only [n, count_true_cons, List.count_nil, hne, ← capAt_bne, ← hhome, ← hguest, ← hperiod]
    unfold scoreClamped
    omega
  have hscore : scoreAfter old q =
      { home, guest, period, possession := q.possession, c0 := min q.c0 99, c1 := min q.c1 99
        c2 := min q.c2 99, c3 := min q.c3 99
        homeFlash := if home = old.home then old.homeFlash else 30
        guestFlash := if guest = old.guest then old.guestFlash else 30 } := by
    unfold scoreAfter
    rw [hhome, hguest, hperiod, capAt_eq_min, capAt_eq_min, capAt_eq_min, capAt_eq_min]
  by_cases hp : 2 < q.possession
  · obtain ⟨t, ht, hmoved⟩ := State.clockCard_refused (o := .badField) (r := 5) hs
      (show scoreOp slot q (s.part.clk, s.port) = _ from if_pos hp)
    exact ⟨t, ht, fun _ => hmoved, fun h => absurd hp (by omega)⟩
  · obtain ⟨t, ht, hclk, hmoved, hrest⟩ := State.clockCard_acts hs
      (show scoreOp slot q (s.part.clk, s.port) = _ from if_neg hp)
    have hoc : toWord (okOr (scoreClamped q != 0)).code = if n = 0 then 0 else 1 := by
      rw [okOr_code, hn]
      by_cases h : n = 0 <;> simp [h]
    rw [hoc, hn] at hmoved
    exact ⟨t, ht, fun h => absurd h hp, fun _ => ⟨by rw [hclk, ← hscore], hmoved, hrest⟩⟩

end Sys2Proof.Machine
end


section
/-! PROOFS. The clocks stay sound (O4). -/

namespace Sys2Proof.Machine

/-! ## One clock (R128) -/

section Clock

variable {c : Clock}

/-- A clock that is RUNNING or STOPPED within its range is sound (R128). -/
theorem Clock.sound_of_range (hr : c.value ≤ rangeTop c.up) (hs : c.state = .running ∨ c.state = .stopped) : c.sound := by
  refine ⟨hr, fun h => ?_, fun h => ?_, fun h => ?_⟩ <;> rw [h] at hs <;> simp at hs

/-- A clock that counts may take any value of its range (R128). -/
theorem Clock.sound.withValue (h : c.sound) (hc : c.counting = true) {v : Nat} (hv : v ≤ rangeTop c.up) :
    ({ c with value := v } : Clock).sound := by
  obtain ⟨-, -, -, hhold⟩ := h
  rw [Clock.counting_iff] at hc
  refine ⟨hv, fun hs => ?_, fun hs => ?_, hhold⟩ <;> (replace hs : c.state = _ := hs; rw [hs] at hc; simp at hc)

theorem Clock.init_sound (hornOn : Bool) : (Clock.init hornOn).sound :=
  ⟨Nat.zero_le _, fun _ => rfl, fun h => (nomatch h), fun h => (nomatch h)⟩

/-- A DOWN clock that expires is sound (R135). -/
theorem Clock.expired_sound (hup : c.up = false) : ({ c with state := .expired, value := 0 } : Clock).sound :=
  ⟨Nat.zero_le _, fun h => (nomatch h), fun _ => ⟨hup, rfl⟩, fun h => (nomatch h)⟩

/-- A count keeps a clock sound (R135). -/
theorem Clock.sound.counted (h : c.sound) : c.counted.sound := by
  have hrange : c.value ≤ rangeTop c.up := h.1
  unfold Clock.counted
  split
  · next hc =>
    split
    · next hup =>
      have htop : rangeTop c.up = 11999999 := by rw [hup]; rfl
      split
      · exact Clock.sound_of_range (Nat.le_of_eq htop.symm) (.inr rfl)
      · exact h.withValue hc (by omega)
    · next hup =>
      split
      · exact Clock.expired_sound (by simpa using hup)
      · exact h.withValue hc (by omega)
  · exact h

/-- A silence keeps a clock sound: it puts a CONSOLE clock alone into HOLDOVER (R131). -/
theorem Clock.sound.silenced (h : c.sound) (lost : Bool) : (c.silenced lost).sound := by
  obtain ⟨hrange, -⟩ := id h
  cases lost with
  | false => exact h
  | true =>
    show c.toHoldover.sound
    unfold Clock.toHoldover
    split
    · next hf =>
      obtain ⟨hloc, -⟩ := c.followed_iff.mp hf
      exact ⟨hrange, fun h => (nomatch h), fun h => (nomatch h), fun _ => hloc⟩
    · exact h

/-- A CLOCK word adopted keeps a clock sound (R132). -/
theorem Clock.sound.adopted (h : c.sound) (run : Bool) {v : Nat} (hv : v ≤ rangeTop c.up) : (c.adopted run v).sound := by
  unfold Clock.adopted
  split
  · exact Clock.sound_of_range hv (ite_eq_or_eq _ _ _)
  · next hup =>
    split
    · exact h
    · by_cases hz : run = true ∧ v = 0
      · obtain ⟨rfl, rfl⟩ := hz
        exact Clock.expired_sound (by simpa using hup)
      · refine Clock.sound_of_range hv ?_
        cases run with
        | false => exact .inr rfl
        | true => exact .inl (if_neg fun h0 => hz ⟨rfl, h0⟩)

/-- A clock in NO_TIME at 0 is sound (R128). -/
theorem Clock.sound_of_noTime (hs : c.state = .noTime) (hv : c.value = 0) : c.sound := by
  refine ⟨?_, fun _ => hv, fun h => ?_, fun h => ?_⟩
  · rw [Clock.inRange, hv]; exact Nat.zero_le _
  · rw [hs] at h; cases h
  · rw [hs] at h; cases h

/-- A clock that agrees with a sound one in state, value and direction is sound, if HOLDOVER leaves it a CONSOLE clock
(R128). -/
theorem Clock.sound.agrees (h : c.sound) {d : Clock} (hs : d.state = c.state) (hv : d.value = c.value) (hup : c.up = d.up)
    (hl : d.state = .holdover → d.localSource = false) : d.sound := by
  obtain ⟨hrange, hno, hexp, -⟩ := h
  refine ⟨?_, ?_, ?_, hl⟩
  · rw [Clock.inRange, hv, ← hup]; exact hrange
  · rw [hs, hv]; exact hno
  · rw [hs, hv, ← hup]; exact hexp

/-- A CLOCK_SETUP keeps a clock sound, whatever settings it brings (R138). -/
theorem Clock.sound.setup (h : c.sound) {d : Clock}
    (hd : (d.state, d.value) = setupState c d.localSource d.up) : d.sound := by
  obtain ⟨hrange, hno, -, hhold⟩ := id h
  rw [setupState_eq] at hd
  split at hd
  · next hconsole =>
    split at hd <;> obtain ⟨hs, hv⟩ := Prod.mk.inj hd
    · next hkept => exact h.agrees hs hv hkept.2 fun _ => hconsole
    · exact Clock.sound_of_noTime hs hv
  · split at hd
    · split at hd <;> obtain ⟨hs, hv⟩ := Prod.mk.inj hd
      · next hnone => exact Clock.sound_of_noTime hs (hv.trans (hno hnone))
      · exact Clock.sound_of_range (by rw [hv]; exact Nat.min_le_right _ _) (.inr hs)
    · next hup =>
      replace hup : c.up = d.up := not_not.mp hup
      split at hd <;> obtain ⟨hs, hv⟩ := Prod.mk.inj hd
      · exact Clock.sound_of_range (by rw [hv, ← hup]; exact hrange) (.inl hs)
      · next hnot => exact h.agrees hs hv hup fun hh => absurd ⟨hhold (hs ▸ hh), hs ▸ hh⟩ hnot

/-- A CLOCK_SET keeps a clock sound (R139). -/
theorem Clock.sound_set {v : Nat} (hv : v ≤ rangeTop c.up) :
    ({ c with state := setState c v, value := v } : Clock).sound := by
  rw [setState_eq]
  exact Clock.sound_of_range hv (ite_eq_or_eq _ _ _)

/-- CLOCK_RUN keeps a clock sound (R140). -/
theorem Clock.sound.run (h : c.sound) : (runClock c).sound := by
  obtain ⟨hrange, -⟩ := id h
  unfold runClock
  by_cases hr : c.state = .stopped ∧ c.value ≠ if c.up then Config.upTop else 0
  · rw [if_pos hr]
    exact Clock.sound_of_range hrange (.inl rfl)
  · rw [if_neg hr]
    exact h

/-- CLOCK_STOP keeps a clock sound (R140). -/
theorem Clock.sound.stop (h : c.sound) : (stopClock c).sound := by
  obtain ⟨hrange, -⟩ := id h
  unfold stopClock
  split
  · exact Clock.sound_of_range hrange (.inr rfl)
  · exact h

end Clock

/-! ## The Clock Unit -/

/-- Both clocks of a Clock Unit are sound (R128). -/
def ClockUnit.sound (u : ClockUnit) : Prop := ∀ i, (u.clock i).sound

theorem State.clocksSound_iff (s : State) : s.clocksSound ↔ s.part.clk.sound :=
  ⟨fun ⟨hgame, haux⟩ i => by cases i; exacts [hgame, haux], fun h => ⟨h .game, h .aux⟩⟩

section Unit

variable {u v : ClockUnit}

/-- Soundness looks at the clocks alone. -/
theorem ClockUnit.sound.of_clocks (h : u.sound) (hgame : v.game = u.game) (haux : v.aux = u.aux) : v.sound := by
  intro i
  cases i with
  | game => exact (congrArg Clock.sound hgame).mpr (h .game)
  | aux => exact (congrArg Clock.sound haux).mpr (h .aux)

theorem ClockUnit.sound.setClock (h : u.sound) (i : ClockId) {c : Clock} (hc : c.sound) : (u.setClock i c).sound := by
  intro j
  by_cases hj : j = i
  · rw [hj, ClockUnit.clock_setClock_self]; exact hc
  · rw [ClockUnit.clock_setClock_ne _ _ _ _ hj]; exact h j

/-- A discarded word leaves the clocks (R129). -/
theorem discardWord_clocks (u : ClockUnit) : (discardWord u).game = u.game ∧ (discardWord u).aux = u.aux := by
  unfold discardWord
  split <;> exact ⟨rfl, rfl⟩

theorem ClockUnit.sound.discardWord (h : u.sound) : (discardWord u).sound :=
  h.of_clocks (discardWord_clocks u).1 (discardWord_clocks u).2

end Unit

section Operations

variable {x : ClockPort} (h : x.1.sound)
include h

theorem clockWordOp_sound (i : ClockId) (run : Bool) (v : Nat) : (clockWordOp i run v x).1.sound := by
  rw [clockWordOp_unit]
  refine (h.setClock i (c := if (x.1.clock i).localSource then x.1.clock i
    else (x.1.clock i).adopted run (takenValue (x.1.clock i) run v)) ?_).of_clocks rfl rfl
  split
  · exact h i
  · exact (h i).adopted run (takenValue_le _ _ _)

theorem hornWordOp_sound (n : Nat) : (hornWordOp n x).1.sound := h.of_clocks rfl rfl

theorem periodWordOp_sound (n : Nat) : (periodWordOp n x).1.sound := h.of_clocks rfl rfl

theorem judgeWord_sound (bs : List Byte) : (judgeWord bs x).1.sound := by
  unfold judgeWord
  dsimp only
  split
  · exact h.discardWord
  · split
    · exact clockWordOp_sound h _ _ _
    · split
      · exact hornWordOp_sound h _
      · split
        · exact periodWordOp_sound h _
        · exact h.discardWord

theorem receiveByte_sound (b : Byte) (ok : Bool) : (receiveByte b ok x).1.sound := by
  unfold receiveByte
  split
  · split
    · exact h.of_clocks rfl rfl
    · exact h
  · split
    · exact h.discardWord
    · dsimp only
      split
      · exact h.discardWord
      · split
        · exact judgeWord_sound (x := ({ x.1 with word := _, gap := 0 }, x.2)) (h.of_clocks rfl rfl) _
        · exact h.of_clocks rfl rfl

theorem countClock_sound (i : ClockId) : (countClock i x).1.sound := by
  rw [countClock_clock]
  exact (h.setClock i (h i).counted).of_clocks rfl rfl

theorem silenceTick_sound : (silenceTick x).1.sound := by
  rw [silenceTick_clock]
  intro i
  cases i with
  | game => exact (h .game).silenced _
  | aux => exact (h .aux).silenced _

theorem clockTick_sound (silenceFirst : Bool) : (clockTick silenceFirst x).1.sound := by
  rw [clockTick_clock]
  intro i
  cases i with
  | game => exact (h .game).counted.silenced _
  | aux => exact (h .aux).counted.silenced _

theorem clockSetupOp_sound (slot : Nat) (q : ClockSetupCue) : (clockSetupOp slot q x).1.sound := by
  unfold clockSetupOp
  split
  · exact h
  · exact h.setClock _ ((h _).setup rfl)

theorem clockSetOp_sound (slot : Nat) (q : ClockSetCue) : (clockSetOp slot q x).1.sound := by
  unfold clockSetOp
  dsimp only
  split
  · exact h
  · split
    · exact h
    · refine h.setClock _ (Clock.sound_set ?_)
      rw [capAt_eq_min]
      exact Nat.min_le_right _ _

theorem clockRunOp_sound (slot clock : Nat) : (clockRunOp slot clock x).1.sound := by
  unfold clockRunOp
  dsimp only
  split
  · exact h
  · split
    · exact h
    · split
      · exact h
      · exact h.setClock _ (h _).run

theorem clockStopOp_sound (slot clock : Nat) : (clockStopOp slot clock x).1.sound := by
  unfold clockStopOp
  dsimp only
  split
  · exact h
  · split
    · exact h
    · exact h.setClock _ (h _).stop

theorem scoreOp_sound (slot : Nat) (q : ScoreCue) : (scoreOp slot q x).1.sound := by
  unfold scoreOp
  split
  · exact h
  · exact h.of_clocks rfl rfl

theorem applyClock_sound (t : Taken ClockCard) : (applyClock x t).1.sound := by
  unfold applyClock
  cases t.card with
  | setup q => exact clockSetupOp_sound h t.slot q
  | set q => exact clockSetOp_sound h t.slot q
  | run c => exact clockRunOp_sound h t.slot c
  | stop c => exact clockStopOp_sound h t.slot c
  | score q => exact scoreOp_sound h t.slot q

end Operations

theorem applyClocks_sound (cards : List (Taken ClockCard)) {x : ClockPort} (h : x.1.sound) :
    (cards.foldl applyClock x).1.sound := by
  induction cards generalizing x with
  | nil => exact h
  | cons t cards ih => exact ih (applyClock_sound h t)

/-! ## The mark -/

/-- Of the open work of a mark the CLOCK cards alone move the clocks (R137). -/
theorem Work.tasks_clocksSound (timer : Nat) (c : Cards) (order : List MarkTask) {w : Work} (h : w.clk.sound) :
    (order.foldl (Work.task timer c) w).clk.sound := by
  induction order generalizing w with
  | nil => exact h
  | cons k order ih =>
    refine ih ?_
    cases k with
    | plan => exact (Work.applyPlans_kept c.plan w).2 ▸ h
    | clock => exact applyClocks_sound c.clock h
    | clips | replay | rotation | messages | dwell =>
      rw [Work.task, Work.onBlk_clk]
      exact h

theorem Part.showWork_clocksSound (m : MarkInput) (entry : Bool) (s : Part) (h : s.clk.sound) :
    (s.showWork m entry).clk.sound := by
  have hdone : (s.stages m entry).done.clk.sound :=
    Work.tasks_clocksSound (3 * s.tb.rate.length) (s.stages m entry).cards
      (taskOrder m.order (mayAdopt (s.stages m entry).read.pickupAll.1 (s.stages m entry).cards))
      (w := { sec := s.sec, clk := s.clk, blk := (s.stages m entry).advanced, accepted := [] }) h
  have hworked : (s.stages m entry).worked = (s.stages m entry).done.settle entry := rfl
  rw [s.showWork_stages]
  generalize s.stages m entry = g at hdone hworked
  obtain ⟨hclk, -, -⟩ := g.done.settle_eq entry
  rw [← hworked] at hclk
  exact (hclk ▸ hdone : g.worked.clk.sound).of_clocks rfl rfl

theorem Part.sampleRun_clocksSound (m : MarkInput) (s : Part) (h : s.clk.sound) : (s.sampleRun m).clk.sound := by
  unfold Part.sampleRun
  dsimp only
  split
  · split
    · exact Part.showWork_clocksSound m false _ h
    · exact h
  · split
    · split
      · exact Part.showWork_clocksSound m true _ h
      · exact h
    · exact h

theorem Part.mark_clocksSound (first : Bool) (m : MarkInput) (s : Part) (h : s.clk.sound) :
    (s.mark first m).clk.sound := by
  rw [s.mark_eq]
  exact Part.sampleRun_clocksSound m (s.opened first) (h.of_clocks rfl rfl)

/-! ## Time, and the shapes of a command -/

theorem Part.elapse_clocksSound (dt : Nat) {s : Part} (h : s.clk.sound) : (s.elapse dt).clk.sound := by
  rw [s.elapse_clk dt]
  exact h.of_clocks rfl rfl

theorem Part.afterTime_clocksSound {f : Part → Part} (hf : ∀ p : Part, p.clk.sound → (f p).clk.sound) (dt : Nat)
    {s : Part} (h : s.clk.sound) : (s.afterTime dt f).clk.sound := by
  unfold Part.afterTime
  dsimp only
  split
  · exact hf _ (Part.elapse_clocksSound dt h)
  · exact Part.elapse_clocksSound dt h

theorem Part.onLine_clocksSound {f : ClockPort → ClockPort} (hf : ∀ x : ClockPort, x.1.sound → (f x).1.sound) (dt : Nat)
    {s : Part} (h : s.clk.sound) : (s.onLine dt f).clk.sound :=
  Part.afterTime_clocksSound (fun p hp => hf (p.clk, p.blk.port) hp) dt h

theorem Part.discardByte_clocksSound (dt : Nat) (b : Byte) (ok : Bool) {s : Part} (h : s.clk.sound) :
    (s.discardByte dt b ok).clk.sound :=
  Part.afterTime_clocksSound (fun p hp => by
    split
    · exact receiveByte_sound (x := (p.clk, p.blk.port)) hp b ok
    · exact hp) dt h

theorem Part.expireGap_clocksSound {s : Part} (h : s.clk.sound) : s.expireGap.clk.sound := by
  unfold Part.expireGap
  split
  · exact Part.elapse_clocksSound _ h
  · exact h

theorem Part.onTick_clocksSound {due : ClockUnit → Bool} {f : ClockPort → ClockPort}
    (hf : ∀ x : ClockPort, x.1.sound → (f x).1.sound) {s : Part} (h : s.clk.sound) : (s.onTick due f).clk.sound := by
  unfold Part.onTick
  split
  · exact hf (s.clk, s.blk.port) h
  · exact h

theorem Part.whenLive_clocksSound {f : Part → Part} {s : Part} (h : s.clk.sound) (hf : (f s).clk.sound) :
    (s.whenLive f).clk.sound := by
  unfold Part.whenLive
  split
  · exact hf
  · exact h

theorem Part.clockCard_clocksSound {f : ClockPort → ClockPort} (hf : ∀ x : ClockPort, x.1.sound → (f x).1.sound)
    {s : Part} (h : s.clk.sound) : (s.clockCard f).clk.sound :=
  Part.whenLive_clocksSound h (hf (s.clk, s.blk.port) h)

theorem Part.frameMark_clocksSound (m : MarkInput) {s : Part} (h : s.clk.sound) : (s.frameMark m).clk.sound := by
  unfold Part.frameMark
  split
  · exact Part.mark_clocksSound false m _ (Part.elapse_clocksSound _ h)
  · exact h

theorem Part.lockSynthesiser_clocksSound (dt : Nat) (m : MarkInput) {s : Part} (h : s.clk.sound) :
    (s.lockSynthesiser dt m).clk.sound := by
  unfold Part.lockSynthesiser
  split
  · exact h
  · exact Part.mark_clocksSound true m _ (Part.elapse_clocksSound (s := s.referencePresent) dt h)

theorem Part.msTick_clocksSound (silenceFirst : Bool) {s : Part} (h : s.clk.sound) :
    (s.msTick silenceFirst).clk.sound := by
  unfold Part.msTick
  split
  · exact clockTick_sound (x := (_, _)) (Part.elapse_clocksSound _ h) silenceFirst
  · exact h

theorem Part.loseReference_clocksSound {s : Part} (h : s.clk.sound) : s.loseReference.clk.sound :=
  h.discardWord.of_clocks rfl rfl

theorem Part.housePulse_clocksSound (dt : Nat) {s : Part} (h : s.clk.sound) : (s.housePulse dt).clk.sound := by
  have htime := Part.elapse_clocksSound (s := s.referencePresent) dt h
  unfold Part.housePulse
  dsimp only
  split
  · exact htime
  · exact htime

theorem Part.expireSync_clocksSound {s : Part} (h : s.clk.sound) : s.expireSync.clk.sound := by
  unfold Part.expireSync
  split
  · exact h
  · exact Part.elapse_clocksSound (s := s.referencePresent) _ h

theorem Part.loseSignal_clocksSound (i : Nat) (cause : SignalLoss) {s : Part} (h : s.clk.sound) :
    (s.loseSignal i cause).clk.sound := by
  cases cause with
  | timer =>
    unfold Part.loseSignal Part.expireSilence
    dsimp only
    split
    · split
      · exact h
      · exact Part.elapse_clocksSound _ h
    · exact h
  | receiver dt =>
    exact Part.afterTime_clocksSound (f := (·.onBlk (·.onInput i Input.loseSignal))) (fun _ hp => hp) dt h

theorem Part.arrivalWhen_clocksSound (cond : Blocks → Bool) (dt i : Nat) (p : Picture) {s : Part} (h : s.clk.sound) :
    (s.arrivalWhen cond dt i p).clk.sound :=
  Part.afterTime_clocksSound (fun x hx => by split <;> exact hx) dt h

/-- The section cards and the health work leave the Clock Unit (R39, R42). -/
theorem Part.setSection_clk (slot : Nat) (q : SectionCue) (s : Part) : (s.setSection slot q).clk = s.clk := by
  unfold Part.setSection
  dsimp only
  split <;> rfl

theorem Part.turnSegment_clk (g : Nat) (s : Part) : (s.turnSegment g).clk = s.clk := by
  unfold Part.turnSegment
  split <;> rfl

/-- Every command keeps the clocks sound. -/
theorem exec_clocksSound (c : Instr) (s : State) (h : s.part.clk.sound) :
    ∃ t, exec c s = .next t ∧ t.part.clk.sound := by
  cases c with
  | powerOn | hardReset => exact ⟨_, rfl, fun i => by cases i; exacts [Clock.init_sound true, Clock.init_sound false]⟩
  | softReset | run | causeWrite | causeMaskWrite | registerWriteOther | hostWrite | healthReport => exact ⟨_, rfl, h⟩
  | referenceLost dt => exact ⟨_, rfl, Part.loseReference_clocksSound (Part.elapse_clocksSound dt h)⟩
  | synthesiserLock dt m => exact ⟨_, rfl, Part.lockSynthesiser_clocksSound dt m h⟩
  | frameMark m => exact ⟨_, rfl, Part.frameMark_clocksSound m h⟩
  | msTick silenceFirst => exact ⟨_, rfl, Part.msTick_clocksSound silenceFirst h⟩
  | houseSyncPulse reference dt =>
    cases reference with
    | false => exact ⟨_, rfl, h⟩
    | true => exact ⟨_, rfl, Part.housePulse_clocksSound dt h⟩
  | syncLossExpiry => exact ⟨_, rfl, Part.expireSync_clocksSound h⟩
  | segmentHealthChange g => exact ⟨_, rfl, (s.part.turnSegment_clk g).symm ▸ h⟩
  | frameArrival dt i f =>
    exact ⟨_, rfl, Part.afterTime_clocksSound (f := (·.takeFrame i _ _)) (fun _ hp => hp) dt h⟩
  | captureResume | numbersExhausted | openClipClose => exact ⟨_, rfl, Part.arrivalWhen_clocksSound _ _ _ _ h⟩
  | lossOfSignal i cause => exact ⟨_, rfl, Part.loseSignal_clocksSound i cause h⟩
  | clockWord dt i run v => exact ⟨_, rfl, Part.onLine_clocksSound (fun _ hx => clockWordOp_sound hx i run _) dt h⟩
  | hornWord dt n => exact ⟨_, rfl, Part.onLine_clocksSound (fun _ hx => hornWordOp_sound hx _) dt h⟩
  | periodWord dt n => exact ⟨_, rfl, Part.onLine_clocksSound (fun _ hx => periodWordOp_sound hx _) dt h⟩
  | consoleByte dt b ok => exact ⟨_, rfl, Part.onLine_clocksSound (fun _ hx => receiveByte_sound hx b ok) dt h⟩
  | wordDiscard dt b ok => exact ⟨_, rfl, Part.discardByte_clocksSound dt b ok h⟩
  | interByteGap => exact ⟨_, rfl, Part.expireGap_clocksSound h⟩
  | consoleSilenceExpiry => exact ⟨_, rfl, Part.onTick_clocksSound (fun _ hx => silenceTick_sound hx) h⟩
  | clockExpiry i | clockLimitReached i => exact ⟨_, rfl, Part.onTick_clocksSound (fun _ hx => countClock_sound hx i) h⟩
  | hornRelease =>
    exact ⟨_, rfl, Part.onTick_clocksSound (f := fun x => (hornTick x.1, x.2)) (fun _ hx => hx.of_clocks rfl rfl) h⟩
  | flashEnd side =>
    exact ⟨_, rfl, Part.onTick_clocksSound (f := fun x => ({ x.1 with score := x.1.score.endFlash side }, x.2))
      (fun _ hx => hx.of_clocks rfl rfl) h⟩
  | clockSetup slot post q => exact ⟨_, rfl, Part.clockCard_clocksSound (fun _ hx => clockSetupOp_sound hx slot q) h⟩
  | clockSet slot post q => exact ⟨_, rfl, Part.clockCard_clocksSound (fun _ hx => clockSetOp_sound hx slot q) h⟩
  | clockRun slot post n => exact ⟨_, rfl, Part.clockCard_clocksSound (fun _ hx => clockRunOp_sound hx slot n) h⟩
  | clockStop slot post n => exact ⟨_, rfl, Part.clockCard_clocksSound (fun _ hx => clockStopOp_sound hx slot n) h⟩
  | score slot post q => exact ⟨_, rfl, Part.clockCard_clocksSound (fun _ hx => scoreOp_sound hx slot q) h⟩
  | setSection slot post q =>
    exact ⟨_, rfl, Part.whenLive_clocksSound h ((s.part.setSection_clk slot q).symm ▸ h)⟩
  | fadeEnd | adoption | passComplete | messageExpiry | urgentTakeover | showZone | hideZone | dwellComplete | holdLimit
    | loadComplete | clipExpiry | laneAssignment | postPlan | setInput | markClip | keepClip | dropClip | cueHead | play
    | setRate | pause | stopHead | setGroup | setEntry | dropEntry | loadImage | message =>
    exact ⟨_, rfl, Part.whenLive_clocksSound h h⟩

/-- Settles O4: a step is a command of `exec_clocksSound`, or nothing. -/
theorem clocksStaySound : Obligations.ClocksStaySound := by
  intro s t h hstep
  rw [State.clocksSound_iff] at h ⊢
  unfold step at hstep
  split at hstep
  · cases hstep; exact h
  · next c rest _ =>
    obtain ⟨u, hu, hsound⟩ := exec_clocksSound c { s with pending := rest } h
    rw [hu] at hstep
    cases hstep
    exact hsound

end Sys2Proof.Machine
end


section
/-! PROOFS. MESSAGE (O57). -/

namespace Sys2Proof.Machine

/-! ## The place of a card in the queue (R153) -/

/-- An item put into a list in order goes behind those of its key and the lesser ones, before the greater. -/
theorem insertBy_eq_filter {α : Type} (key : α → Nat) (x : α) (l : List α)
    (h : l.Pairwise fun a b => key a ≤ key b) : insertBy key x l =
      (l.filter fun a => decide (key a ≤ key x)) ++ [x] ++ (l.filter fun a => decide (key x < key a)) := by
  induction l with
  | nil => rfl
  | cons a l ih =>
    obtain ⟨ha, hl⟩ := List.pairwise_cons.mp h
    by_cases hx : key x < key a
    · have hgreater : ∀ b ∈ a :: l, key x < key b :=
        List.forall_mem_cons.mpr ⟨hx, fun b hb => hx.trans_le (ha b hb)⟩
      have hbehind : (a :: l).filter (fun b => decide (key b ≤ key x)) = [] :=
        List.filter_eq_nil_iff.mpr fun b hb => by simpa using hgreater b hb
      have hbefore : (a :: l).filter (fun b => decide (key x < key b)) = a :: l :=
        List.filter_eq_self.mpr fun b hb => by simpa using hgreater b hb
      rw [hbehind, hbefore, insertBy, if_pos hx]
      rfl
    · rw [insertBy, if_neg hx, ih hl, List.filter_cons_of_pos (by simpa using hx),
        List.filter_cons_of_neg (by simpa using hx)]
      rfl

/-- The class that a code names stands in the queue order at that code (R153). -/
theorem classOfCode_rank {n : Nat} (h : n ≤ 2) : (classOfCode n).rank = n := by
  obtain rfl | rfl | rfl : n = 0 ∨ n = 1 ∨ n = 2 := by omega
  all_goals rfl

/-! ## The checks of a card (R152) -/

/-- The checks of the fields of a card, each by the byte offset of its field and whether it fails. -/
def messageChecks (q : MessageCue) : List (Nat × Bool) :=
  [(0, decide (2 < q.cls)), (1, decide (1 < q.mode)), (4, decide (q.mode = 1 ∧ (q.hold < 30 ∨ 3600 < q.hold))),
    (6, decide (q.repeats = 0 ∨ 8 < q.repeats)), (7, decide (q.cls ≠ 0 ∧ q.mask % 16 = 0)),
    (12, decide (q.cls = 1 ∧ 127 < q.linked)), (14, decide (q.length = 0 ∨ 120 < q.length))]

/-- The fault of a card is its first check that fails. -/
theorem messageFault_eq (q : MessageCue) : messageFault q = ((messageChecks q).find? (·.2)).map (·.1) := by
  have hcons : ∀ (n : Nat) (P : Prop) [Decidable P] (l : List (Nat × Bool)),
      (((n, decide P) :: l).find? (·.2)).map (·.1) = if P then some n else (l.find? (·.2)).map (·.1) := by
    intro n P _ l
    by_cases hP : P <;> simp [hP]
  unfold messageChecks
  simp only [hcons]
  rfl

/-! ## What a card does, by its checks (R152 to R154) -/

section Card

variable {slot : Nat} {post : Word} {q : MessageCue} {b : Blocks}

theorem messageOp_fault {o : Nat} (h : messageFault q = some o) :
    messageOp slot post q b = b.onPort (·.refuse .message slot .badField (toWord o)) := by
  unfold messageOp; rw [h]

variable (hfault : messageFault q = none)
include hfault

theorem messageOp_unset (h : q.cls = 1 ∧ b.rot.entry q.linked = none) :
    messageOp slot post q b = b.onPort (·.refuse .message slot .badEntry (toWord q.linked)) := by
  unfold messageOp; rw [hfault]; exact if_pos h

variable (hset : ¬(q.cls = 1 ∧ b.rot.entry q.linked = none))
include hset

theorem messageOp_wide (h : 32767 < b.port.stringWidth (q.text.take q.length)) :
    messageOp slot post q b = b.onPort (·.refuse .message slot .badField 16) := by
  unfold messageOp; rw [hfault]; exact (if_neg hset).trans (if_pos h)

variable (hwidth : b.port.stringWidth (q.text.take q.length) ≤ 32767)
include hwidth

theorem messageOp_expired (h : expiryCome b.port.showTick q.expiry = true) :
    messageOp slot post q b = b.onPort (·.complete .message slot .expired 0) := by
  unfold messageOp; rw [hfault]; exact (if_neg hset).trans ((if_neg (by omega)).trans (if_pos h))

theorem messageOp_offers (h : expiryCome b.port.showTick q.expiry = false) :
    messageOp slot post q b = b.offer (cardOf slot post q (b.port.stringWidth (q.text.take q.length))) := by
  unfold messageOp; rw [hfault]; exact (if_neg hset).trans ((if_neg (by omega)).trans (if_neg (by simp [h])))

end Card

section Offer

variable {b : Blocks} {c : MsgCard}

theorem Blocks.offer_room (h : b.lanes.queue.length < 48) : b.offer c = b.hold c := if_pos h

variable (hfull : Config.queueCards ≤ b.lanes.queue.length)
include hfull

theorem Blocks.offer_evicts {d : MsgCard} (hd : b.lanes.newestLowest = some d) (h : c.cls.rank < d.cls.rank) :
    b.offer c = (b.finishCard d .evicted).hold c := by
  unfold Blocks.offer
  rw [if_neg (Nat.not_lt.mpr hfull), hd]
  exact if_pos h

theorem Blocks.offer_full (h : ∀ d, b.lanes.newestLowest = some d → d.cls.rank ≤ c.cls.rank) :
    b.offer c = b.onPort (·.refuse .message c.slot .queueFull 48) := by
  unfold Blocks.offer
  rw [if_neg (Nat.not_lt.mpr hfull)]
  split
  · next d hd => exact if_neg (Nat.not_lt.mpr (h d hd))
  · rfl

end Offer

/-! ## The slot of a card that joins (R152, R175) -/

/-- The outcome and result so far of a slot, and nothing else is written (R175). -/
theorem Port.provisional_reads (p : Port) (d : Desk) (i : Nat) (o : CardOutcome) (r : Word)
    (hw : Memory.wf p.mem = true) :
    let m := (p.provisional d i o r).mem
    let a := p.slotAddr d i
    memWord m (a + 12) = toWord o.code ∧ memWord m (a + 24) = r ∧ bytesKept p.mem m [a + 12, a + 24] := by
  intro m a
  have hm : m = memWriteWord (memWriteWord p.mem (a + 12) (toWord o.code)) (a + 24) r := rfl
  have hw1 := wf_memWriteWord p.mem (a + 12) (toWord o.code) hw
  refine ⟨?_, ?_, fun x hx => ?_⟩
  all_goals rw [hm]
  · rw [memWord_memWriteWord_ne _ _ _ _ hw1 (by omega), memWord_memWriteWord_self _ _ _ hw]
  · exact memWord_memWriteWord_self _ _ _ hw1
  · simp only [List.mem_cons, List.not_mem_nil, or_false, forall_eq_or_imp, forall_eq] at hx
    rw [memRead_memWriteWord_ne _ _ _ _ hw1 hx.2, memRead_memWriteWord_ne _ _ _ _ hw hx.1]

/-- A word that shares no byte with those that may have changed reads as before. -/
theorem bytesKept.word {m m' : List Host.Cell} {ws : List Nat} (h : bytesKept m m' ws) {a : Nat}
    (ha : ∀ w ∈ ws, a + 4 ≤ w ∨ w + 4 ≤ a) : memWord m' a = memWord m a :=
  memWord_congr fun o ho => h (a + o) fun w hw => by
    have := ha w hw
    omega

/-- The move of a slot leaves the areas where they lie. -/
theorem Port.slotMoved.areas {p m : Port} {d : Desk} {i : Nat} {state outcome result : Word}
    (h : p.slotMoved m d i state outcome result) : m.areas = p.areas := by
  obtain ⟨-, -, -, -, hrest⟩ := h
  rw [hrest]

/-- The move of a slot leaves the show tick in force. -/
theorem Port.slotMoved.showTick {p m : Port} {d : Desk} {i : Nat} {state outcome result : Word}
    (h : p.slotMoved m d i state outcome result) : m.showTick = p.showTick := by
  obtain ⟨-, -, -, -, hrest⟩ := h
  rw [hrest]

/-- A slot that moved, and behind it the outcome so far of another (R154, R175). -/
theorem Port.slotMoved.provisional {p m : Port} {d : Desk} {i j : Nat} {state outcome result : Word}
    (h : p.slotMoved m d i state outcome result) (hw : Memory.wf m.mem = true) (hij : i ≠ j)
    (o : CardOutcome) (r : Word) :
    p.slotReads (m.provisional d j o r) d i state outcome p.showTick result ∧
    p.deskDone (m.provisional d j o r) d i ∧
    bytesKept p.mem (m.provisional d j o r).mem (p.slotWords d i ++ [p.slotAddr d j + 12, p.slotAddr d j + 24]) := by
  obtain ⟨⟨hstate, houtcome, htick, hresult⟩, -, hmoved, hdone, -⟩ := id h
  obtain ⟨-, -, hkept⟩ := m.provisional_reads d j o r hw
  rw [Port.slotAddr_congr h.areas] at hkept
  have hkeeps : ∀ n, n ≤ 24 → memWord (m.provisional d j o r).mem (p.slotAddr d i + n) =
      memWord m.mem (p.slotAddr d i + n) := fun n hn => hkept.word fun w hw => by
    simp only [List.mem_cons, List.not_mem_nil, or_false] at hw
    unfold Port.slotAddr at hw ⊢
    omega
  exact ⟨⟨(hkeeps 0 (by omega)).trans hstate, (hkeeps 12 (by omega)).trans houtcome,
      (hkeeps 20 (by omega)).trans htick, (hkeeps 24 (by omega)).trans hresult⟩, hdone,
    fun x hx => hmoved.trans hkept x fun w hin => hx w (List.mem_append.mpr (List.mem_append.mp hin).symm)⟩

/-- A card that leaves the queue, its slot finished with its passes completed as result (R154, R160, R161). -/
theorem Blocks.finishCard_eq (b : Blocks) (c : MsgCard) (o : CardOutcome) : b.finishCard c o =
    { b with port := b.port.complete .message c.slot o (toWord c.completed)
             lanes := { b.lanes with queue := b.lanes.queue.filter fun d => d.slot != c.slot } } := rfl

/-- The slot of a card that joins: its outcome so far by whether the card was clamped, and its width (R152). -/
theorem Blocks.hold_eq (b : Blocks) (c : MsgCard) : b.hold c =
    { b with port := b.port.provisional .message c.slot (okOr c.clamped) (toWord c.width)
             lanes := { b.lanes with queue := insertBy (·.cls.rank) c b.lanes.queue } } := rfl

/-- A speed is brought into 16..1,024 (R152). -/
theorem clampSpeed_eq (v : Nat) : clampSpeed v = max 16 (min v 1024) := by
  unfold clampSpeed
  rw [capAt_eq_min]
  split <;> omega

/-- The outcome so far of a card: CLAMPED where its speed was brought into its range (R152). -/
theorem cardOf_outcome (slot : Nat) (post : Word) (q : MessageCue) (w : Nat) :
    toWord (okOr (cardOf slot post q w).clamped).code = if 16 ≤ q.speed ∧ q.speed ≤ 1024 then 0 else 1 := by
  have hin : clampSpeed q.speed = q.speed ↔ 16 ≤ q.speed ∧ q.speed ≤ 1024 := by rw [clampSpeed_eq]; omega
  show toWord (okOr (clampSpeed q.speed != q.speed)).code = _
  by_cases h : 16 ≤ q.speed ∧ q.speed ≤ 1024 <;> simp [bne, hin, h, okOr, CardOutcome.code, toWord]

/-- An expiry tick has not come at a mark (R161). -/
theorem expiryCome_eq_false {tick expiry : Word} :
    expiryCome tick expiry = false ↔ expiry = 0 ∨ 2147483648 ≤ (tick - expiry).toNat := by
  simp [expiryCome, or_iff_not_imp_left]

theorem expiryCome_eq_true {tick expiry : Word} :
    expiryCome tick expiry = true ↔ expiry ≠ 0 ∧ (tick - expiry).toNat < 2147483648 := by
  simp [expiryCome]

/-- Settles O57: `messageOp` by the first check a card fails, and `Blocks.offer` by the room in the queue;
`insertBy_eq_filter` gives the card its place. -/
theorem messageJoinsTheQueue : Obligations.MessageJoinsTheQueue := by
  constructor
  · intro slot post q s hs hcls hmode hhold hlow hhigh hmask hlinked hfirst hlast hwidth hexpiry hsorted joined
    obtain ⟨hlive, hwf, harea⟩ := id hs
    have hfault : messageFault q = none := by
      rw [messageFault_eq, Option.map_eq_none_iff, List.find?_eq_none]
      simp only [messageChecks, List.forall_mem_cons, decide_eq_true_eq]
      exact ⟨by omega, by omega, by omega, by omega, by omega, by omega, by omega, by simp⟩
    have hset : ¬(q.cls = 1 ∧ s.blk.rot.entry q.linked = none) := fun h => (hlinked h.1).2 h.2
    have hoffer := messageOp_offers (slot := slot) (post := post) hfault hset hwidth (expiryCome_eq_false.mpr hexpiry)
    generalize hc : cardOf slot post q (s.port.stringWidth (q.text.take q.length)) = c at hoffer
    have hrank : c.cls.rank = q.cls := by rw [← hc]; exact classOfCode_rank hcls
    have hslot : c.slot = slot := by rw [← hc]; rfl
    subst hslot
    have hjoined : ∀ (p : Port) (queue : List MsgCard) (t : State),
        queue.Pairwise (fun a b => a.cls.rank ≤ b.cls.rank) → Memory.wf p.mem = true → p.areas = s.port.areas →
        t.blk.lanes.queue = insertBy (·.cls.rank) c queue →
        t.port.mem = (p.provisional .message c.slot (okOr c.clamped) (toWord c.width)).mem → joined t queue := by
      intro p queue t hqueue hw hareas hjoins hmem
      obtain ⟨houtcome, hresult, -⟩ := p.provisional_reads .message c.slot (okOr c.clamped) (toWord c.width) hw
      rw [← hmem, Port.slotAddr_congr hareas] at houtcome hresult
      refine ⟨⟨c, ?_, ?_⟩, ?_, ?_⟩
      · rw [hjoins, ← hrank]
        exact insertBy_eq_filter _ c queue hqueue
      · rw [← hc]
        exact ⟨rfl, rfl, classOfCode_rank hcls, rfl, clampSpeed_eq _, rfl, rfl, rfl, rfl, rfl, rfl, rfl, rfl,
          rfl, rfl, rfl⟩
      · rw [houtcome, ← hc, cardOf_outcome]
      · rw [hresult, ← hc]; rfl
    refine ⟨fun hroom => ?_, fun hfull => ⟨fun d hd hhigher hother => ?_, fun hlowest => ?_⟩⟩
    · obtain ⟨-, -, hkept⟩ := s.port.provisional_reads .message c.slot (okOr c.clamped) (toWord c.width) hwf
      rw [Blocks.offer_room hroom, Blocks.hold_eq] at hoffer
      exact ⟨_, State.next_cardBlocks hlive hoffer, hjoined s.port _ _ hsorted hwf rfl rfl rfl, hkept, rfl⟩
    · rw [Blocks.offer_evicts hfull hd (hrank ▸ hhigher), Blocks.finishCard_eq, Blocks.hold_eq] at hoffer
      have hmoved := s.port.complete_slotMoved .message d.slot .evicted (toWord d.completed) hwf harea
      have hwfp := closed_wf.complete s.port .message d.slot .evicted (toWord d.completed) hwf
      generalize s.port.complete .message d.slot .evicted (toWord d.completed) = p at hoffer hmoved hwfp
      obtain ⟨hreads, hdone, hkept⟩ := hmoved.provisional hwfp hother (okOr c.clamped) (toWord c.width)
      exact ⟨_, State.next_cardBlocks hlive hoffer, hjoined p _ _ (hsorted.filter _) hwfp hmoved.areas rfl rfl, hreads,
        hdone, hkept, rfl⟩
    · have hrefused := hoffer.trans (Blocks.offer_full hfull (hrank ▸ hlowest))
      exact ⟨_, rfl, s.refused_onlyMoved .message c.slot .queueFull 48 (fun _ => messageOp c.slot post q) hs
        hrefused⟩
  · intro slot post q s hs checks unset width moved
    have hrefused : ∀ (o : CardOutcome) (r : Word),
        messageOp slot post q s.blk = s.blk.onPort (·.refuse .message slot o r) → moved 5 (toWord o.code) r :=
      fun o r h => ⟨_, rfl, s.refused_onlyMoved .message slot o r (fun _ => messageOp slot post q) hs h⟩
    have hfirst : messageFault q = (checks.find? (·.2)).map (·.1) := messageFault_eq q
    refine ⟨fun k hk => hrefused .badField _ (messageOp_fault (by rw [hfirst, hk]; rfl)), fun hnone => ?_⟩
    have hfault : messageFault q = none := by rw [hfirst, hnone]; rfl
    exact ⟨fun hunset => hrefused .badEntry _ (messageOp_unset hfault hunset),
      fun hset hwide => hrefused .badField 16 (messageOp_wide hfault hset hwide),
      fun hset hwidth hexpiry hcome => ⟨_, rfl, s.completed_onlyMoved .message slot .expired 0
        (fun _ => messageOp slot post q) hs
        (messageOp_expired hfault hset hwidth (expiryCome_eq_true.mpr ⟨hexpiry, hcome⟩))⟩⟩

end Sys2Proof.Machine
end


section
/-! PROOFS. A free lane served (O58). -/

namespace Sys2Proof.Machine

/-- The first WAITING card, not URGENT, whose mask names a lane is the one the lane takes (R157). -/
theorem Lanes.candidate_eq {l : Lanes} {pre post : List MsgCard} {c : MsgCard} {k : Nat}
    (hqueue : l.queue = pre ++ c :: post) (hwaits : c.onAir = false) (hcls : c.cls ≠ .urgent)
    (hmask : c.mask.testBit k = true)
    (hpre : ∀ d ∈ pre, d.onAir = true ∨ d.cls = .urgent ∨ d.mask.testBit k = false) :
    l.candidate k = some c := by
  unfold Lanes.candidate Lanes.waiting
  rw [List.find?_filter, List.find?_eq_some_iff_append]
  exact ⟨by simp [hwaits, hcls, hmask], pre, post, hqueue, fun d hd => by
    obtain h | h | h := hpre d hd <;> simp [h]⟩

/-- A lane is free where no part of a pass is on it. -/
theorem Lanes.passOn_eq_none {l : Lanes} {k : Nat} (h : ∀ p ∈ l.passes, ∀ x ∈ p.parts, x.lane ≠ k) :
    l.passOn k = none :=
  List.find?_eq_none.mpr fun p hp => by simpa using h p hp

/-- A free shown lane takes its card while the urgent state is OFF (R157). -/
theorem Blocks.serveLane_free {b : Blocks} {k w : Nat} {c : MsgCard} (hoff : b.lanes.urgent = none)
    (hfree : b.lanes.passOn k = none) (hw : b.lanes.laneWidth k = some w) (hc : b.lanes.candidate k = some c) :
    b.serveLane k = b.beginPass c [(k, w)] := by
  unfold Blocks.serveLane
  rw [hoff, hfree, hw, hc]
  rfl

/-- A pass that begins: the card on air in its place, its pass behind the others, and the words of its slot (R158). -/
theorem Blocks.beginPass_eq (b : Blocks) (c : MsgCard) (lanes : List (Nat × Nat)) : b.beginPass c lanes =
    { b with
      port := b.port.beginCard c lanes
      lanes := { b.lanes with
        queue := b.lanes.queue.map fun d => if d.slot = c.slot then c.begun lanes else d
        passes := b.lanes.passes ++ [c.begin lanes b.port.showTick] } } := rfl

/-- The part of a pass on a lane: HOLD where the text of a HOLD card fits, else a CRAWL (R158). -/
theorem MsgCard.part_eq (c : MsgCard) (k w : Nat) : c.part k w =
    if c.holdMode = true ∧ c.width ≤ w then ⟨k, true, w, c.holdFrames⟩
    else ⟨k, false, w, ((c.width + w) * 16 + (c.speed - 1)) / c.speed⟩ := by
  have hlength : crawlLength c.width w c.speed = ((c.width + w) * 16 + (c.speed - 1)) / c.speed := by
    unfold crawlLength ceilDiv
    rcases Nat.eq_zero_or_pos c.speed with h | h
    · simp [h]
    · rw [Nat.add_sub_assoc h]
  unfold MsgCard.part
  simp [hlength]

/-- A HOLD card must crawl on one lane where it is narrower than its text (R158). -/
theorem MsgCard.mustCrawl_one (c : MsgCard) (k w : Nat) :
    c.mustCrawl [(k, w)] = (c.holdMode && decide (w < c.width)) := by
  simp [MsgCard.mustCrawl]

/-- Settles O58: the lane takes its card by `Blocks.serveLane_free`, and `Blocks.beginPass_eq` says what its pass
moves. -/
theorem freeLaneTakesTheFirstCard : Obligations.FreeLaneTakesTheFirstCard := by
  intro k w s pre post c hs hoff hfree hw hqueue hwaits hcls hmask hpre crawl slot
  obtain ⟨hlive, hwf, -⟩ := id hs
  have hserved := (Blocks.serveLane_free hoff (Lanes.passOn_eq_none hfree) hw
    (Lanes.candidate_eq hqueue hwaits hcls hmask hpre)).trans (s.blk.beginPass_eq c [(k, w)])
  obtain ⟨hactive, hclamped, hkept, hrest⟩ := s.port.beginCard_reads c [(k, w)] hwf
  have hcrawl : c.mustCrawl [(k, w)] = crawl := c.mustCrawl_one k w
  have hbegun : c.begun [(k, w)] = { c with onAir := true, started := true, clamped := c.clamped || crawl } := by
    rw [← hcrawl]; rfl
  rw [hcrawl] at hclamped hkept
  rw [hbegun] at hserved
  generalize s.port.beginCard c [(k, w)] = p at hserved hactive hclamped hkept hrest
  refine ⟨_, State.next_whenLive hlive hserved, ⟨_, rfl, rfl, rfl, rfl, rfl, rfl, rfl, rfl, ?_⟩, rfl, rfl, hoff,
    hactive, hclamped, hkept, ?_⟩
  · exact congrArg (fun x => [x]) (c.part_eq k w)
  · rw [hrest]; rfl

end Sys2Proof.Machine
end


section
/-! PROOFS. Passes that complete, cards that expire, and the urgent state that ends (O59). -/

namespace Sys2Proof.Machine

/-! ## A pass ended COMPLETE (R160) -/

/-- A pass whose last frame has been drawn. -/
def Pass.drawn (p : Pass) : Pass := { p with index := p.index + 1 }

/-- A card off air again, with one repeat fewer (R160). -/
def MsgCard.again (c : MsgCard) : MsgCard :=
  { c with onAir := false, remaining := c.remaining - 1, completed := c.completed + 1 }

/-- The blocks once a card has left the queue, with the Port and the passes then. -/
def Blocks.cardGone (b : Blocks) (c : MsgCard) (q : Port) (passes : List Pass) : Blocks :=
  { b with port := q, lanes := { b.lanes with queue := b.lanes.queue.filter fun d => d.slot != c.slot, passes } }

/-- The blocks once a pass of a card has ended that has passes to come, with the Port then. -/
def Blocks.cardWaits (b : Blocks) (c : MsgCard) (q : Port) : Blocks :=
  { b with port := q
           lanes := { b.lanes with
             queue := b.lanes.queue.map fun d => if d.slot = c.slot then c.again else d
             passes := b.lanes.passes.filter fun r => r.slot != c.slot } }

/-- A card replaced and then replaced again is as if the first had not been. -/
theorem map_replaced_again (l : List MsgCard) {a c : MsgCard} (h : a.slot = c.slot) (e : MsgCard) :
    ((l.map fun d => if d.slot = c.slot then a else d).map fun d => if d.slot = c.slot then e else d) =
      l.map fun d => if d.slot = c.slot then e else d := by
  rw [List.map_map]
  refine List.map_congr_left fun d _ => ?_
  by_cases hd : d.slot = c.slot <;> simp [hd, h]

section CompletePass

variable (b : Blocks) {c : MsgCard} {p : Pass} (hslot : c.slot = p.slot)
include hslot

/-- At its last repeat the card leaves the queue, its slot finished with its outcome so far (R160). -/
theorem Blocks.completePass_last (h : c.remaining ≤ 1) : b.completePass c p = b.cardGone c
    ((b.endPass c p .complete).port.complete .message c.slot (okOr c.clamped) (toWord (c.completed + 1)))
    (b.lanes.passes.filter fun r => r.slot != c.slot) := by
  have hzero : c.remaining - 1 = 0 := by omega
  unfold Blocks.cardGone
  rw [← filter_map_replaced b.lanes.queue c, hslot]
  unfold Blocks.completePass
  dsimp only
  rw [if_pos hzero, Blocks.finishCard_eq, b.endPass_eq, ← hslot]
  rfl

/-- Before its last repeat the card waits again in its place (R160). -/
theorem Blocks.completePass_again (h : 2 ≤ c.remaining) :
    b.completePass c p = b.cardWaits c (b.endPass c p .complete).port := by
  have hmore : c.remaining - 1 ≠ 0 := by omega
  unfold Blocks.cardWaits
  rw [← map_replaced_again b.lanes.queue c.offAir_slot]
  unfold Blocks.completePass
  dsimp only
  rw [if_neg hmore, b.endPass_eq, ← hslot]
  rfl

end CompletePass

/-! ## Stages 3 and 4 of a mark's work, where no expiry has come and no URGENT card is held (R161, R164) -/

/-- No card leaves the queue where no expiry has come (R161). -/
theorem Blocks.expireCards_none {b : Blocks} (h : ∀ d ∈ b.lanes.queue, expiryCome b.port.showTick d.expiry = false) :
    b.expireCards = b := by
  have hone : ∀ i, b.expireCard i = b := fun i => by
    unfold Blocks.expireCard
    cases hc : b.lanes.card i with
    | none => rfl
    | some c => exact if_neg (by simp [h c (Lanes.card_mem hc).1])
  exact List.foldl_fixed' hone _

section UrgentStage

variable {b : Blocks} (h : ∀ d ∈ b.lanes.queue, d.cls ≠ .urgent)
include h

/-- With no URGENT card held none takes over, and the urgent state turns OFF where it is ON (R162, R164). -/
theorem Blocks.urgentStage_noUrgent : b.urgentStage = b.urgentOff := by
  have htaker : b.lanes.taker = none := by
    unfold Lanes.taker
    split
    · rfl
    · refine Option.filter_eq_none_iff.mpr fun c hc => ?_
      have hmem := List.mem_of_mem_filter (List.mem_of_mem_head? hc)
      simpa using h c hmem
  unfold Blocks.urgentStage
  rw [htaker]

theorem Blocks.urgentStage_off (hoff : b.lanes.urgent = none) : b.urgentStage = b := by
  rw [Blocks.urgentStage_noUrgent h]
  unfold Blocks.urgentOff
  rw [hoff]

theorem Blocks.urgentStage_ends {tick : Word} (hon : b.lanes.urgent = some tick) : b.urgentStage =
    { b with
      lanes := { b.lanes with urgent := none }
      comp := b.comp.endYield
      port := b.port.notice .urgentOff 0 (b.port.showTick - tick) } := by
  have hany : (b.lanes.queue.any fun c => c.cls == .urgent) = false :=
    List.any_eq_false.mpr fun d hd => by simpa using h d hd
  rw [Blocks.urgentStage_noUrgent h]
  unfold Blocks.urgentOff
  rw [hon]
  dsimp only
  rw [hany]
  rfl

end UrgentStage

section CardGone

variable {b : Blocks} {c : MsgCard} {q : Port} {passes : List Pass}

/-- A card leaves a queue that holds no URGENT card, the urgent state OFF: stage 4 does nothing. -/
theorem Blocks.cardGone_off (h : ∀ d ∈ b.lanes.queue, d.cls ≠ .urgent) (hoff : b.lanes.urgent = none) :
    (b.cardGone c q passes).urgentStage = b.cardGone c q passes :=
  Blocks.urgentStage_off (fun d hd => h d (List.mem_of_mem_filter hd)) hoff

/-- The last URGENT card held leaves the queue: the urgent state turns OFF (R28, R164). -/
theorem Blocks.cardGone_lastUrgent {tick : Word} (h : ∀ d ∈ b.lanes.queue, d.slot ≠ c.slot → d.cls ≠ .urgent)
    (hon : b.lanes.urgent = some tick) : (b.cardGone c q passes).urgentStage =
      { b.cardGone c (q.notice .urgentOff 0 (q.showTick - tick)) passes with
        lanes := { (b.cardGone c q passes).lanes with urgent := none }, comp := b.comp.endYield } := by
  have hothers : ∀ d ∈ (b.cardGone c q passes).lanes.queue, d.cls ≠ .urgent := fun d hd => by
    obtain ⟨hd, hslot⟩ := List.mem_filter.mp hd
    exact h d hd (by simpa using hslot)
  exact Blocks.urgentStage_ends hothers hon

end CardGone

/-! ## The rows by themselves (log entry 13) -/

/-- On a live part a board step leaves the blocks that it makes, with the visible areas recomputed (R51). -/
theorem State.next_boardBlocks {s : State} (hl : s.part.live = true) {f : Blocks → Blocks} {x : Blocks}
    (hf : f s.blk = x) : (.next (s.onPart (·.boardStep f)) : Answer) =
      .next (s.onPart (·.onBlk fun _ => x.measure s.part.sec.states)) := by
  rw [State.next_boardStep hl f, ← hf]
  rfl

section LastFrame

variable {b : Blocks} {lane : Nat} {p : Pass} {c : MsgCard} (hpass : b.lanes.passOn lane = some p)
  (hcard : b.lanes.card p.slot = some c) (hlast : p.length ≤ p.index + 1)
include hpass hcard hlast

/-- The pass on a lane that has begun its last frame ends COMPLETE, and stages 3 and 4 follow (R160). -/
theorem Blocks.passEnds_last : b.passEnds lane = (b.completePass c p.drawn).expireCards.urgentStage := by
  have hends : b.applyJudgement (some .complete, p.drawn) = b.completePass c p.drawn := by
    unfold Blocks.applyJudgement
    rw [show b.lanes.card p.drawn.slot = some c from hcard]
  unfold Blocks.passEnds
  rw [hpass, ← hends]
  exact if_pos hlast

variable (hexpiry : ∀ d ∈ b.lanes.queue, expiryCome b.port.showTick d.expiry = false)
include hexpiry

/-- The last pass of a card, where no expiry has come: the card leaves the queue, and stage 4 follows (R160). -/
theorem Blocks.passEnds_lastRepeat (h : c.remaining ≤ 1) : b.passEnds lane = (b.cardGone c
    ((b.endPass c p.drawn .complete).port.complete .message c.slot (okOr c.clamped) (toWord (c.completed + 1)))
    (b.lanes.passes.filter fun r => r.slot != c.slot)).urgentStage := by
  obtain ⟨-, hslot⟩ := Lanes.card_mem hcard
  have hgone := b.completePass_last (p := p.drawn) hslot h
  obtain ⟨-, -, htick, -⟩ := (closed_sameFixed b.port).completePass b c p.drawn b.port.sameFixed_refl
  rw [Blocks.passEnds_last hpass hcard hlast, Blocks.expireCards_none, hgone]
  intro d hd
  rw [hgone] at hd
  rw [htick]
  exact hexpiry d (List.mem_of_mem_filter hd)

/-- Another pass of a card, where no expiry has come: the card waits again, and stage 4 follows (R160). -/
theorem Blocks.passEnds_again (h : 2 ≤ c.remaining) :
    b.passEnds lane = (b.cardWaits c (b.endPass c p.drawn .complete).port).urgentStage := by
  obtain ⟨hmem, hslot⟩ := Lanes.card_mem hcard
  have hwaits := b.completePass_again (p := p.drawn) hslot h
  obtain ⟨-, -, htick, -⟩ := (closed_sameFixed b.port).completePass b c p.drawn b.port.sameFixed_refl
  rw [Blocks.passEnds_last hpass hcard hlast, Blocks.expireCards_none, hwaits]
  intro d hd
  rw [hwaits] at hd
  obtain ⟨e, he, rfl⟩ := List.mem_map.mp hd
  rw [htick]
  split
  · exact hexpiry c hmem
  · exact hexpiry e he

end LastFrame

/-- A WAITING card whose expiry has come goes, and stage 4 follows (R161). -/
theorem Blocks.messageExpires_due {b : Blocks} {c : MsgCard} (hcard : b.lanes.card c.slot = some c)
    (hwaits : c.onAir = false) (hcome : expiryCome b.port.showTick c.expiry = true) : b.messageExpires c.slot =
      (b.cardGone c (b.port.complete .message c.slot .expired (toWord c.completed)) b.lanes.passes).urgentStage := by
  have hdue : (!c.onAir && expiryCome b.port.showTick c.expiry) = true := by simp [hwaits, hcome]
  unfold Blocks.messageExpires Blocks.expireCard
  rw [hcard]
  dsimp only
  rw [if_pos hdue, if_pos hdue, Blocks.finishCard_eq]
  rfl

/-- The pass of a card that ends by itself while no URGENT card is held, by the Port `r` that its record leaves: at its
last repeat the card leaves the queue, else it waits again (R160). -/
theorem State.passComplete_quiet {s : State} {lane : Nat} {p : Pass} {c : MsgCard} {r : Port}
    (hlive : s.part.live = true) (hoff : s.blk.lanes.urgent = none) (hcls : ∀ d ∈ s.blk.lanes.queue, d.cls ≠ .urgent)
    (hpass : s.blk.lanes.passOn lane = some p) (hcard : s.blk.lanes.card p.slot = some c)
    (hlast : p.length ≤ p.index + 1)
    (hexpiry : ∀ d ∈ s.blk.lanes.queue, d.expiry = 0 ∨ 2147483648 ≤ (s.port.showTick - d.expiry).toNat)
    (hr : (s.blk.endPass c p.drawn .complete).port = r) (hw : Memory.wf r.mem = true)
    (ha : 2 ≤ (r.area (deskIndex .message)).first) :
    ∃ t, exec (.passComplete lane) s = .next t ∧
      t.blk.lanes.passes = (s.blk.lanes.passes.filter fun x => x.slot != c.slot) ∧
      (c.remaining ≤ 1 →
        t.blk.lanes.queue = (s.blk.lanes.queue.filter fun d => d.slot != c.slot) ∧
        r.slotMoved t.port .message c.slot 4 (if c.clamped then 1 else 0) (toWord (c.completed + 1))) ∧
      (2 ≤ c.remaining →
        t.blk.lanes.queue = (s.blk.lanes.queue.map fun d => if d.slot = c.slot then c.again else d) ∧ t.port = r) ∧
      t = s.onPart (·.onBlk fun b =>
        { b with port := t.port, measures := t.blk.measures
                 lanes := { b.lanes with queue := t.blk.lanes.queue, passes := t.blk.lanes.passes } }) := by
  obtain ⟨hmem, -⟩ := Lanes.card_mem hcard
  have hcome : ∀ d ∈ s.blk.lanes.queue, expiryCome s.port.showTick d.expiry = false := fun d hd =>
    expiryCome_eq_false.mpr (hexpiry d hd)
  rcases Nat.lt_or_ge c.remaining 2 with hrem | hrem
  · have hends := Blocks.passEnds_lastRepeat hpass hcard hlast hcome (by omega)
    have hmoved := r.complete_slotMoved .message c.slot (okOr c.clamped) (toWord (c.completed + 1)) hw ha
    rw [okOr_code] at hmoved
    rw [hr, Blocks.cardGone_off hcls hoff] at hends
    exact ⟨_, State.next_boardBlocks hlive hends, rfl, fun _ => ⟨rfl, hmoved⟩, fun h => absurd h (by omega), rfl⟩
  · have hends := Blocks.passEnds_again hpass hcard hlast hcome hrem
    have hstill : ∀ d ∈ (s.blk.cardWaits c r).lanes.queue, d.cls ≠ .urgent := fun d hd => by
      obtain ⟨e, he, rfl⟩ := List.mem_map.mp hd
      split
      · exact hcls c hmem
      · exact hcls e he
    rw [hr, Blocks.urgentStage_off hstill hoff] at hends
    exact ⟨_, State.next_boardBlocks hlive hends, rfl, fun h => absurd h (by omega), fun _ => ⟨rfl, rfl⟩, rfl⟩

/-- Settles O59: a pass that completes by `Blocks.passEnds_lastRepeat` and `Blocks.passEnds_again`, a card that expires
by `Blocks.messageExpires_due`, and the end of the urgent state by `Blocks.urgentStage_ends`. -/
theorem passesCompleteAndCardsExpire : Obligations.PassesCompleteAndCardsExpire := by
  constructor
  · intro s c hs hoff hcls
    obtain ⟨hlive, hwf, harea⟩ := id hs
    refine ⟨fun lane p hpass hcard hplain hlast hexpiry => ?_,
      fun lane p x hpass hparts hcard hsponsored hlast hexpiry hlog hnotices => ?_,
      fun hcard hwaits hexpiry hcome => ?_⟩
    · have hport : (s.blk.endPass c p.drawn .complete).port = s.port := by
        rw [Blocks.endPass_eq, if_neg hplain]
      exact State.passComplete_quiet hlive hoff hcls hpass hcard hlast hexpiry hport hwf harea
    · have hport : (s.blk.endPass c p.drawn .complete).port =
          s.port.log (passRecord c p.drawn .complete s.port.showTick) := by rw [Blocks.endPass_eq, if_pos hsponsored]
      have hlane : p.drawn.lane = lane := by
        have hon := List.find?_some hpass
        rw [hparts] at hon
        show ((p.parts.map (·.lane)).head?).getD 0 = lane
        simpa [hparts] using hon
      obtain ⟨t, ht, hrest⟩ := State.passComplete_quiet hlive hoff hcls hpass hcard hlast hexpiry hport
        (closed_wf.log _ _ hwf)
        (by rw [((closed_sameFixed s.port).log _ _ s.port.sameFixed_refl).area]; exact harea)
      refine ⟨t, _, ht, ?_, hrest⟩
      rw [← hlane]
      exact s.port.log_recordTaken _ hwf hlog hnotices
    · have hends := Blocks.messageExpires_due hcard hwaits (expiryCome_eq_true.mpr ⟨hexpiry, hcome⟩)
      rw [Blocks.cardGone_off hcls hoff] at hends
      exact ⟨_, State.next_boardBlocks hlive hends, rfl,
        s.port.complete_slotMoved .message c.slot .expired _ hwf harea, rfl⟩
  · intro s c tick hs hon hcard hurgent hothers hnotices ends
    obtain ⟨hlive, hwf, harea⟩ := id hs
    have hends : ∀ (o : CardOutcome) (r : Word) (passes : List Pass),
        let x := (s.blk.cardGone c (s.port.complete .message c.slot o r) passes).urgentStage
        let t := s.onPart (·.onBlk fun _ => x.measure s.part.sec.states)
        ends t (toWord o.code) r ∧ t.blk.lanes.passes = passes := by
      intro o r passes
      have hmoved := s.port.complete_slotMoved .message c.slot o r hwf harea
      have hwfm := closed_wf.complete s.port .message c.slot o r hwf
      rw [Blocks.cardGone_lastUrgent hothers hon]
      generalize s.port.complete .message c.slot o r = m at hmoved hwfm
      rw [hmoved.showTick]
      have hclear : 2 ≤ (m.area 8).first := by unfold Port.area; rw [hmoved.areas]; exact hnotices
      exact ⟨⟨rfl, rfl, rfl, ⟨m, hmoved, m.notice_noticeTaken .urgentOff 0 _ hwfm hclear⟩, rfl⟩, rfl⟩
    refine ⟨fun lane p hpass hslot hlast hrem hexpiry => ?_, fun hwaits hexpiry hcome => ?_⟩
    · have hport : (s.blk.endPass c p.drawn .complete).port = s.port := by
        rw [Blocks.endPass_eq, if_neg (by simp [hurgent])]
      have hstep := Blocks.passEnds_lastRepeat hpass (hslot.symm ▸ hcard) hlast
        (fun d hd => expiryCome_eq_false.mpr (hexpiry d hd)) hrem
      rw [hport] at hstep
      have hdone := hends (okOr c.clamped) (toWord (c.completed + 1))
        (s.blk.lanes.passes.filter fun r => r.slot != c.slot)
      rw [okOr_code] at hdone
      exact ⟨_, State.next_boardBlocks hlive hstep, hdone⟩
    · have hstep := Blocks.messageExpires_due hcard hwaits (expiryCome_eq_true.mpr ⟨hexpiry, hcome⟩)
      exact ⟨_, State.next_boardBlocks hlive hstep, hends .expired (toWord c.completed) s.blk.lanes.passes⟩

end Sys2Proof.Machine
end


section
/-! PROOFS. What every command keeps of the Port: Show Memory's canonical form and the layout in force (O7, O8). -/

namespace Sys2Proof.Machine

/-! ## The shapes of a command, for a property that the small changes keep -/

namespace Port.Closed

variable {P : Port → Prop} (h : Port.Closed P)
include h

theorem whenLive {f : Part → Part} {s : Part} (hf : P s.blk.port → P (f s).blk.port) (hp : P s.blk.port) :
    P (s.whenLive f).blk.port := by
  have _ := h
  unfold Part.whenLive
  split
  · exact hf hp
  · exact hp

/-- A card of the blocks, or a step of theirs after which nothing is measured (R176). -/
theorem card {f : Blocks → Blocks} (hf : ∀ b, P b.port → P (f b).port) (s : Part) (hp : P s.blk.port) :
    P (s.card f).blk.port := h.whenLive (hf _) hp

theorem boardStep {f : Blocks → Blocks} (hf : ∀ b, P b.port → P (f b).port) (s : Part) (hp : P s.blk.port) :
    P (s.boardStep f).blk.port := h.whenLive (f := fun s => s.onBlk fun b => (f b).measure s.sec.states) (hf _) hp

theorem clockCard {f : ClockPort → ClockPort} (hf : ∀ x, P x.2 → P (f x).2) (s : Part) (hp : P s.blk.port) :
    P (s.clockCard f).blk.port := h.whenLive (f := (·.onClock f)) (hf (_, _)) hp

theorem afterTime (dt : Nat) {f : Part → Part} (hf : ∀ s, P s.blk.port → P (f s).blk.port) (s : Part)
    (hp : P s.blk.port) : P (s.afterTime dt f).blk.port := by
  have htime := h.elapse dt s hp
  unfold Part.afterTime
  dsimp only
  split
  · exact hf _ htime
  · exact htime

theorem onLine (dt : Nat) {f : ClockPort → ClockPort} (hf : ∀ x, P x.2 → P (f x).2) (s : Part) (hp : P s.blk.port) :
    P (s.onLine dt f).blk.port := h.afterTime dt (f := (·.onClock f)) (fun s => hf (s.clk, s.blk.port)) s hp

theorem onTick (due : ClockUnit → Bool) {f : ClockPort → ClockPort} (hf : ∀ x, P x.2 → P (f x).2) (s : Part)
    (hp : P s.blk.port) : P (s.onTick due f).blk.port := by
  have _ := h
  unfold Part.onTick
  split
  · exact hf (_, _) hp
  · exact hp

/-! ## Time, the line, the cameras and the sections -/

theorem discardByte (dt : Nat) (b : Byte) (ok : Bool) (s : Part) (hp : P s.blk.port) :
    P (s.discardByte dt b ok).blk.port :=
  h.afterTime dt (fun t ht => by
    split
    · exact h.receiveByte b ok (t.clk, t.blk.port) ht
    · exact ht) s hp

theorem expireGap (s : Part) (hp : P s.blk.port) : P s.expireGap.blk.port := by
  unfold Part.expireGap
  split
  · exact h.elapse _ _ hp
  · exact hp

theorem arrival (dt i : Nat) (conforming : Bool) (x : Picture) (s : Part) (hp : P s.blk.port) :
    P (s.arrival dt i conforming x).blk.port :=
  h.afterTime dt (f := (·.takeFrame i conforming x)) (fun t => h.arrive t.blk i _ conforming x) s hp

theorem arrivalWhen (cond : Blocks → Bool) (dt i : Nat) (x : Picture) (s : Part) (hp : P s.blk.port) :
    P (s.arrivalWhen cond dt i x).blk.port :=
  h.afterTime dt (fun t ht => by
    split
    · exact h.arrive t.blk i _ true x ht
    · exact ht) s hp

theorem expireSilence (i : Nat) (s : Part) (hp : P s.blk.port) : P (s.expireSilence i).blk.port := by
  unfold Part.expireSilence
  split
  · exact hp
  · exact h.elapse _ _ hp

theorem loseSignal (i : Nat) (cause : SignalLoss) (s : Part) (hp : P s.blk.port) :
    P (s.loseSignal i cause).blk.port := by
  cases cause with
  | timer =>
    unfold Part.loseSignal
    dsimp only
    split
    · exact h.expireSilence i s hp
    · exact hp
  | receiver dt => exact h.afterTime dt (f := (·.onBlk (·.onInput i Input.loseSignal))) (fun _ ht => ht) s hp

theorem msTick (silenceFirst : Bool) (s : Part) (hp : P s.blk.port) : P (s.msTick silenceFirst).blk.port := by
  unfold Part.msTick
  split
  · exact h.clockTick silenceFirst (_, _) (h.elapse _ _ hp)
  · exact hp

theorem housePulse (dt : Nat) (s : Part) (hp : P s.blk.port) : P (s.housePulse dt).blk.port := by
  have htime := h.elapse dt s.referencePresent hp
  unfold Part.housePulse
  dsimp only
  split
  · exact h.examinePulse (_, _) htime
  · exact htime

theorem expireSync (s : Part) (hp : P s.blk.port) : P s.expireSync.blk.port := by
  unfold Part.expireSync
  split
  · exact hp
  · exact h.elapse _ s.referencePresent hp

theorem turnSegment (g : Nat) (s : Part) (hp : P s.blk.port) : P (s.turnSegment g).blk.port := by
  unfold Part.turnSegment
  split
  · exact h.settleStates { s with sec := s.sec.countSegment g } hp
  · exact hp

end Port.Closed

/-! ## A property of the Port that every command keeps -/

/-- A property of the Port that the part's own small changes keep, and with them the changes that a mark, the host and a
reset make besides: the show tick, the attempt at entry and the show stop; the RUN request, CAUSE_MASK and the fault page;
the resets, and Show Memory's contents at power-on (R11, R12, R172, R182, R184, R186 to R188, R192). -/
structure Port.Lasting (P : Port → Prop) : Prop extends Port.Closed P where
  showTick : ∀ p n, P p → P { p with showTick := n }
  attempt : ∀ p, P p → P p.attempt
  stopShow : ∀ p, P p → P p.stopShow
  runRequest : ∀ p x, P p → P { p with runRequest := x }
  setMask : ∀ p v, P p → P (p.setMask v)
  faultPage : ∀ p n, P p → P { p with faultPage := n }
  reset : ∀ p, P p → P p.reset
  hardReset : ∀ p, P p → P p.hardReset
  contents : ∀ p cs, P p → P { p with mem := memOfCells cs }

namespace Port.Lasting

variable {P : Port → Prop} (h : Port.Lasting P)
include h

/-! ### The frame mark (R11) -/

theorem stop (b : Blocks) (hp : P b.port) : P b.stop.port := h.stopShow _ (h.stopOwners b hp)

theorem advanceTick (p : Port) (hp : P p) : P p.advanceTick := h.pokePart _ _ _ (h.showTick _ _ hp)

theorem sampleRun (m : MarkInput) (s : Part) (hp : P s.blk.port) : P (s.sampleRun m).blk.port := by
  unfold Part.sampleRun
  dsimp only
  split
  · split
    · exact h.showWork m false _ (h.advanceTick _ hp)
    · exact h.idleWork _ (h.stop _ hp)
  · split
    · have hattempt := h.attempt _ hp
      split
      · exact h.showWork m true _ hattempt
      · exact h.idleWork _ hattempt
    · exact h.idleWork _ hp

theorem mark (first : Bool) (m : MarkInput) (s : Part) (hp : P s.blk.port) : P (s.mark first m).blk.port := by
  rw [s.mark_eq]
  exact h.closeMark _ (h.sampleRun m (s.opened first) hp)

theorem frameMark (m : MarkInput) (s : Part) (hp : P s.blk.port) : P (s.frameMark m).blk.port := by
  unfold Part.frameMark
  split
  · exact h.mark false m _ (h.elapse _ _ hp)
  · exact hp

theorem lockSynthesiser (dt : Nat) (m : MarkInput) (s : Part) (hp : P s.blk.port) :
    P (s.lockSynthesiser dt m).blk.port := by
  unfold Part.lockSynthesiser
  split
  · exact hp
  · exact h.mark true m _ (h.elapse dt s.referencePresent hp)

/-! ### The host and the resets -/

theorem clearLatches (p : Port) (v : Word) (hp : P p) : P (p.clearLatches v) := by
  have hset := fun l => h.setLatches p l hp
  unfold Port.clearLatches
  dsimp only
  split
  · exact h.faultPage _ _ (hset _)
  · exact hset _

theorem performWrite (p : Port) (w : HostWrite) (hp : P p) : P (p.performWrite w) := by
  have hmem : P { p with mem := memHostWrite p.mem w } := by
    cases w with
    | word i v => exact h.word p p.mem _ v hp
    | byte a v => exact h.write p p.mem _ v hp
  unfold Port.performWrite
  dsimp only
  split
  · exact h.evalConditions _ hmem
  · exact hmem

theorem faultWrite (p : Port) (page : Nat) (hp : P p) : P (p.faultWrite page) := by
  unfold Port.faultWrite
  split
  · exact hp
  · exact h.setLatches _ _ (h.faultPage _ _ hp)

theorem hostWrite (p : Port) (w : HostWrite) (hp : P p) : P (p.hostWrite w) := by
  unfold Port.hostWrite
  dsimp only
  split
  · exact h.faultWrite _ _ hp
  · exact h.performWrite _ _ hp

theorem powerOn (rate : Rate) (genlock : Bool) (cs : List Host.Cell) (s : Part) (hp : P s.blk.port) :
    P (s.powerOn rate genlock cs).blk.port :=
  h.word _ _ _ _ (h.contents _ cs (h.hardReset _ hp))

/-! ### Every command -/

theorem exec (c : Instr) (s : State) (hp : P s.port) : ∃ t, Machine.exec c s = .next t ∧ P t.port := by
  cases c with
  | powerOn f1 f0 g cs => exact ⟨_, rfl, h.powerOn _ g cs s.part hp⟩
  | hardReset => exact ⟨_, rfl, h.hardReset _ hp⟩
  | softReset => exact ⟨_, rfl, h.reset _ hp⟩
  | run b => exact ⟨_, rfl, h.runRequest _ b hp⟩
  | causeWrite v => exact ⟨_, rfl, h.clearLatches _ v hp⟩
  | causeMaskWrite v => exact ⟨_, rfl, h.setMask _ v hp⟩
  | hostWrite w => exact ⟨_, rfl, h.hostWrite _ w hp⟩
  | registerWriteOther | healthReport => exact ⟨_, rfl, hp⟩
  | referenceLost dt => exact ⟨_, rfl, h.elapse dt s.part hp⟩
  | synthesiserLock dt m => exact ⟨_, rfl, h.lockSynthesiser dt m s.part hp⟩
  | frameMark m => exact ⟨_, rfl, h.frameMark m s.part hp⟩
  | msTick first => exact ⟨_, rfl, h.msTick first s.part hp⟩
  | houseSyncPulse reference dt =>
    cases reference with
    | false => exact ⟨_, rfl, hp⟩
    | true => exact ⟨_, rfl, h.housePulse dt s.part hp⟩
  | syncLossExpiry => exact ⟨_, rfl, h.expireSync s.part hp⟩
  | segmentHealthChange g => exact ⟨_, rfl, h.turnSegment g s.part hp⟩
  | frameArrival dt i f => exact ⟨_, rfl, h.arrival dt i _ _ s.part hp⟩
  | captureResume dt i | numbersExhausted dt i | openClipClose dt i =>
    exact ⟨_, rfl, h.arrivalWhen _ dt _ _ s.part hp⟩
  | lossOfSignal i cause => exact ⟨_, rfl, h.loseSignal i cause s.part hp⟩
  | clockWord dt i run v => exact ⟨_, rfl, h.onLine dt (h.clockWordOp i run _) s.part hp⟩
  | hornWord dt n => exact ⟨_, rfl, h.onLine dt (h.hornWordOp _) s.part hp⟩
  | periodWord dt n => exact ⟨_, rfl, h.onLine dt (h.periodWordOp _) s.part hp⟩
  | consoleByte dt b ok => exact ⟨_, rfl, h.onLine dt (h.receiveByte b ok) s.part hp⟩
  | wordDiscard dt b ok => exact ⟨_, rfl, h.discardByte dt b ok s.part hp⟩
  | interByteGap => exact ⟨_, rfl, h.expireGap s.part hp⟩
  | consoleSilenceExpiry => exact ⟨_, rfl, h.onTick _ h.silenceTick s.part hp⟩
  | clockExpiry i | clockLimitReached i => exact ⟨_, rfl, h.onTick _ (h.countClock i) s.part hp⟩
  | hornRelease => exact ⟨_, rfl, h.onTick _ (f := fun x => (hornTick x.1, x.2)) (fun _ hx => hx) s.part hp⟩
  | flashEnd side =>
    exact ⟨_, rfl, h.onTick _ (f := fun x => ({ x.1 with score := x.1.score.endFlash side }, x.2)) (fun _ hx => hx)
      s.part hp⟩
  | fadeEnd zone => exact ⟨_, rfl, h.boardStep (f := (·.onComp (·.endFadeOf zone))) (fun _ hb => hb) s.part hp⟩
  | adoption => exact ⟨_, rfl, h.boardStep h.adoptAlone s.part hp⟩
  | passComplete lane => exact ⟨_, rfl, h.boardStep (h.passEnds lane) s.part hp⟩
  | messageExpiry slot => exact ⟨_, rfl, h.boardStep (h.messageExpires slot) s.part hp⟩
  | urgentTakeover => exact ⟨_, rfl, h.boardStep h.takeover s.part hp⟩
  | showZone slot post q =>
    exact ⟨_, rfl, h.boardStep (f := fun b => (showZoneOp slot q b).onComp Compositor.settleFades) (h.showZoneOp slot q)
      s.part hp⟩
  | hideZone slot post q =>
    exact ⟨_, rfl, h.boardStep (f := fun b => (hideZoneOp slot q b).onComp Compositor.settleFades) (h.hideZoneOp slot q)
      s.part hp⟩
  | dwellComplete zone | holdLimit zone => exact ⟨_, rfl, h.card (fun b => h.endDue b _ zone) s.part hp⟩
  | loadComplete => exact ⟨_, rfl, h.card h.finishLoad s.part hp⟩
  | laneAssignment lane => exact ⟨_, rfl, h.card (fun b => h.serveLane b lane) s.part hp⟩
  | clipExpiry clip => exact ⟨_, rfl, h.card (h.expireClip clip) s.part hp⟩
  | setSection slot post q => exact ⟨_, rfl, h.whenLive (h.setSection slot q s.part) hp⟩
  | postPlan slot post q => exact ⟨_, rfl, h.card (h.postPlanOp slot post q) s.part hp⟩
  | setInput slot post q => exact ⟨_, rfl, h.card (h.setInputOp _ slot q) s.part hp⟩
  | markClip slot post q => exact ⟨_, rfl, h.card (h.markClipOp slot post q) s.part hp⟩
  | keepClip slot post q => exact ⟨_, rfl, h.card (h.keepClipOp slot q) s.part hp⟩
  | dropClip slot post q => exact ⟨_, rfl, h.card (h.dropClipOp slot q) s.part hp⟩
  | cueHead slot post q => exact ⟨_, rfl, h.card (h.cueHeadOp slot q) s.part hp⟩
  | play slot post q => exact ⟨_, rfl, h.card (h.playOp slot q) s.part hp⟩
  | setRate slot post q => exact ⟨_, rfl, h.card (h.setRateOp slot q) s.part hp⟩
  | pause slot post head => exact ⟨_, rfl, h.card (h.pauseOp slot head) s.part hp⟩
  | stopHead slot post head => exact ⟨_, rfl, h.card (h.stopHeadOp slot head) s.part hp⟩
  | setGroup slot post q => exact ⟨_, rfl, h.card (h.setGroupOp slot q) s.part hp⟩
  | setEntry slot post q => exact ⟨_, rfl, h.card (h.setEntryOp slot q) s.part hp⟩
  | dropEntry slot post e => exact ⟨_, rfl, h.card (h.dropEntryOp slot e) s.part hp⟩
  | loadImage slot post q => exact ⟨_, rfl, h.card (h.loadImageOp slot q) s.part hp⟩
  | message slot post q => exact ⟨_, rfl, h.card (h.messageOp slot post q) s.part hp⟩
  | clockSetup slot post q => exact ⟨_, rfl, h.clockCard (h.clockSetupOp slot q) s.part hp⟩
  | clockSet slot post q => exact ⟨_, rfl, h.clockCard (h.clockSetOp slot q) s.part hp⟩
  | clockRun slot post n => exact ⟨_, rfl, h.clockCard (h.clockRunOp slot n) s.part hp⟩
  | clockStop slot post n => exact ⟨_, rfl, h.clockCard (h.clockStopOp slot n) s.part hp⟩
  | score slot post q => exact ⟨_, rfl, h.clockCard (h.scoreOp slot q) s.part hp⟩

/-- A step is a command of `Port.Lasting.exec` on the rest of the queue, or nothing. -/
theorem kept : Kept fun s => P s.port := by
  intro s t hp hstep
  unfold step at hstep
  split at hstep
  · cases hstep; exact hp
  · next c rest _ =>
    obtain ⟨u, hu, hkept⟩ := h.exec c { s with pending := rest } hp
    rw [hu] at hstep
    cases hstep
    exact hkept

end Port.Lasting

/-! ## Show Memory's canonical form -/

/-- An attempt at entry keeps it, whether the record passes or fails (R172, R173). -/
theorem Port.attempt_wf (p : Port) (h : Memory.wf p.mem = true) : Memory.wf p.attempt.mem = true := by
  unfold Port.attempt
  dsimp only
  split
  · next hok => exact (p.enter_through _ hok h).2.1
  · exact (congrArg Memory.wf (Port.setLatches_mem _ _)).trans h

/-- Power-on puts whatever Show Memory holds into the form; a reset and a show stop write nothing to it (R187, R188). -/
theorem lasting_wf : Port.Lasting fun p => Memory.wf p.mem = true where
  toClosed := closed_wf
  showTick _ _ hp := hp
  attempt := Port.attempt_wf
  stopShow _ hp := hp
  runRequest _ _ hp := hp
  setMask _ _ hp := (congrArg Memory.wf (Port.settle_mem _)).trans hp
  faultPage _ _ hp := hp
  reset p hp := by rw [p.reset_eq]; exact hp
  hardReset p hp := by unfold Port.hardReset; rw [p.reset_eq]; exact hp
  contents _ cs _ := wf_memOfCells cs

/-- Settles O7. -/
theorem showMemoryStaysCanonical : Obligations.ShowMemoryStaysCanonical := lasting_wf.kept

/-! ## The layout in force (R172, R173) -/

/-- The run state and the layout alone decide whether it is sound. -/
theorem Port.layoutSound.of_layout {p q : Port} (h : p.layoutSound) (hstate : q.runState = p.runState)
    (hareas : q.areas = p.areas) (hsizes : q.sizes = p.sizes) (hthresholds : q.thresholds = p.thresholds) :
    q.layoutSound := by
  unfold Port.layoutSound
  rw [hstate, hareas, hsizes, hthresholds]
  exact h

/-- In CONFIG nothing is asked of it. -/
theorem Port.layoutSound_of_config {p : Port} (h : p.runState = .config) : p.layoutSound := by
  intro hrunning
  rw [h] at hrunning
  cases hrunning

/-- No small change touches the run state or the layout. -/
theorem closed_layoutSound : Port.Closed Port.layoutSound where
  write _ _ _ _ hp := hp
  desks _ _ hp := hp
  setLatches p l hp := hp.of_layout (by simp) (by simp) (by simp) (by simp)
  evalConditions p hp := by rw [p.evalConditions_eq]; exact hp
  noticeWrite _ _ hp := hp
  logWrite _ _ hp := hp
  overrun _ _ hp := hp
  logFull _ _ hp := hp
  unstated _ _ hp := hp
  loadLocks _ _ hp := hp

/-- An entry puts the record that passed in force; a record that fails leaves the run state and the layout (R172, R173). -/
theorem Port.attempt_layoutSound (p : Port) (h : p.layoutSound) : p.attempt.layoutSound := by
  unfold Port.attempt
  dsimp only
  split
  · next hok =>
    obtain ⟨-, -, -, hareas, hsizes, hthresholds, -⟩ := p.enter_fixed (readLayout p.mem)
    exact fun _ => ⟨_, hok, hareas, hsizes, hthresholds⟩
  · exact closed_layoutSound.setLatches _ _ h

/-- Beyond the small changes only an attempt at entry sets the run state or the layout while the part is RUNNING: a show
stop and every reset leave it in CONFIG (R182, R187, R188). -/
theorem lasting_layoutSound : Port.Lasting Port.layoutSound where
  toClosed := closed_layoutSound
  showTick _ _ hp := hp
  attempt := Port.attempt_layoutSound
  stopShow _ _ := Port.layoutSound_of_config rfl
  runRequest _ _ hp := hp
  setMask _ _ hp := hp.of_layout (Port.settle_runState _) (Port.settle_areas _) (Port.settle_sizes _)
    (Port.settle_thresholds _)
  faultPage _ _ hp := hp
  reset p _ := Port.layoutSound_of_config (congrArg Port.runState p.reset_eq)
  hardReset p _ := Port.layoutSound_of_config (congrArg Port.runState p.reset_eq)
  contents _ _ hp := hp

/-- Settles O8. -/
theorem runningKeepsAPassingLayout : Obligations.RunningKeepsAPassingLayout := lasting_layoutSound.kept

end Sys2Proof.Machine
end


section
/-! PROOFS. The register window: reads, RUN_CONTROL, CAUSE and CAUSE_MASK (O9, O10). -/

namespace Sys2Proof.Machine

/-! ## The fields of a register (10.10) -/

theorem flagNat_le (b : Bool) : flagNat b ≤ 1 := by
  cases b <;> decide

/-- A flag is read back from its number. -/
theorem decide_flagNat (b : Bool) : decide (flagNat b = 1) = b := by
  cases b <;> decide

theorem LayoutResult.code_le (r : LayoutResult) : r.code ≤ 5 := by
  cases r <;> decide

/-- A bit that the register's row lists reads as its value. -/
theorem getLsbD_unlisted {offset : Nat} {keep v : Word} {i : Nat} (h : keep.getLsbD i = true) :
    (unlisted offset keep v).getLsbD i = v.getLsbD i := by
  simp [unlisted, h]

/-- A field all of whose bits the register's row lists reads as its value. -/
theorem extract_unlisted {offset : Nat} {keep v : Word} {start n : Nat}
    (h : keep.extractLsb' start n = BitVec.allOnes n) :
    (unlisted offset keep v).extractLsb' start n = v.extractLsb' start n := by
  ext i hi
  have hlisted : keep.getLsbD (start + i) = true := by
    have hbit := congrArg (·.getLsbD i) h
    simpa [hi] using hbit
  rw [BitVec.getElem_extractLsb', BitVec.getElem_extractLsb', getLsbD_unlisted hlisted]

/-- A bit of a number written to a word. -/
theorem getLsbD_toWord (x : Nat) {i : Nat} (h : i < 32) : (toWord x).getLsbD i = decide (x / 2 ^ i % 2 = 1) := by
  rw [toWord, BitVec.getLsbD_ofNat, decide_eq_true h, Bool.true_and, Nat.testBit_eq_decide_div_mod_eq]

/-- A field of a number written to a word. -/
theorem extract_toWord (x : Nat) {start n : Nat} (h : start + n ≤ 32) :
    (toWord x).extractLsb' start n = BitVec.ofNat n (x / 2 ^ start) := by
  ext i hi
  rw [BitVec.getElem_extractLsb', getLsbD_toWord x (by omega), ← BitVec.getLsbD_eq_getElem hi, BitVec.getLsbD_ofNat,
    decide_eq_true hi, Bool.true_and, Nat.testBit_eq_decide_div_mod_eq, Nat.div_div_eq_div_mul, Nat.pow_add]

/-- A listed bit of a register that is given as a number. -/
theorem getLsbD_register {offset : Nat} {keep : Word} {x i : Nat} (hlisted : keep.getLsbD i = true) (hword : i < 32) :
    (unlisted offset keep (toWord x)).getLsbD i = decide (x / 2 ^ i % 2 = 1) := by
  rw [getLsbD_unlisted hlisted, getLsbD_toWord x hword]

/-- A listed field of a register that is given as a number. -/
theorem extract_register {offset : Nat} {keep : Word} {x start n : Nat}
    (hlisted : keep.extractLsb' start n = BitVec.allOnes n) (hword : start + n ≤ 32) :
    (unlisted offset keep (toWord x)).extractLsb' start n = BitVec.ofNat n (x / 2 ^ start) := by
  rw [extract_unlisted hlisted, extract_toWord x hword]

/-! ## Reads of the register window (10.10) -/

/-- IDENT: the part code, the revision, the straps and the vendor code. -/
theorem readRegister_ident (r : Rate) (g : Bool) (p : Port) :
    let ident := readRegister r g p 0 4
    ident.extractLsb' 0 16 = 7160#16 ∧ ident.extractLsb' 16 4 = 3#4 ∧
    ident.extractLsb' 20 2 = (match r with | .fps50 => 0#2 | .fps5994 => 1#2 | .fps60 => 2#2) ∧
    ident.getLsbD 22 = g ∧ ident.extractLsb' 24 8 = 76#8 := by
  have hread : readRegister r g p 0 4 = unlisted 0 0xFF7FFFFF
      (toWord (7160 + 65536 * 3 + 1048576 * r.code + 4194304 * flagNat g + 16777216 * 76)) := rfl
  dsimp only
  rw [hread, extract_register (start := 0) (by decide) (by decide),
    extract_register (start := 16) (by decide) (by decide), extract_register (start := 20) (by decide) (by decide),
    getLsbD_register (by decide) (by decide), extract_register (start := 24) (by decide) (by decide)]
  cases r <;> cases g <;> exact ⟨rfl, rfl, rfl, rfl, rfl⟩

/-- RUN_CONTROL: the RUN request, 0 in the place of SOFT_RESET, the run state, and the layout result with its area. -/
theorem readRegister_runControl (r : Rate) (g : Bool) (p : Port) :
    let run := readRegister r g p 4 4
    run.getLsbD 0 = p.runRequest ∧ run.getLsbD 1 = false ∧
    run.getLsbD 4 = decide (p.runState = .running) ∧ run.extractLsb' 8 4 = BitVec.ofNat 4 p.result.code ∧
    run.extractLsb' 16 8 = BitVec.ofNat 8 p.resultArea := by
  generalize hx : flagNat p.runRequest + 16 * flagNat p.running + 256 * p.result.code + 65536 * p.resultArea = x
  have hread : readRegister r g p 4 4 = unlisted 4 0x00FF0F13 (toWord x) := by rw [← hx]; rfl
  have hrequest := flagNat_le p.runRequest
  have hrunning := flagNat_le p.running
  have hresult := p.result.code_le
  dsimp only
  rw [hread]
  refine ⟨?_, ?_, ?_, ?_, ?_⟩
  · have hbit : x / 2 ^ 0 % 2 = flagNat p.runRequest := by omega
    rw [getLsbD_register (by decide) (by decide), hbit, decide_flagNat]
  · have hbit : x / 2 ^ 1 % 2 = 0 := by omega
    rw [getLsbD_register (by decide) (by decide), hbit]
    rfl
  · have hbit : x / 2 ^ 4 % 2 = flagNat p.running := by omega
    rw [getLsbD_register (by decide) (by decide), hbit, decide_flagNat]
    rfl
  · rw [extract_register (by decide) (by decide)]
    apply BitVec.eq_of_toNat_eq
    simp only [BitVec.toNat_ofNat]
    omega
  · have hfield : x / 2 ^ 16 = p.resultArea := by omega
    rw [extract_register (by decide) (by decide), hfield]

/-- CAUSE and CAUSE_MASK: one bit for each member. -/
theorem readRegister_members (r : Rate) (g : Bool) (p : Port) :
    (readRegister r g p 8 4).extractLsb' 0 6 = p.cause ∧ (readRegister r g p 12 4).extractLsb' 0 6 = p.mask := by
  have hmembers : ∀ (offset : Nat) (m : BitVec 6), (unlisted offset 0x3F (m.setWidth 32)).extractLsb' 0 6 = m := by
    intro offset m
    rw [extract_unlisted (by decide), BitVec.extractLsb'_setWidth_of_le (by decide), ← BitVec.setWidth_eq_extractLsb' le_rfl,
      BitVec.setWidth_eq]
  exact ⟨hmembers 8 p.cause, hmembers 12 p.mask⟩

/-- FAULT_PAGE: the fault page, with 0 above it. -/
theorem readRegister_faultPage (r : Rate) (g : Bool) (p : Port) :
    let fault := readRegister r g p 16 4
    fault.extractLsb' 0 14 = BitVec.ofNat 14 p.faultPage ∧ fault.extractLsb' 14 18 = 0#18 := by
  have hread : readRegister r g p 16 4 = toWord (p.faultPage % 16384) := rfl
  dsimp only
  rw [hread, extract_toWord _ (by decide), extract_toWord _ (by decide)]
  constructor
  · apply BitVec.eq_of_toNat_eq
    simp only [BitVec.toNat_ofNat]
    omega
  · congr 1
    omega

/-- At an offset not listed, or of another width, 0 is read (R185). -/
theorem readRegister_other (r : Rate) (g : Bool) (p : Port) {offset width : Nat}
    (h : width ≠ 4 ∨ offset ∉ [0, 4, 8, 12, 16]) : readRegister r g p offset width = 0 := by
  unfold readRegister
  split
  · rfl
  · next hwidth =>
    have hoffset : offset ∉ [0, 4, 8, 12, 16] := h.resolve_left fun hne => hwidth (by simpa using hne)
    split
    case h_6 => rfl
    all_goals exact absurd (by decide) hoffset

/-- Settles O9: the writes by their meanings, the reads register by register. -/
theorem runAndOtherRegisterAccesses : Obligations.RunAndOtherRegisterAccesses := by
  refine ⟨fun bit0 s => ⟨_, rfl, rfl, rfl⟩, fun _ _ _ _ => rfl, fun r g p => ?_⟩
  obtain ⟨hpart, hrevision, hrate, hgenlock, hvendor⟩ := readRegister_ident r g p
  obtain ⟨hrequest, hreset, hstate, hresult, harea⟩ := readRegister_runControl r g p
  obtain ⟨hcause, hmask⟩ := readRegister_members r g p
  obtain ⟨hpage, habove⟩ := readRegister_faultPage r g p
  refine ⟨hpart, hrevision, hrate, hgenlock, hvendor, hrequest, hreset, hstate, ?_, harea, hcause, hmask, hpage, habove,
    fun _ _ h => readRegister_other r g p h⟩
  rw [hresult]
  cases p.result <;> rfl

/-! ## CAUSE and its latches (R191) -/

/-- CAUSE holds its six members bit by bit: the two conditions, then the four latches. -/
theorem Port.cause_eq (p : Port) : p.cause = BitVec.ofBoolListLE
    [p.noticeWaiting, p.logWaiting, p.latches.deskDone, p.latches.pageFault, p.latches.layoutBad, p.latches.horn] := by
  have hbits : ∀ a b c d e f : Bool, BitVec.ofNat 6 (flagNat a + 2 * flagNat b + 4 * flagNat c + 8 * flagNat d +
      16 * flagNat e + 32 * flagNat f) = BitVec.ofBoolListLE [a, b, c, d, e, f] := by decide
  exact hbits _ _ _ _ _ _

/-- The latches that a CAUSE write leaves: those whose bits are 0 (R191). -/
def Latches.cleared (l : Latches) (v : Word) : Latches :=
  { deskDone := l.deskDone && !v.getLsbD 2, pageFault := l.pageFault && !v.getLsbD 3
    layoutBad := l.layoutBad && !v.getLsbD 4, horn := l.horn && !v.getLsbD 5 }

/-- A CAUSE write sets the latches so cleared, and the fault page to 0 with PAGE_FAULT (R184, R191). -/
theorem Port.clearLatches_eq (p : Port) (v : Word) : p.clearLatches v =
    { p.setLatches (p.latches.cleared v) with faultPage := if v.getLsbD 3 then 0 else p.faultPage } := by
  unfold Port.clearLatches
  dsimp only
  split
  · rfl
  · rw [← p.setLatches_faultPage (p.latches.cleared v)]
    rfl

/-- The members of CAUSE behind a CAUSE write: the latches written 1 are gone, the conditions stay (R191). -/
theorem Port.cause_cleared (p : Port) (v : Word) :
    ({ p with latches := p.latches.cleared v } : Port).cause = p.cause &&& ~~~(v.setWidth 6 &&& 60#6) := by
  rw [Port.cause_eq, Port.cause_eq]
  ext i hi
  change i < 6 at hi
  interval_cases i <;> simp [Latches.cleared, ← BitVec.getLsbD_eq_getElem]

/-- CAUSE after a CAUSE write (R191). -/
theorem Port.clearLatches_cause (p : Port) (v : Word) :
    (p.clearLatches v).cause = p.cause &&& ~~~(v.setWidth 6 &&& 60#6) := by
  rw [p.clearLatches_eq, ← p.cause_cleared]
  exact Port.settle_cause _

/-- After a CAUSE write the interrupt is the common set (R192). -/
theorem Port.clearLatches_irq (p : Port) (v : Word) : (p.clearLatches v).irq = (p.clearLatches v).common := by
  obtain ⟨hirq, -⟩ := Port.setLatches_follows (p := p) (p.latches.cleared v) rfl rfl
  rw [p.clearLatches_eq]
  exact hirq

/-- A CAUSE write leaves both conditions (R191). -/
theorem Port.clearLatches_conditions (p : Port) (v : Word) :
    (p.clearLatches v).noticeWaiting = p.noticeWaiting ∧ (p.clearLatches v).logWaiting = p.logWaiting := by
  rw [p.clearLatches_eq]
  exact ⟨p.setLatches_noticeWaiting _, p.setLatches_logWaiting _⟩

/-- A CAUSE write moves the latches, the fault page and the interrupt, and nothing else (R184, R191, R192). -/
theorem Port.clearLatches_rest (p : Port) (v : Word) : p.clearLatches v =
    { p with latches := (p.clearLatches v).latches, faultPage := (p.clearLatches v).faultPage
             irq := (p.clearLatches v).irq, messages := (p.clearLatches v).messages } := by
  have hset := p.setLatches_eq (p.latches.cleared v)
  rw [p.clearLatches_eq]
  generalize p.setLatches (p.latches.cleared v) = q at hset
  rw [hset]

/-- CAUSE_MASK written: the mask has its bits and the interrupt follows; nothing else changes (R192). -/
theorem Port.setMask_eq (p : Port) (v : Word) : p.setMask v =
    { p with mask := v.setWidth 6, irq := (p.setMask v).irq, messages := (p.setMask v).messages } := Port.settle_eq _

theorem Port.setMask_mask (p : Port) (v : Word) : (p.setMask v).mask = v.setWidth 6 := Port.settle_mask _

theorem Port.setMask_cause (p : Port) (v : Word) : (p.setMask v).cause = p.cause := Port.settle_cause _

theorem Port.setMask_follows (p : Port) (v : Word) : p.interruptFollows (p.setMask v) :=
  Port.settle_follows (q := { p with mask := v.setWidth 6 }) rfl rfl

/-- Settles O10, each write by its equation on the Port. -/
theorem causeAndMaskWritesMoveTheInterrupt : Obligations.CauseAndMaskWritesMoveTheInterrupt := by
  refine ⟨fun v s => ?_, fun v s => ?_⟩
  · have hrest := s.port.setMask_eq v
    have hmask := s.port.setMask_mask v
    have hcause := s.port.setMask_cause v
    obtain ⟨hirq, hmessages⟩ := s.port.setMask_follows v
    refine ⟨_, rfl, hmask, hcause, ?_, hmessages, ?_⟩
    · rw [← hcause, ← hmask]
      exact hirq
    · rw [← hmask] at hrest
      exact congrArg (fun q => s.onPart (·.onPort fun _ => q)) hrest
  · obtain ⟨hnotice, hlog⟩ := s.port.clearLatches_conditions v
    exact ⟨_, rfl, s.port.clearLatches_cause v, congrArg Port.faultPage (s.port.clearLatches_eq v), hnotice, hlog,
      s.port.clearLatches_irq v, congrArg (fun q => s.onPart (·.onPort fun _ => q)) (s.port.clearLatches_rest v)⟩

end Sys2Proof.Machine
end


section
/-! PROOFS. The interrupt follows CAUSE and CAUSE_MASK through every command (O6). -/

namespace Sys2Proof.Machine

/-- Settling asserts the interrupt exactly while CAUSE and CAUSE_MASK meet, whatever it was before (R192). -/
theorem Port.settle_irqSound (p : Port) : p.settle.irqSound := p.settle_irq.trans p.settle_common.symm

/-- The conditions evaluated are settled (R191, R192). -/
theorem Port.evalConditions_irqSound (p : Port) : p.evalConditions.irqSound := Port.settle_irqSound _

/-- The counts start with the conditions evaluated (R173). -/
theorem Port.startCounts_irqSound (p : Port) : p.startCounts.irqSound := Port.evalConditions_irqSound _

/-- The locks, the show tick and the run state leave CAUSE, CAUSE_MASK and the interrupt (R173, R183). -/
theorem Port.startShow_irqSound (p : Port) (h : p.irqSound) : p.lockPart.startShow.irqSound :=
  closed_irqSound.pokePart _ 12 0 h

/-- An entry settles the interrupt at the start of its counts, and the stages after it keep it so: the sweep of the orphans
settles after each DESK_DONE (R173, R181, R191, R192). -/
theorem Port.enter_irqSound (p : Port) (l : Layout) : (p.enter l).irqSound :=
  Port.startShow_irqSound _ (closed_irqSound.sweep _ (Port.startCounts_irqSound _))

/-- An attempt at entry ends settled, whether the record passes or LAYOUT_BAD is latched (R172, R191, R192). -/
theorem Port.attempt_irqSound (p : Port) : p.attempt.irqSound := by
  unfold Port.attempt
  dsimp only
  split
  · exact p.enter_irqSound _
  · exact Port.settle_irqSound _

/-- Beyond the small changes, an attempt at entry, a CAUSE_MASK write and every reset end settled; the others leave CAUSE,
CAUSE_MASK and the interrupt (R172, R187, R188, R192). -/
theorem lasting_irqSound : Port.Lasting Port.irqSound where
  toClosed := closed_irqSound
  showTick _ _ hp := hp
  attempt p _ := p.attempt_irqSound
  stopShow _ hp := hp
  runRequest _ _ hp := hp
  setMask _ _ _ := Port.settle_irqSound _
  faultPage _ _ hp := hp
  reset _ _ := Port.settle_irqSound _
  hardReset p _ := (Port.settle_irqSound _ : p.reset.irqSound)
  contents _ _ hp := hp

/-- Settles O6: every command is made of changes that keep the interrupt sound. -/
theorem interruptFollowsCause : Obligations.InterruptFollowsCause := lasting_irqSound.kept

end Sys2Proof.Machine
end


section
/-! PROOFS. The step of the machine and its queue (O1, O2). -/

namespace Sys2Proof.Machine

/-! ## The step, by the queue -/

/-- With none waiting the step idles. -/
theorem step_of_pending_nil {s : State} (h : s.pending = []) : step s = .next s := by
  unfold step
  rw [h]

/-- The front command is carried out on the state with the rest of the queue. -/
theorem step_of_pending_cons (c : Instr) (rest : List Instr) (s : State) :
    step { s with pending := c :: rest } = exec c { s with pending := rest } := rfl

/-- Settles O1, by the two forms of the queue. -/
theorem stepTakesTheFrontCommand : Obligations.StepTakesTheFrontCommand :=
  ⟨step_of_pending_cons, fun _ => step_of_pending_nil⟩

/-! ## What a command can reach -/

/-- Every command is a change of the part, the same in every state: the queue is out of its reach. A register write
without effect and a pulse without the reference are the change that leaves the part as it is (R5, R185). -/
theorem exec_eq_onPart (c : Instr) : ∃ f : Part → Part, ∀ s : State, exec c s = .next (s.onPart f) := by
  cases c with
  | registerWriteOther => exact ⟨id, fun _ => rfl⟩
  | houseSyncPulse reference dt =>
    cases reference with
    | false => exact ⟨id, fun _ => rfl⟩
    | true => exact ⟨(·.housePulse dt), fun _ => rfl⟩
  | powerOn | hardReset | softReset | run | causeWrite | causeMaskWrite | hostWrite
    | referenceLost | synthesiserLock | frameMark | msTick | syncLossExpiry | healthReport | segmentHealthChange
    | frameArrival | captureResume | numbersExhausted | lossOfSignal | openClipClose | clipExpiry
    | clockWord | hornWord | periodWord | wordDiscard | interByteGap | consoleByte
    | consoleSilenceExpiry | clockExpiry | clockLimitReached | hornRelease | flashEnd
    | fadeEnd | adoption | dwellComplete | holdLimit | loadComplete | passComplete | messageExpiry | urgentTakeover
    | laneAssignment
    | postPlan | showZone | hideZone | setSection
    | setInput | markClip | keepClip | dropClip | cueHead | play | setRate | pause | stopHead
    | setGroup | setEntry | dropEntry | loadImage
    | clockSetup | clockSet | clockRun | clockStop | score | message => exact ⟨_, fun _ => rfl⟩

/-- Settles O2: a change of the part answers a next state with the queue as it was. -/
theorem everyCommandIsCarriedOut : Obligations.EveryCommandIsCarriedOut := by
  intro c s
  obtain ⟨f, hexec⟩ := exec_eq_onPart c
  exact ⟨s.onPart f, hexec s, s.onPart_pending f⟩

end Sys2Proof.Machine
end
